-- ==== Sys2Proof/Word.lean ====
section
/-! DEFINITION. The word types of the hub and the coded values that its commands, slots and records share:
bytes, counts, numbers of ports, lines, slots and resources, levels, edges, actions and timings. -/

namespace Sys2Proof

/-- One byte of a frame, record, tie-link word or profile slot. -/
abbrev Byte := BitVec 8
/-- A timebase count, modulo 2^40 (00_scope.md, Modular time). -/
abbrev Count := BitVec 40
/-- P0 to P3. -/
abbrev PortId := Fin 4
/-- L0 to L15. -/
abbrev LineId := Fin 16
/-- The local lines 0 to 15 and the remote lines 16 to 31. -/
abbrev AnyLine := Fin 32
/-- A slot of the schedule pool, which is the id of the entry in it (R54). -/
abbrev SlotId := Fin 128
/-- A resource number: 0 to 15 the lines, 16 TB, 17 MX (R15). -/
abbrev ResourceId := Fin 18
/-- A set of local lines, bit n for Ln (13_frame_and_record_layouts.md). -/
abbrev LineSet := BitVec 16

/-- A line level, HIGH or LOW. -/
inductive Level where
  | low
  | high
deriving DecidableEq, Repr, Inhabited

/-- The opposite level. -/
def Level.opposite : Level → Level
  | .low => .high
  | .high => .low

/-- HIGH for a set bit. -/
def Level.ofBit (b : Bool) : Level := if b then .high else .low

/-- An accepted edge: RISE to HIGH, FALL to LOW (R99). -/
inductive Edge where
  | rise
  | fall
deriving DecidableEq, Repr, Inhabited

/-- The edge that ends at a level. -/
def Edge.to : Level → Edge
  | .high => .rise
  | .low => .fall

/-- An edge selection: a cell of the subscription table, or an anchor edge (never NONE) (R55, R104). -/
inductive EdgeSel where
  | none
  | rise
  | fall
  | both
deriving DecidableEq, Repr, Inhabited

/-- Does a selection match an edge (R86, R104)? -/
def EdgeSel.selects : EdgeSel → Edge → Bool
  | .none, _ => false
  | .rise, .rise => true
  | .rise, .fall => false
  | .fall, .rise => false
  | .fall, .fall => true
  | .both, _ => true

/-- Late policy (R55). -/
inductive LatePolicy where
  | fireLate
  | dropLate
deriving DecidableEq, Repr, Inhabited

/-- Repeat of an ANCHORED entry (R55). -/
inductive Repeat where
  | once
  | every
deriving DecidableEq, Repr, Inhabited

/-- An action with the parameters that it uses, and no others (R55, R59). -/
inductive Action where
  | setHigh
  | setLow
  | toggle
  | pulse (active : Level) (width : BitVec 24)
  | train (active : Level) (width period : BitVec 24) (count : BitVec 16)
deriving DecidableEq, Repr, Inhabited

/-- The timing fields that lie in a slot's body (R55, R141). -/
inductive Timing where
  | absolute (due : Count)
  | anchored (delay : BitVec 24) (rep : Repeat)
deriving DecidableEq, Repr, Inhabited

/-- The body of a slot, the parameters fixed at POST that the check code guards (R141). -/
structure Body where
  action : Action
  timing : Timing
  late : LatePolicy
deriving DecidableEq, Repr, Inhabited

/-- What a check of a slot's body finds (R142). -/
inductive Finding where
  | clean
  | singleBit
  | uncorrectable
deriving DecidableEq, Repr, Inhabited

/-- The tie link's rates, 5, 10 and 20 Mbit/s (R152). -/
inductive Rate where
  | r5
  | r10
  | r20
deriving DecidableEq, Repr, Inhabited

/-- A counter byte that stops at 255 (00_scope.md, Numbers). -/
def sat8 (x : BitVec 8) : BitVec 8 := if x = 255#8 then x else x + 1#8

/-- A 16-bit counter that stops at 65,535. -/
def sat16 (x : BitVec 16) : BitVec 16 := if x = 65535#16 then x else x + 1#16

end Sys2Proof
end

