-- ==== Sys2Proof/Syntax.lean ====
section
/-! DEFINITION. The commands of the hub: one constructor of `Instr` for each row of spec/opcode_table.json.
A port row carries its port and the parameter fields of R175 and R176 as their bytes stand, so that a value out of
range reaches the check that the manual makes of it. -/

namespace Sys2Proof

/-- The 26-byte POST parameter block, field by field and unjudged (13_frame_and_record_layouts.md, R59). -/
structure PostBlock where
  line : Byte
  tag : BitVec 16
  action : Byte
  active : Byte
  width : BitVec 24
  period : BitVec 24
  count : BitVec 16
  timing : Byte
  due : Count
  anchorLine : Byte
  anchorEdge : Byte
  delay : BitVec 24
  rep : Byte
  late : Byte
deriving DecidableEq, Repr

/-- A word as it arrives on the tie link: the rate it was sent at and the bytes that arrived (R153). -/
structure WireWord where
  rate : Rate
  bytes : List Byte
deriving DecidableEq, Repr

/-- The commands, one constructor per row of the table. -/
inductive Instr where
  /-- RESETn goes low, or power is applied (R180). -/
  | pinReset
  /-- RESETn is high and LOADING carries out its steps up to step `last`; 7 is the whole row (R183, log 6). -/
  | loading (last : Nat)
  /-- The select of port `p` falls (R168). -/
  | frameStart (p : PortId)
  /-- The select of port `p` rises; `clocked` says whether the frame had at least one clock (R170). -/
  | frameEnd (p : PortId) (clocked : Bool)
  /-- A code byte that names no command is complete (R171). -/
  | unknownCommand (p : PortId) (code : Byte)
  | claim (p : PortId) (resource : Byte) (waitMs leaseMs : BitVec 16)
  | release (p : PortId) (resource : Byte)
  | renew (p : PortId) (resource : Byte)
  | queryClaim (p : PortId) (resource : Byte)
  /-- The lease expiry of a resource is reached (R23). -/
  | leaseExpiry (r : ResourceId)
  /-- A wait deadline of a resource is reached (R24). -/
  | waitDeadline (r : ResourceId)
  | lineConfig (p : PortId) (line mode level filter : Byte)
  | lineRead (p : PortId)
  | subscribe (p : PortId) (line sel : Byte)
  | post (p : PortId) (b : PostBlock)
  | cancel (p : PortId) (id : Byte)
  | cancelLine (p : PortId) (line : Byte)
  | queryEntry (p : PortId) (id : Byte)
  | readTime (p : PortId)
  | setTime (p : PortId) (count : Count)
  | stepTime (p : PortId) (offset : BitVec 40)
  | halt (p : PortId)
  | resume (p : PortId)
  /-- The advance of the count at a tick (R38). -/
  | countAdvance
  /-- The pulse end of the entry in slot `i` is reached (R80). -/
  | pulseEnd (i : SlotId)
  /-- A grid boundary of the train in slot `i` falls (R81). -/
  | trainBoundary (i : SlotId)
  /-- The sample of a tick: outside equipment holds the pins of `held` at the levels `level` (R98, log 8). -/
  | lineSample (held level : LineSet)
  /-- The run of line `n` has reached F + 1 samples (R99). -/
  | edgeAccepted (n : LineId)
  | takeNotices (p : PortId) (max : Byte)
  /-- The twelfth byte of the record at the head of the queue of `p` has been sent (R117). -/
  | noticeRecordRemoved (p : PortId)
  | peekNotice (p : PortId)
  | setAttnMask (p : PortId) (mask : Byte)
  | snapshot (p : PortId)
  | enterDirect (p : PortId)
  /-- The drain deadline is reached (R128). -/
  | drainLimitExpiry
  | exitDirect (p : PortId)
  | directDrive (p : PortId) (line drive : Byte)
  | lineCheck (p : PortId) (tested : LineSet)
  /-- The window end of the running check is reached (R135). -/
  | checkWindowEnd
  | abortCheck (p : PortId)
  | checkResult (p : PortId)
  /-- The scrub visits the slot at the scrub position (R143). -/
  | scrubVisit
  | integrityRead (p : PortId)
  | integrityClear (p : PortId)
  | softReset (p : PortId)
  | portReset (p : PortId)
  | ident (p : PortId)
  | linkStatus (p : PortId)
  | linkRetrain (p : PortId)
  /-- The 10 ms of DOWN after a retrain have passed (R165). -/
  | retrainDownEnd
  /-- A word slot begins (R153). -/
  | wordSlot
  /-- The final ABILITY word has been sent (R156). -/
  | finalAbilitySent
  | abilityReceived (w : WireWord)
  /-- The 2 ms deadline of ALIGNING passes (R157). -/
  | aligningDeadline
  | timeQueryReceived (w : WireWord)
  | timeReplyReceived (w : WireWord)
  | captureWordReceived (w : WireWord)
  | idleWordReceived (w : WireWord)
  /-- The follower's next TIME_QUERY falls due (R157, R160). -/
  | queryDue
  /-- The reply deadline of the outstanding query passes (R161). -/
  | replyDeadline
  /-- The leader's follower silence deadline passes (R161). -/
  | followerSilenceDeadline
  /-- The 10 ms of HOLDOFF pass (R162). -/
  | holdoffEnd
  | profileRead (p : PortId) (slot offset length : Byte)
  | profileWrite (p : PortId) (slot offset byte : Byte)
  | profileSeal (p : PortId) (slot : Byte)
  | profileRetire (p : PortId) (slot : Byte)
  /-- The busy time of the profile store ends (R184). -/
  | profileBusyEnd
  /-- The stored bit numbered `bit` of the body of slot `i` changes of itself (R141, log 29). -/
  | storedBitError (i : SlotId) (bit : Nat)
  /-- A code with parameters completes, or a parameter byte other than the last arrives whole (R168). -/
  | parameterByteGathered (p : PortId) (byte : Byte)
deriving DecidableEq, Repr

end Sys2Proof
end

