-- ==== Sys2Proof/Decode.lean ====
section
/-! DEFINITION. Commands from words. No row of spec/opcode_table.json gives bits (98_reader.md: n_rows_with_fixed 0),
so no word spells a command: a command reaches the hub as a command, in the queue. Beside it stands the list of the command codes
of R175 and R176 with their numbers of parameter bytes, which the port interface reads a frame by. -/

namespace Sys2Proof

/-- The command that a word spells by the table's bits: none, since no row has bits. -/
def decodeTableWord (_nbits _w : Nat) : Option Instr := none

/-- The number of parameter bytes of each of the 37 command codes; none for a byte that names no command
(R171, R175, R176). -/
def paramCount (code : Byte) : Option Nat :=
  match code.toNat with
  | 0x10 => some 5 | 0x11 => some 1 | 0x12 => some 1 | 0x13 => some 1
  | 0x20 => some 4 | 0x21 => some 0 | 0x22 => some 2
  | 0x30 => some 26 | 0x31 => some 1 | 0x32 => some 1 | 0x33 => some 1
  | 0x40 => some 0 | 0x41 => some 5 | 0x42 => some 5 | 0x43 => some 0 | 0x44 => some 0
  | 0x50 => some 1 | 0x51 => some 0 | 0x52 => some 1 | 0x53 => some 0
  | 0x60 => some 0 | 0x61 => some 0 | 0x62 => some 2 | 0x63 => some 2 | 0x64 => some 0
  | 0x65 => some 0 | 0x66 => some 0 | 0x67 => some 0 | 0x68 => some 0
  | 0x70 => some 0 | 0x71 => some 0
  | 0x80 => some 3 | 0x81 => some 3 | 0x82 => some 1 | 0x83 => some 1
  | 0x90 => some 0 | 0x91 => some 0
  | _ => none

end Sys2Proof
end

