-- ==== Sys2Proof/Config.lean ====
section
/-! DEFINITION. The free values: what the manual leaves open and the hub goes on with. Each is a constant
with no body, applied to the counter `free` of the state (or to a bit number beside it), so that nothing can be
proved of its value. notes/assumptions says which point of the manual each one stands for. -/

namespace Sys2Proof

/-- The level that the receiver senses on a pin that neither the hub nor outside equipment drives
(DESIGN CHOICE, log 8). -/
opaque Config.floatingLevel : Nat → Nat → Level

/-- The pins that outside equipment holds at a tick of the hub's own (log 8). -/
opaque Config.outsideHeld : Nat → LineSet

/-- The levels at which it holds them (log 8). -/
opaque Config.outsideLevel : Nat → LineSet

/-- The order of the events that one tick brings: how many places each pick skips (log 2). -/
opaque Config.tickOrder : Nat → List Nat

/-- The order in which the edges accepted at one sample are taken (R107, log 2). -/
opaque Config.edgeOrder : Nat → List Nat

/-- What a check finds in a body with three or more changed bits: "not assured of detection" (R141, log 10). -/
opaque Config.manyBitFinding : Nat → Finding

/-- The body that such a check takes for the right one when it does not find it uncorrectable (R141, log 10). -/
opaque Config.strayBody : Nat → Body

/-- Which of the bits that an unfinished profile operation was setting stand set after pin reset (R184, log 13). -/
opaque Config.unfinishedBits : Nat → Nat → Byte

/-- A result byte for which the manual states no value (log 14). -/
opaque Config.unstatedByte : Nat → Nat → Byte

/-- Whether the first 100 us mark of PROBING and CONFLICT falls at the entry into the state (R154, log 12). -/
opaque Config.firstMarkAtEntry : Bool

end Sys2Proof
end

