-- ==== Sys2Proof/Machine/State.lean ====
section
/-! DEFINITION. The state of the hub, block by block as 00_scope.md lists them, as plain data; the values it holds at
pin reset; and the reasons a step could stop (there are none: "No error stops the hub"). -/

namespace Sys2Proof.Machine

/-! ## Result codes and notice records -/

/-- Result codes (R173). -/
inductive ResultCode where
  | ok | accepted | already | busy | notHolder | notOwner | noEntry | badParam | noSlot | tooLate | wrongState
  | notLeader | notReady | unknownCommand
deriving DecidableEq, Repr

/-- How an entry ended (R75). -/
inductive EntryOutcome where
  | applied | lateApplied | droppedLate | collided | cancelled | released | revoked | cut | integrity
deriving DecidableEq, Repr

/-- Events of CLAIM records (R19, R23, R24, R30). -/
inductive ClaimEvent where
  | granted | timedOut | revoked | wanted
deriving DecidableEq, Repr

/-- Events of TIMEBASE records (R52). -/
inductive TimeEvent where
  | set | step | halt | resume | alignStep
deriving DecidableEq, Repr

/-- Events of LINK records (R166). -/
inductive LinkEvent where
  | locked | lost | conflict | down
deriving DecidableEq, Repr

/-- Why the hub mode returned to RUN (R131). -/
inductive ExitReason where
  | command | mxLost
deriving DecidableEq, Repr

/-- Reasons of RESET records (R113). -/
inductive ResetReason where
  | power | soft | port
deriving DecidableEq, Repr

/-- What a failed window saw (R124). -/
inductive Observed where
  | nothing | wrongEdge
deriving DecidableEq, Repr

/-- The first failure of a line check (R124). -/
structure Failure where
  line : LineId
  expected : Edge
  observed : Observed
deriving DecidableEq, Repr

/-- Outcome of a check that has ended (R136, R137). -/
inductive CheckOutcome where
  | passed | failed | aborted
deriving DecidableEq, Repr

/-- The last result of a line check (R124). -/
structure CheckResult where
  outcome : CheckOutcome
  passed : LineSet
  completed : LineSet
  failure : Option Failure
deriving DecidableEq, Repr

/-- The eight kinds of record, in the order of their mask bits (R120). -/
inductive RecordKind where
  | capture | actionDone | claim | timebase | mode | link | integrity | reset
deriving DecidableEq, Repr

/-- A notice record (R113). -/
inductive Record where
  | capture (line : AnyLine) (edge : Edge) (time : Count) (epoch : Byte) (halted stepped remote : Bool) (lost : Byte)
  | actionDone (id : SlotId) (tag : BitVec 16) (line : LineId) (outcome : EntryOutcome) (countA countB : BitVec 16)
  | claim (r : ResourceId) (event : ClaimEvent)
  | timebase (event : TimeEvent) (epoch : Byte) (count : Count)
  | directEntered
  | directExited (reason : ExitReason)
  | checkDone (result : CheckResult)
  | link (event : LinkEvent)
  | integrity (corrected : Byte) (slot : SlotId)
  | reset (reason : ResetReason)
deriving DecidableEq, Repr

/-! ## Port interface -/

/-- The frame state of a port with what it holds (R168). -/
inductive Frame where
  | idle
  | code (status : Byte)
  | parameters (code : Byte) (got : List Byte)
  /-- `sent` is the response so far: the result code, the result data, and each TAKE_NOTICES record once it was sent
  whole; `recordsLeft` records are still to be sent from the queue (R169, R117). -/
  | response (sent : List Byte) (recordsLeft : Nat)
  | ignore
deriving DecidableEq, Repr

/-- One port interface (R112, R168). -/
structure Port where
  queue : List Record
  lost : Byte
  overrun : Byte
  overrunLatch : Bool
  frameLatch : Bool
  mask : Byte
  frame : Frame
  /-- The select pin is low (an input, R172). -/
  selected : Bool
deriving DecidableEq, Repr

/-! ## Claim table -/

/-- A waiter entry (R15). -/
structure Waiter where
  port : PortId
  deadline : Nat
  leaseMs : BitVec 16
deriving DecidableEq, Repr

/-- A claim record (R15). -/
structure ClaimRec where
  holder : Option PortId
  leaseMs : BitVec 16
  expiry : Option Nat
  waiters : List Waiter
deriving DecidableEq, Repr

/-! ## Line unit and capture unit -/

/-- Line modes (R1, R2). -/
inductive LineMode where
  | off | input | output | parked | test
deriving DecidableEq, Repr

/-- Park modes (R1, R4). -/
inductive ParkMode where
  | off | input | parkLow | parkHigh
deriving DecidableEq, Repr

/-- A line record (R1); the pin level is computed (R3). -/
structure LineRec where
  mode : LineMode
  scheduled : Level
  override : Option Level
  park : ParkMode
  filterLen : BitVec 4
  saved : Option (LineMode × Level)
deriving DecidableEq, Repr

/-- A run of samples that differ from the filtered level; no run is run length 0 (R97). -/
structure FilterRun where
  len : Nat
  stamp : Count
  stepped : Bool
deriving DecidableEq, Repr

/-- The filter state of a line (R97), with the raw level of its most recent sample (R3). -/
structure Filter where
  filtered : Level
  run : Option FilterRun
  sampled : Level
deriving DecidableEq, Repr

/-! ## Timebase -/

/-- Run state (R37). -/
inductive RunState where
  | running | halted
deriving DecidableEq, Repr

/-- Source (R37). -/
inductive Source where
  | localTime | leader | follower | freeRun
deriving DecidableEq, Repr

/-- A slew request (R49). -/
inductive Slew where
  | held | double
deriving DecidableEq, Repr

/-- The timebase record (R37) with a pending slew (R49). -/
structure Timebase where
  count : Count
  run : RunState
  epoch : Byte
  source : Source
  slew : Option Slew
deriving DecidableEq, Repr

/-! ## Action schedule -/

/-- Timeliness of an application (R56). -/
inductive Timeliness where
  | onTime | late
deriving DecidableEq, Repr

/-- Phase of a run; the pulse end is present while IN_PULSE (R56). -/
inductive RunPhase where
  | inPulse (pulseEnd : Nat)
  | betweenPulses
deriving DecidableEq, Repr

/-- The part of a run that only a TRAIN has (R56), with its next grid boundary while one is to come (R81, log 21). -/
structure TrainRun where
  begun : BitVec 16
  skipped : BitVec 16
  nextBoundary : Option Nat
deriving DecidableEq, Repr

/-- The run part of an entry (R56). -/
structure Run where
  start : Nat
  phase : RunPhase
  timeliness : Timeliness
  train : Option TrainRun
deriving DecidableEq, Repr

/-- The occupied states of a slot, each with the fields present in it (R54, R55). -/
inductive EntryStatus where
  | pending (due : Count)
  | armed
  | active (run : Run)
  | suspended (run : Run)
  | deferred (due : Count) (place : Nat)
deriving DecidableEq, Repr

/-- The anchor of an ANCHORED entry (R55). -/
structure Anchor where
  line : AnyLine
  edge : EdgeSel
deriving DecidableEq, Repr

/-- The header of an occupied slot (R141). -/
structure Header where
  owner : PortId
  line : LineId
  tag : BitVec 16
  postOrder : Nat
  anchor : Option Anchor
  countA : BitVec 16
  countB : BitVec 16
  status : EntryStatus
deriving DecidableEq, Repr

/-- A slot: its body, the positions of the stored bits that changed since the body was written, and its header while it
is occupied (R54, R141, log 10). -/
structure Slot where
  body : Body
  wrongBits : List Nat
  entry : Option Header
deriving DecidableEq, Repr

/-! ## Maintenance unit -/

/-- Hub mode (R124). -/
inductive HubMode where
  | run | draining | direct
deriving DecidableEq, Repr

/-- The windows of a line check (R135). -/
inductive Window where
  | w1 | w2 | w3
deriving DecidableEq, Repr

/-- What has become of window 2 or 3 of the current line (R135). -/
inductive Verdict where
  | undecided | met | failed
deriving DecidableEq, Repr

/-- Progress of a running check (R124, R135). -/
structure Progress where
  requester : PortId
  tested : LineSet
  current : LineId
  window : Window
  windowEnd : Nat
  rise : Verdict
  fall : Verdict
  passed : LineSet
  completed : LineSet
  failure : Option Failure
deriving DecidableEq, Repr

/-- The check state with what is present in it (R124). -/
inductive Check where
  | idle
  | running (p : Progress)
  | finished (r : CheckResult)
deriving DecidableEq, Repr

/-- The maintenance unit (R124). -/
structure Maint where
  mode : HubMode
  drainLimit : BitVec 24
  drainDeadline : Option Nat
  check : Check
deriving DecidableEq, Repr

/-! ## Pool integrity -/

/-- Severity of an error (R148). -/
inductive Severity where
  | corrected | uncorrectable
deriving DecidableEq, Repr

/-- The first-error record when it is filled (R148). -/
structure FirstError where
  slot : SlotId
  severity : Severity
  owner : Option PortId
  time : BitVec 32
deriving DecidableEq, Repr

/-- The counters of one port (R144 to R146). -/
structure ErrorCounters where
  corrected : Byte
  uncorrectable : Byte
  threshold : Byte
  mark : Bool
deriving DecidableEq, Repr

/-- Pool integrity beside the slots' bodies (R143 to R148). -/
structure Integrity where
  counters : Vector ErrorCounters 4
  scrubPos : SlotId
  scrubDue : Option Nat
  firstError : Option FirstError
deriving DecidableEq, Repr

/-! ## Tie link -/

/-- Link state (R152). -/
inductive LinkState where
  | off | down | probing | aligning | locked | holdoff | conflict
deriving DecidableEq, Repr

/-- Role (R152). -/
inductive Role where
  | leader | follower
deriving DecidableEq, Repr

/-- Role preference (R152). -/
inductive RolePref where
  | leader | follower | either
deriving DecidableEq, Repr

/-- The outstanding query (R152). -/
structure Query where
  c1 : Count
  deadline : Nat
deriving DecidableEq, Repr

/-- A TIME_REPLY that the leader owes (R158). -/
structure Owed where
  c1 : Count
  l1 : Count
deriving DecidableEq, Repr

/-- A record of the forward queue (R163). -/
structure Forward where
  line : LineId
  edge : Edge
  time : Count
  epoch : Byte
  halted : Bool
  stepped : Bool
deriving DecidableEq, Repr

/-- The words of the link with what they carry (13_frame_and_record_layouts.md, Tie-link words). -/
inductive Word where
  | ability (pref : RolePref) (unit : Byte) (rateSet : BitVec 3) (ack : Bool)
  | timeQuery (c1 : Count)
  | timeReply (c1 l1 l2 : Count) (epoch : Byte) (halted : Bool)
  | capture (f : Forward)
  | idle
deriving DecidableEq, Repr

/-- The tie link (R152), with the transmitter's side of R153 to R158 (log 22). -/
structure Link where
  state : LinkState
  ack : Bool
  role : Option Role
  rate : Option Rate
  deadline : Option Nat
  query : Option Query
  missed : Nat
  silence : Option Nat
  lastD : Int
  forward : List Forward
  drops : BitVec 16
  resolved : Option (Role × Rate)
  finalEnd : Option Nat
  nextSlot : Option Nat
  nextAbility : Option Nat
  queryDue : Bool
  nextQuery : Option Nat
  owed : Option Owed
  wire : Option Word
deriving DecidableEq, Repr

/-! ## Profile store and loaded profile -/

/-- A profile operation in progress: when its busy time ends, and what the bytes it writes held before (R184). -/
structure StoreBusy where
  until_ : Nat
  old : List Host.Cell
deriving DecidableEq, Repr

/-- The loaded settings that no other block holds (R182). -/
structure Loaded where
  quota : Vector Byte 4
  mask : Vector Byte 4
  filter : Vector (BitVec 4) 16
  unit : Byte
  tieEnable : Bool
  rolePref : RolePref
  rateSet : BitVec 3
  exported : LineSet
deriving DecidableEq, Repr

/-- Where the hub stands in its start-up (R180, R183). -/
inductive Phase where
  | pinReset
  | loading (stepsDone : Nat)
  | ready
deriving DecidableEq, Repr

/-! ## The state -/

/-- The state of the hub, and the queue of the commands that wait. `held` and `level` are inputs (log 8), `free` and
`pending` are the model's own (log 1, log 23). `tickPins` holds what the hub drove at each pin when the tick began, until
the tick's sample is taken (R98, log 30). -/
structure State where
  pending : List Instr
  phase : Phase
  elapsed : Nat
  free : Nat
  ports : Vector Port 4
  claims : Vector ClaimRec 18
  lines : Vector LineRec 16
  filters : Vector Filter 16
  subs : Vector (Vector EdgeSel 32) 4
  held : LineSet
  level : LineSet
  tickPins : Option (Vector (Option Level) 16)
  tb : Timebase
  pool : Vector Slot 128
  postOrder : Nat
  maint : Maint
  integ : Integrity
  link : Link
  loaded : Loaded
  inForce : Option (Fin 3)
  store : List Host.Cell
  storeBusy : Option StoreBusy
deriving DecidableEq, Repr

/-! ## Pin-reset values -/

/-- A port at pin reset (R122, R172); the select pin is an input and is kept. -/
def Port.pinReset (selected : Bool) : Port :=
  ⟨[], 0, 0, false, false, 0xFF, .idle, selected⟩

/-- A free claim record (R36). -/
def ClaimRec.free : ClaimRec := ⟨none, 0, none, []⟩

/-- A line record at pin reset (R13). -/
def LineRec.pinReset : LineRec := ⟨.off, .low, none, .input, 2, none⟩

/-- A filter state at pin reset (R110). -/
def Filter.pinReset : Filter := ⟨.low, none, .low⟩

/-- The free pattern of a body, all-clear (R141). -/
def Body.free : Body := ⟨.setHigh, .absolute 0, .fireLate⟩

/-- A FREE slot (R54, R151). -/
def Slot.free : Slot := ⟨Body.free, [], none⟩

/-- The timebase at pin reset (R53). -/
def Timebase.pinReset : Timebase := ⟨0, .halted, 0, .localTime, none⟩

/-- The maintenance unit at pin reset (R140). -/
def Maint.pinReset : Maint := ⟨.run, 10000, none, .idle⟩

/-- A port's error counters at pin reset (R151). -/
def ErrorCounters.pinReset : ErrorCounters := ⟨0, 0, 16, false⟩

/-- Pool integrity at pin reset (R151). -/
def Integrity.pinReset : Integrity := ⟨Vector.replicate 4 ErrorCounters.pinReset, 0, none, none⟩

/-- The tie link at pin reset (R167). -/
def Link.pinReset : Link :=
  { state := .down, ack := false, role := none, rate := none, deadline := none, query := none, missed := 0,
    silence := none, lastD := 0, forward := [], drops := 0, resolved := none, finalEnd := none, nextSlot := none,
    nextAbility := none, queryDue := false, nextQuery := none, owed := none, wire := none }

/-- The default settings (R182); those of the TIE group beside its enable are DESIGN CHOICE (log 15). -/
def Loaded.default : Loaded :=
  ⟨Vector.replicate 4 32, Vector.replicate 4 0xFF, Vector.replicate 16 2, 0, false, .either, 0, 0⟩

/-- The machine right after reset: RESETn low, every block at its pin-reset values (R180). The profile store is blank
and no outside equipment holds a pin (DESIGN CHOICE, log 7 and log 8). -/
def State.reset : State :=
  { pending := []
    phase := .pinReset
    elapsed := 0
    free := 0
    ports := Vector.replicate 4 (Port.pinReset false)
    claims := Vector.replicate 18 ClaimRec.free
    lines := Vector.replicate 16 LineRec.pinReset
    filters := Vector.replicate 16 Filter.pinReset
    subs := Vector.replicate 4 (Vector.replicate 32 EdgeSel.none)
    held := 0
    level := 0
    tickPins := none
    tb := Timebase.pinReset
    pool := Vector.replicate 128 Slot.free
    postOrder := 0
    maint := Maint.pinReset
    integ := Integrity.pinReset
    link := Link.pinReset
    loaded := Loaded.default
    inForce := none
    store := []
    storeBusy := none }

/-! ## Reasons to stop -/

/-- Faults: none. "No error stops the hub: after any refusal, fault, loss or withdrawal, every port goes on taking
commands" (11_port_transactions_and_commands.md). No command raises one, which is safe: nothing is left out by it. -/
inductive Fault where
deriving DecidableEq, Repr

/-- Refusals. -/
inductive Refusal where
  /-- Raised by `exec` for a row without a meaning; no row is without one. Safe: nothing can be proved of it. -/
  | notModelled (mnemonic : String)
deriving DecidableEq, Repr

end Sys2Proof.Machine
end

