-- ==== Sys2Proof/Machine/Layout.lean ====
section
/-! DEFINITION. Byte layouts (13_frame_and_record_layouts.md, R173, R175, R176, R187, R188): the codes of reported
values, the notice records, the tie-link words and the cyclic check. Fields go most significant byte first. -/

namespace Sys2Proof.Machine

/-! ## Fields as bytes -/

/-- The `k` low bytes of a number, most significant first. -/
def bytesOfNat : Nat → Nat → List Byte
  | 0, _ => []
  | k + 1, n => BitVec.ofNat 8 (n / 256 ^ k) :: bytesOfNat k n

/-- A bit vector as `k` bytes. -/
def bytesOf {w : Nat} (k : Nat) (x : BitVec w) : List Byte := bytesOfNat k x.toNat

/-- Bytes read as a number, most significant first. -/
def natOfBytes (l : List Byte) : Nat := l.foldl (fun n b => n * 256 + b.toNat) 0

/-- A flag byte (threshold mark, present flags). -/
def flagByte (b : Bool) : Byte := if b then 1 else 0

/-! ## Codes of reported values -/

def levelCode : Level → Byte | .low => 0 | .high => 1
def edgeCode : Edge → Byte | .rise => 1 | .fall => 2
def portByte (p : PortId) : Byte := BitVec.ofNat 8 p.val
def portOrNone : Option PortId → Byte | some p => portByte p | none => 0xFF
def lineByte (n : LineId) : Byte := BitVec.ofNat 8 n.val
def slotByte (i : SlotId) : Byte := BitVec.ofNat 8 i.val

def ResultCode.code : ResultCode → Byte
  | .ok => 0x01 | .accepted => 0x02 | .already => 0x03 | .busy => 0x04 | .notHolder => 0x05 | .notOwner => 0x06
  | .noEntry => 0x07 | .badParam => 0x08 | .noSlot => 0x09 | .tooLate => 0x0A | .wrongState => 0x0B
  | .notLeader => 0x0C | .notReady => 0x0D | .unknownCommand => 0x0E

def EntryStatus.code : EntryStatus → Byte
  | .pending _ => 1 | .armed => 2 | .active _ => 3 | .suspended _ => 4 | .deferred _ _ => 5

def actionCode : Action → Byte
  | .setHigh => 0 | .setLow => 1 | .toggle => 2 | .pulse _ _ => 3 | .train _ _ _ _ => 4

def LineMode.code : LineMode → Byte
  | .off => 0 | .input => 1 | .output => 2 | .parked => 3 | .test => 4

def RunState.code : RunState → Byte | .running => 0 | .halted => 1
def Source.code : Source → Byte | .localTime => 0 | .leader => 1 | .follower => 2 | .freeRun => 3
def HubMode.code : HubMode → Byte | .run => 0 | .draining => 1 | .direct => 2

def LinkState.code : LinkState → Byte
  | .off => 0 | .down => 1 | .probing => 2 | .aligning => 3 | .locked => 4 | .holdoff => 5 | .conflict => 6

def roleCode : Option Role → Byte | none => 0 | some .leader => 1 | some .follower => 2
def rateCode : Option Rate → Byte | none => 0 | some .r5 => 0x05 | some .r10 => 0x0A | some .r20 => 0x14
def CheckOutcome.code : CheckOutcome → Byte | .passed => 1 | .failed => 2 | .aborted => 3
def Observed.code : Observed → Byte | .nothing => 1 | .wrongEdge => 2
def Severity.code : Severity → Byte | .corrected => 1 | .uncorrectable => 2

def EntryOutcome.code : EntryOutcome → Byte
  | .applied => 1 | .lateApplied => 2 | .droppedLate => 3 | .collided => 4 | .cancelled => 5 | .released => 6
  | .revoked => 7 | .cut => 8 | .integrity => 9

def ClaimEvent.code : ClaimEvent → Byte | .granted => 1 | .timedOut => 2 | .revoked => 3 | .wanted => 4
def TimeEvent.code : TimeEvent → Byte | .set => 1 | .step => 2 | .halt => 3 | .resume => 4 | .alignStep => 5
def LinkEvent.code : LinkEvent → Byte | .locked => 1 | .lost => 2 | .conflict => 3 | .down => 4
def ExitReason.code : ExitReason → Byte | .command => 1 | .mxLost => 2
def ResetReason.code : ResetReason → Byte | .power => 1 | .soft => 2 | .port => 3

/-! ## Notice records -/

/-- The kind of a record. -/
def Record.kind : Record → RecordKind
  | .capture .. => .capture
  | .actionDone .. => .actionDone
  | .claim .. => .claim
  | .timebase .. => .timebase
  | .directEntered => .mode
  | .directExited _ => .mode
  | .checkDone _ => .mode
  | .link _ => .link
  | .integrity .. => .integrity
  | .reset _ => .reset

/-- The mask bit of a kind; its kind code is one more (R120). -/
def RecordKind.bit : RecordKind → Nat
  | .capture => 0 | .actionDone => 1 | .claim => 2 | .timebase => 3 | .mode => 4 | .link => 5 | .integrity => 6
  | .reset => 7

def RecordKind.code (k : RecordKind) : Byte := BitVec.ofNat 8 (k.bit + 1)

/-- Is the record a CAPTURE record? -/
def Record.isCapture (r : Record) : Bool := r.kind == .capture

/-- Flags byte of a CAPTURE record or word: bit 0 HALTED, bit 1 STEPPED, bit 2 REMOTE. -/
def flagsByte (halted stepped remote : Bool) : Byte :=
  flagByte halted ||| (flagByte stepped <<< 1) ||| (flagByte remote <<< 2)

/-- The bytes of a record after its kind, without the zero bytes that fill it up. -/
def Record.payload : Record → List Byte
  | .capture line edge time epoch h st rem lost =>
    [BitVec.ofNat 8 line.val, edgeCode edge] ++ bytesOf 5 time ++ [epoch, flagsByte h st rem, lost]
  | .actionDone id tag line o a b =>
    [slotByte id] ++ bytesOf 2 tag ++ [lineByte line, o.code] ++ bytesOf 2 a ++ bytesOf 2 b
  | .claim r e => [BitVec.ofNat 8 r.val, e.code]
  | .timebase e epoch count => [e.code, epoch] ++ bytesOf 5 count
  | .directEntered => [1, 0]
  | .directExited reason => [2, reason.code]
  | .checkDone r =>
    [3, r.outcome.code] ++ bytesOf 2 r.passed ++ bytesOf 2 r.completed ++
      (match r.failure with
        | none => [0, 0, 0]
        | some f => [1, lineByte f.line, edgeCode f.expected])
  | .link e => [e.code]
  | .integrity corrected slot => [1, corrected, slotByte slot]
  | .reset reason => [reason.code]

/-- Bytes filled up with 0x00 to `n` bytes. -/
def padTo (n : Nat) (l : List Byte) : List Byte := l ++ List.replicate (n - l.length) 0

/-- The 12 bytes of a record. -/
def Record.bytes (r : Record) : List Byte := padTo 12 (r.kind.code :: r.payload)

/-! ## The cyclic check (R188) -/

/-- One bit shifted in: 0x1021 is combined when the bit shifted out differs from the bit shifted in. -/
def crcBit (reg : BitVec 16) (b : Bool) : BitVec 16 :=
  if reg.msb = b then reg <<< 1 else (reg <<< 1) ^^^ 0x1021

/-- One byte, most significant bit first. -/
def crcByte (reg : BitVec 16) (x : Byte) : BitVec 16 :=
  [7, 6, 5, 4, 3, 2, 1, 0].foldl (fun r k => crcBit r (x.getLsbD k)) reg

/-- The check code of a list of bytes; the register starts at 0xFFFF. -/
def crc (l : List Byte) : BitVec 16 := l.foldl crcByte 0xFFFF

/-! ## Tie-link words -/

def RolePref.code : RolePref → Byte | .leader => 1 | .follower => 2 | .either => 3

/-- A role preference outside the three codes is treated as EITHER (R188). -/
def RolePref.ofCode (b : Byte) : RolePref := if b = 1 then .leader else if b = 2 then .follower else .either

/-- The kind byte and the payload of a word. -/
def Word.head : Word → List Byte
  | .ability pref unit rates ack => [0x11, pref.code, unit, rates.setWidth 8, flagByte ack]
  | .timeQuery c1 => 0x12 :: bytesOf 5 c1
  | .timeReply c1 l1 l2 epoch halted =>
    0x13 :: (bytesOf 5 c1 ++ bytesOf 5 l1 ++ bytesOf 5 l2 ++ [epoch, flagByte halted])
  | .capture f =>
    [0x14, lineByte f.line, edgeCode f.edge] ++ bytesOf 5 f.time ++ [f.epoch, flagsByte f.halted f.stepped false]
  | .idle => [0x15]

/-- The 20 bytes of a word: 18 bytes and their check code. -/
def Word.bytes (w : Word) : List Byte :=
  let b := padTo 18 w.head
  b ++ bytesOf 2 (crc b)

/-- Byte `k` of a list of bytes, 0x00 beyond its end. -/
def byteAt (l : List Byte) (k : Nat) : Byte := l.getD k 0

/-- The count in bytes `k` to `k + 4`. -/
def countAt (l : List Byte) (k : Nat) : Count := BitVec.ofNat 40 (natOfBytes ((l.drop k).take 5))

/-- The words that arrived bytes can be (R188). A CAPTURE word whose line or edge is out of range is valid and is
discarded, so it has a case of its own. -/
inductive Received where
  | ability (pref : RolePref) (unit : Byte) (rateSet : BitVec 3) (ack : Bool)
  | timeQuery (c1 : Count)
  | timeReply (c1 l1 l2 : Count) (epoch : Byte) (halted : Bool)
  | capture (f : Forward)
  | captureDiscarded
  | idle
deriving DecidableEq, Repr

/-- The CAPTURE payload of a word. -/
def readCapture (l : List Byte) : Received :=
  let n := (byteAt l 1).toNat
  let e := byteAt l 2
  if h : n < 16 then
    if e = 1 ∨ e = 2 then
      .capture ⟨⟨n, h⟩, if e = 1 then .rise else .fall, countAt l 3, byteAt l 8,
        (byteAt l 9).getLsbD 0, (byteAt l 9).getLsbD 1⟩
    else .captureDiscarded
  else .captureDiscarded

/-- What valid bytes say, by their kind byte; none for a byte that is no kind. -/
def readWord (l : List Byte) : Option Received :=
  match (byteAt l 0).toNat with
  | 0x11 => some (.ability (RolePref.ofCode (byteAt l 1)) (byteAt l 2) ((byteAt l 3).setWidth 3)
      ((byteAt l 4).getLsbD 0))
  | 0x12 => some (.timeQuery (countAt l 1))
  | 0x13 => some (.timeReply (countAt l 1) (countAt l 6) (countAt l 11) (byteAt l 16) ((byteAt l 17).getLsbD 0))
  | 0x14 => some (readCapture l)
  | 0x15 => some .idle
  | _ => none

/-- A received word at a receiver set to `rate`: valid when all 20 bytes have arrived at that rate, the check code
matches and the kind is one of the five (R153, R188). -/
def readWire (w : WireWord) (rate : Option Rate) : Option Received :=
  if some w.rate = rate ∧ w.bytes.length = 20 ∧ bytesOf 2 (crc (w.bytes.take 18)) = w.bytes.drop 18 then
    readWord w.bytes
  else none

/-! ## Profile slot offsets -/

/-- The offsets that PROFILE_WRITE refuses: check code, seal marker, retire marker (R185). -/
def offMarkers : Nat := 0x3C
def offCheck : Nat := 0x3C
def offSeal : Nat := 0x3E
def offRetire : Nat := 0x3F
/-- Marker codes (R188). -/
def groupEnabled : Byte := 0xA5
def sealedCode : Byte := 0x5A
def retiredCode : Byte := 0xC3

/-! ## The POST block as bytes -/

/-- The 26 bytes of a POST parameter block. -/
def postBytes (b : PostBlock) : List Byte :=
  [b.line] ++ bytesOf 2 b.tag ++ [b.action, b.active] ++ bytesOf 3 b.width ++ bytesOf 3 b.period ++
    bytesOf 2 b.count ++ [b.timing] ++ bytesOf 5 b.due ++ [b.anchorLine, b.anchorEdge] ++ bytesOf 3 b.delay ++
    [b.rep, b.late]

end Sys2Proof.Machine
end

