-- ==== Sys2Proof/Machine/Ops.lean ====
section
/-! DEFINITION. The operations over the hub's state that every family of commands shares: reading and writing one
record of a block, the notice queues, the judgement of times, the drive and the raw level of a pin, the change of a
line's record with what follows for its filter, and the profile store as a memory. -/

namespace Sys2Proof.Machine

/-- What a command answers: always a next state, since no command has a fault or a refusal. -/
abbrev Answer := Host.Outcome State Fault Refusal

/-! ## Lists -/

def allPorts : List PortId := List.finRange 4
def allLines : List LineId := List.finRange 16
def allSlots : List SlotId := List.finRange 128
def allResources : List ResourceId := List.finRange 18

/-- Insert an element before the first that it does not have to follow. -/
def insertBy {α : Type} (le : α → α → Bool) (a : α) : List α → List α
  | [] => [a]
  | b :: t => if le a b then a :: b :: t else b :: insertBy le a t

/-- A list in order; equal elements keep their order. -/
def sortBy {α : Type} (le : α → α → Bool) : List α → List α
  | [] => []
  | a :: t => insertBy le a (sortBy le t)

/-- A list in the order that a list of picks gives: each pick takes one of the elements left. Every order of the list
is the order of some picks. -/
def shuffle {α : Type} : List Nat → List α → List α
  | _, [] => []
  | [], l => l
  | k :: ks, a :: t =>
    (a :: t).getD (k % (t.length + 1)) a :: shuffle ks ((a :: t).eraseIdx (k % (t.length + 1)))

/-! ## One record of a block -/

def State.port (s : State) (p : PortId) : Port := s.ports[p.val]
def State.setPort (s : State) (p : PortId) (x : Port) : State := { s with ports := s.ports.set p.val x }
def State.claim (s : State) (r : ResourceId) : ClaimRec := s.claims[r.val]
def State.setClaim (s : State) (r : ResourceId) (x : ClaimRec) : State := { s with claims := s.claims.set r.val x }
def State.line (s : State) (n : LineId) : LineRec := s.lines[n.val]
def State.setLine (s : State) (n : LineId) (x : LineRec) : State := { s with lines := s.lines.set n.val x }
def State.filter (s : State) (n : LineId) : Filter := s.filters[n.val]
def State.setFilter (s : State) (n : LineId) (x : Filter) : State := { s with filters := s.filters.set n.val x }
def State.slot (s : State) (i : SlotId) : Slot := s.pool[i.val]
def State.setSlot (s : State) (i : SlotId) (x : Slot) : State := { s with pool := s.pool.set i.val x }
def State.setTb (s : State) (x : Timebase) : State := { s with tb := x }
def State.setMaint (s : State) (x : Maint) : State := { s with maint := x }
def State.setInteg (s : State) (x : Integrity) : State := { s with integ := x }
def State.setLink (s : State) (x : Link) : State := { s with link := x }
def State.setSubs (s : State) (x : Vector (Vector EdgeSel 32) 4) : State := { s with subs := x }
/-- The next free value is another one. -/
def State.bumpFree (s : State) : State := { s with free := s.free + 1 }

/-- The cell of the subscription table for a port and a line (R104). -/
def State.cell (s : State) (p : PortId) (line : AnyLine) : EdgeSel := (s.subs[p.val])[line.val]

/-- The error counters of a port (R144 to R146). -/
def State.errors (s : State) (p : PortId) : ErrorCounters := s.integ.counters[p.val]

/-! ## Claims as consulted (R33) -/

/-- Does this port hold this resource now? -/
def State.holds (s : State) (p : PortId) (r : ResourceId) : Bool := (s.claim r).holder == some p

/-- The resource of a line, and TB and MX (R15). -/
def lineRes (n : LineId) : ResourceId := ⟨n.val, by omega⟩
def resTB : ResourceId := 16
def resMX : ResourceId := 17

/-! ## Notice queues (R113 to R115) -/

/-- The lost count written into a CAPTURE record at admission (R114). -/
def Record.withLost (n : Byte) : Record → Record
  | .capture l e t ep h st rem _ => .capture l e t ep h st rem n
  | r => r

/-- A record offered to a queue is admitted or dropped: CAPTURE below 32 records (R114), other kinds below 40 (R115). -/
def Port.enqueue (q : Port) (r : Record) : Port :=
  if r.isCapture then
    if q.queue.length < 32 then { q with queue := q.queue ++ [r.withLost q.lost], lost := 0 }
    else { q with lost := sat8 q.lost }
  else if q.queue.length < 40 then { q with queue := q.queue ++ [r] }
  else { q with overrun := sat8 q.overrun, overrunLatch := true }

/-- A record is offered to the queue of one port. -/
def State.offer (s : State) (p : PortId) (r : Record) : State := s.setPort p ((s.port p).enqueue r)

/-- A record of its own is offered to each of the four queues. -/
def State.offerAll (s : State) (r : Record) : State := { s with ports := s.ports.map (fun q => q.enqueue r) }

/-! ## Judging a time against the count (R40) -/

/-- The three judgements. -/
inductive Judgement where
  | due | ahead | behind
deriving DecidableEq, Repr

/-- The distance (D - C) mod 2^40. -/
def distance (d c : Count) : Nat := (d - c).toNat

/-- D judged against the count C. -/
def judge (d c : Count) : Judgement :=
  if distance d c = 0 then .due else if distance d c ≤ 2 ^ 39 then .ahead else .behind

/-- Elapsed ticks in a number of milliseconds (R17). -/
def msTicks (ms : BitVec 16) : Nat := ms.toNat * 10000

/-- Has a deadline that is present been reached (R39, log 24)? -/
def reached (now : Nat) : Option Nat → Bool
  | none => false
  | some t => t ≤ now

/-! ## Drive and raw level of a pin -/

/-- The mode a park mode gives (R4). -/
def ParkMode.mode : ParkMode → LineMode
  | .off => .off
  | .input => .input
  | .parkLow => .parked
  | .parkHigh => .parked

/-- The park level (R2). -/
def ParkMode.level : ParkMode → Level
  | .parkHigh => .high
  | .parkLow => .low
  | .input => .low
  | .off => .low

/-- The level of the current line-check window at a tested line (R134, R135). -/
def Check.drive (c : Check) (n : LineId) : Level :=
  match c with
  | .running p => if p.current = n ∧ p.window = .w2 then .high else .low
  | .idle => .low
  | .finished _ => .low

/-- What the hub drives at a pin; none is high impedance (R2). -/
def State.drive (s : State) (n : LineId) : Option Level :=
  let l := s.line n
  match l.mode with
  | .off => none
  | .input => none
  | .output => some (l.override.getD l.scheduled)
  | .parked => some (l.override.getD l.park.level)
  | .test => some (s.maint.check.drive n)

/-- The raw level at a pin under a drive: what outside equipment holds it at, else what the hub drives, else a free
value (R98, log 8). -/
def State.rawUnder (s : State) (n : LineId) (drive : Option Level) : Level :=
  if s.held.getLsbD n.val then Level.ofBit (s.level.getLsbD n.val)
  else drive.getD (Config.floatingLevel s.free n.val)

/-- The raw level at a pin now. -/
def State.raw (s : State) (n : LineId) : Level := s.rawUnder n (s.drive n)

/-- The drive that the next sample sees at a pin: the one that the tick found, since a change of drive is first seen by
the sample of the following tick; with no tick begun, the drive as it stands (R98, log 30). -/
def State.driveForSample (s : State) (n : LineId) : Option Level :=
  match s.tickPins with
  | some v => v[n.val]
  | none => s.drive n

/-- The pin level that the line unit reports (R3). -/
def State.pinLevel (s : State) (n : LineId) : Level :=
  match (s.line n).mode with
  | .off => .low
  | .input => (s.filter n).sampled
  | .output => (s.drive n).getD .low
  | .parked => (s.drive n).getD .low
  | .test => (s.drive n).getD .low

/-! ## Filters (R97, R102) -/

/-- A filter is restarted at the raw level of this moment, without an edge (R97). The pin level stays that of the most
recent sample (R3); a line that leaves OFF, `fresh`, has none yet and takes the level of the restart (log 9). -/
def State.restart (s : State) (n : LineId) (fresh : Bool) : State :=
  (s.setFilter n ⟨s.raw n, none, if fresh then s.raw n else (s.filter n).sampled⟩).bumpFree

/-- A line in OFF has filtered level LOW and no run (R97, R102). -/
def State.clearFilter (s : State) (n : LineId) : State :=
  s.setFilter n { s.filter n with filtered := .low, run := none }

/-- A line record is replaced, and its filter follows: cleared when the line is in OFF, restarted when the line leaves
OFF or its filter length changes, and otherwise undisturbed (R2, R9, R14, R102, log 17). -/
def State.changeLine (s : State) (n : LineId) (x : LineRec) : State :=
  let old := s.line n
  let t := s.setLine n x
  if x.mode = .off then t.clearFilter n
  else if old.mode = .off ∨ old.filterLen ≠ x.filterLen then t.restart n (old.mode == .off)
  else t

/-- The scheduled level of a line takes a level (R6). -/
def State.setScheduled (s : State) (n : LineId) (l : Level) : State :=
  s.setLine n { s.line n with scheduled := l }

/-- A line returns to its park mode; the override and saved values go, the scheduled level and the filter length stay
(R11). -/
def State.park (s : State) (n : LineId) : State :=
  let l := s.line n
  s.changeLine n { l with mode := l.park.mode, override := none, saved := none }

/-! ## The profile store as a memory (R184, R188) -/

/-- A sparse memory: addresses rise strictly and no entry holds 0x00, which an unlisted address reads as. -/
abbrev Memory := List Host.Cell

/-- The canonical form. -/
abbrev Memory.wf (m : Memory) : Prop := m.Pairwise (fun a b => a.1 < b.1) ∧ ∀ c ∈ m, c.2 ≠ 0

/-- One byte; a blank byte reads 0x00. -/
def Memory.read : Memory → Nat → Byte
  | [], _ => 0
  | (k, v) :: t, a => if k = a then v else Memory.read t a

/-- One byte is written; 0x00 removes the entry. -/
def Memory.write : Memory → Nat → Byte → Memory
  | [], a, v => if v = 0 then [] else [(a, v)]
  | (k, w) :: t, a, v =>
    if a < k then (if v = 0 then (k, w) :: t else (a, v) :: (k, w) :: t)
    else if a = k then (if v = 0 then t else (a, v) :: t)
    else (k, w) :: Memory.write t a v

/-- The address of an offset of a slot. -/
def storeAddr (slot offset : Nat) : Nat := slot * 64 + offset

/-- A byte of a slot. -/
def State.storeByte (s : State) (slot offset : Nat) : Byte := Memory.read s.store (storeAddr slot offset)

/-- `k` bytes of a slot from an offset on. -/
def State.storeBytes (s : State) (slot offset k : Nat) : List Byte :=
  (List.range k).map (fun j => s.storeByte slot (offset + j))

/-- Bits are ORed into bytes: a bit of the store changes only from 0 to 1 (R184). -/
def Memory.orAll (m : Memory) : List Host.Cell → Memory
  | [] => m
  | (a, b) :: t => Memory.orAll (Memory.write m a (Memory.read m a ||| b)) t

/-- An operation ORs bits into bytes and the store is busy for 200 us, 2,000 elapsed ticks (R184). -/
def State.programStore (s : State) (bits : List Host.Cell) : State :=
  { s with
    store := Memory.orAll s.store bits
    storeBusy := some ⟨s.elapsed + 2000, bits.map (fun c => (c.1, Memory.read s.store c.1))⟩ }

end Sys2Proof.Machine
end

