-- ==== Sys2Proof/Machine/Flags.lean ====
section
/-! DEFINITION. Flags that follow from state or mark it: the ATTN line and the status byte of a port, the latches, and
the marks of captured edges. -/

namespace Sys2Proof.Machine

/-- ATTN is asserted while a record of an enabled kind waits or the OVERRUN latch is set (R120). -/
def Port.attn (q : Port) : Bool := q.overrunLatch || q.queue.any (fun r => q.mask.getLsbD r.kind.bit)

/-- The status byte: READY, the OVERRUN latch and the notice count (R168). -/
def State.statusByte (s : State) (p : PortId) : Byte :=
  let q := s.port p
  (if s.phase = .ready then 0x80#8 else 0) ||| (if q.overrunLatch then 0x40#8 else 0) |||
    BitVec.ofNat 8 (q.queue.length % 64)

/-- The latches byte of the snapshot: bit 0 OVERRUN, bit 1 FRAME. -/
def Port.latches (q : Port) : Byte := flagByte q.overrunLatch ||| (flagByte q.frameLatch <<< 1)

/-- A SNAPSHOT clears both latches and the overrun counter (R121). -/
def Port.acknowledge (q : Port) : Port := { q with overrunLatch := false, frameLatch := false, overrun := 0 }

/-- A frame fault sets the FRAME latch, but not during LOADING (R170, R172). -/
def Port.frameFault (q : Port) (ready : Bool) : Port := if ready then { q with frameLatch := true } else q

/-- The stepped mark of a run is set (R101). -/
def Filter.mark (f : Filter) : Filter := { f with run := f.run.map (fun r => { r with stepped := true }) }

/-- A change of the count marks every run in progress (R44 step 2, R101). -/
def State.markRuns (s : State) : State := { s with filters := s.filters.map Filter.mark }

/-- The HALTED flag of an edge accepted now (R101). -/
def State.haltedFlag (s : State) : Bool := s.tb.run == .halted

end Sys2Proof.Machine
end

