-- ==== Sys2Proof/Machine/Operands.lean ====
section
/-! DEFINITION. The operands of commands: how a parameter byte is read and judged (R175, R187), how the POST block is
read (R59), and how a command is taken from a frame and answered (R168, R169). -/

namespace Sys2Proof.Machine

/-! ## Parameters in range; none is BAD_PARAM -/

/-- A resource number 0 to 17. -/
def readResource (b : Byte) : Option ResourceId := if h : b.toNat < 18 then some ⟨b.toNat, h⟩ else none
/-- A local line 0 to 15. -/
def readLine (b : Byte) : Option LineId := if h : b.toNat < 16 then some ⟨b.toNat, h⟩ else none
/-- A line 0 to 31. -/
def readAnyLine (b : Byte) : Option AnyLine := if h : b.toNat < 32 then some ⟨b.toNat, h⟩ else none
/-- An entry id 0 to 127. -/
def readSlot (b : Byte) : Option SlotId := if h : b.toNat < 128 then some ⟨b.toNat, h⟩ else none
/-- A profile slot 0 to 2. -/
def readProfileSlot (b : Byte) : Option (Fin 3) := if h : b.toNat < 3 then some ⟨b.toNat, h⟩ else none

/-- LOW 0x00, HIGH 0x01. -/
def readLevel (b : Byte) : Option Level := if b = 0 then some .low else if b = 1 then some .high else none

/-- OFF 0x00, INPUT 0x01, OUTPUT 0x02: PARKED and TEST cannot be asked for (R8). -/
def readMode (b : Byte) : Option LineMode :=
  if b = 0 then some .off else if b = 1 then some .input else if b = 2 then some .output else none

/-- A filter length 0 to 15. -/
def readFilter (b : Byte) : Option (BitVec 4) := if b.toNat < 16 then some (BitVec.ofNat 4 b.toNat) else none

/-- NONE 0x00, RISE 0x01, FALL 0x02, BOTH 0x03. -/
def readSel (b : Byte) : Option EdgeSel :=
  if b = 0 then some .none else if b = 1 then some .rise else if b = 2 then some .fall
  else if b = 3 then some .both else none

/-- LOW 0x00, HIGH 0x01, NONE 0x02; NONE clears the override. -/
def readDrive (b : Byte) : Option (Option Level) :=
  if b = 0 then some (some .low) else if b = 1 then some (some .high) else if b = 2 then some none else none

/-! ## The POST block (R59): only the fields that the entry uses are judged -/

/-- The action with its parameters. -/
def readAction (b : PostBlock) : Option Action :=
  if b.action = 0 then some .setHigh
  else if b.action = 1 then some .setLow
  else if b.action = 2 then some .toggle
  else if b.action = 3 then
    match readLevel b.active with
    | some a => if b.width = 0 then none else some (.pulse a b.width)
    | none => none
  else if b.action = 4 then
    match readLevel b.active with
    | some a =>
      if b.width = 0 then none
      else if b.period.toNat ≤ b.width.toNat then none
      else some (.train a b.width b.period b.count)
    | none => none
  else none

/-- An anchor edge: RISE, FALL or BOTH, 0x00 is outside its codes (R187). -/
def readAnchorEdge (b : Byte) : Option EdgeSel :=
  if b = 1 then some .rise else if b = 2 then some .fall else if b = 3 then some .both else none

def readRepeat (b : Byte) : Option Repeat := if b = 0 then some .once else if b = 1 then some .every else none
def readLate (b : Byte) : Option LatePolicy :=
  if b = 0 then some .fireLate else if b = 1 then some .dropLate else none

/-- The anchor and the timing. -/
def readTiming (b : PostBlock) : Option (Option Anchor × Timing) :=
  if b.timing = 0 then some (none, .absolute b.due)
  else if b.timing = 1 then
    match readAnyLine b.anchorLine, readAnchorEdge b.anchorEdge, readRepeat b.rep with
    | some l, some e, some r => some (some ⟨l, e⟩, .anchored b.delay r)
    | _, _, _ => none
  else none

/-- What a POST in range asks for. -/
structure PostRequest where
  line : LineId
  tag : BitVec 16
  anchor : Option Anchor
  body : Body
deriving DecidableEq, Repr

/-- The range check of POST (R59). -/
def readPost (b : PostBlock) : Option PostRequest :=
  match readLine b.line, readAction b, readTiming b, readLate b.late with
  | some n, some a, some (anchor, t), some l => some ⟨n, b.tag, anchor, ⟨a, t, l⟩⟩
  | _, _, _, _ => none

/-! ## Taking a command (R168, R169) -/

/-- What a command answers: its result code, its result data, and how many records follow from the queue. -/
structure Reply where
  code : ResultCode
  data : List Byte
  records : Nat
deriving DecidableEq, Repr

/-- A result code with no data. -/
def reply (c : ResultCode) : Reply := ⟨c, [], 0⟩

/-- OK with result data. -/
def replyData (d : List Byte) : Reply := ⟨.ok, d, 0⟩

/-- Is a command with this code and these parameter bytes taken at the port now: its code byte just complete when it
has no parameters, else all its parameter bytes but the last gathered (R169). While RESETn is low nothing is taken
(R172). -/
def State.takes (s : State) (p : PortId) (code : Byte) (params : List Byte) : Bool :=
  match s.phase, (s.port p).frame with
  | .pinReset, _ => false
  | _, .code _ => params.isEmpty
  | _, .parameters c got => c == code && !params.isEmpty && got == params.dropLast
  | _, .idle => false
  | _, .response _ _ => false
  | _, .ignore => false

/-- The frame enters RESPONSE with the reply (R168). -/
def State.respond (s : State) (p : PortId) (r : Reply) : State :=
  s.setPort p { s.port p with frame := .response (r.code.code :: r.data) r.records }

/-- A command is taken and answered; during LOADING every known command is answered NOT_READY with no effect (R172,
R180). A command that is not taken has no effect (log 3, log 5). -/
def State.take (s : State) (p : PortId) (code : Byte) (params : List Byte) (body : State → State × Reply) : State :=
  if s.takes p code params then
    if s.phase = .ready then (body s).1.respond p (body s).2
    else s.respond p (reply .notReady)
  else s

end Sys2Proof.Machine
end

