-- ==== Sys2Proof/Machine/Schedule.lean ====
section
/-! DEFINITION. The action schedule and pool integrity as shared operations: completion and withdrawal, the check of
a slot, arrival, application, late handling, arming, re-examination, the suspension of trains, the drain-limit cut and
the catch-up at the return to RUN (R54 to R96, R141 to R148). -/

namespace Sys2Proof.Machine

/-! ## Entries -/

/-- The header of the entry in a slot, none when it is FREE. -/
def State.entry (s : State) (i : SlotId) : Option Header := (s.slot i).entry

/-- The header of a slot is replaced. -/
def State.setEntry (s : State) (i : SlotId) (h : Header) : State := s.setSlot i { s.slot i with entry := some h }

/-- The body of a slot. -/
def State.body (s : State) (i : SlotId) : Body := (s.slot i).body

/-- The post order of the entry in a slot (R57). -/
def State.orderOf (s : State) (i : SlotId) : Nat :=
  match s.entry i with
  | some h => h.postOrder
  | none => 0

/-- Slots in post order. -/
def State.inPostOrder (s : State) (l : List SlotId) : List SlotId :=
  sortBy (fun i j => decide (s.orderOf i ≤ s.orderOf j)) l

/-- The occupied slots of a kind, in post order. -/
def State.entriesWhere (s : State) (f : Header → Bool) : List SlotId :=
  s.inPostOrder (allSlots.filter (fun i => (s.entry i).any f))

/-- Is an entry PENDING, and with what due? -/
def EntryStatus.pendingDue : EntryStatus → Option Count
  | .pending d => some d
  | .armed => none
  | .active _ => none
  | .suspended _ => none
  | .deferred _ _ => none

/-- The current due, present while PENDING or DEFERRED (R55). -/
def EntryStatus.due : EntryStatus → Option Count
  | .pending d => some d
  | .deferred d _ => some d
  | .armed => none
  | .active _ => none
  | .suspended _ => none

/-- The deferral place of a DEFERRED entry. -/
def EntryStatus.place : EntryStatus → Option Nat
  | .deferred _ k => some k
  | .pending _ => none
  | .armed => none
  | .active _ => none
  | .suspended _ => none

/-- ARMED? -/
def EntryStatus.isArmed : EntryStatus → Bool
  | .armed => true
  | .pending _ => false
  | .active _ => false
  | .suspended _ => false
  | .deferred _ _ => false

/-- The run of an ACTIVE entry. -/
def EntryStatus.activeRun : EntryStatus → Option Run
  | .active r => some r
  | .pending _ => none
  | .armed => none
  | .suspended _ => none
  | .deferred _ _ => none

/-- The run of a SUSPENDED entry. -/
def EntryStatus.suspendedRun : EntryStatus → Option Run
  | .suspended r => some r
  | .pending _ => none
  | .armed => none
  | .active _ => none
  | .deferred _ _ => none

/-- ACTIVE or SUSPENDED: such an entry keeps its line busy (R78). -/
def EntryStatus.isBusy (t : EntryStatus) : Bool := t.activeRun.isSome || t.suspendedRun.isSome

/-- IN_PULSE? -/
def RunPhase.isPulse : RunPhase → Bool
  | .inPulse _ => true
  | .betweenPulses => false

/-- ACTIVE in phase IN_PULSE: a pulse is in progress (R89). -/
def EntryStatus.isPulse (t : EntryStatus) : Bool := t.activeRun.any (fun r => r.phase.isPulse)

/-- A port's slots in use (R58). -/
def State.slotsInUse (s : State) (p : PortId) : Nat :=
  (allSlots.filter (fun i => (s.entry i).any (fun h => h.owner == p))).length

/-- Has a line an occupied entry (R8 check 5, R133 check 7)? -/
def State.lineOccupied (s : State) (n : LineId) : Bool :=
  allSlots.any (fun i => (s.entry i).any (fun h => h.line == n))

/-- Has a line an entry ACTIVE or SUSPENDED (R77)? -/
def State.lineBusy (s : State) (n : LineId) : Bool :=
  allSlots.any (fun i => (s.entry i).any (fun h => h.line == n && h.status.isBusy))

/-- Is any pulse in progress (R89)? -/
def State.pulseInProgress (s : State) : Bool := allSlots.any (fun i => (s.entry i).any (fun h => h.status.isPulse))

/-- The current due of the entry in a slot when it is PENDING. -/
def State.pendingDue (s : State) (i : SlotId) : Option Count := (s.entry i).bind (fun h => h.status.pendingDue)

/-- The distance ahead of the entry in a slot (R64). -/
def State.distanceOf (s : State) (i : SlotId) : Nat := ((s.pendingDue i).map (fun d => distance d s.tb.count)).getD 0

/-- The due list: the PENDING entries by distance ahead, equal distances in post order (R64). -/
def State.dueList (s : State) : List SlotId :=
  sortBy (fun i j => decide (s.distanceOf i ≤ s.distanceOf j))
    (s.entriesWhere (fun h => h.status.pendingDue.isSome))

/-- The DEFERRED entries in deferral order (R90). -/
def State.deferralOrder (s : State) : List SlotId :=
  let place := fun i => ((s.entry i).bind (fun h => h.status.place)).getD 0
  sortBy (fun i j => decide (place i ≤ place j))
    (allSlots.filter (fun i => (s.entry i).any (fun h => h.status.place.isSome)))

/-- The place of the next entry that is deferred: behind every other. -/
def State.nextPlace (s : State) : Nat :=
  allSlots.foldl (fun k i => max k (((s.entry i).bind (fun h => h.status.place)).elim 0 (fun p => p + 1))) 0

/-- The active level of a PULSE or TRAIN. -/
def activeLevel : Action → Option Level
  | .pulse a _ => some a
  | .train a _ _ _ => some a
  | .setHigh => none
  | .setLow => none
  | .toggle => none

/-- The width of a PULSE or TRAIN; 0 for any other action, which a run meets only in a body of three or more changed bits
(model's choice, log 35). -/
def width : Action → Nat
  | .pulse _ w => w.toNat
  | .train _ w _ _ => w.toNat
  | .setHigh => 0
  | .setLow => 0
  | .toggle => 0

/-- Is the entry ANCHORED EVERY? The body alone says so, whatever anchor the header holds (model's choice where a body of
three or more changed bits came back with another timing, log 35). -/
def timingEvery : Timing → Bool
  | .anchored _ .every => true
  | .anchored _ .once => false
  | .absolute _ => false

/-- The delay of an ANCHORED entry; 0 for ABSOLUTE, which an arming meets only in a body of three or more changed bits
(model's choice, log 35). -/
def timingDelay : Timing → Count
  | .anchored d _ => d.setWidth 40
  | .absolute _ => 0

/-- Is the entry in a slot ANCHORED EVERY, by its body? -/
def State.isEvery (s : State) (i : SlotId) : Bool := timingEvery (s.body i).timing

/-- Are there pulses left in a train: it is endless, or its remaining count is above 0 (R81)? None for any other action,
which a train meets only in a body of three or more changed bits (model's choice, log 35). -/
def pulsesLeft (a : Action) (t : TrainRun) : Bool :=
  match a with
  | .train _ _ _ n => n == 0 || decide (t.begun.toNat + t.skipped.toNat < n.toNat)
  | .pulse _ _ => false
  | .setHigh => false
  | .setLow => false
  | .toggle => false

/-- The period of a TRAIN; 0 for any other action, which a train meets only in a body of three or more changed bits
(model's choice, log 35). -/
def period : Action → Nat
  | .train _ _ p _ => p.toNat
  | .pulse _ _ => 0
  | .setHigh => 0
  | .setLow => 0
  | .toggle => 0

/-! ## Hub mode: the move to DIRECT -/

/-- The hub mode becomes DIRECT, a drain deadline is discarded, and DIRECT_ENTERED is offered to all ports (R127). -/
def State.goDirect (s : State) : State :=
  (s.setMaint { s.maint with mode := .direct, drainDeadline := none }).offerAll .directEntered

/-- The schedule's report that no pulse remains in progress, while DRAINING (R89, R127). -/
def State.reportDrain (s : State) : State :=
  if s.maint.mode = .draining ∧ s.pulseInProgress = false then s.goDirect else s

/-! ## Completion and withdrawal (R74, R95) -/

/-- The entry of a slot completes: the slot is FREE with the free pattern in its body, its ACTION_DONE record is offered
to the owner, and the report of R89 follows. -/
def State.complete (s : State) (i : SlotId) (o : EntryOutcome) : State :=
  match s.entry i with
  | none => s
  | some h =>
    ((s.setSlot i Slot.free).offer h.owner (.actionDone i h.tag h.line o h.countA h.countB)).reportDrain

/-- The inactive level at the end of a pulse: the opposite of the active level that the body holds (R80, R81). A body that
three or more changed bits put in its place is read as it came back, and one that is no PULSE and no TRAIN leaves the
opposite of the scheduled level (model's choice, log 35). -/
def State.inactiveLevel (s : State) (i : SlotId) (h : Header) : Level :=
  match activeLevel (s.body i).action with
  | some a => a.opposite
  | none => (s.line h.line).scheduled.opposite

/-- A pulse in progress is cut: the scheduled level becomes the inactive level at once (R70, R92, R95, R146). The body is
not read (R142), and the header holds no active level: it is the scheduled level, which the pulse itself set and nothing
has changed since (R78 to R81), so that the inactive level is its opposite (log 11). -/
def State.cutPulse (s : State) (h : Header) : State :=
  if h.status.isPulse then s.setScheduled h.line (s.line h.line).scheduled.opposite else s

/-- An entry is withdrawn from whatever occupied state it is in, with the outcome named (R70, R95, R146). -/
def State.withdraw (s : State) (i : SlotId) (o : EntryOutcome) : State :=
  match s.entry i with
  | none => s
  | some h => (s.cutPulse h).complete i o

/-- Entries withdrawn one after another, in the order of the list (R28, R72). -/
def State.withdrawAll (s : State) (l : List SlotId) (o : EntryOutcome) : State :=
  l.foldl (fun s i => s.withdraw i o) s

/-! ## The check of a slot (R142 to R148) -/

/-- The first-error record is filled when it is empty (R148). -/
def Integrity.note (g : Integrity) (i : SlotId) (sev : Severity) (owner : Option PortId) (now : Nat) : Integrity :=
  match g.firstError with
  | some _ => g
  | none => { g with firstError := some ⟨i, sev, owner, BitVec.ofNat 32 now⟩ }

/-- The counters of a port are replaced. -/
def State.setErrors (s : State) (p : PortId) (c : ErrorCounters) : State :=
  s.setInteg { s.integ with counters := s.integ.counters.set p.val c }

/-- A correction is charged to the owner; the threshold notice is offered when the counter has just become equal to the
threshold and the mark is clear (R144 steps 2 and 3, R145). -/
def State.chargeCorrected (s : State) (p : PortId) (i : SlotId) : State :=
  let c := s.errors p
  let n := sat8 c.corrected
  if n = c.threshold ∧ n ≠ c.corrected ∧ c.mark = false then
    (s.offer p (.integrity n i)).setErrors p { c with corrected := n, mark := true }
  else s.setErrors p { c with corrected := n }

/-- An uncorrectable error is charged to the owner (R146 step 3). -/
def State.chargeUncorrectable (s : State) (p : PortId) : State :=
  s.setErrors p { s.errors p with uncorrectable := sat8 (s.errors p).uncorrectable }

/-- The first-error record is filled for a slot (R148). -/
def State.noteError (s : State) (i : SlotId) (sev : Severity) (owner : Option PortId) : State :=
  s.setInteg (s.integ.note i sev owner s.elapsed)

/-- A single-bit error: the body is rewritten with the corrected content `b`, the owner is charged, the record filled
(R144, R147). -/
def State.correct (s : State) (i : SlotId) (b : Body) : State :=
  let t := s.setSlot i { s.slot i with body := b, wrongBits := [] }
  match s.entry i with
  | none => t.noteError i .corrected none
  | some h => (t.chargeCorrected h.owner i).noteError i .corrected (some h.owner)

/-- An uncorrectable error: the entry is withdrawn, the body takes the free pattern, the owner is charged, the record
filled; a FREE slot charges no one (R146, R147). -/
def State.loseBody (s : State) (i : SlotId) : State :=
  match s.entry i with
  | none => (s.setSlot i Slot.free).noteError i .uncorrectable none
  | some h =>
    (((s.withdraw i .integrity).setSlot i Slot.free).chargeUncorrectable h.owner).noteError i .uncorrectable
      (some h.owner)

/-- What a check finds, by the number of changed bits: one is corrected, two are detected, more are not assured (R141). -/
def findingOf (wrong : List Nat) (free : Nat) : Finding :=
  match wrong with
  | [] => .clean
  | [_] => .singleBit
  | [_, _] => .uncorrectable
  | _ :: _ :: _ :: _ => Config.manyBitFinding free

/-- The content that a check takes the body to hold: the content as written, or with three or more changed bits a free
value (R141, log 10). -/
def bodyRead (sl : Slot) (free : Nat) : Body :=
  match sl.wrongBits with
  | [] => sl.body
  | [_] => sl.body
  | [_, _] => sl.body
  | _ :: _ :: _ :: _ => Config.strayBody free

/-- The check made at a read of a slot (R142). The reading event goes on with what the slot holds afterwards: nothing,
when the entry was withdrawn (R96). -/
def State.checkSlot (s : State) (i : SlotId) : State :=
  let sl := s.slot i
  match sl.wrongBits with
  | [] => s
  | _ :: _ =>
    match findingOf sl.wrongBits s.free with
    | .clean => (s.setSlot i { sl with body := bodyRead sl s.free, wrongBits := [] }).bumpFree
    | .singleBit => (s.correct i (bodyRead sl s.free)).bumpFree
    | .uncorrectable => (s.loseBody i).bumpFree

/-! ## Application (R79 to R82) -/

/-- The status of an entry is replaced. -/
def State.setStatus (s : State) (i : SlotId) (h : Header) (t : EntryStatus) : State :=
  s.setEntry i { h with status := t }

/-- An application is finished: an EVERY entry counts a firing and returns to ARMED, any other completes (R79, R80,
R82). -/
def State.finish (s : State) (i : SlotId) (h : Header) (t : Timeliness) : State :=
  if s.isEvery i then
    s.setEntry i { h with status := .armed, countA := sat16 h.countA }
  else s.complete i (match t with | .onTime => .applied | .late => .lateApplied)

/-- An anchor is missed: count B rises and the EVERY entry returns to ARMED (R66, R78). -/
def State.missAnchor (s : State) (i : SlotId) (h : Header) : State :=
  s.setEntry i { h with status := .armed, countB := sat16 h.countB }

/-- A SET_HIGH, SET_LOW or TOGGLE does its work at once (R79). -/
def State.applyLevel (s : State) (i : SlotId) (h : Header) (l : Level) (t : Timeliness) : State :=
  (s.setScheduled h.line l).finish i h t

/-- The next boundary of a train after a boundary, while pulses are left (R81). -/
def boundaryAfter (a : Action) (t : TrainRun) (boundary : Nat) : TrainRun :=
  { t with nextBoundary := if pulsesLeft a t then some (boundary + period a) else none }

/-- A pulse of a train begins at a boundary (R81). When the body has come back from three or more changed bits as an
action that is no PULSE and no TRAIN, the manual does not say how the run goes on: active level LOW, and the pulse end
at the boundary itself (R96; model's choice, log 35). -/
def State.beginTrainPulse (s : State) (i : SlotId) (h : Header) (r : Run) (t : TrainRun) (boundary : Nat) : State :=
  let a := (s.body i).action
  let t1 := boundaryAfter a { t with begun := sat16 t.begun } boundary
  let h1 := if s.isEvery i then h else { h with countA := sat16 h.countA }
  (s.setScheduled h.line ((activeLevel a).getD .low)).setStatus i h1
    (.active { r with phase := .inPulse (boundary + width a), train := some t1 })

/-- An entry is applied (R79 to R81). -/
def State.applyEntry (s : State) (i : SlotId) (h : Header) (t : Timeliness) : State :=
  match (s.body i).action with
  | .setHigh => s.applyLevel i h .high t
  | .setLow => s.applyLevel i h .low t
  | .toggle => s.applyLevel i h (s.line h.line).scheduled.opposite t
  | .pulse a w =>
    (s.setStatus i h (.active ⟨s.elapsed, .inPulse (s.elapsed + w.toNat), t, none⟩)).setScheduled h.line a
  | .train _ _ _ _ => s.beginTrainPulse i h ⟨s.elapsed, .betweenPulses, t, none⟩ ⟨0, 0, none⟩ s.elapsed

/-- An entry arrives on a busy line (R78). -/
def State.collide (s : State) (i : SlotId) (h : Header) : State :=
  if s.isEvery i then s.missAnchor i h else s.complete i .collided

/-- An entry becomes DEFERRED with its current due, behind those deferred before it (R90). -/
def State.defer (s : State) (i : SlotId) (h : Header) : State :=
  s.setStatus i h (.deferred ((h.status.due).getD 0) s.nextPlace)

/-- An entry offered for application, on time or late: deferred, collided or applied (R77, R66). The slot is checked at
this read (R96). -/
def State.arrive (s : State) (i : SlotId) (t : Timeliness) : State :=
  let s1 := s.checkSlot i
  match s1.entry i with
  | none => s1
  | some h =>
    if s1.maint.mode ≠ .run then s1.defer i h
    else if s1.lineBusy h.line then s1.collide i h
    else s1.applyEntry i h t

/-- An entry handled late (R66). -/
def State.handleLate (s : State) (i : SlotId) : State :=
  let s1 := s.checkSlot i
  match s1.entry i with
  | none => s1
  | some h =>
    match (s1.body i).late with
    | .fireLate => s1.arrive i .late
    | .dropLate =>
      if s1.isEvery i then s1.missAnchor i h else s1.complete i .droppedLate

/-- A PENDING entry judged against the count: ahead it stays, due it arrives, behind it is handled late (R62, R67,
R87). -/
def State.treatPending (s : State) (i : SlotId) : State :=
  match s.pendingDue i with
  | none => s
  | some d =>
    match judge d s.tb.count with
    | .ahead => s
    | .due => s.arrive i .onTime
    | .behind => s.handleLate i

/-! ## Arming (R86, R87) -/

/-- One matching ARMED entry is armed by an edge of time `stamp`: its slot is checked, its current due becomes the stamp
plus its delay, and it is judged. -/
def State.armEntry (s : State) (i : SlotId) (stamp : Count) : State :=
  let s1 := s.checkSlot i
  match s1.entry i with
  | none => s1
  | some h => (s1.setStatus i h (.pending (stamp + timingDelay (s1.body i).timing))).treatPending i

/-- Does an edge on a line match an ARMED entry (R86)? -/
def Header.awaits (h : Header) (line : AnyLine) (e : Edge) : Bool :=
  h.status.isArmed && h.anchor.any (fun a => a.line == line && a.edge.selects e)

/-- An edge is reported to the schedule: the matching ARMED entries are armed in post order, one at a time (R86). -/
def State.reportEdge (s : State) (line : AnyLine) (e : Edge) (stamp : Count) : State :=
  (s.entriesWhere (fun h => h.awaits line e)).foldl (fun s i => s.armEntry i stamp) s

/-! ## Advances and re-examination -/

/-- The PENDING entries whose current due is one of the values reached, in due-list order; `s` holds the count from
before the advance, and the values lie 1 to `k` ahead (R77). -/
def State.arriving (s : State) (k : Nat) : List SlotId := s.dueList.filter (fun i => 1 ≤ s.distanceOf i ∧ s.distanceOf i ≤ k)

/-- Each entry of a list that is still PENDING arrives, one after another (R77). -/
def State.arriveAll (s : State) (l : List SlotId) : State :=
  l.foldl (fun s i => if (s.pendingDue i).isSome then s.arrive i .onTime else s) s

/-- Re-examination, in the order of the due list from before the change (R67, R68). -/
def State.reexamine (s : State) (l : List SlotId) : State := l.foldl (fun s i => s.treatPending i) s

/-! ## Pulse ends and boundaries -/

/-- What becomes of an entry whose pulse has ended, the line being at the inactive level: a PULSE and the last pulse of
a finite TRAIN finish, any other TRAIN is between pulses, or SUSPENDED while firing is held (R80 to R82, R90). -/
def State.afterPulse (s : State) (i : SlotId) (h : Header) (r : Run) : State :=
  match r.train with
  | none => s.finish i h r.timeliness
  | some t =>
    if pulsesLeft (s.body i).action t then
      if s.maint.mode = .run then s.setStatus i h (.active { r with phase := .betweenPulses })
      else s.setStatus i h (.suspended { r with phase := .betweenPulses })
    else s.finish i h r.timeliness

/-- The pulse of an ACTIVE entry ends: the line takes the inactive level, then the entry goes on or finishes, then the
report of R89 (R80 to R82, R90). -/
def State.endPulse (s : State) (i : SlotId) : State :=
  let s1 := s.checkSlot i
  match s1.entry i with
  | none => s1
  | some h =>
    match h.status.activeRun with
    | none => s1
    | some r => ((s1.setScheduled h.line (s1.inactiveLevel i h)).afterPulse i h r).reportDrain

/-- A boundary of a SUSPENDED train: the pulse is skipped (R91). -/
def State.skipPulse (s : State) (i : SlotId) (h : Header) (r : Run) (t : TrainRun) (boundary : Nat) : State :=
  let t1 := boundaryAfter (s.body i).action { t with skipped := sat16 t.skipped } boundary
  let h1 := if s.isEvery i then h else { h with countB := sat16 h.countB }
  s.setStatus i h1 (.suspended { r with train := some t1 })

/-- A boundary of a train falls: a pulse begins when it is ACTIVE, and is skipped when it is SUSPENDED (R81). -/
def State.trainAt (s : State) (i : SlotId) (boundary : Nat) : State :=
  let s1 := s.checkSlot i
  match s1.entry i with
  | none => s1
  | some h =>
    match h.status with
    | .active r =>
      match r.train with
      | some t => s1.beginTrainPulse i h r t boundary
      | none => s1
    | .suspended r =>
      match r.train with
      | some t => s1.skipPulse i h r t boundary
      | none => s1
    | .pending _ => s1
    | .armed => s1
    | .deferred _ _ => s1

/-- The boundary that the train in a slot takes next, while one is to come and no pulse is in progress. -/
def EntryStatus.nextBoundary (t : EntryStatus) : Option Nat :=
  match t with
  | .active r => if r.phase.isPulse then none else r.train.bind (fun t => t.nextBoundary)
  | .suspended r => r.train.bind (fun t => t.nextBoundary)
  | .pending _ => none
  | .armed => none
  | .deferred _ _ => none

/-- The pulse end of the entry in a slot, while IN_PULSE. -/
def EntryStatus.pulseEnd (t : EntryStatus) : Option Nat :=
  t.activeRun.bind (fun r => match r.phase with | .inPulse e => some e | .betweenPulses => none)

/-! ## Firing held (R90, R92) -/

/-- An ACTIVE train between pulses becomes SUSPENDED (R90). -/
def Slot.suspendBetween (sl : Slot) : Slot :=
  match sl.entry with
  | none => sl
  | some h =>
    match h.status with
    | .active r =>
      if r.phase.isPulse then sl else { sl with entry := some { h with status := .suspended r } }
    | .pending _ => sl
    | .armed => sl
    | .suspended _ => sl
    | .deferred _ _ => sl

/-- Every train between pulses becomes SUSPENDED when the hub mode leaves RUN (R90). -/
def State.suspendTrains (s : State) : State := { s with pool := s.pool.map Slot.suspendBetween }

/-- One pulse cut at the drain limit: a PULSE completes CUT, a TRAIN becomes SUSPENDED with the cut pulse counted (R92).
The header's run part says which it is; the body is not read (R142). -/
def State.drainCut (s : State) (i : SlotId) : State :=
  match s.entry i with
  | none => s
  | some h =>
    match h.status.activeRun with
    | none => s
    | some r =>
      if r.phase.isPulse then
        match r.train with
        | none => s.withdraw i .cut
        | some _ =>
          ((s.cutPulse h).setStatus i h (.suspended { r with phase := .betweenPulses })).reportDrain
      else s

/-- The drain limit expires: every pulse still in progress is cut, in post order, and the report of R89 follows
(R92, R128). -/
def State.drainExpire (s : State) : State :=
  ((s.entriesWhere (fun h => h.status.isPulse)).foldl (fun s i => s.drainCut i) s).reportDrain

/-! ## Return to RUN (R93, R131) -/

/-- The first boundary of a grid at or after a time, from a boundary of it on (R93, log 28). -/
def firstBoundary (next period now : Nat) : Nat :=
  if now ≤ next then next else next + ((now - next + period - 1) / period) * period

/-- A SUSPENDED train with pulses left resumes at its first boundary at or after the return (R93 step 2). Whether pulses
are left is read from the body, so the slot of a train that only step 3 finishes is checked here already (log 32). A
train without a next boundary has pulses left only when three or more changed bits gave it another body; its boundary is
then the return itself (model's choice, log 35). -/
def State.resumeTrain (s : State) (i : SlotId) : State :=
  let s1 := s.checkSlot i
  match s1.entry i with
  | none => s1
  | some h =>
    match h.status.suspendedRun with
    | none => s1
    | some r =>
      match r.train with
      | none => s1
      | some t =>
        let a := (s1.body i).action
        if pulsesLeft a t then
          let b := firstBoundary (t.nextBoundary.getD s1.elapsed) (period a) s1.elapsed
          if b = s1.elapsed then s1.beginTrainPulse i h r t b
          else s1.setStatus i h
            (.active { r with phase := .betweenPulses, train := some { t with nextBoundary := some b } })
        else s1

/-- A SUSPENDED finite train whose remaining count is 0 finishes (R93 step 3). -/
def State.finishTrain (s : State) (i : SlotId) : State :=
  let s1 := s.checkSlot i
  match s1.entry i with
  | none => s1
  | some h =>
    match h.status.suspendedRun with
    | none => s1
    | some r =>
      match r.train with
      | none => s1
      | some t => if pulsesLeft (s1.body i).action t then s1 else s1.finish i h r.timeliness

/-- The schedule catches up: deferred entries, trains that resume, trains that have finished (R93). -/
def State.catchUp (s : State) : State :=
  let s1 := s.deferralOrder.foldl (fun s i => s.handleLate i) s
  let s2 := (s1.entriesWhere (fun h => h.status.suspendedRun.isSome)).foldl (fun s i => s.resumeTrain i) s1
  (s2.entriesWhere (fun h => h.status.suspendedRun.isSome)).foldl (fun s i => s.finishTrain i) s2

/-- The overrides of all sixteen lines are cleared (R131 step 2). -/
def State.clearOverrides (s : State) : State :=
  { s with lines := s.lines.map (fun l => { l with override := none }) }

/-- The hub mode returns to RUN with a reason (R131). -/
def State.returnToRun (s : State) (reason : ExitReason) : State :=
  (((s.setMaint { s.maint with mode := .run, drainDeadline := none }).clearOverrides).offerAll
    (.directExited reason)).catchUp

end Sys2Proof.Machine
end

