-- ==== Sys2Proof/Machine/Actions.lean ====
section
/-! DEFINITION. The commands and events of the action schedule: POST, CANCEL, CANCEL_LINE, QUERY_ENTRY, PULSE_END and
TRAIN_BOUNDARY (R57 to R73, R80 to R82). -/

namespace Sys2Proof.Machine

/-! ## POST -/

/-- The lowest-numbered FREE slot (R61). -/
def State.firstFree (s : State) : Option SlotId := allSlots.find? (fun i => (s.entry i).isNone)

/-- Check 7: an ABSOLUTE DROP_LATE entry whose due time is behind (R60). -/
def tooLate (b : Body) (count : Count) : Bool :=
  match b.timing, b.late with
  | .absolute d, .dropLate => judge d count == .behind
  | .absolute _, .fireLate => false
  | .anchored _ _, _ => false

/-- The status an entry is written with: an ABSOLUTE entry has current due D, an ANCHORED one is ARMED (R62). -/
def firstStatus (t : Timing) : EntryStatus :=
  match t with
  | .absolute d => .pending d
  | .anchored _ _ => .armed

/-- The entry is written into the slot with the next post order and counts 0 (R57, R61). -/
def State.writeEntry (s : State) (p : PortId) (i : SlotId) (q : PostRequest) : State :=
  let h : Header := ⟨p, q.line, q.tag, s.postOrder, q.anchor, 0, 0, firstStatus q.body.timing⟩
  { s.setSlot i ⟨q.body, [], some h⟩ with postOrder := s.postOrder + 1 }

/-- POST (R59 to R62). -/
def postBody (p : PortId) (b : PostBlock) (s : State) : State × Reply :=
  match readPost b with
  | none => (s, reply .badParam)
  | some q =>
    if s.holds p (lineRes q.line) = false then (s, reply .notHolder)
    else if (s.line q.line).mode ≠ .output then (s, reply .wrongState)
    else if (s.loaded.quota[p.val]).toNat ≤ s.slotsInUse p then (s, reply .noSlot)
    else
      match s.firstFree with
      | none => (s, reply .noSlot)
      | some i =>
        if tooLate q.body s.tb.count then (s, reply .tooLate)
        else ((s.writeEntry p i q).treatPending i, replyData [slotByte i])

/-! ## CANCEL, CANCEL_LINE, QUERY_ENTRY -/

/-- CANCEL (R69, R70). -/
def cancelBody (p : PortId) (id : Byte) (s : State) : State × Reply :=
  match readSlot id with
  | none => (s, reply .badParam)
  | some i =>
    match s.entry i with
    | none => (s, reply .noEntry)
    | some h => if h.owner = p then (s.withdraw i .cancelled, reply .ok) else (s, reply .notOwner)

/-- A port's entries on a line, in post order (R72). -/
def State.entriesOn (s : State) (p : PortId) (n : LineId) : List SlotId :=
  s.entriesWhere (fun h => h.owner == p && h.line == n)

/-- CANCEL_LINE (R72). -/
def cancelLineBody (p : PortId) (line : Byte) (s : State) : State × Reply :=
  match readLine line with
  | none => (s, reply .badParam)
  | some n =>
    let l := s.entriesOn p n
    (s.withdrawAll l .cancelled, replyData [BitVec.ofNat 8 l.length])

/-- The 16 bytes of QUERY_ENTRY (R73, R175). -/
def State.entryReport (s : State) (i : SlotId) : List Byte :=
  match s.entry i with
  | none => List.replicate 16 0
  | some h =>
    [h.status.code, portByte h.owner, lineByte h.line] ++ bytesOf 2 h.tag ++ [actionCode (s.body i).action] ++
      (match h.status.due with
        | none => List.replicate 6 0
        | some d => 1 :: bytesOf 5 d) ++
      bytesOf 2 h.countA ++ bytesOf 2 h.countB

/-- QUERY_ENTRY: the slot is checked before the report (R73). -/
def queryEntryBody (id : Byte) (s : State) : State × Reply :=
  match readSlot id with
  | none => (s, reply .badParam)
  | some i =>
    let t := s.checkSlot i
    (t, replyData (t.entryReport i))

/-! ## Events of a run -/

/-- The pulse end of the entry in a slot is reached (R80). -/
def State.pulseEndEvent (s : State) (i : SlotId) : State :=
  if reached s.elapsed ((s.entry i).bind (fun h => h.status.pulseEnd)) then s.endPulse i else s

/-- A boundary of the train in a slot falls (R81). -/
def State.boundaryEvent (s : State) (i : SlotId) : State :=
  match (s.entry i).bind (fun h => h.status.nextBoundary) with
  | none => s
  | some b => if b ≤ s.elapsed then s.trainAt i b else s

def execPost (p : PortId) (b : PostBlock) (s : State) : Answer := .next (s.take p 0x30 (postBytes b) (postBody p b))

def execCancel (p : PortId) (id : Byte) (s : State) : Answer := .next (s.take p 0x31 [id] (cancelBody p id))

def execCancelLine (p : PortId) (line : Byte) (s : State) : Answer :=
  .next (s.take p 0x32 [line] (cancelLineBody p line))

def execQueryEntry (p : PortId) (id : Byte) (s : State) : Answer := .next (s.take p 0x33 [id] (queryEntryBody id))

/-- PULSE_END (R80). -/
def execPulseEnd (i : SlotId) (s : State) : Answer := .next (s.pulseEndEvent i)

/-- TRAIN_BOUNDARY (R81). -/
def execTrainBoundary (i : SlotId) (s : State) : Answer := .next (s.boundaryEvent i)

end Sys2Proof.Machine
end

