-- ==== Sys2Proof/Machine/LineCheck.lean ====
section
/-! DEFINITION. The line check as shared operations: its start, its windows, the judgement of an edge, its completion
and its abort (R12, R134 to R137). -/

namespace Sys2Proof.Machine

/-- The set of one line. -/
def lineBit (n : LineId) : LineSet := (1 : LineSet) <<< n.val

/-- Is a line in a set? -/
def inSet (x : LineSet) (n : LineId) : Bool := x.getLsbD n.val

/-- The length of a window of a line, F + 16 elapsed ticks (R135). -/
def State.windowTicks (s : State) (n : LineId) : Nat := (s.line n).filterLen.toNat + 16

/-- A failure is written only if none is present yet (R135). -/
def Progress.fail (p : Progress) (expected : Edge) (observed : Observed) : Progress :=
  match p.failure with
  | some _ => p
  | none => { p with failure := some ⟨p.current, expected, observed⟩ }

/-- An edge accepted in TEST: the first edge on the current line decides window 2 or 3 (R135). -/
def Progress.judgeEdge (p : Progress) (n : LineId) (e : Edge) : Progress :=
  if p.current = n then
    match p.window with
    | .w1 => p
    | .w2 =>
      if p.rise = .undecided then
        if e = .rise then { p with rise := .met } else { p.fail .rise .wrongEdge with rise := .failed }
      else p
    | .w3 =>
      if p.fall = .undecided then
        if e = .fall then { p with fall := .met } else { p.fail .fall .wrongEdge with fall := .failed }
      else p
  else p

/-- The check state is replaced. -/
def State.setCheck (s : State) (c : Check) : State := s.setMaint { s.maint with check := c }

/-- An edge accepted in TEST goes to the check alone (R103). -/
def State.checkEdge (s : State) (n : LineId) (e : Edge) : State :=
  match s.maint.check with
  | .running p => s.setCheck (.running (p.judgeEdge n e))
  | .idle => s
  | .finished _ => s

/-- A tested line enters TEST with its mode and scheduled level saved (R12). -/
def State.enterTest (s : State) (n : LineId) : State :=
  let l := s.line n
  s.changeLine n { l with mode := .test, saved := some (l.mode, l.scheduled) }

/-- One line still in TEST is restored: to its saved mode and level while the requester holds it, else to its park mode
(R12). -/
def State.restoreLine (s : State) (requester : PortId) (n : LineId) : State :=
  let l := s.line n
  if l.mode = .test then
    match l.saved, s.holds requester (lineRes n) with
    | some (m, lev), true => s.changeLine n { l with mode := m, scheduled := lev, saved := none }
    | some _, false => s.park n
    | none, _ => s.park n
  else s

/-- Every line still in TEST is restored, in ascending order (R12). -/
def State.restoreLines (s : State) (requester : PortId) : State :=
  allLines.foldl (fun s n => s.restoreLine requester n) s

/-- The check ends with a result; CHECK_DONE goes to the requester where `notify` allows (R136, R137). -/
def State.endCheck (s : State) (requester : PortId) (r : CheckResult) (notify : Bool) : State :=
  let t := (s.restoreLines requester).setCheck (.finished r)
  if notify then t.offer requester (.checkDone r) else t

/-- A running check is aborted (R137). -/
def State.abortCheck (s : State) (notify : Bool) : State :=
  match s.maint.check with
  | .running p => s.endCheck p.requester ⟨.aborted, p.passed, p.completed, p.failure⟩ notify
  | .idle => s
  | .finished _ => s

/-- Is a running check testing a line (R29)? -/
def State.testing (s : State) (n : LineId) : Bool :=
  match s.maint.check with
  | .running p => inSet p.tested n
  | .idle => false
  | .finished _ => false

/-- The lowest-numbered tested line. -/
def firstTested (x : LineSet) : Option LineId := allLines.find? (fun n => inSet x n)

/-- The next tested line above a line (R135). -/
def nextTested (x : LineSet) (n : LineId) : Option LineId :=
  allLines.find? (fun m => inSet x m && decide (n.val < m.val))

/-- The start of a check (R134). -/
def State.startCheck (s : State) (requester : PortId) (tested : LineSet) : State :=
  match firstTested tested with
  | none => s
  | some n =>
    let p : Progress :=
      { requester := requester, tested := tested, current := n, window := .w1,
        windowEnd := s.elapsed + s.windowTicks n, rise := .undecided, fall := .undecided,
        passed := 0, completed := 0, failure := none }
    (allLines.filter (fun m => inSet tested m)).foldl (fun s m => s.enterTest m) (s.setCheck (.running p))

/-- A window that ends with no edge accepted fails with observed NONE (R135). -/
def Progress.closeWindow (p : Progress) : Progress :=
  match p.window with
  | .w1 => p
  | .w2 => if p.rise = .undecided then { p.fail .rise .nothing with rise := .failed } else p
  | .w3 => if p.fall = .undecided then { p.fail .fall .nothing with fall := .failed } else p

/-- The current line is completed, and passed if windows 2 and 3 were met (R135). -/
def Progress.completeLine (p : Progress) : Progress :=
  { p with
    completed := p.completed ||| lineBit p.current
    passed := if p.rise = .met ∧ p.fall = .met then p.passed ||| lineBit p.current else p.passed }

/-- The outcome of a completed check (R136). -/
def Progress.result (p : Progress) : CheckResult :=
  ⟨if p.passed = p.tested then .passed else .failed, p.passed, p.completed, p.failure⟩

/-- The end of the current window: the next window, the next line, or the completion of the check (R135, R136). -/
def State.windowEnds (s : State) (p : Progress) : State :=
  let q := p.closeWindow
  match p.window with
  | .w1 => s.setCheck (.running { q with window := .w2, windowEnd := s.elapsed + s.windowTicks p.current })
  | .w2 => s.setCheck (.running { q with window := .w3, windowEnd := s.elapsed + s.windowTicks p.current })
  | .w3 =>
    let c := q.completeLine
    match nextTested p.tested p.current with
    | some n =>
      s.setCheck (.running
        { c with current := n, window := .w1, windowEnd := s.elapsed + s.windowTicks n, rise := .undecided,
                 fall := .undecided })
    | none => s.endCheck p.requester c.result true

end Sys2Proof.Machine
end

