-- ==== Sys2Proof/Machine/Capture.lean ====
section
/-! DEFINITION. The capture unit: SUBSCRIBE, the sample of a tick, the acceptance of an edge and its delivery (R97 to
R109). -/

namespace Sys2Proof.Machine

/-- A cell of the subscription table takes a selection (R104). -/
def State.setCell (s : State) (p : PortId) (line : AnyLine) (e : EdgeSel) : State :=
  s.setSubs (s.subs.set p.val ((s.subs[p.val]).set line.val e))

/-- SUBSCRIBE (R104). -/
def subscribeBody (p : PortId) (line sel : Byte) (s : State) : State × Reply :=
  match readAnyLine line, readSel sel with
  | some l, some e => (s.setCell p l e, reply .ok)
  | _, _ => (s, reply .badParam)

/-! ## Sampling (R98, R99) -/

/-- One sample judged against a filter state; `count` is the count of the sample and `fl` the filter length F. A run
that has reached F + 1 samples stands until its acceptance is taken (R99, log 18). -/
def Filter.sample (f : Filter) (raw : Level) (count : Count) (fl : BitVec 4) : Filter :=
  match f.run with
  | none =>
    if raw = f.filtered then { f with sampled := raw }
    else { f with sampled := raw, run := some ⟨1, count, false⟩ }
  | some r =>
    if fl.toNat + 1 ≤ r.len then { f with sampled := raw }
    else if raw = f.filtered then { f with sampled := raw, run := none }
    else { f with sampled := raw, run := some { r with len := r.len + 1 } }

/-- The filter of a line after a sample; lines in OFF are not sampled (R98). -/
def State.sampled (s : State) (n : LineId) : Filter :=
  if (s.line n).mode = .off then s.filter n
  else (s.filter n).sample (s.rawUnder n (s.driveForSample n)) s.tb.count (s.line n).filterLen

/-- The outside levels are taken over and every enabled line is sampled (R98). -/
def State.sampleAll (s : State) (held level : LineSet) : State :=
  let t := { s with held := held, level := level }
  { t with filters := Vector.ofFn (fun n => t.sampled n), tickPins := none, free := t.free + 1 }

/-! ## Delivery (R105 to R109) -/

/-- A captured edge on a local or remote line. -/
structure CapturedEdge where
  line : AnyLine
  edge : Edge
  time : Count
  epoch : Byte
  halted : Bool
  stepped : Bool
  remote : Bool
deriving DecidableEq, Repr

/-- Its CAPTURE record, offered with lost count 0 (R106). -/
def CapturedEdge.record (x : CapturedEdge) : Record :=
  .capture x.line x.edge x.time x.epoch x.halted x.stepped x.remote 0

/-- Step 1: the record is offered to every port whose cell matches (R105). -/
def State.notifyEdge (s : State) (x : CapturedEdge) : State :=
  allPorts.foldl (fun s p => if (s.cell p x.line).selects x.edge then s.offer p x.record else s) s

/-- Steps 1 and 2 (R105). -/
def State.deliver (s : State) (x : CapturedEdge) : State := (s.notifyEdge x).reportEdge x.line x.edge x.time

/-- The forward queue admits an edge below 16 records, or drops it and counts the drop (R163). -/
def Link.enqueue (l : Link) (f : Forward) : Link :=
  if l.forward.length < 16 then { l with forward := l.forward ++ [f] } else { l with drops := sat16 l.drops }

/-- Step 3: a local edge is offered to the tie link when its line is exported and the link is LOCKED (R108). -/
def State.exportEdge (s : State) (n : LineId) (f : Forward) : State :=
  if inSet s.loaded.exported n ∧ s.link.state = .locked then s.setLink (s.link.enqueue f) else s

/-- The line number of a local line among all lines. -/
def localLine (n : LineId) : AnyLine := ⟨n.val, by omega⟩
/-- The remote line of the joined hub's local line: 16 + n (R109). -/
def remoteLine (n : LineId) : AnyLine := ⟨16 + n.val, by omega⟩

/-- The acceptance of the edge whose run on a line has reached F + 1 samples: the filtered level takes the new level, the
run ends, and the edge goes where the line's mode sends it (R99, R101, R103). -/
def State.acceptRun (s : State) (n : LineId) (r : FilterRun) : State :=
  let f := s.filter n
  let lev := f.filtered.opposite
  let e := Edge.to lev
  let s1 := s.setFilter n { f with filtered := lev, run := none }
  match (s.line n).mode with
  | .off => s
  | .test => s1.checkEdge n e
  | .input | .output | .parked =>
    (s1.deliver ⟨localLine n, e, r.stamp, s.tb.epoch, s.haltedFlag, r.stepped, false⟩).exportEdge n
      ⟨n, e, r.stamp, s.tb.epoch, s.haltedFlag, r.stepped⟩

/-- An edge is accepted when its run has reached F + 1 samples (R99). -/
def State.acceptEdge (s : State) (n : LineId) : State :=
  match (s.filter n).run with
  | none => s
  | some r => if (s.line n).filterLen.toNat + 1 ≤ r.len then s.acceptRun n r else s

/-- A remote edge is delivered on line 16 + n, flagged REMOTE, and not offered back (R109). -/
def State.remoteEdge (s : State) (f : Forward) : State :=
  s.deliver ⟨remoteLine f.line, f.edge, f.time, f.epoch, f.halted, f.stepped, true⟩

def execSubscribe (p : PortId) (line sel : Byte) (s : State) : Answer :=
  .next (s.take p 0x22 [line, sel] (subscribeBody p line sel))

/-- LINE_SAMPLE (R98). -/
def execLineSample (held level : LineSet) (s : State) : Answer := .next (s.sampleAll held level)

/-- EDGE_ACCEPTED (R99). -/
def execEdgeAccepted (n : LineId) (s : State) : Answer := .next (s.acceptEdge n)

end Sys2Proof.Machine
end

