-- ==== Sys2Proof/Machine/Claims.lean ====
section
/-! DEFINITION. Claims and leases: the claim-end handling, the grant, the four claim commands and the two expiries
(R15 to R34). -/

namespace Sys2Proof.Machine

/-! ## Leases and the grant -/

/-- When a lease granted or renewed now expires; a lease of 0 has no expiry (R17, R18). -/
def leaseEnd (now : Nat) (ms : BitVec 16) : Option Nat := if ms = 0 then none else some (now + msTicks ms)

/-- Step 5 of the claim-end handling: the head waiter is granted the resource, or it becomes free (R27, R30). -/
def State.passOn (s : State) (r : ResourceId) : State :=
  match (s.claim r).waiters with
  | [] => s.setClaim r ClaimRec.free
  | w :: rest =>
    let t := (s.setClaim r ⟨some w.port, w.leaseMs, leaseEnd s.elapsed w.leaseMs, rest⟩).offer w.port
      (.claim r .granted)
    if rest.isEmpty then t else t.offer w.port (.claim r .wanted)

/-! ## Ending a claim -/

/-- The causes that use the claim-end handling (R27). -/
inductive EndCause where
  | released | revoked | portReset
deriving DecidableEq, Repr

/-- The outcome of the entries withdrawn (R28). -/
def EndCause.outcome : EndCause → EntryOutcome
  | .released => .released
  | .revoked => .revoked
  | .portReset => .cancelled

/-- Steps 1 to 3 for a line: withdraw the holder's entries in post order, park the line, abort a check that tests it
(R27 to R29). -/
def State.clearLine (s : State) (p : PortId) (n : LineId) (c : EndCause) : State :=
  let s1 := s.withdrawAll (s.entriesWhere (fun h => h.owner == p && h.line == n)) c.outcome
  let s2 := s1.park n
  if s2.testing n then s2.abortCheck (c != .portReset) else s2

/-- The maintenance unit's actions at the end of the MX claim (R32). -/
def State.clearMX (s : State) (c : EndCause) : State :=
  let s1 := if s.maint.mode = .run then s else s.returnToRun .mxLost
  s1.abortCheck (c != .portReset)

/-- The claim on a resource ends (R27, R31, R32): clear away, report a revocation, pass on. -/
def State.endClaim (s : State) (r : ResourceId) (c : EndCause) : State :=
  match (s.claim r).holder with
  | none => s
  | some p =>
    let s1 :=
      if h : r.val < 16 then s.clearLine p ⟨r.val, h⟩ c
      else if r = resMX then s.clearMX c
      else s
    let s2 := if c = .revoked then s1.offer p (.claim r .revoked) else s1
    s2.passOn r

/-! ## Commands -/

/-- CLAIM (R18, R19). -/
def claimBody (p : PortId) (resource : Byte) (waitMs leaseMs : BitVec 16) (s : State) : State × Reply :=
  match readResource resource with
  | none => (s, reply .badParam)
  | some r =>
    let c := s.claim r
    match c.holder with
    | none =>
      (s.setClaim r { c with holder := some p, leaseMs := leaseMs, expiry := leaseEnd s.elapsed leaseMs }, reply .ok)
    | some h =>
      if h = p then (s, reply .already)
      else if c.waiters.any (fun w => w.port == p) then (s, reply .already)
      else if waitMs = 0 then (s, reply .busy)
      else
        let t := s.setClaim r { c with waiters := c.waiters ++ [⟨p, s.elapsed + msTicks waitMs, leaseMs⟩] }
        (if c.waiters.isEmpty then t.offer h (.claim r .wanted) else t, reply .accepted)

/-- RELEASE (R20). -/
def releaseBody (p : PortId) (resource : Byte) (s : State) : State × Reply :=
  match readResource resource with
  | none => (s, reply .badParam)
  | some r =>
    let c := s.claim r
    if c.holder = some p then (s.endClaim r .released, reply .ok)
    else if c.waiters.any (fun w => w.port == p) then
      (s.setClaim r { c with waiters := c.waiters.filter (fun w => w.port != p) }, reply .ok)
    else (s, reply .notHolder)

/-- A lease restarts; a claim without a lease is unchanged (R21). -/
def ClaimRec.renew (c : ClaimRec) (now : Nat) : ClaimRec :=
  if c.leaseMs = 0 then c else { c with expiry := leaseEnd now c.leaseMs }

/-- RENEW of every resource that a port holds (R21 step 5). -/
def State.renewAll (s : State) (p : PortId) : State :=
  { s with claims := s.claims.map (fun c => if c.holder = some p then c.renew s.elapsed else c) }

/-- RENEW; 0xFF means ALL (R21). -/
def renewBody (p : PortId) (resource : Byte) (s : State) : State × Reply :=
  if resource = 0xFF then (s.renewAll p, reply .ok)
  else
    match readResource resource with
    | none => (s, reply .badParam)
    | some r =>
      if s.holds p r then (s.setClaim r ((s.claim r).renew s.elapsed), reply .ok) else (s, reply .notHolder)

/-- The remaining lease in milliseconds, rounded up; 0 without a lease (R22). At the tick of the expiry, before LEASE_EXPIRY
is taken, nothing remains and the value is 0 (log 31). -/
def ClaimRec.remaining (c : ClaimRec) (now : Nat) : Nat :=
  match c.expiry with
  | none => 0
  | some e => (e - now + 9999) / 10000

/-- The result data of QUERY_CLAIM, 7 bytes (R22, R175). -/
def ClaimRec.report (c : ClaimRec) (now : Nat) : List Byte :=
  [portOrNone c.holder] ++ bytesOfNat 2 (c.remaining now) ++ [BitVec.ofNat 8 c.waiters.length] ++
    ((c.waiters.map (fun (w : Waiter) => portByte w.port)) ++ [0xFF, 0xFF, 0xFF]).take 3

/-- QUERY_CLAIM (R22). -/
def queryClaimBody (resource : Byte) (s : State) : State × Reply :=
  match readResource resource with
  | none => (s, reply .badParam)
  | some r => (s, replyData ((s.claim r).report s.elapsed))

/-! ## Expiries -/

/-- The lease of a held resource expires when its expiry is reached (R23). -/
def State.expireLease (s : State) (r : ResourceId) : State :=
  if reached s.elapsed (s.claim r).expiry then s.endClaim r .revoked else s

/-- The first waiter in list order whose deadline is reached, and the list without it (R24, log 20). -/
def timeOut (now : Nat) : List Waiter → Option (Waiter × List Waiter)
  | [] => none
  | w :: t => if w.deadline ≤ now then some (w, t) else (timeOut now t).map (fun x => (x.1, w :: x.2))

/-- A wait times out (R24). -/
def State.expireWait (s : State) (r : ResourceId) : State :=
  match timeOut s.elapsed (s.claim r).waiters with
  | none => s
  | some (w, rest) => (s.setClaim r { s.claim r with waiters := rest }).offer w.port (.claim r .timedOut)

/-! ## Port reset (R34) -/

/-- Every wait of a port is dropped; no one is told (R34 step 1). -/
def State.dropWaits (s : State) (p : PortId) : State :=
  { s with claims := s.claims.map (fun c => { c with waiters := c.waiters.filter (fun w => w.port != p) }) }

/-- The claim table's part of a port reset: waits dropped, then every claim of the port ended in ascending resource
number (R34). -/
def State.dropClaims (s : State) (p : PortId) : State :=
  allResources.foldl (fun s r => if s.holds p r then s.endClaim r .portReset else s) (s.dropWaits p)

def execClaim (p : PortId) (resource : Byte) (waitMs leaseMs : BitVec 16) (s : State) : Answer :=
  .next (s.take p 0x10 ([resource] ++ bytesOf 2 waitMs ++ bytesOf 2 leaseMs) (claimBody p resource waitMs leaseMs))

def execRelease (p : PortId) (resource : Byte) (s : State) : Answer :=
  .next (s.take p 0x11 [resource] (releaseBody p resource))

def execRenew (p : PortId) (resource : Byte) (s : State) : Answer :=
  .next (s.take p 0x12 [resource] (renewBody p resource))

def execQueryClaim (p : PortId) (resource : Byte) (s : State) : Answer :=
  .next (s.take p 0x13 [resource] (queryClaimBody resource))

/-- LEASE_EXPIRY (R23). -/
def execLeaseExpiry (r : ResourceId) (s : State) : Answer := .next (s.expireLease r)

/-- WAIT_DEADLINE (R24). -/
def execWaitDeadline (r : ResourceId) (s : State) : Answer := .next (s.expireWait r)

end Sys2Proof.Machine
end

