-- ==== Sys2Proof/Machine/Frames.lean ====
section
/-! DEFINITION. The events of a frame that are no command: its start, its parameter bytes, an unknown code and its end;
and what data out sends in each frame state (R168 to R172). -/

namespace Sys2Proof.Machine

/-- The select of a port falls: a frame begins with the status byte fixed; while RESETn is low the frame is ignored
(R168, R172). -/
def State.startFrame (s : State) (p : PortId) : State :=
  if (s.port p).selected then s
  else
    s.setPort p { s.port p with
      selected := true, frame := if s.phase = .pinReset then .idle else .code (s.statusByte p) }

/-- The frame after a byte that completes a known code with parameters, or a parameter byte that is not the last;
otherwise the frame as it was (R168). -/
def Frame.gather (f : Frame) (byte : Byte) : Frame :=
  match f with
  | .code _ => if 0 < (paramCount byte).getD 0 then .parameters byte [] else f
  | .parameters c got => if got.length + 1 < (paramCount c).getD 0 then .parameters c (got ++ [byte]) else f
  | .idle => f
  | .response _ _ => f
  | .ignore => f

/-- A byte is gathered at a port. -/
def State.gatherByte (s : State) (p : PortId) (byte : Byte) : State :=
  s.setPort p { s.port p with frame := (s.port p).frame.gather byte }

/-- The frame after an unknown code (R171). -/
def Frame.unknown (f : Frame) (code : Byte) : Frame :=
  match f with
  | .code _ => if (paramCount code).isNone then .ignore else f
  | .parameters _ _ => f
  | .idle => f
  | .response _ _ => f
  | .ignore => f

/-- A code byte that names no command is complete at a port. -/
def State.unknownCode (s : State) (p : PortId) (code : Byte) : State :=
  s.setPort p { s.port p with frame := (s.port p).frame.unknown code }

/-- Is the end of a frame in this state a frame fault (R170)? -/
def Frame.faulty (f : Frame) (clocked : Bool) : Bool :=
  match f with
  | .code _ => clocked
  | .parameters _ _ => true
  | .idle => false
  | .response _ _ => false
  | .ignore => false

/-- A port whose select rises (R168, R170, R172). -/
def Port.endFrame (q : Port) (clocked ready : Bool) : Port :=
  let t := if q.frame.faulty clocked then q.frameFault ready else q
  { t with frame := .idle, selected := false }

/-- The select of a port rises. -/
def State.endFrame (s : State) (p : PortId) (clocked : Bool) : State :=
  if (s.port p).selected then s.setPort p ((s.port p).endFrame clocked (s.phase == .ready)) else s

/-! ## Data out -/

/-- Byte `k`, from the entry into the frame state, that data out sends in it; none is high impedance. The records of a
TAKE_NOTICES response that have not left yet are read from the queue, and 0x00 follows the last byte (R117, R118, R168,
R169, R171). -/
def Port.dataOut (q : Port) (k : Nat) : Option Byte :=
  match q.frame with
  | .idle => none
  | .code status => some status
  | .parameters _ _ => some 0
  | .response sent recordsLeft => some (byteAt (sent ++ (q.queue.take recordsLeft).flatMap Record.bytes) k)
  | .ignore => some (byteAt [ResultCode.unknownCommand.code] k)

/-- What data out of a port sends; while RESETn is low it is high impedance (R172). -/
def State.dataOut (s : State) (p : PortId) (k : Nat) : Option Byte :=
  if s.phase = .pinReset then none else (s.port p).dataOut k

/-- FRAME_START (R168). -/
def execFrameStart (p : PortId) (s : State) : Answer := .next (s.startFrame p)

/-- PARAMETER_BYTE_GATHERED (R168). -/
def execParameterByteGathered (p : PortId) (byte : Byte) (s : State) : Answer :=
  .next (if s.phase = .pinReset then s else s.gatherByte p byte)

/-- UNKNOWN_COMMAND (R171). -/
def execUnknownCommand (p : PortId) (code : Byte) (s : State) : Answer :=
  .next (if s.phase = .pinReset then s else s.unknownCode p code)

/-- FRAME_END (R170). -/
def execFrameEnd (p : PortId) (clocked : Bool) (s : State) : Answer := .next (s.endFrame p clocked)

end Sys2Proof.Machine
end

