-- ==== Sys2Proof/Machine/Lines.lean ====
section
/-! DEFINITION. The commands of the line unit: LINE_CONFIG and LINE_READ (R8 to R10). -/

namespace Sys2Proof.Machine

/-- The record after an accepted LINE_CONFIG (R9). -/
def LineRec.configure (l : LineRec) (m : LineMode) (initial : Level) (f : BitVec 4) : LineRec :=
  { l with
    mode := m
    scheduled := if m = .output ∧ l.mode ≠ .output then initial else l.scheduled
    override := if m = .output then l.override else none
    filterLen := f }

/-- LINE_CONFIG (R8, R9). -/
def lineConfigBody (p : PortId) (line mode level filter : Byte) (s : State) : State × Reply :=
  match readLine line, readMode mode, readLevel level, readFilter filter with
  | some n, some m, some lev, some f =>
    if s.holds p (lineRes n) = false then (s, reply .notHolder)
    else if (s.line n).mode = .test then (s, reply .wrongState)
    else if s.lineOccupied n ∧ m ≠ .output then (s, reply .wrongState)
    else (s.changeLine n ((s.line n).configure m lev f), reply .ok)
  | _, _, _, _ => (s, reply .badParam)

/-- The byte of a line in LINE_READ: mode, pin level in bit 4, filtered level in bit 5 (R10). -/
def State.lineStatus (s : State) (n : LineId) : Byte :=
  (s.line n).mode.code ||| (levelCode (s.pinLevel n) <<< 4) ||| (levelCode (s.filter n).filtered <<< 5)

/-- LINE_READ (R10). -/
def lineReadBody (s : State) : State × Reply := (s, replyData (allLines.map (fun n => s.lineStatus n)))

def execLineConfig (p : PortId) (line mode level filter : Byte) (s : State) : Answer :=
  .next (s.take p 0x20 [line, mode, level, filter] (lineConfigBody p line mode level filter))

def execLineRead (p : PortId) (s : State) : Answer := .next (s.take p 0x21 [] lineReadBody)

end Sys2Proof.Machine
end

