-- ==== Sys2Proof/Machine/Maintenance.lean ====
section
/-! DEFINITION. The commands and events of the maintenance unit: direct drive and the line check (R126 to R138). -/

namespace Sys2Proof.Machine

/-! ## Direct drive -/

/-- The hub mode leaves RUN: to DRAINING while a pulse is in progress, else to DIRECT; trains between pulses are
suspended (R90, R126). -/
def State.enterDirect (s : State) : State × Reply :=
  if s.pulseInProgress then
    let t := (s.setMaint { s.maint with
      mode := .draining, drainDeadline := some (s.elapsed + s.maint.drainLimit.toNat) }).suspendTrains
    (if s.maint.drainLimit = 0 then t.drainExpire else t, reply .accepted)
  else
    (((s.setMaint { s.maint with mode := .direct }).suspendTrains).offerAll .directEntered, reply .ok)

/-- Is a check running? -/
def Check.isRunning : Check → Bool
  | .running _ => true
  | .idle => false
  | .finished _ => false

/-- ENTER_DIRECT (R126). -/
def enterDirectBody (p : PortId) (s : State) : State × Reply :=
  if s.holds p resMX = false then (s, reply .notHolder)
  else if s.maint.check.isRunning then (s, reply .wrongState)
  else if s.maint.mode ≠ .run then (s, reply .already)
  else s.enterDirect

/-- The drain limit expires while DRAINING (R128). -/
def State.drainDeadlineEvent (s : State) : State :=
  if s.maint.mode = .draining ∧ reached s.elapsed s.maint.drainDeadline then s.drainExpire else s

/-- EXIT_DIRECT (R131). -/
def exitDirectBody (p : PortId) (s : State) : State × Reply :=
  if s.holds p resMX = false then (s, reply .notHolder)
  else if s.maint.mode = .run then (s, reply .wrongState)
  else (s.returnToRun .command, reply .ok)

/-- DIRECT_DRIVE (R129). -/
def directDriveBody (p : PortId) (line drive : Byte) (s : State) : State × Reply :=
  match readLine line, readDrive drive with
  | some n, some o =>
    if s.holds p resMX = false then (s, reply .notHolder)
    else if s.maint.mode ≠ .direct then (s, reply .wrongState)
    else if (s.line n).mode ≠ .output ∧ (s.line n).mode ≠ .parked then (s, reply .wrongState)
    else (s.setLine n { s.line n with override := o }, reply .ok)
  | _, _ => (s, reply .badParam)

/-! ## Line check -/

/-- Does a port hold every line of a set? -/
def State.holdsAll (s : State) (p : PortId) (x : LineSet) : Bool :=
  allLines.all (fun n => !inSet x n || s.holds p (lineRes n))

/-- Has any line of a set an occupied entry? -/
def State.anyOccupied (s : State) (x : LineSet) : Bool := allLines.any (fun n => inSet x n && s.lineOccupied n)

/-- LINE_CHECK (R133). -/
def lineCheckBody (p : PortId) (tested : LineSet) (s : State) : State × Reply :=
  if tested = 0 then (s, reply .badParam)
  else if s.holds p resMX = false then (s, reply .notHolder)
  else if s.maint.check.isRunning then (s, reply .busy)
  else if s.maint.mode ≠ .run then (s, reply .wrongState)
  else if s.holdsAll p tested = false then (s, reply .notHolder)
  else if s.anyOccupied tested then (s, reply .wrongState)
  else (s.startCheck p tested, reply .accepted)

/-- The window end of a running check is reached (R135). -/
def State.windowEvent (s : State) : State :=
  match s.maint.check with
  | .running p => if p.windowEnd ≤ s.elapsed then s.windowEnds p else s
  | .idle => s
  | .finished _ => s

/-- ABORT_CHECK (R137). -/
def abortCheckBody (p : PortId) (s : State) : State × Reply :=
  if s.holds p resMX = false then (s, reply .notHolder)
  else if s.maint.check.isRunning = false then (s, reply .wrongState)
  else (s.abortCheck true, reply .ok)

/-- A first failure in result data; the bytes of an absent one are free values (R176, log 14). -/
def failureBytes (f : Option Failure) (free : Nat) : List Byte :=
  match f with
  | some f => [1, lineByte f.line, edgeCode f.expected, f.observed.code]
  | none => [0, Config.unstatedByte free 0, Config.unstatedByte free 1, Config.unstatedByte free 2]

/-- The ten bytes of CHECK_RESULT (R138, R176). -/
def Check.report (c : Check) (free : Nat) : List Byte :=
  match c with
  | .idle => [0, 0] ++ bytesOf 2 (0 : LineSet) ++ bytesOf 2 (0 : LineSet) ++ failureBytes none free
  | .running p => [1, 4] ++ bytesOf 2 p.passed ++ bytesOf 2 p.completed ++ failureBytes p.failure free
  | .finished r => [2, r.outcome.code] ++ bytesOf 2 r.passed ++ bytesOf 2 r.completed ++ failureBytes r.failure free

/-- CHECK_RESULT (R138). -/
def checkResultBody (s : State) : State × Reply := (s.bumpFree, replyData (s.maint.check.report s.free))

def execEnterDirect (p : PortId) (s : State) : Answer := .next (s.take p 0x60 [] (enterDirectBody p))

/-- DRAIN_LIMIT_EXPIRY (R128). -/
def execDrainLimitExpiry (s : State) : Answer := .next s.drainDeadlineEvent

def execExitDirect (p : PortId) (s : State) : Answer := .next (s.take p 0x61 [] (exitDirectBody p))

def execDirectDrive (p : PortId) (line drive : Byte) (s : State) : Answer :=
  .next (s.take p 0x62 [line, drive] (directDriveBody p line drive))

def execLineCheck (p : PortId) (tested : LineSet) (s : State) : Answer :=
  .next (s.take p 0x63 (bytesOf 2 tested) (lineCheckBody p tested))

/-- CHECK_WINDOW_END (R135). -/
def execCheckWindowEnd (s : State) : Answer := .next s.windowEvent

def execAbortCheck (p : PortId) (s : State) : Answer := .next (s.take p 0x64 [] (abortCheckBody p))

def execCheckResult (p : PortId) (s : State) : Answer := .next (s.take p 0x65 [] checkResultBody)

end Sys2Proof.Machine
end

