-- ==== Sys2Proof/Machine/Notices.lean ====
section
/-! DEFINITION. The commands of the notice queues and the status block: TAKE_NOTICES with the removal of its records,
PEEK_NOTICE, SET_ATTN_MASK, SNAPSHOT (R117 to R121). -/

namespace Sys2Proof.Machine

/-- TAKE_NOTICES: max 1 to 8; the response count is fixed (R117). -/
def takeNoticesBody (p : PortId) (max : Byte) (s : State) : State × Reply :=
  if max = 0 ∨ 8 < max.toNat then (s, reply .badParam)
  else
    let k := min max.toNat (s.port p).queue.length
    (s, ⟨.ok, [BitVec.ofNat 8 k], k⟩)

/-- A record of the response leaves the head of the queue when its twelfth byte has been sent (R117). -/
def Port.removeSent (q : Port) : Port :=
  match q.frame, q.queue with
  | .response sent (k + 1), r :: rest => { q with queue := rest, frame := .response (sent ++ r.bytes) k }
  | _, _ => q

/-- PEEK_NOTICE: the head record, or twelve bytes of 0x00 (R119). -/
def peekBody (p : PortId) (s : State) : State × Reply :=
  (s, replyData (match (s.port p).queue with | [] => List.replicate 12 0 | r :: _ => r.bytes))

/-- SET_ATTN_MASK: every value is valid (R120). -/
def setMaskBody (p : PortId) (mask : Byte) (s : State) : State × Reply :=
  (s.setPort p { s.port p with mask := mask }, reply .ok)

/-- The resources a port holds, bit n for resource n; waits are not marked (R121). -/
def State.heldSet (s : State) (p : PortId) : BitVec 24 :=
  allResources.foldl (fun x r => if s.holds p r then x ||| ((1 : BitVec 24) <<< r.val) else x) 0

/-- The 16-byte status block (R121). -/
def State.snapshotBytes (s : State) (p : PortId) : List Byte :=
  let q := s.port p
  [portByte p, BitVec.ofNat 8 q.queue.length, q.lost, q.overrun, q.latches] ++ bytesOf 3 (s.heldSet p) ++
    [BitVec.ofNat 8 (s.slotsInUse p), s.loaded.quota[p.val]] ++ bytesOf 4 (s.tb.count.setWidth 32) ++
    [s.tb.epoch, s.maint.mode.code ||| (s.link.state.code <<< 4)]

/-- SNAPSHOT: the block, then both latches and the overrun counter are cleared (R121). -/
def snapshotBody (p : PortId) (s : State) : State × Reply :=
  (s.setPort p (s.port p).acknowledge, replyData (s.snapshotBytes p))

def execTakeNotices (p : PortId) (max : Byte) (s : State) : Answer := .next (s.take p 0x50 [max] (takeNoticesBody p max))

/-- NOTICE_RECORD_REMOVED (R117). -/
def execNoticeRecordRemoved (p : PortId) (s : State) : Answer := .next (s.setPort p (s.port p).removeSent)

def execPeekNotice (p : PortId) (s : State) : Answer := .next (s.take p 0x51 [] (peekBody p))

def execSetAttnMask (p : PortId) (mask : Byte) (s : State) : Answer := .next (s.take p 0x52 [mask] (setMaskBody p mask))

def execSnapshot (p : PortId) (s : State) : Answer := .next (s.take p 0x53 [] (snapshotBody p))

end Sys2Proof.Machine
end

