-- ==== Sys2Proof/Machine/PoolIntegrity.lean ====
section
/-! DEFINITION. The commands and events of pool integrity: the scrub, reading and clearing, and a stored bit that
changes of itself (R141, R143, R149, R150). -/

namespace Sys2Proof.Machine

/-- A scrub visit: the slot at the scrub position is checked, the position advances, and the next visit is 64 elapsed
ticks on (R143). -/
def State.scrub (s : State) (due : Nat) : State :=
  let i := s.integ.scrubPos
  let t := s.checkSlot i
  t.setInteg { t.integ with scrubPos := i + 1, scrubDue := some (due + 64) }

/-- The scrub's next visit is reached (R143). -/
def State.scrubEvent (s : State) : State :=
  match s.integ.scrubDue with
  | none => s
  | some t => if t ≤ s.elapsed then s.scrub t else s

/-- The counters of a port in result data. -/
def ErrorCounters.bytes (c : ErrorCounters) : List Byte := [c.corrected, c.uncorrectable, c.threshold, flagByte c.mark]

/-- The first-error record in result data; the bytes of an absent one are free values (R176, log 14). -/
def firstErrorBytes (e : Option FirstError) (free : Nat) : List Byte :=
  match e with
  | some e => [1, slotByte e.slot, e.severity.code, portOrNone e.owner] ++ bytesOf 4 e.time
  | none => 0 :: (List.range 7).map (fun k => Config.unstatedByte free k)

/-- INTEGRITY_READ, 25 bytes (R149, R176). -/
def integrityReadBody (s : State) : State × Reply :=
  (s.bumpFree, replyData ((allPorts.map (fun p => (s.errors p).bytes)).flatten ++ [slotByte s.integ.scrubPos] ++
    firstErrorBytes s.integ.firstError s.free))

/-- The counters and the mark of a port cleared, its threshold kept (R150). -/
def ErrorCounters.clear (c : ErrorCounters) : ErrorCounters := { c with corrected := 0, uncorrectable := 0, mark := false }

/-- INTEGRITY_CLEAR (R150). -/
def integrityClearBody (p : PortId) (s : State) : State × Reply :=
  if s.holds p resMX = false then (s, reply .notHolder)
  else (s.setInteg { s.integ with counters := s.integ.counters.map ErrorCounters.clear, firstError := none }, reply .ok)

/-- A stored bit of a body changes: a bit that was right is wrong, and a bit that was wrong is right again (R141). -/
def Slot.flip (sl : Slot) (bit : Nat) : Slot :=
  { sl with wrongBits := if bit ∈ sl.wrongBits then sl.wrongBits.erase bit else bit :: sl.wrongBits }

/-- SCRUB_VISIT (R143). -/
def execScrubVisit (s : State) : Answer := .next s.scrubEvent

def execIntegrityRead (p : PortId) (s : State) : Answer := .next (s.take p 0x66 [] integrityReadBody)

def execIntegrityClear (p : PortId) (s : State) : Answer := .next (s.take p 0x67 [] (integrityClearBody p))

/-- STORED_BIT_ERROR (R141, log 29); while RESETn is low every body holds the free pattern (R151). -/
def execStoredBitError (i : SlotId) (bit : Nat) (s : State) : Answer :=
  .next (if s.phase = .pinReset then s else s.setSlot i ((s.slot i).flip bit))

end Sys2Proof.Machine
end

