-- ==== Sys2Proof/Machine/Profile.lean ====
section
/-! DEFINITION. The commands of the profile store (R184 to R186). -/

namespace Sys2Proof.Machine

/-- Is a slot sealed (R181)? -/
def State.sealed (s : State) (i : Fin 3) : Bool := s.storeByte i.val offSeal == sealedCode

/-- Is a slot retired (R181)? -/
def State.retired (s : State) (i : Fin 3) : Bool := s.storeByte i.val offRetire == retiredCode

/-- The check code computed over bytes 0x00 to 0x3B of a slot (R188). -/
def State.slotCheck (s : State) (i : Fin 3) : BitVec 16 := crc (s.storeBytes i.val 0 0x3C)

/-- PROFILE_READ (R184). -/
def profileReadBody (slot offset length : Byte) (s : State) : State × Reply :=
  match readProfileSlot slot with
  | none => (s, reply .badParam)
  | some i =>
    if 63 < offset.toNat ∨ length = 0 ∨ 16 < length.toNat ∨ 64 < offset.toNat + length.toNat then (s, reply .badParam)
    else if s.storeBusy.isSome then (s, reply .busy)
    else (s, replyData (s.storeBytes i.val offset.toNat length.toNat))

/-- PROFILE_WRITE (R185). -/
def profileWriteBody (p : PortId) (slot offset byte : Byte) (s : State) : State × Reply :=
  match readProfileSlot slot with
  | none => (s, reply .badParam)
  | some i =>
    if offMarkers ≤ offset.toNat then (s, reply .badParam)
    else if s.holds p resMX = false then (s, reply .notHolder)
    else if s.storeBusy.isSome then (s, reply .busy)
    else if s.sealed i then (s, reply .wrongState)
    else (s.programStore [(storeAddr i.val offset.toNat, byte)], reply .ok)

/-- The bits that sealing a slot ORs into it: the check code and the sealed code (R186). -/
def State.sealBits (s : State) (i : Fin 3) : List Host.Cell :=
  let c := s.slotCheck i
  [(storeAddr i.val offCheck, (c >>> 8).setWidth 8), (storeAddr i.val (offCheck + 1), c.setWidth 8),
    (storeAddr i.val offSeal, sealedCode)]

/-- PROFILE_SEAL (R186). -/
def profileSealBody (p : PortId) (slot : Byte) (s : State) : State × Reply :=
  match readProfileSlot slot with
  | none => (s, reply .badParam)
  | some i =>
    if s.holds p resMX = false then (s, reply .notHolder)
    else if s.storeBusy.isSome then (s, reply .busy)
    else if s.sealed i then (s, reply .already)
    else (s.programStore (s.sealBits i), reply .ok)

/-- PROFILE_RETIRE (R186). -/
def profileRetireBody (p : PortId) (slot : Byte) (s : State) : State × Reply :=
  match readProfileSlot slot with
  | none => (s, reply .badParam)
  | some i =>
    if s.holds p resMX = false then (s, reply .notHolder)
    else if s.storeBusy.isSome then (s, reply .busy)
    else if s.retired i then (s, reply .already)
    else (s.programStore [(storeAddr i.val offRetire, retiredCode)], reply .ok)

/-- The busy time ends (R184). -/
def State.busyEnd (s : State) : State :=
  if reached s.elapsed (s.storeBusy.map (fun b => b.until_)) then { s with storeBusy := none } else s

def execProfileRead (p : PortId) (slot offset length : Byte) (s : State) : Answer :=
  .next (s.take p 0x80 [slot, offset, length] (profileReadBody slot offset length))

def execProfileWrite (p : PortId) (slot offset byte : Byte) (s : State) : Answer :=
  .next (s.take p 0x81 [slot, offset, byte] (profileWriteBody p slot offset byte))

def execProfileSeal (p : PortId) (slot : Byte) (s : State) : Answer :=
  .next (s.take p 0x82 [slot] (profileSealBody p slot))

def execProfileRetire (p : PortId) (slot : Byte) (s : State) : Answer :=
  .next (s.take p 0x83 [slot] (profileRetireBody p slot))

/-- PROFILE_BUSY_END (R184). -/
def execProfileBusyEnd (s : State) : Answer := .next s.busyEnd

end Sys2Proof.Machine
end

