-- ==== Sys2Proof/Machine/Resets.lean ====
section
/-! DEFINITION. SOFT_RESET, PORT_RESET and IDENT (R177 to R179). -/

namespace Sys2Proof.Machine

/-! ## SOFT_RESET (R179) -/

/-- A check after a soft reset: a running one has ended ABORTED (R137). -/
def Check.abandon (c : Check) : Check :=
  match c with
  | .running p => .finished ⟨.aborted, p.passed, p.completed, p.failure⟩
  | .idle => .idle
  | .finished r => .finished r

/-- Parts 1 to 3: the hub mode RUN and no check running, every slot FREE, every claim cleared. -/
def State.sweep (s : State) : State :=
  { s with
    maint := { s.maint with mode := .run, drainDeadline := none, check := s.maint.check.abandon }
    pool := Vector.replicate 128 Slot.free
    postOrder := 0
    claims := Vector.replicate 18 ClaimRec.free }

/-- Part 4 for one line (R14). -/
def State.softLine (s : State) (n : LineId) : State :=
  let l := s.line n
  s.changeLine n { l with
    mode := l.park.mode, scheduled := .low, override := none, saved := none, filterLen := s.loaded.filter[n.val] }

/-- Part 4. -/
def State.softLines (s : State) : State := allLines.foldl (fun s n => s.softLine n) s

/-- Part 5 (R111). -/
def State.clearSubs (s : State) : State := s.setSubs (Vector.replicate 4 (Vector.replicate 32 .none))

/-- A TAKE_NOTICES response in progress is emptied of its records (R118); its result code and record count, fixed at the
taking, stay (R169, log 34). -/
def Frame.emptied (f : Frame) : Frame :=
  match f with
  | .response sent _ => .response sent 0
  | .code b => .code b
  | .parameters c got => .parameters c got
  | .idle => .idle
  | .ignore => .ignore

/-- Part 6 at one port: the queue cleared, the lost-capture counter 0, RESET SOFT admitted (R122). -/
def Port.softReset (q : Port) : Port :=
  ({ q with queue := [], lost := 0, frame := q.frame.emptied }).enqueue (.reset .soft)

/-- The six parts of a soft reset. -/
def State.softReset (s : State) : State :=
  let t := (s.sweep.softLines).clearSubs
  { t with ports := t.ports.map Port.softReset }

/-- SOFT_RESET (R179). -/
def softResetBody (p : PortId) (s : State) : State × Reply :=
  if s.holds p resMX = false then (s, reply .notHolder) else (s.softReset, reply .ok)

/-! ## PORT_RESET (R178) -/

/-- Part 2: the port's cells are set to NONE (R111). -/
def State.clearRow (s : State) (p : PortId) : State := s.setSubs (s.subs.set p.val (Vector.replicate 32 .none))

/-- Part 3 (R123). -/
def Port.portReset (q : Port) (mask : Byte) : Port :=
  ({ q with queue := [], lost := 0, overrun := 0, overrunLatch := false, frameLatch := false, mask := mask }).enqueue
    (.reset .port)

/-- PORT_RESET, never refused once READY (R178). -/
def portResetBody (p : PortId) (s : State) : State × Reply :=
  let t := (s.dropClaims p).clearRow p
  (t.setPort p ((t.port p).portReset (t.loaded.mask[p.val])), reply .ok)

/-! ## IDENT (R177) -/

/-- IDENT: family 0x4A16, revision 0x01, unit, port, 16 lines, 128 slots. -/
def identBody (p : PortId) (s : State) : State × Reply :=
  (s, replyData [0x4A, 0x16, 0x01, s.loaded.unit, portByte p, 16, 128])

def execSoftReset (p : PortId) (s : State) : Answer := .next (s.take p 0x68 [] (softResetBody p))

def execPortReset (p : PortId) (s : State) : Answer := .next (s.take p 0x90 [] (portResetBody p))

def execIdent (p : PortId) (s : State) : Answer := .next (s.take p 0x91 [] (identBody p))

end Sys2Proof.Machine
end

