-- ==== Sys2Proof/Machine/TimeOps.lean ====
section
/-! DEFINITION. The timebase as shared operations: a change of the count and what it hands on (R44), a change of the run
state (R45), the source (R48) and the advance (R38, R49). -/

namespace Sys2Proof.Machine

/-- The outstanding query is voided: c1 no longer lies on the same count as c2 (R158). -/
def State.voidQuery (s : State) : State := s.setLink { s.link with query := none }

/-- The event of a run state that was taken. -/
def RunState.event : RunState → TimeEvent
  | .halted => .halt
  | .running => .resume

/-- A TIMEBASE record of the state after an event, to all four ports (R52). -/
def State.announceTime (s : State) (e : TimeEvent) : State := s.offerAll (.timebase e s.tb.epoch s.tb.count)

/-- The count is changed by a set, a step or an alignment step, and the change is handed on (R44): values, captures in
progress, TIMEBASE records, re-examination in the order of the due list from before the change. A pending slew is
discarded (R49). -/
def State.changeCount (s : State) (e : TimeEvent) (count : Count) (epoch : Byte) (run : RunState) : State :=
  let s1 := ((s.setTb { s.tb with count := count, epoch := epoch, run := run, slew := none }).voidQuery).markRuns
  let s2 := s1.announceTime e
  let s3 := if run = s.tb.run then s2 else s2.announceTime run.event
  s3.reexamine s.dueList

/-- The run state takes a value, with the effect of an accepted HALT or RESUME (R45). -/
def State.setRun (s : State) (run : RunState) : State :=
  ((s.setTb { s.tb with run := run }).voidQuery).announceTime run.event

/-- The follower copies the leader's halted flag; a copy that changes nothing has no effect (R45). -/
def State.copyHalted (s : State) (halted : Bool) : State :=
  let run := if halted then RunState.halted else RunState.running
  if run = s.tb.run then s else s.setRun run

/-- The source when the tie link leaves LOCKED (R48); a pending slew is discarded when it leaves FOLLOWER (R49). -/
def State.leaveLock (s : State) : State :=
  match s.tb.source with
  | .follower => s.setTb { s.tb with source := .freeRun, slew := none }
  | .leader => s.setTb { s.tb with source := .localTime }
  | .localTime => s
  | .freeRun => s

/-- A slew request: a later one replaces an earlier one, and one taken while HALTED is discarded (R49). -/
def State.requestSlew (s : State) (w : Slew) : State :=
  if s.tb.run = .halted then s else s.setTb { s.tb with slew := some w }

/-- The count advances by `k` ticks' worth and the values on the way are reached, in order (R38, R49, R77). -/
def State.advanceBy (s : State) (k : Nat) : State :=
  (s.setTb { s.tb with count := s.tb.count + BitVec.ofNat 40 k, slew := none }).arriveAll (s.arriving k)

/-- The advance of the count at a tick: none while HALTED, and a pending slew applies to this one advance (R38, R49). -/
def State.advance (s : State) : State :=
  match s.tb.run, s.tb.slew with
  | .halted, _ => s
  | .running, none => s.advanceBy 1
  | .running, some .double => s.advanceBy 2
  | .running, some .held => s.setTb { s.tb with slew := none }

end Sys2Proof.Machine
end

