-- ==== Sys2Proof/Machine/TieLink.lean ====
section
/-! DEFINITION. The tie link: its states, its transmitter, the words received, the time exchange, the loss of lock and
its two commands (R152 to R167). -/

namespace Sys2Proof.Machine

/-! ## Entering states -/

/-- Everything that a quiet link holds no longer; last d, the forward queue and the drop counter stay (R152, R154). -/
def Link.quiet (l : Link) (st : LinkState) : Link :=
  { Link.pinReset with state := st, lastD := l.lastD, forward := l.forward, drops := l.drops }

/-- The first 100 us mark of a state (R154, log 12). -/
def firstMark (now : Nat) : Nat := if Config.firstMarkAtEntry then now else now + 1000

/-- PROBING: ack clear, 5 Mbit/s, ABILITY words begin (R155). -/
def Link.probe (l : Link) (now : Nat) : Link :=
  { l.quiet .probing with rate := some .r5, nextSlot := some now, nextAbility := some (firstMark now) }

/-- CONFLICT: 5 Mbit/s goes on with the ack flag set (R156). -/
def Link.conflict (l : Link) (now : Nat) : Link :=
  { l with state := .conflict, ack := true, nextAbility := some (firstMark now) }

/-- HOLDOFF for 10 ms (R161, R162). -/
def Link.holdoff (l : Link) (now : Nat) : Link := { l.quiet .holdoff with deadline := some (now + 100000) }

/-- ALIGNING with the role and rate decided, for 2 ms; a follower's first query falls due at the switch (R156, R157). -/
def Link.align (l : Link) (role : Role) (rate : Rate) (now : Nat) : Link :=
  { l.quiet .aligning with
    role := some role
    rate := some rate
    deadline := some (now + 20000)
    nextSlot := some now
    queryDue := role == .follower
    nextQuery := if role = .follower then some (now + 10000) else none }

/-- LOCKED; a state deadline is no longer present (R159). -/
def Link.lock (l : Link) : Link := { l with state := .locked, deadline := none }

/-- Is the link in a state? -/
def State.linkIn (s : State) (st : LinkState) : Bool := s.link.state == st

/-- The link enters PROBING (R155). -/
def State.enterProbing (s : State) : State := s.setLink (s.link.probe s.elapsed)

/-- Lock is lost (R161). -/
def State.loseLock (s : State) : State :=
  ((s.setLink { s.link.holdoff s.elapsed with forward := [] }).leaveLock).offerAll (.link .lost)

/-! ## Roles (R156) -/

/-- The role of this hub from the two preferences and unit numbers; none is a conflict. -/
def resolveRole (own peer : RolePref) (ownUnit peerUnit : Byte) : Option Role :=
  match own, peer with
  | .leader, .follower => some .leader
  | .leader, .either => some .leader
  | .follower, .leader => some .follower
  | .follower, .either => some .follower
  | .either, .follower => some .leader
  | .either, .leader => some .follower
  | .either, .either =>
    if ownUnit = peerUnit then none else if peerUnit.toNat < ownUnit.toNat then some .leader else some .follower
  | .leader, .leader => none
  | .follower, .follower => none

/-- The highest rate in both rate sets; 5 Mbit/s is a member of each (R152, R156). -/
def commonRate (a b : BitVec 3) : Rate :=
  if a.getLsbD 2 && b.getLsbD 2 then .r20 else if a.getLsbD 1 && b.getLsbD 1 then .r10 else .r5

/-! ## The transmitter (R153, R154) -/

/-- A word's length in ticks at a rate. -/
def wordTicks : Option Rate → Nat
  | some .r5 => 320
  | some .r10 => 160
  | some .r20 => 80
  | none => 320

/-- The 100 us mark after a time, from one mark on. -/
def nextMark (mark now : Nat) : Nat := mark + ((now - mark) / 1000 + 1) * 1000

/-- The ABILITY word as the settings stand (R154); the rate set goes out as it was loaded, with bit 0 as stored (log 33). -/
def State.abilityWord (s : State) (ack : Bool) : Word :=
  .ability s.loaded.rolePref s.loaded.unit s.loaded.rateSet ack

/-- A word begins, and the next slot follows it without a gap (R153). -/
def State.sendWord (s : State) (w : Word) : State :=
  s.setLink { s.link with wire := some w, nextSlot := some (s.elapsed + wordTicks s.link.rate) }

/-- The final ABILITY word begins; the slot after it is the first at the new rate (R156). -/
def State.sendFinal (s : State) : State :=
  s.setLink { s.link with
    wire := some (s.abilityWord true), nextSlot := none, finalEnd := some (s.elapsed + wordTicks s.link.rate) }

/-- An ABILITY word begins when a 100 us mark has been reached, else an IDLE word (R153, R154). -/
def State.sendAbility (s : State) (ack : Bool) : State :=
  match s.link.nextAbility with
  | some m =>
    if m ≤ s.elapsed then
      (s.setLink { s.link with nextAbility := some (nextMark m s.elapsed) }).sendWord (s.abilityWord ack)
    else s.sendWord .idle
  | none => s.sendWord .idle

/-- The leader in ALIGNING enters LOCKED as its first TIME_REPLY begins (R159). -/
def State.leaderLock (s : State) : State :=
  ((s.setLink { s.link.lock with silence := some (s.elapsed + 30000) }).setTb { s.tb with source := .leader }).offerAll
    (.link .locked)

/-- The TIME_REPLY owed begins (R158, R159). -/
def State.sendReply (s : State) (o : Owed) : State :=
  let t := (s.setLink { s.link with owed := none }).sendWord
    (.timeReply o.c1 o.l1 s.tb.count s.tb.epoch (s.tb.run == .halted))
  if s.link.state = .aligning then t.leaderLock else t

/-- A TIME_QUERY begins and is outstanding for 1 ms (R158). -/
def State.sendQuery (s : State) : State :=
  (s.setLink { s.link with queryDue := false, query := some ⟨s.tb.count, s.elapsed + 10000⟩ }).sendWord
    (.timeQuery s.tb.count)

/-- The head of the forward queue leaves as a CAPTURE word (R163). -/
def State.sendForward (s : State) : State :=
  match s.link.forward with
  | [] => s.sendWord .idle
  | f :: rest => (s.setLink { s.link with forward := rest }).sendWord (.capture f)

/-- A word slot in ALIGNING or LOCKED: an exchange word, else a capture in LOCKED, else IDLE (R153). -/
def State.sendExchange (s : State) : State :=
  match s.link.owed with
  | some o => s.sendReply o
  | none =>
    if s.link.queryDue then s.sendQuery
    else if s.linkIn .locked then s.sendForward
    else s.sendWord .idle

/-- A word slot begins (R153). -/
def State.slotBegins (s : State) : State :=
  match s.link.state with
  | .probing => if s.link.resolved.isSome then s.sendFinal else s.sendAbility s.link.ack
  | .conflict => s.sendAbility true
  | .aligning => s.sendExchange
  | .locked => s.sendExchange
  | .off => s
  | .down => s
  | .holdoff => s

/-- The final ABILITY word has been sent: the role, the rate and ALIGNING (R156). -/
def State.finalSent (s : State) : State :=
  match s.link.resolved with
  | some (role, rate) =>
    if reached s.elapsed s.link.finalEnd then s.setLink (s.link.align role rate s.elapsed) else s
  | none => s

/-! ## Words received -/

/-- A valid word of any kind restarts the leader's follower silence deadline (R161). -/
def State.noteValid (s : State) : State :=
  if s.link.state = .locked ∧ s.link.role = some .leader then
    s.setLink { s.link with silence := some (s.elapsed + 30000) }
  else s

/-- Roles are resolved: decided, or in conflict at once (R156). -/
def State.resolve (s : State) (pref : RolePref) (unit : Byte) (rates : BitVec 3) : State :=
  match resolveRole s.loaded.rolePref pref s.loaded.unit unit with
  | some role => s.setLink { s.link with resolved := some (role, commonRate s.loaded.rateSet rates) }
  | none => (s.setLink (s.link.conflict s.elapsed)).offerAll (.link .conflict)

/-- A valid ABILITY word (R155, R156, R157, R161). -/
def State.takeAbility (s : State) (pref : RolePref) (unit : Byte) (rates : BitVec 3) (ack : Bool) : State :=
  match s.link.state with
  | .probing =>
    if s.link.resolved.isSome then s
    else
      let t := s.setLink { s.link with ack := true }
      if ack then t.resolve pref unit rates else t
  | .aligning => if ack then s else s.setLink (s.link.holdoff s.elapsed)
  | .locked => s.loseLock
  | .off => s
  | .down => s
  | .holdoff => s
  | .conflict => s

/-- Is the link ALIGNING or LOCKED in a role? -/
def State.acts (s : State) (role : Role) : Bool :=
  (s.linkIn .aligning || s.linkIn .locked) && s.link.role == some role

/-- A valid TIME_QUERY: the leader records l1 and owes a reply, in place of any it owed (R158). -/
def State.takeQuery (s : State) (c1 : Count) : State :=
  if s.acts .leader then s.setLink { s.link with owed := some ⟨c1, s.tb.count⟩ } else s

/-- The leader's values at the moment a reply is taken, and the difference d (R158). -/
structure Exchange where
  leaderTime : Count
  d : Int
  epoch : Byte
  halted : Bool
deriving DecidableEq, Repr

/-- The round trip, 0 if it is negative (R158). -/
def roundTrip (c1 l1 l2 c2 : Count) : Nat := (c2 - c1).toNat - (l2 - l1).toNat

/-- A difference of counts as a signed value (R158, log 27). -/
def signedDistance (x : Count) : Int := if x.toNat ≤ 2 ^ 39 then x.toNat else (x.toNat : Int) - 2 ^ 40

/-- What the follower computes on taking a reply (R158). -/
def computeExchange (c1 l1 l2 c2 : Count) (epoch : Byte) (halted : Bool) : Exchange :=
  let leaderTime := if halted then l2 else l2 + BitVec.ofNat 40 (roundTrip c1 l1 l2 c2 / 2)
  ⟨leaderTime, signedDistance (leaderTime - c2), epoch, halted⟩

/-- The run state of a halted flag. -/
def runOf (halted : Bool) : RunState := if halted then .halted else .running

/-- An alignment step (R50). -/
def State.alignStep (s : State) (x : Exchange) : State := s.changeCount .alignStep x.leaderTime x.epoch (runOf x.halted)

/-- After an exchange in LOCKED, the next query falls due 1 ms on (R159, R160). -/
def Link.exchanged (l : Link) (now : Nat) : Link :=
  { l with missed := 0, queryDue := false, nextQuery := some (now + 10000) }

/-- The follower in ALIGNING acts on an exchange (R159). -/
def State.followerLock (s : State) (x : Exchange) : State :=
  let t := s.alignStep x
  ((t.setLink ((t.link.lock).exchanged t.elapsed)).setTb { t.tb with source := .follower }).offerAll (.link .locked)

/-- The correction that a small difference asks for (R160). -/
def State.correctBy (s : State) (d : Int) : State :=
  if d = 0 then s else if 0 < d then s.requestSlew .double else s.requestSlew .held

/-- Does an exchange in LOCKED end in an alignment step (R160)? -/
def State.mustAlign (s : State) (x : Exchange) : Bool := x.epoch != s.tb.epoch || decide (8 < x.d.natAbs)

/-- The follower in LOCKED acts on an exchange (R160). -/
def State.followerTrack (s : State) (x : Exchange) : State :=
  let t := if s.mustAlign x then s.alignStep x else (s.copyHalted x.halted).correctBy x.d
  t.setLink (t.link.exchanged t.elapsed)

/-- A valid TIME_REPLY: taken by the follower when its c1 is that of the outstanding query (R158). -/
def State.takeReply (s : State) (c1 l1 l2 : Count) (epoch : Byte) (halted : Bool) : State :=
  match s.acts .follower, s.link.query with
  | true, some q =>
    if q.c1 = c1 then
      let x := computeExchange c1 l1 l2 s.tb.count epoch halted
      let t := s.setLink { s.link with query := none, lastD := x.d }
      if s.linkIn .aligning then t.followerLock x else t.followerTrack x
    else s
  | true, none => s
  | false, _ => s

/-- A valid CAPTURE word is delivered in LOCKED (R164). -/
def State.takeCapture (s : State) (f : Forward) : State := if s.linkIn .locked then s.remoteEdge f else s

/-- The word that arrived, when it is valid and the receiver is on: it ignores words in OFF, DOWN, HOLDOFF and CONFLICT
(R153, R154). -/
def State.received (s : State) (w : WireWord) : Option Received :=
  match s.link.state with
  | .probing => readWire w s.link.rate
  | .aligning => readWire w s.link.rate
  | .locked => readWire w s.link.rate
  | .off => none
  | .down => none
  | .holdoff => none
  | .conflict => none

/-! ## Deadlines -/

/-- A query falls due: in ALIGNING at each 1 ms mark, in LOCKED 1 ms after a reply (R157, R160). -/
def State.queryFallsDue (s : State) : State :=
  match s.link.nextQuery with
  | some t =>
    if t ≤ s.elapsed ∧ s.acts .follower = true then
      s.setLink { s.link with
        queryDue := true, nextQuery := if s.link.state = .aligning then some (t + 10000) else none }
    else s
  | none => s

/-- The reply deadline of the outstanding query passes (R158, R161). -/
def State.replyMissed (s : State) : State :=
  if reached s.elapsed (s.link.query.map (fun q => q.deadline)) then
    if s.link.state = .locked then
      let t := s.setLink { s.link with query := none, missed := s.link.missed + 1, queryDue := true }
      if 3 ≤ t.link.missed then t.loseLock else t
    else s.setLink { s.link with query := none }
  else s

/-- Is the state deadline reached in this state? -/
def State.linkDeadline (s : State) (st : LinkState) : Bool := s.linkIn st && reached s.elapsed s.link.deadline

/-! ## Commands -/

/-- LINK_STATUS (R166, R176). -/
def linkStatusBody (s : State) : State × Reply :=
  (s, replyData ([s.link.state.code, roleCode s.link.role, rateCode s.link.rate] ++
    bytesOf 5 (BitVec.ofInt 40 s.link.lastD) ++ bytesOf 2 s.link.drops ++
    [BitVec.ofNat 8 s.link.forward.length, s.tb.source.code]))

/-- The link goes DOWN for 10 ms (R165). -/
def State.retrain (s : State) : State :=
  let t := if s.linkIn .locked then s.leaveLock else s
  (t.setLink { t.link.quiet .down with deadline := some (s.elapsed + 100000), forward := [] }).offerAll (.link .down)

/-- LINK_RETRAIN (R165). -/
def linkRetrainBody (p : PortId) (s : State) : State × Reply :=
  if s.holds p resTB = false then (s, reply .notHolder)
  else if s.linkIn .off then (s, reply .wrongState)
  else (s.retrain, reply .ok)

def execLinkStatus (p : PortId) (s : State) : Answer := .next (s.take p 0x70 [] linkStatusBody)

def execLinkRetrain (p : PortId) (s : State) : Answer := .next (s.take p 0x71 [] (linkRetrainBody p))

/-- RETRAIN_DOWN_END (R165). -/
def execRetrainDownEnd (s : State) : Answer := .next (if s.linkDeadline .down then s.enterProbing else s)

/-- WORD_SLOT (R153). -/
def execWordSlot (s : State) : Answer := .next (if reached s.elapsed s.link.nextSlot then s.slotBegins else s)

/-- FINAL_ABILITY_SENT (R156). -/
def execFinalAbilitySent (s : State) : Answer := .next s.finalSent

/-- ABILITY_RECEIVED (R155, R156). -/
def execAbilityReceived (w : WireWord) (s : State) : Answer :=
  .next (match s.received w with
    | some (.ability pref unit rates ack) => s.takeAbility pref unit rates ack
    | _ => s)

/-- ALIGNING_DEADLINE (R157). -/
def execAligningDeadline (s : State) : Answer :=
  .next (if s.linkDeadline .aligning then s.setLink (s.link.holdoff s.elapsed) else s)

/-- TIME_QUERY_RECEIVED (R158). -/
def execTimeQueryReceived (w : WireWord) (s : State) : Answer :=
  .next (match s.received w with
    | some (.timeQuery c1) => s.noteValid.takeQuery c1
    | _ => s)

/-- TIME_REPLY_RECEIVED (R158 to R160). -/
def execTimeReplyReceived (w : WireWord) (s : State) : Answer :=
  .next (match s.received w with
    | some (.timeReply c1 l1 l2 epoch halted) => s.noteValid.takeReply c1 l1 l2 epoch halted
    | _ => s)

/-- CAPTURE_WORD_RECEIVED; a word whose line or edge is out of range counts as a valid word and is discarded (R164,
R188). -/
def execCaptureWordReceived (w : WireWord) (s : State) : Answer :=
  .next (match s.received w with
    | some (.capture f) => s.noteValid.takeCapture f
    | some .captureDiscarded => s.noteValid
    | _ => s)

/-- IDLE_WORD_RECEIVED (R161). -/
def execIdleWordReceived (w : WireWord) (s : State) : Answer :=
  .next (match s.received w with
    | some .idle => s.noteValid
    | _ => s)

/-- QUERY_DUE (R157, R160). -/
def execQueryDue (s : State) : Answer := .next s.queryFallsDue

/-- REPLY_DEADLINE (R161). -/
def execReplyDeadline (s : State) : Answer := .next s.replyMissed

/-- FOLLOWER_SILENCE_DEADLINE (R161). -/
def execFollowerSilenceDeadline (s : State) : Answer :=
  .next (if s.linkIn .locked && reached s.elapsed s.link.silence then s.loseLock else s)

/-- HOLDOFF_END (R162). -/
def execHoldoffEnd (s : State) : Answer := .next (if s.linkDeadline .holdoff then s.enterProbing else s)

end Sys2Proof.Machine
end

