-- ==== Sys2Proof/Machine/Startup.lean ====
section
/-! DEFINITION. Pin reset and LOADING: the in-force slot, the four groups and the seven steps (R180 to R183). -/

namespace Sys2Proof.Machine

/-! ## The groups of a profile slot (R182, 13_frame_and_record_layouts.md) -/

/-- PORTS: quota, attention mask and corrected-error threshold of each port. -/
structure PortsGroup where
  quota : Vector Byte 4
  mask : Vector Byte 4
  threshold : Vector Byte 4
deriving DecidableEq, Repr

/-- LINES: park mode and filter length of each line. -/
structure LinesGroup where
  park : Vector ParkMode 16
  filter : Vector (BitVec 4) 16
deriving DecidableEq, Repr

/-- HUB: drain limit and unit number. -/
structure HubGroup where
  drainLimit : BitVec 24
  unit : Byte
deriving DecidableEq, Repr

/-- TIE: enable, role preference, rate set and exported lines. -/
structure TieGroup where
  enable : Bool
  rolePref : RolePref
  rateSet : BitVec 3
  exported : LineSet
deriving DecidableEq, Repr

def PortsGroup.default : PortsGroup := ⟨Vector.replicate 4 32, Vector.replicate 4 0xFF, Vector.replicate 4 16⟩
def LinesGroup.default : LinesGroup := ⟨Vector.replicate 16 .input, Vector.replicate 16 2⟩
def HubGroup.default : HubGroup := ⟨10000, 0⟩
/-- The values beside the enable are DESIGN CHOICE (log 15). -/
def TieGroup.default : TieGroup := ⟨false, .either, 0, 0⟩

/-- Does a marker byte hold the enabled code? -/
def State.enabled (s : State) (i : Fin 3) (offset : Nat) : Bool := s.storeByte i.val offset == groupEnabled

/-- The PORTS group of a slot; none when it is rejected. -/
def State.readPorts (s : State) (i : Fin 3) : Option PortsGroup :=
  let g : PortsGroup :=
    ⟨Vector.ofFn (fun p => s.storeByte i.val (0x01 + p.val)), Vector.ofFn (fun p => s.storeByte i.val (0x05 + p.val)),
      Vector.ofFn (fun p => s.storeByte i.val (0x09 + p.val))⟩
  if s.enabled i 0x00 = false then none
  else if 128 < (g.quota.toList.map (fun q => q.toNat)).sum then none
  else if g.threshold.toList.any (fun t => t == 0) then none
  else some g

/-- A park-mode code. -/
def readPark (b : Byte) : Option ParkMode :=
  if b = 0 then some .off else if b = 1 then some .input else if b = 2 then some .parkLow
  else if b = 3 then some .parkHigh else none

/-- The LINES group of a slot; none when it is rejected. -/
def State.readLines (s : State) (i : Fin 3) : Option LinesGroup :=
  let park : Vector (Option ParkMode) 16 := Vector.ofFn (fun n => readPark (s.storeByte i.val (0x0E + n.val)))
  let filter : Vector (Option (BitVec 4)) 16 := Vector.ofFn (fun n => readFilter (s.storeByte i.val (0x1E + n.val)))
  if s.enabled i 0x0D && park.toList.all Option.isSome && filter.toList.all Option.isSome then
    some ⟨park.map (fun m => m.getD .input), filter.map (fun f => f.getD 2)⟩
  else none

/-- The HUB group of a slot; none when it is rejected. -/
def State.readHub (s : State) (i : Fin 3) : Option HubGroup :=
  if s.enabled i 0x2E then
    some ⟨BitVec.ofNat 24 (natOfBytes (s.storeBytes i.val 0x2F 3)), s.storeByte i.val 0x32⟩
  else none

/-- The TIE group of a slot; none when it is rejected. -/
def State.readTie (s : State) (i : Fin 3) : Option TieGroup :=
  let pref := s.storeByte i.val 0x35
  if s.enabled i 0x33 && (pref == 1 || pref == 2 || pref == 3) then
    some ⟨(s.storeByte i.val 0x34).getLsbD 0, RolePref.ofCode pref, (s.storeByte i.val 0x36).setWidth 3,
      BitVec.ofNat 16 (natOfBytes (s.storeBytes i.val 0x37 2))⟩
  else none

/-- The check code stored in a slot. -/
def State.storedCheck (s : State) (i : Fin 3) : List Byte := s.storeBytes i.val offCheck 2

/-- The three conditions of R181. -/
def State.qualifies (s : State) (i : Fin 3) : Bool :=
  s.sealed i && !s.retired i && s.storedCheck i == bytesOf 2 (s.slotCheck i)

/-! ## The steps of LOADING (R183) -/

/-- Step 1: the first slot that qualifies is in force (R181). -/
def State.selectSlot (s : State) : State :=
  { s with inForce := (List.finRange 3).find? (fun i => s.qualifies i) }

/-- The loaded settings of four groups. -/
def loadedOf (a : PortsGroup) (b : LinesGroup) (c : HubGroup) (d : TieGroup) : Loaded :=
  ⟨a.quota, a.mask, b.filter, c.unit, d.enable, d.rolePref, d.rateSet, d.exported⟩

/-- The blocks take the values of the groups (R182). -/
def State.applyGroups (s : State) (a : PortsGroup) (b : LinesGroup) (c : HubGroup) (d : TieGroup) : State :=
  { s with
    loaded := loadedOf a b c d
    ports := Vector.ofFn (fun p => { s.port p with mask := a.mask[p.val] })
    lines := Vector.ofFn (fun n => { s.line n with park := b.park[n.val], filterLen := b.filter[n.val] })
    maint := { s.maint with drainLimit := c.drainLimit }
    integ := { s.integ with counters := Vector.ofFn (fun p => { s.errors p with threshold := a.threshold[p.val] }) } }

/-- Step 2: each group is applied, or takes its defaults in full (R182). -/
def State.loadGroups (s : State) : State :=
  s.applyGroups ((s.inForce.bind s.readPorts).getD .default) ((s.inForce.bind s.readLines).getD .default)
    ((s.inForce.bind s.readHub).getD .default) ((s.inForce.bind s.readTie).getD .default)

/-- Step 3: every line moves into its park mode, its filter restarted without an edge. -/
def State.leaveOff (s : State) : State :=
  allLines.foldl (fun s n => s.changeLine n { s.line n with mode := (s.line n).park.mode }) s

/-- Step 4: the timebase starts (R53). -/
def State.startTime (s : State) : State := s.setTb ⟨0, .running, 0, .localTime, none⟩

/-- Step 5: PROBING if the tie link is enabled, OFF otherwise (R167). -/
def State.startLink (s : State) : State :=
  if s.loaded.tieEnable then s.enterProbing else s.setLink (s.link.quiet .off)

/-- Step 7: READY, and the scrub begins its pace (R143). -/
def State.becomeReady (s : State) : State :=
  { s with phase := .ready, integ := { s.integ with scrubDue := some (s.elapsed + 64) } }

/-- One of the seven steps. -/
def State.loadStep (s : State) (k : Nat) : State :=
  match k with
  | 1 => { s.selectSlot with phase := .loading 1 }
  | 2 => { s.loadGroups with phase := .loading 2 }
  | 3 => { s.leaveOff with phase := .loading 3 }
  | 4 => { s.startTime with phase := .loading 4 }
  | 5 => { s.startLink with phase := .loading 5 }
  | 6 => { s.offerAll (.reset .power) with phase := .loading 6 }
  | 7 => s.becomeReady
  | _ => s

/-- How many steps are done. -/
def Phase.stepsDone : Phase → Nat
  | .pinReset => 0
  | .loading k => k
  | .ready => 7

/-- LOADING carries out its steps up to `last`, each complete before the next (R183, log 6). -/
def State.load (s : State) (last : Nat) : State :=
  ([1, 2, 3, 4, 5, 6, 7].filter (fun k => decide (s.phase.stepsDone < k ∧ k ≤ last))).foldl State.loadStep s

/-! ## Pin reset (R180) -/

/-- The store after an unfinished operation: each bit that it was setting stands set or clear (R184, log 13). -/
def unfinished (m : Memory) (b : StoreBusy) (free : Nat) : Memory :=
  b.old.zipIdx.foldl (fun m c =>
    Memory.write m c.1.1
      (c.1.2 ||| ((Memory.read m c.1.1 &&& ~~~c.1.2) &&& Config.unfinishedBits free c.2))) m

/-- RESETn goes low: every block at its pin-reset values, the store kept, the inputs kept (R180). -/
def State.pinReset (s : State) : State :=
  { State.reset with
    pending := s.pending
    free := s.free + 1
    ports := s.ports.map (fun q => Port.pinReset q.selected)
    held := s.held
    level := s.level
    store := match s.storeBusy with | none => s.store | some b => unfinished s.store b s.free }

/-- PIN_RESET (R180). -/
def execPinReset (s : State) : Answer := .next s.pinReset

/-- LOADING (R183). -/
def execLoading (last : Nat) (s : State) : Answer := .next (s.load last)

end Sys2Proof.Machine
end

