-- ==== Sys2Proof/Machine/Timebase.lean ====
section
/-! DEFINITION. The commands of the timebase: READ_TIME, SET_TIME, STEP_TIME, HALT, RESUME and the advance of the count
(R38 to R51). -/

namespace Sys2Proof.Machine

/-- READ_TIME: count, epoch, run state and source as they stand (R41). -/
def readTimeBody (s : State) : State × Reply :=
  (s, replyData (bytesOf 5 s.tb.count ++ [s.tb.epoch, s.tb.run.code, s.tb.source.code]))

/-- Checks 3 and 4 of a TB command; none lets it pass (R42). -/
def tbRefusal (p : PortId) (s : State) : Option ResultCode :=
  if s.holds p resTB = false then some .notHolder
  else if s.tb.source = .follower then some .notLeader
  else none

/-- SET_TIME (R42, R43). -/
def setTimeBody (p : PortId) (count : Count) (s : State) : State × Reply :=
  match tbRefusal p s with
  | some c => (s, reply c)
  | none => (s.changeCount .set count (s.tb.epoch + 1) s.tb.run, reply .ok)

/-- STEP_TIME; the offset -2^39 is out of range (R42, R43). -/
def stepTimeBody (p : PortId) (offset : BitVec 40) (s : State) : State × Reply :=
  if offset = BitVec.ofNat 40 (2 ^ 39) then (s, reply .badParam)
  else
    match tbRefusal p s with
    | some c => (s, reply c)
    | none => (s.changeCount .step (s.tb.count + offset) (s.tb.epoch + 1) s.tb.run, reply .ok)

/-- HALT and RESUME: ALREADY in the run state asked for (R42, R45). -/
def runBody (p : PortId) (run : RunState) (s : State) : State × Reply :=
  match tbRefusal p s with
  | some c => (s, reply c)
  | none => if s.tb.run = run then (s, reply .already) else (s.setRun run, reply .ok)

def execReadTime (p : PortId) (s : State) : Answer := .next (s.take p 0x40 [] readTimeBody)

def execSetTime (p : PortId) (count : Count) (s : State) : Answer :=
  .next (s.take p 0x41 (bytesOf 5 count) (setTimeBody p count))

def execStepTime (p : PortId) (offset : BitVec 40) (s : State) : Answer :=
  .next (s.take p 0x42 (bytesOf 5 offset) (stepTimeBody p offset))

def execHalt (p : PortId) (s : State) : Answer := .next (s.take p 0x43 [] (runBody p .halted))

def execResume (p : PortId) (s : State) : Answer := .next (s.take p 0x44 [] (runBody p .running))

/-- COUNT_ADVANCE: at a tick of a RUNNING count the count advances and reaches a new value (R38, log 4). -/
def execCountAdvance (s : State) : Answer := .next s.advance

end Sys2Proof.Machine
end

