-- ==== Sys2Proof/Machine/Dispatch.lean ====
section
/-! DEFINITION. The meaning of every command: one arm per row of spec/opcode_table.json. -/

namespace Sys2Proof.Machine

/-- The effect of a command on everything but the queue. -/
def exec (i : Instr) (s : State) : Host.Outcome State Fault Refusal :=
  match i with
  | .pinReset => Sys2Proof.Machine.execPinReset s
  | .loading last => Sys2Proof.Machine.execLoading last s
  | .frameStart p => Sys2Proof.Machine.execFrameStart p s
  | .frameEnd p clocked => Sys2Proof.Machine.execFrameEnd p clocked s
  | .unknownCommand p code => Sys2Proof.Machine.execUnknownCommand p code s
  | .claim p resource waitMs leaseMs => Sys2Proof.Machine.execClaim p resource waitMs leaseMs s
  | .release p resource => Sys2Proof.Machine.execRelease p resource s
  | .renew p resource => Sys2Proof.Machine.execRenew p resource s
  | .queryClaim p resource => Sys2Proof.Machine.execQueryClaim p resource s
  | .leaseExpiry r => Sys2Proof.Machine.execLeaseExpiry r s
  | .waitDeadline r => Sys2Proof.Machine.execWaitDeadline r s
  | .lineConfig p line mode level filter => Sys2Proof.Machine.execLineConfig p line mode level filter s
  | .lineRead p => Sys2Proof.Machine.execLineRead p s
  | .subscribe p line sel => Sys2Proof.Machine.execSubscribe p line sel s
  | .post p b => Sys2Proof.Machine.execPost p b s
  | .cancel p id => Sys2Proof.Machine.execCancel p id s
  | .cancelLine p line => Sys2Proof.Machine.execCancelLine p line s
  | .queryEntry p id => Sys2Proof.Machine.execQueryEntry p id s
  | .readTime p => Sys2Proof.Machine.execReadTime p s
  | .setTime p count => Sys2Proof.Machine.execSetTime p count s
  | .stepTime p offset => Sys2Proof.Machine.execStepTime p offset s
  | .halt p => Sys2Proof.Machine.execHalt p s
  | .resume p => Sys2Proof.Machine.execResume p s
  | .countAdvance => Sys2Proof.Machine.execCountAdvance s
  | .pulseEnd k => Sys2Proof.Machine.execPulseEnd k s
  | .trainBoundary k => Sys2Proof.Machine.execTrainBoundary k s
  | .lineSample held level => Sys2Proof.Machine.execLineSample held level s
  | .edgeAccepted n => Sys2Proof.Machine.execEdgeAccepted n s
  | .takeNotices p max => Sys2Proof.Machine.execTakeNotices p max s
  | .noticeRecordRemoved p => Sys2Proof.Machine.execNoticeRecordRemoved p s
  | .peekNotice p => Sys2Proof.Machine.execPeekNotice p s
  | .setAttnMask p mask => Sys2Proof.Machine.execSetAttnMask p mask s
  | .snapshot p => Sys2Proof.Machine.execSnapshot p s
  | .enterDirect p => Sys2Proof.Machine.execEnterDirect p s
  | .drainLimitExpiry => Sys2Proof.Machine.execDrainLimitExpiry s
  | .exitDirect p => Sys2Proof.Machine.execExitDirect p s
  | .directDrive p line drive => Sys2Proof.Machine.execDirectDrive p line drive s
  | .lineCheck p tested => Sys2Proof.Machine.execLineCheck p tested s
  | .checkWindowEnd => Sys2Proof.Machine.execCheckWindowEnd s
  | .abortCheck p => Sys2Proof.Machine.execAbortCheck p s
  | .checkResult p => Sys2Proof.Machine.execCheckResult p s
  | .scrubVisit => Sys2Proof.Machine.execScrubVisit s
  | .integrityRead p => Sys2Proof.Machine.execIntegrityRead p s
  | .integrityClear p => Sys2Proof.Machine.execIntegrityClear p s
  | .softReset p => Sys2Proof.Machine.execSoftReset p s
  | .portReset p => Sys2Proof.Machine.execPortReset p s
  | .ident p => Sys2Proof.Machine.execIdent p s
  | .linkStatus p => Sys2Proof.Machine.execLinkStatus p s
  | .linkRetrain p => Sys2Proof.Machine.execLinkRetrain p s
  | .retrainDownEnd => Sys2Proof.Machine.execRetrainDownEnd s
  | .wordSlot => Sys2Proof.Machine.execWordSlot s
  | .finalAbilitySent => Sys2Proof.Machine.execFinalAbilitySent s
  | .abilityReceived w => Sys2Proof.Machine.execAbilityReceived w s
  | .aligningDeadline => Sys2Proof.Machine.execAligningDeadline s
  | .timeQueryReceived w => Sys2Proof.Machine.execTimeQueryReceived w s
  | .timeReplyReceived w => Sys2Proof.Machine.execTimeReplyReceived w s
  | .captureWordReceived w => Sys2Proof.Machine.execCaptureWordReceived w s
  | .idleWordReceived w => Sys2Proof.Machine.execIdleWordReceived w s
  | .queryDue => Sys2Proof.Machine.execQueryDue s
  | .replyDeadline => Sys2Proof.Machine.execReplyDeadline s
  | .followerSilenceDeadline => Sys2Proof.Machine.execFollowerSilenceDeadline s
  | .holdoffEnd => Sys2Proof.Machine.execHoldoffEnd s
  | .profileRead p slot offset length => Sys2Proof.Machine.execProfileRead p slot offset length s
  | .profileWrite p slot offset byte => Sys2Proof.Machine.execProfileWrite p slot offset byte s
  | .profileSeal p slot => Sys2Proof.Machine.execProfileSeal p slot s
  | .profileRetire p slot => Sys2Proof.Machine.execProfileRetire p slot s
  | .profileBusyEnd => Sys2Proof.Machine.execProfileBusyEnd s
  | .storedBitError k bit => Sys2Proof.Machine.execStoredBitError k bit s
  | .parameterByteGathered p byte => Sys2Proof.Machine.execParameterByteGathered p byte s

end Sys2Proof.Machine
end

