-- ==== Sys2Proof/Machine/Tick.lean ====
section
/-! DEFINITION. The tick of the hub's own clock: which rows it puts into the queue when the queue is empty, and in which
order (R38, R39, R98, log 1, log 2). -/

namespace Sys2Proof.Machine

/-- The sequences of a list woven into one, each in its own order: every pick takes the next element of one sequence
that is not finished. Every interleaving is the one of some picks. `n` is the number of elements. -/
def weave {α : Type} : Nat → List Nat → List (List α) → List α
  | 0, _, _ => []
  | n + 1, picks, l =>
    let open_ := l.filter (fun x => !x.isEmpty)
    let k := picks.headD 0 % open_.length
    match open_[k]? with
    | some (a :: t) => a :: weave n picks.tail (open_.set k t)
    | some [] => []
    | none => []

/-- A row that has fallen due, or nothing. -/
def dueRow (b : Bool) (l : List Instr) : List (List Instr) := if b then [l] else []

/-- Claims: lease expiries, and a row for each waiter whose deadline is reached. -/
def State.claimRows (s : State) : List (List Instr) :=
  allResources.flatMap (fun r =>
    dueRow (reached s.elapsed (s.claim r).expiry) [.leaseExpiry r] ++
      dueRow true (((s.claim r).waiters.filter (fun w => decide (w.deadline ≤ s.elapsed))).map
        (fun _ => .waitDeadline r)))

/-- Runs: pulse ends and grid boundaries. -/
def State.runRows (s : State) : List (List Instr) :=
  allSlots.flatMap (fun i =>
    dueRow (reached s.elapsed ((s.entry i).bind (fun h => h.status.pulseEnd))) [.pulseEnd i] ++
      dueRow (reached s.elapsed ((s.entry i).bind (fun h => h.status.nextBoundary))) [.trainBoundary i])

/-- The drain limit, the line check, the scrub and the profile store. -/
def State.unitRows (s : State) : List (List Instr) :=
  dueRow (s.maint.mode == .draining && reached s.elapsed s.maint.drainDeadline) [.drainLimitExpiry] ++
    dueRow (match s.maint.check with | .running p => decide (p.windowEnd ≤ s.elapsed) | _ => false) [.checkWindowEnd] ++
    dueRow (reached s.elapsed s.integ.scrubDue) [.scrubVisit] ++
    dueRow (reached s.elapsed (s.storeBusy.map (fun b => b.until_))) [.profileBusyEnd]

/-- The word slot, after the rows that make a query due at the same tick: the query leaves in the first slot at or after
that moment (R157, R160, R161). -/
def State.slotRows (s : State) : List Instr :=
  (dueRow (reached s.elapsed s.link.nextQuery) [.queryDue] ++
    dueRow (reached s.elapsed (s.link.query.map (fun q => q.deadline))) [.replyDeadline] ++
    dueRow (reached s.elapsed s.link.nextSlot) [.wordSlot]).flatten

/-- The tie link; a word slot follows at once where the transmitter begins or changes its rate (log 12). -/
def State.linkRows (s : State) : List (List Instr) :=
  dueRow (s.linkDeadline .down) [.retrainDownEnd, .wordSlot] ++
    dueRow (s.linkDeadline .holdoff) [.holdoffEnd, .wordSlot] ++
    dueRow (s.linkDeadline .aligning) [.aligningDeadline] ++
    dueRow (reached s.elapsed s.link.finalEnd) [.finalAbilitySent, .wordSlot] ++
    dueRow true s.slotRows ++
    dueRow (reached s.elapsed s.link.silence) [.followerSilenceDeadline]

/-- The sample of the tick, with the acceptances that follow it at once (R98, R99, log 2, log 18). -/
def State.sampleBlock (s : State) : List Instr :=
  .lineSample (Config.outsideHeld s.free) (Config.outsideLevel s.free) ::
    (shuffle (Config.edgeOrder s.free) allLines).map (fun n => .edgeAccepted n)

/-- Everything that falls due at a tick, as sequences of blocks whose inner order is fixed: the advance comes before the
sample, which takes the new count (R38, R98). -/
def State.tickRows (s : State) : List (List (List Instr)) :=
  [[.countAdvance], s.sampleBlock] ::
    ((s.claimRows ++ s.runRows ++ s.unitRows ++ s.linkRows).map (fun l => l.map (fun i => [i])))

/-- The rows of a tick in the order they are taken (log 2). -/
def State.tickQueue (s : State) : List Instr :=
  (weave (s.tickRows.map List.length).sum (Config.tickOrder s.free) s.tickRows).flatten

/-- The clock moves one tick on; the tick's sample will see what the hub drives now (R98, log 30). -/
def State.clock (s : State) : State :=
  { s with elapsed := s.elapsed + 1, free := s.free + 1, tickPins := some (Vector.ofFn (fun n => s.drive n)) }

/-- One elapsed tick, with the rows it brings put into the queue; none passes while RESETn is low (R39, log 1). -/
def State.tick (s : State) : State :=
  if s.phase = .pinReset then s else { s.clock with pending := s.clock.tickQueue }

end Sys2Proof.Machine
end

