-- ==== Sys2Proof/Safety.lean ====
section
/-! DEFINITION. The words that the statements are written in: the laws that the manual says the hub keeps, the port
commands with their codes and parameter bytes, and the moment at which a command is taken. -/

namespace Sys2Proof.Machine

/-! ## Laws of a state -/

/-- "A port's queue never holds more than 40 records, nor more than 32 CAPTURE records" (R112). -/
def Port.lawful (q : Port) : Prop := q.queue.length ≤ 40 ∧ (q.queue.filter Record.isCapture).length ≤ 32

def State.queuesLawful (s : State) : Prop := ∀ p, (s.port p).lawful

/-- The laws of a claim record: waiters are distinct ports other than the holder, and a free resource has none (R16). -/
def ClaimRec.lawful (c : ClaimRec) : Prop :=
  (c.waiters.map (fun w => w.port)).Nodup ∧ (∀ w ∈ c.waiters, c.holder ≠ some w.port) ∧
    (c.holder = none → c.waiters = [])

def State.claimsLawful (s : State) : Prop := ∀ r, (s.claim r).lawful

/-- While the hub mode is not RUN, some port holds MX and no check runs (R125, R32). -/
def State.modeLawful (s : State) : Prop :=
  s.maint.mode ≠ .run → (s.claim resMX).holder ≠ none ∧ s.maint.check.isRunning = false

/-- The profile store is in its canonical form, and the bytes that a busy store will keep if it is interrupted are
bytes of it with some bits still clear (R184). -/
def State.storeLawful (s : State) : Prop :=
  Memory.wf s.store ∧
    ∀ b, s.storeBusy = some b →
      (b.old.map (fun c => c.1)).Nodup ∧ ∀ c ∈ b.old, c.2 &&& Memory.read s.store c.1 = c.2

/-- "Every entry … belongs to the port that currently holds the claim on its line", "every occupied entry lies on a line
in OUTPUT mode" (R58); and there is none before the hub is READY (R76). -/
def State.entriesLawful (s : State) : Prop :=
  (∀ i h, s.entry i = some h → s.holds h.owner (lineRes h.line) = true ∧ (s.line h.line).mode = .output) ∧
    (s.phase ≠ .ready → ∀ i, s.entry i = none)

/-! ## The moment a command is taken -/

/-- A command with this code and these parameter bytes is the next that the frame of a port lets be taken: its code byte
completes, or every parameter byte but the last has been gathered (R169). -/
def State.awaits (s : State) (p : PortId) (code : Byte) (params : List Byte) : Prop :=
  (params = [] ∧ ∃ b, (s.port p).frame = .code b) ∨
    (params ≠ [] ∧ (s.port p).frame = .parameters code params.dropLast)

/-- The same at a hub that is READY. -/
def State.readyFor (s : State) (p : PortId) (code : Byte) (params : List Byte) : Prop :=
  s.phase = .ready ∧ s.awaits p code params

/-- The same at a hub that is LOADING. -/
def State.loadingFor (s : State) (p : PortId) (code : Byte) (params : List Byte) : Prop :=
  (∃ k, s.phase = .loading k) ∧ s.awaits p code params

/-- The frame of a port has entered RESPONSE with these bytes; nothing else has changed (R168). -/
def State.answered (s : State) (p : PortId) (bytes : List Byte) : State :=
  s.setPort p { s.port p with frame := .response bytes 0 }

/-- A line of the pool is occupied: some entry is on it. -/
def State.occupied (s : State) (n : LineId) : Prop := ∃ i h, s.entry i = some h ∧ h.line = n

/-- An entry on the line is ACTIVE or SUSPENDED (R78). -/
def State.busy (s : State) (n : LineId) : Prop := ∃ i h, s.entry i = some h ∧ h.line = n ∧ h.status.isBusy = true

/-- No PENDING entry has this current due. -/
def State.noneDue (s : State) (d : Count) : Prop := ∀ i h, s.entry i = some h → h.status ≠ .pending d

/-- No entry of the pool is PENDING. -/
def State.nonePending (s : State) : Prop := ∀ i h d, s.entry i = some h → h.status ≠ .pending d

/-- No ARMED entry waits for this edge. -/
def State.noneAwaits (s : State) (line : AnyLine) (e : Edge) : Prop :=
  ∀ i h, s.entry i = some h → h.awaits line e = false

/-- A lease that starts now ends so many milliseconds on; 0 is no lease (R17). -/
def leaseFrom (now : Nat) (ms : BitVec 16) : Option Nat := if ms = 0 then none else some (now + ms.toNat * 10000)

/-- What a claim record becomes when its claim ends: the head waiter's, or free (R27 step 5, R30). -/
def ClaimRec.next (c : ClaimRec) (now : Nat) : ClaimRec :=
  match c.waiters with
  | [] => ⟨none, 0, none, []⟩
  | w :: rest => ⟨some w.port, w.leaseMs, leaseFrom now w.leaseMs, rest⟩

/-- The records that the new holder of a resource is offered (R30). -/
def State.greet (s : State) (r : ResourceId) (waiters : List Waiter) : State :=
  match waiters with
  | [] => s
  | [w] => s.offer w.port (.claim r .granted)
  | w :: _ :: _ => (s.offer w.port (.claim r .granted)).offer w.port (.claim r .wanted)

/-- The range check of POST judges the fields that the entry uses (R59). -/
def postInRange (b : PostBlock) : Prop :=
  b.line.toNat ≤ 15 ∧ b.action.toNat ≤ 4 ∧ b.timing.toNat ≤ 1 ∧ b.late.toNat ≤ 1 ∧
    (3 ≤ b.action.toNat → b.active.toNat ≤ 1 ∧ b.width ≠ 0) ∧
    (b.action.toNat = 4 → b.width.toNat < b.period.toNat) ∧
    (b.timing.toNat = 1 →
      b.anchorLine.toNat ≤ 31 ∧ 1 ≤ b.anchorEdge.toNat ∧ b.anchorEdge.toNat ≤ 3 ∧ b.rep.toNat ≤ 1)

/-- A received word is valid at a receiver set to a rate, but for its kind: all 20 bytes at that rate, and the check code
over bytes 0 to 17 in bytes 18 and 19 (R153, R188). -/
def validAt (w : WireWord) (rate : Option Rate) : Prop :=
  some w.rate = rate ∧ w.bytes.length = 20 ∧ bytesOf 2 (crc (w.bytes.take 18)) = w.bytes.drop 18

/-- A word is heard: the link judges words in PROBING, ALIGNING and LOCKED, the word is valid, and byte 0 is its kind
(R153, R154). -/
def State.hears (s : State) (w : WireWord) (kind : Byte) : Prop :=
  (s.link.state = .probing ∨ s.link.state = .aligning ∨ s.link.state = .locked) ∧ validAt w s.link.rate ∧
    w.bytes.head? = some kind

/-- The link has the role in ALIGNING or LOCKED. -/
def State.isRole (s : State) (role : Role) : Prop :=
  (s.link.state = .aligning ∨ s.link.state = .locked) ∧ s.link.role = some role

/-- The link after any valid word: the leader in LOCKED restarts its follower silence deadline (R161). -/
def State.linkAfterWord (s : State) : Link :=
  if s.link.state = .locked ∧ s.link.role = some .leader then { s.link with silence := some (s.elapsed + 30000) }
  else s.link

/-- A link that has gone quiet into a state: last d and the drop counter are kept (R152, R154). -/
def quietLink (l : Link) (st : LinkState) (deadline : Option Nat) (forward : List Forward) : Link :=
  { state := st, ack := false, role := none, rate := none, deadline := deadline, query := none, missed := 0,
    silence := none, lastD := l.lastD, forward := forward, drops := l.drops, resolved := none, finalEnd := none,
    nextSlot := none, nextAbility := none, queryDue := false, nextQuery := none, owed := none, wire := none }

/-- The timebase when the link leaves LOCKED (R48, R49). -/
def Timebase.unlocked (x : Timebase) : Timebase :=
  match x.source with
  | .follower => { x with source := .freeRun, slew := none }
  | .leader => { x with source := .localTime }
  | .localTime => x
  | .freeRun => x

/-- The state after lock is lost (R161). -/
def State.unlocked (s : State) : State :=
  let t : State := { s with
    link := quietLink s.link .holdoff (some (s.elapsed + 100000)) []
    tb := s.tb.unlocked }
  t.offerAll (.link .lost)

/-- Every run in progress at a line carries the stepped mark (R101). -/
def State.steppedFilters (s : State) : Vector Filter 16 :=
  s.filters.map (fun f => { f with run := f.run.map (fun r => { r with stepped := true }) })

/-! ## What becomes of an entry -/

/-- An entry has completed with an outcome: its slot is FREE, and its owner is offered the record (R74). -/
def State.entryEnded (u : State) (i : SlotId) (h : Header) (o : EntryOutcome) : State :=
  (u.setSlot i ⟨Body.free, [], none⟩).offer h.owner (.actionDone i h.tag h.line o h.countA h.countB)

/-- The entry of a slot stays there with another header. -/
def State.entryNow (u : State) (i : SlotId) (h : Header) : State := u.setSlot i { u.slot i with entry := some h }

/-- The hub has moved from DRAINING to DIRECT, and every port is told (R127). -/
def State.nowDirect (u : State) : State :=
  State.offerAll { u with maint := { u.maint with mode := .direct, drainDeadline := none } } .directEntered

/-- The outcome of an entry that fired (R75, R79). -/
def firedAs (t : Timeliness) : EntryOutcome := if t = .onTime then .applied else .lateApplied

/-- A PULSE or TRAIN with this active level. -/
def pulsesAt (a : Action) (active : Level) : Prop := (∃ w, a = .pulse active w) ∨ ∃ w q c, a = .train active w q c

/-- The other level. -/
def other (l : Level) : Level := if l = .high then .low else .high

/-- The next grid boundary after one, while pulses are left in a train of a number of pulses, 0 being endless (R81). -/
def boundaryLeft (count begun skipped : BitVec 16) (boundary : Nat) : Option Nat :=
  if count = 0 ∨ begun.toNat + skipped.toNat < count.toNat then some boundary else none

/-- What a check of a slot does: nothing to a clean body; one changed bit is corrected and charged to the owner, with a
threshold notice when its counter has just reached the threshold; with two the entry is withdrawn with outcome
INTEGRITY, a pulse of it is cut to the opposite of the scheduled level (model's deduction, log 11), and the last pulse in
progress while DRAINING takes the hub into DIRECT (R127). The first error is recorded (R142 to R148). -/
def State.checkedSlot (s : State) (i : SlotId) (t : State) : Prop :=
  let mark (sev : Severity) : FirstError := ⟨i, sev, (s.entry i).map (fun h => h.owner), BitVec.ofNat 32 s.elapsed⟩
  { t with pool := s.pool, ports := s.ports, lines := s.lines, integ := s.integ, maint := s.maint, free := s.free } = s ∧
  (∀ j, j ≠ i → t.slot j = s.slot j) ∧
  { t.integ with counters := s.integ.counters, firstError := s.integ.firstError } = s.integ ∧
  (∀ g, s.integ.firstError = some g → t.integ.firstError = some g) ∧
  ((s.slot i).wrongBits = [] → t = s) ∧
  (∀ bit, (s.slot i).wrongBits = [bit] → t.slot i = { s.slot i with wrongBits := [] } ∧ t.lines = s.lines ∧
    t.maint = s.maint ∧ (s.integ.firstError = none → t.integ.firstError = some (mark .corrected)) ∧
    (s.entry i = none → t.integ.counters = s.integ.counters ∧ t.ports = s.ports) ∧
    (∀ h, s.entry i = some h →
      let c := s.errors h.owner
      let reaches := c.corrected ≠ 255 ∧ c.corrected + 1 = c.threshold ∧ c.mark = false
      t.errors h.owner = { c with corrected := sat8 c.corrected, mark := if reaches then true else c.mark } ∧
      (∀ q, q ≠ h.owner → t.errors q = s.errors q) ∧
      (∀ q, t.port q = if q = h.owner ∧ reaches then (s.port q).enqueue (.integrity (sat8 c.corrected) i)
        else s.port q))) ∧
  (∀ a b, (s.slot i).wrongBits = [a, b] → t.slot i = ⟨Body.free, [], none⟩ ∧
    (s.integ.firstError = none → t.integ.firstError = some (mark .uncorrectable)) ∧
    (s.entry i = none → t.integ.counters = s.integ.counters ∧ t.ports = s.ports ∧ t.lines = s.lines) ∧
    (∀ h, s.entry i = some h →
      t.errors h.owner = { s.errors h.owner with uncorrectable := sat8 (s.errors h.owner).uncorrectable } ∧
      (∀ q, q ≠ h.owner → t.errors q = s.errors q) ∧
      t.line h.line = { s.line h.line with
        scheduled := (if h.status.isPulse = true then other (s.line h.line).scheduled else (s.line h.line).scheduled) } ∧
      (∀ n, n ≠ h.line → t.line n = s.line n) ∧
      let told := s.offer h.owner (.actionDone i h.tag h.line .integrity h.countA h.countB)
      let beside := ∃ j k, j ≠ i ∧ s.entry j = some k ∧ k.status.isPulse = true
      ((s.maint.mode ≠ .draining ∨ beside) → t.maint = s.maint ∧ t.ports = told.ports) ∧
      (s.maint.mode = .draining → ¬ beside → t.maint = told.nowDirect.maint ∧ t.ports = told.nowDirect.ports)))

/-- An event reads the slot of an entry, which is checked first: an entry that the check has withdrawn gets nothing more,
and one that is clean or corrected becomes what the event makes of it (R96, R142, R144, R146). -/
def State.reads (u : State) (i : SlotId) (becomes : State → Header → State → Prop) (out : State) : Prop :=
  ∃ v : State, u.checkedSlot i v ∧ (v.entry i = none → out = v) ∧ ∀ h, v.entry i = some h → becomes v h out

/-- No body of a list of slots has more than two changed bits: more are not assured of detection (R141). -/
def State.readableAt (s : State) (l : List SlotId) : Prop := ∀ i ∈ l, (s.slot i).wrongBits.length ≤ 2

/-- An entry whose slot has been read, offered for application at a due time: deferred while firing is held, behind those
deferred before it; on a busy line collided; else applied (R66, R77 to R81, R90). -/
def State.arrivesAs (u : State) (i : SlotId) (h : Header) (due : Count) (when_ : Timeliness) (out : State) : Prop :=
  let body := u.body i
  let every := ∃ d, body.timing = .anchored d .every
  (u.maint.mode ≠ .run → ∃ place : Nat, out = u.entryNow i { h with status := .deferred due place } ∧
    ∀ j k d q, j ≠ i → u.entry j = some k → k.status = .deferred d q → q < place) ∧
  (u.maint.mode = .run → u.busy h.line →
    (¬ every → out = u.entryEnded i h .collided) ∧
    (every → out = u.entryNow i { h with status := .armed, countB := sat16 h.countB })) ∧
  (u.maint.mode = .run → ¬ u.busy h.line →
    (∀ lev : Level, (body.action = .setHigh ∧ lev = .high ∨ body.action = .setLow ∧ lev = .low ∨
        body.action = .toggle ∧ lev = other (u.line h.line).scheduled) →
      (¬ every → out = (u.setScheduled h.line lev).entryEnded i h (firedAs when_)) ∧
      (every → out = (u.setScheduled h.line lev).entryNow i { h with status := .armed, countA := sat16 h.countA })) ∧
    (∀ act w, body.action = .pulse act w → out = (u.setScheduled h.line act).entryNow i
      { h with status := .active ⟨u.elapsed, .inPulse (u.elapsed + w.toNat), when_, none⟩ }) ∧
    (∀ act w q c a, body.action = .train act w q c → (every → a = h.countA) → (¬ every → a = sat16 h.countA) →
      out = (u.setScheduled h.line act).entryNow i { h with
        countA := a
        status := .active ⟨u.elapsed, .inPulse (u.elapsed + w.toNat), when_,
          some ⟨1, 0, boundaryLeft c 1 0 (u.elapsed + q.toNat)⟩⟩ }))

/-- An entry whose slot has been read is handled late: offered late under FIRE_LATE; under DROP_LATE dropped, or re-armed
with a missed anchor (R66). -/
def State.latesTo (u : State) (i : SlotId) (h : Header) (due : Count) (out : State) : Prop :=
  let every := ∃ x, (u.body i).timing = .anchored x .every
  ((u.body i).late = .fireLate → u.arrivesAs i h due .late out) ∧
  ((u.body i).late = .dropLate →
    (¬ every → out = u.entryEnded i h .droppedLate) ∧
    (every → out = u.entryNow i { h with status := .armed, countB := sat16 h.countB }))

/-- An ARMED entry whose slot has been read is armed by an edge of time `stamp`: ahead it is PENDING, due it arrives,
behind it is handled late (R66, R86, R87). -/
def State.armsTo (u : State) (i : SlotId) (h : Header) (stamp : Count) (out : State) : Prop :=
  ∀ (delay : BitVec 24) (rep : Repeat), (u.body i).timing = .anchored delay rep →
    let due : Count := stamp + delay.setWidth 40
    let d : Nat := (due.toNat + 2 ^ 40 - u.tb.count.toNat) % 2 ^ 40
    (1 ≤ d → d ≤ 2 ^ 39 → out = u.entryNow i { h with status := .pending due }) ∧
    (d = 0 → u.arrivesAs i h due .onTime out) ∧
    (2 ^ 39 < d → u.latesTo i h due out)

/-- An edge of time `stamp` arms the ARMED entry of a slot (R86, R87, R96). -/
def State.edgeArms (stamp : Count) (u : State) (i : SlotId) (out : State) : Prop :=
  ∃ h, u.entry i = some h ∧ h.status = .armed ∧ u.reads i (fun v k x => v.armsTo i k stamp x) out

/-- The PENDING entry of a slot arrives on time (R77, R96). -/
def State.comesDue (u : State) (i : SlotId) (out : State) : Prop :=
  ∃ h due, u.entry i = some h ∧ h.status = .pending due ∧ u.reads i (fun v k x => v.arrivesAs i k due .onTime x) out

/-- The PENDING entry of a slot is judged anew against the count: ahead it stays, unread; due it arrives, behind it is
handled late (R62, R66, R67, R142). -/
def State.rejudgesTo (u : State) (i : SlotId) (out : State) : Prop :=
  ∃ h due, u.entry i = some h ∧ h.status = .pending due ∧
    let d : Nat := (due.toNat + 2 ^ 40 - u.tb.count.toNat) % 2 ^ 40
    (1 ≤ d → d ≤ 2 ^ 39 → out = u) ∧
    (d = 0 → u.reads i (fun v k x => v.arrivesAs i k due .onTime x) out) ∧
    (2 ^ 39 < d → u.reads i (fun v k x => v.latesTo i k due x) out)

/-- The entry of each slot of a list becomes, one after another, what a relation says of it. -/
def eachBecomes (becomes : State → SlotId → State → Prop) : List SlotId → State → State → Prop
  | [], u, out => out = u
  | i :: l, u, out => ∃ v, becomes u i v ∧ eachBecomes becomes l v out

/-- How far ahead of the count the due time of the PENDING entry in a slot lies (R64). -/
def State.aheadOf (s : State) (i : SlotId) : Option Nat :=
  (s.entry i).bind (fun h => match h.status with
    | .pending due => some ((due.toNat + 2 ^ 40 - s.tb.count.toNat) % 2 ^ 40)
    | _ => none)

/-- The PENDING entries at distances with a property, in due-list order: by distance ahead, equal distances in post
order (R64). -/
def State.dueOrdered (s : State) (f : Nat → Prop) (l : List SlotId) : Prop :=
  l.Pairwise (fun i j => (s.aheadOf i).getD 0 < (s.aheadOf j).getD 0 ∨
    s.aheadOf i = s.aheadOf j ∧ s.orderOf i < s.orderOf j) ∧
  ∀ i, i ∈ l ↔ ∃ d, s.aheadOf i = some d ∧ f d

/-- The DEFERRED entries in deferral order (R90). -/
def State.deferralOrdered (s : State) (l : List SlotId) : Prop :=
  let place (i : SlotId) : Option Nat := (s.entry i).bind (fun h => h.status.place)
  l.Pairwise (fun i j => (place i).getD 0 < (place j).getD 0) ∧ ∀ i, i ∈ l ↔ place i ≠ none

/-- The slots of the entries with a property, in strict post order (R57). -/
def State.postOrdered (s : State) (f : Header → Prop) (l : List SlotId) : Prop :=
  l.Pairwise (fun i j => s.orderOf i < s.orderOf j) ∧ ∀ i, i ∈ l ↔ ∃ h, s.entry i = some h ∧ f h

/-- The ACTION_DONE records of a list of slots are offered to their owners, one after another (R74). -/
def State.withRecords (s : State) (l : List SlotId) (o : EntryOutcome) : State :=
  l.foldl (fun t i => match s.entry i with
    | some h => t.offer h.owner (.actionDone i h.tag h.line o h.countA h.countB)
    | none => t) s

/-- The scheduled level of a line after the pulses of the entries with a property were cut: the inactive level where one
of them had its pulse in progress there, and unchanged where none had (R70, R92, R95). The cut reads no body (R142): the
inactive level is the opposite of the scheduled level, which the pulse itself set (model's deduction, log 11). -/
def State.levelCut (s : State) (f : Header → Prop) (n : LineId) (level : Level) : Prop :=
  let cut (i : SlotId) (h : Header) : Prop := s.entry i = some h ∧ f h ∧ h.line = n ∧ h.status.isPulse = true
  ((∀ i h, ¬ cut i h) → level = (s.line n).scheduled) ∧
  (∀ i h, cut i h → (∀ j k, cut j k → j = i) → level = other (s.line n).scheduled)

/-- While DRAINING, a pulse is in progress at an entry without a property, so that withdrawing those with it reports no
end of the draining (R89). -/
def State.drainsOn (s : State) (f : Header → Prop) : Prop :=
  s.maint.mode = .draining → ∃ j k, s.entry j = some k ∧ ¬ f k ∧ k.status.isPulse = true

/-- The state, as far as its ports and its hub mode go, after the entries with a property have completed with an outcome
in the order of a list: their ACTION_DONE records stand one after another, and where the last pulse in progress while
DRAINING was among them, the entry into DIRECT right after the record of that entry (R74, R89, R127). -/
def State.recorded (s : State) (f : Header → Prop) (o : EntryOutcome) (l : List SlotId) (u : State) : Prop :=
  (s.drainsOn f → u = s.withRecords l o) ∧
  (¬ s.drainsOn f → ∀ before i after, l = before ++ i :: after →
    (∃ h, s.entry i = some h ∧ h.status.isPulse = true) →
    (∀ j ∈ after, ∀ h, s.entry j = some h → h.status.isPulse = false) →
    u = ((s.withRecords (before ++ [i]) o).nowDirect).withRecords after o)

/-! ## What several commands do in the same way -/

/-- Every pulse in progress has been cut at the drain limit: its line is at the inactive level, a PULSE has completed CUT
in post order, a TRAIN is SUSPENDED with its counts as they were, every other slot is as it was, and then the hub has
entered DIRECT and every port is told (R92, R127, R128). -/
def State.drained (s t : State) : Prop :=
  { t with maint := s.maint, pool := s.pool, lines := s.lines, ports := s.ports } = s ∧
  t.maint = { s.maint with mode := .direct, drainDeadline := none } ∧
  (∀ i, t.slot i = match s.entry i with
    | none => s.slot i
    | some h => match h.status with
      | .active r => if r.phase = .betweenPulses then s.slot i else
          match r.train with
          | none => ⟨Body.free, [], none⟩
          | some _ => { s.slot i with entry := some { h with
              status := .suspended { r with phase := .betweenPulses } } }
      | _ => s.slot i) ∧
  (∀ n, { t.line n with scheduled := (s.line n).scheduled } = s.line n ∧
    s.levelCut (fun h => h.status.isPulse = true) n (t.line n).scheduled) ∧
  ∀ l, s.postOrdered (fun h => ∃ r e, h.status = .active r ∧ r.phase = .inPulse e ∧ r.train = none) l →
    t.ports = ((s.withRecords l .cut).offerAll .directEntered).ports

/-- A filter that has been restarted, without an edge, on a line that leaves OFF: at the outside level where outside
equipment holds the pin (log 8), else at the level that the hub drives (R97, R98, R102; the drive is that of the new mode,
model's deduction, log 16, and the sampled level is that of the restart, log 9). -/
def State.restartedUnder (s : State) (n : LineId) (drive : Option Level) (f : Filter) : Prop :=
  ∃ raw : Level, f = ⟨raw, none, raw⟩ ∧
    (s.held.getLsbD n.val = true → raw = Level.ofBit (s.level.getLsbD n.val)) ∧
    ∀ v, s.held.getLsbD n.val = false → drive = some v → raw = v

/-- The filter of a line that has taken its park mode: cleared in OFF; restarted under the drive of the park mode when the
line comes from OFF; else as it was (R11, R102). -/
def State.filterParked (s : State) (n : LineId) (fromOff : Prop) (f : Filter) : Prop :=
  let drive : Option Level := match (s.line n).park with
    | .parkLow => some .low
    | .parkHigh => some .high
    | _ => none
  ((s.line n).park = .off → f.filtered = .low ∧ f.run = none) ∧
  ((s.line n).park ≠ .off → ¬ fromOff → f = s.filter n) ∧
  ((s.line n).park ≠ .off → fromOff → s.restartedUnder n drive f)

/-- A line as the end of a check leaves it: one still in TEST at its saved mode and level while the requester holds it,
else in its park mode; any other as it was (R12). -/
def State.lineRestored (s : State) (requester : PortId) (n : LineId) (t : State) : Prop :=
  ((s.line n).mode ≠ .test → t.line n = s.line n ∧ t.filter n = s.filter n) ∧
  ((s.line n).mode = .test →
    (∀ m l, (s.line n).saved = some (m, l) → (s.claim (lineRes n)).holder = some requester →
      t.line n = { s.line n with mode := m, scheduled := l, saved := none }) ∧
    ((s.line n).saved = none ∨ (s.claim (lineRes n)).holder ≠ some requester →
      t.line n = { s.line n with mode := (s.line n).park.mode, override := none, saved := none }) ∧
    ((t.line n).mode ≠ .off → t.filter n = s.filter n) ∧
    ((t.line n).mode = .off → (t.filter n).filtered = .low ∧ (t.filter n).run = none))

/-- A running check has ended with a result: the lines restored, and CHECK_DONE offered to the requester (R136, R137). -/
def State.checkEnded (s : State) (requester : PortId) (result : CheckResult) (t : State) : Prop :=
  { t with lines := s.lines, filters := s.filters, maint := s.maint, ports := s.ports } = s ∧
  t.maint = { s.maint with check := .finished result } ∧ (∀ n, s.lineRestored requester n t) ∧
  t.ports = (s.offer requester (.checkDone result)).ports

/-- The DEFERRED entry of a slot is handled late, whenever it was due (R93 step 1). -/
def State.deferredLate (u : State) (i : SlotId) (out : State) : Prop :=
  ∃ h due place, u.entry i = some h ∧ h.status = .deferred due place ∧
    u.reads i (fun v k x => v.latesTo i k due x) out

/-- The SUSPENDED train of a slot, at the return to RUN: with pulses left it takes its first boundary at or after the
return, counted from the boundary it holds (model's choice, log 28), and a pulse begins when that is the return itself;
with none left it waits for step 3,
its slot checked here too (R93 step 2; model's choice, log 32). -/
def State.trainResumes (u : State) (i : SlotId) (out : State) : Prop :=
  ∃ h r, u.entry i = some h ∧ h.status = .suspended r ∧ u.reads i (fun v h out =>
    ∀ x act w q c, r.train = some x → (v.body i).action = .train act w q c →
      let every := ∃ d, (v.body i).timing = .anchored d .every
      (∀ b₀ k, (c = 0 ∨ x.begun.toNat + x.skipped.toNat < c.toNat) → x.nextBoundary = some b₀ →
        let b := b₀ + k * q.toNat
        v.elapsed ≤ b → (k = 0 ∨ b < v.elapsed + q.toNat) →
        (v.elapsed < b → out = v.entryNow i { h with
          status := .active { r with phase := .betweenPulses, train := some { x with nextBoundary := some b } } }) ∧
        (v.elapsed = b → ∀ a, (every → a = h.countA) → (¬ every → a = sat16 h.countA) →
          out = (v.setScheduled h.line act).entryNow i { h with
            countA := a
            status := .active { r with
              phase := .inPulse (b + w.toNat)
              train := some ⟨sat16 x.begun, x.skipped,
                boundaryLeft c (sat16 x.begun) x.skipped (b + q.toNat)⟩ } })) ∧
      (c ≠ 0 → c.toNat ≤ x.begun.toNat + x.skipped.toNat → out = v)) out

/-- The SUSPENDED finite train of a slot with no pulses left finishes (R93 step 3). -/
def State.trainFinishes (u : State) (i : SlotId) (out : State) : Prop :=
  ∃ h r, u.entry i = some h ∧ h.status = .suspended r ∧ u.reads i (fun v h out =>
    ∀ x act w q c, r.train = some x → (v.body i).action = .train act w q c →
      c ≠ 0 → c.toNat ≤ x.begun.toNat + x.skipped.toNat →
      let every := ∃ d, (v.body i).timing = .anchored d .every
      (¬ every → out = v.entryEnded i h (firedAs r.timeliness)) ∧
      (every → out = v.entryNow i { h with status := .armed, countA := sat16 h.countA })) out

/-- The hub mode has returned to RUN: overrides gone, DIRECT_EXITED offered to every port, and the schedule has caught up
in three steps: the DEFERRED entries handled late in deferral order, then the SUSPENDED trains that go on, in post order,
then those with no pulses left, which finish in post order (R93, R96, R131; model's choices, log 28, log 32). -/
def State.returned (s : State) (reason : ExitReason) (t : State) : Prop :=
  let u : State := { s with
    maint := { s.maint with mode := .run, drainDeadline := none }
    lines := s.lines.map (fun l => { l with override := none })
    ports := s.ports.map (fun q => q.enqueue (.directExited reason)) }
  let suspended (h : Header) : Prop := h.status.suspendedRun ≠ none
  { t with maint := s.maint, lines := s.lines, ports := s.ports, pool := s.pool, integ := s.integ, free := s.free } = s ∧
  t.maint = u.maint ∧ (∀ n, { t.line n with scheduled := (u.line n).scheduled } = u.line n) ∧
  ∀ l₁ l₂, s.deferralOrdered l₁ → s.postOrdered suspended l₂ → s.readableAt (l₁ ++ l₂) →
    ∃ (v₁ v₂ : State) (l₃ : List SlotId), eachBecomes State.deferredLate l₁ u v₁ ∧
      eachBecomes State.trainResumes l₂ v₁ v₂ ∧ v₂.postOrdered suspended l₃ ∧ eachBecomes State.trainFinishes l₃ v₂ t

/-- The PORTS group of a slot is applied: its marker, the sum of the quotas, no threshold 0 (R182). -/
def State.portsApply (s : State) (i : Fin 3) : Prop :=
  s.storeByte i.val 0x00 = 0xA5 ∧
    (s.storeByte i.val 1).toNat + (s.storeByte i.val 2).toNat + (s.storeByte i.val 3).toNat +
      (s.storeByte i.val 4).toNat ≤ 128 ∧
    ∀ p : PortId, s.storeByte i.val (0x09 + p.val) ≠ 0

/-- The LINES group of a slot is applied: its marker, the park-mode codes, the filter lengths (R182). -/
def State.linesApply (s : State) (i : Fin 3) : Prop :=
  s.storeByte i.val 0x0D = 0xA5 ∧
    ∀ n : LineId, (s.storeByte i.val (0x0E + n.val)).toNat ≤ 3 ∧ (s.storeByte i.val (0x1E + n.val)).toNat ≤ 15

/-- The TIE group of a slot is applied: its marker and the role-preference code (R182). -/
def State.tieApply (s : State) (i : Fin 3) : Prop :=
  s.storeByte i.val 0x33 = 0xA5 ∧ 1 ≤ (s.storeByte i.val 0x35).toNat ∧ (s.storeByte i.val 0x35).toNat ≤ 3

/-- The settings are those of the in-force slot, each group applied whole where it is valid; a group that is not, and
every group without an in-force slot, has its defaults whole (R182, 13_frame_and_record_layouts.md, The profile slot).
The defaults of the TIE group beside its enable are the model's (log 15). -/
def State.settingsLoaded (t : State) : Prop :=
  (∀ i, t.inForce = some i →
    (t.portsApply i → ∀ p : PortId, t.loaded.quota[p.val] = t.storeByte i.val (0x01 + p.val) ∧
      t.loaded.mask[p.val] = t.storeByte i.val (0x05 + p.val) ∧
      (t.errors p).threshold = t.storeByte i.val (0x09 + p.val)) ∧
    (t.linesApply i → ∀ n : LineId,
      some (t.line n).park =
        ([.off, .input, .parkLow, .parkHigh] : List ParkMode)[(t.storeByte i.val (0x0E + n.val)).toNat]? ∧
      t.loaded.filter[n.val].toNat = (t.storeByte i.val (0x1E + n.val)).toNat) ∧
    (t.storeByte i.val 0x2E = 0xA5 →
      t.maint.drainLimit.toNat = (t.storeByte i.val 0x2F).toNat * 65536 + (t.storeByte i.val 0x30).toNat * 256 +
        (t.storeByte i.val 0x31).toNat ∧
      t.loaded.unit = t.storeByte i.val 0x32) ∧
    (t.tieApply i → t.loaded.tieEnable = (t.storeByte i.val 0x34).getLsbD 0 ∧
      t.loaded.rolePref = (if t.storeByte i.val 0x35 = 1 then .leader
        else if t.storeByte i.val 0x35 = 2 then .follower else .either) ∧
      (∀ k < 3, t.loaded.rateSet.getLsbD k = (t.storeByte i.val 0x36).getLsbD k) ∧
      t.loaded.exported.toNat = (t.storeByte i.val 0x37).toNat * 256 + (t.storeByte i.val 0x38).toNat)) ∧
  ((∀ i, t.inForce = some i → ¬ t.portsApply i) → ∀ p : PortId,
    t.loaded.quota[p.val] = 32 ∧ t.loaded.mask[p.val] = 0xFF ∧ (t.errors p).threshold = 16) ∧
  ((∀ i, t.inForce = some i → ¬ t.linesApply i) → ∀ n : LineId,
    (t.line n).park = .input ∧ t.loaded.filter[n.val] = 2) ∧
  ((∀ i, t.inForce = some i → t.storeByte i.val 0x2E ≠ 0xA5) →
    t.maint.drainLimit = 10000 ∧ t.loaded.unit = 0) ∧
  ((∀ i, t.inForce = some i → ¬ t.tieApply i) → t.loaded.tieEnable = false)

/-- The three conditions that make a profile slot the in-force one: sealed, not retired, its check code valid (R181,
13_frame_and_record_layouts.md). -/
def State.mayBeInForce (s : State) (i : Fin 3) : Prop :=
  s.storeByte i.val 0x3E = 0x5A ∧ s.storeByte i.val 0x3F ≠ 0xC3 ∧
    [s.storeByte i.val 0x3C, s.storeByte i.val 0x3D] = bytesOf 2 (crc (s.storeBytes i.val 0 60))

end Sys2Proof.Machine

namespace Sys2Proof

open Sys2Proof.Machine (bytesOf postBytes)

/-- The port, the code and the parameter bytes of each of the 37 commands (R175, R176); none for a row that is no
command. -/
def Instr.onPort : Instr → Option (PortId × Byte × List Byte)
  | .claim p r w l => some (p, 0x10, [r] ++ bytesOf 2 w ++ bytesOf 2 l)
  | .release p r => some (p, 0x11, [r])
  | .renew p r => some (p, 0x12, [r])
  | .queryClaim p r => some (p, 0x13, [r])
  | .lineConfig p n m l f => some (p, 0x20, [n, m, l, f])
  | .lineRead p => some (p, 0x21, [])
  | .subscribe p n e => some (p, 0x22, [n, e])
  | .post p b => some (p, 0x30, postBytes b)
  | .cancel p i => some (p, 0x31, [i])
  | .cancelLine p n => some (p, 0x32, [n])
  | .queryEntry p i => some (p, 0x33, [i])
  | .readTime p => some (p, 0x40, [])
  | .setTime p c => some (p, 0x41, bytesOf 5 c)
  | .stepTime p o => some (p, 0x42, bytesOf 5 o)
  | .halt p => some (p, 0x43, [])
  | .resume p => some (p, 0x44, [])
  | .takeNotices p m => some (p, 0x50, [m])
  | .peekNotice p => some (p, 0x51, [])
  | .setAttnMask p m => some (p, 0x52, [m])
  | .snapshot p => some (p, 0x53, [])
  | .enterDirect p => some (p, 0x60, [])
  | .exitDirect p => some (p, 0x61, [])
  | .directDrive p n d => some (p, 0x62, [n, d])
  | .lineCheck p x => some (p, 0x63, bytesOf 2 x)
  | .abortCheck p => some (p, 0x64, [])
  | .checkResult p => some (p, 0x65, [])
  | .integrityRead p => some (p, 0x66, [])
  | .integrityClear p => some (p, 0x67, [])
  | .softReset p => some (p, 0x68, [])
  | .linkStatus p => some (p, 0x70, [])
  | .linkRetrain p => some (p, 0x71, [])
  | .profileRead p i o l => some (p, 0x80, [i, o, l])
  | .profileWrite p i o b => some (p, 0x81, [i, o, b])
  | .profileSeal p i => some (p, 0x82, [i])
  | .profileRetire p i => some (p, 0x83, [i])
  | .portReset p => some (p, 0x90, [])
  | .ident p => some (p, 0x91, [])
  | .pinReset | .loading _ | .frameStart _ | .frameEnd _ _ | .unknownCommand _ _ | .leaseExpiry _ | .waitDeadline _
  | .countAdvance | .pulseEnd _ | .trainBoundary _ | .lineSample _ _ | .edgeAccepted _ | .noticeRecordRemoved _
  | .drainLimitExpiry | .checkWindowEnd | .scrubVisit | .retrainDownEnd | .wordSlot | .finalAbilitySent
  | .abilityReceived _ | .aligningDeadline | .timeQueryReceived _ | .timeReplyReceived _ | .captureWordReceived _
  | .idleWordReceived _ | .queryDue | .replyDeadline | .followerSilenceDeadline | .holdoffEnd | .profileBusyEnd
  | .storedBitError _ _ | .parameterByteGathered _ _ => none

end Sys2Proof
end

