-- ==== Sys2Proof/WellFormed.lean ====
section
/-! DEFINITION. Which terms of `Instr` are commands of the table. Most operands are in range by their types, and
parameter values out of range are commands that are refused (R173); what is left to check is said here. -/

namespace Sys2Proof

/-- The checks: LOADING has seven steps (R183), an unknown code names no command (R171), and a received word has at
most 160 bit times (R153). -/
def Instr.wf : Instr → Bool
  | .loading last => 1 ≤ last ∧ last ≤ 7
  | .unknownCommand _ code => (paramCount code).isNone
  | .abilityReceived w => w.bytes.length ≤ 20
  | .timeQueryReceived w => w.bytes.length ≤ 20
  | .timeReplyReceived w => w.bytes.length ≤ 20
  | .captureWordReceived w => w.bytes.length ≤ 20
  | .idleWordReceived w => w.bytes.length ≤ 20
  | .pinReset | .frameStart _ | .frameEnd _ _ | .claim _ _ _ _ | .release _ _ | .renew _ _ | .queryClaim _ _
  | .leaseExpiry _ | .waitDeadline _ | .lineConfig _ _ _ _ _ | .lineRead _ | .subscribe _ _ _ | .post _ _
  | .cancel _ _ | .cancelLine _ _ | .queryEntry _ _ | .readTime _ | .setTime _ _ | .stepTime _ _ | .halt _
  | .resume _ | .countAdvance | .pulseEnd _ | .trainBoundary _ | .lineSample _ _ | .edgeAccepted _
  | .takeNotices _ _ | .noticeRecordRemoved _ | .peekNotice _ | .setAttnMask _ _ | .snapshot _ | .enterDirect _
  | .drainLimitExpiry | .exitDirect _ | .directDrive _ _ _ | .lineCheck _ _ | .checkWindowEnd | .abortCheck _
  | .checkResult _ | .scrubVisit | .integrityRead _ | .integrityClear _ | .softReset _ | .portReset _ | .ident _
  | .linkStatus _ | .linkRetrain _ | .retrainDownEnd | .wordSlot | .finalAbilitySent | .aligningDeadline
  | .queryDue | .replyDeadline | .followerSilenceDeadline | .holdoffEnd | .profileRead _ _ _ _
  | .profileWrite _ _ _ _ | .profileSeal _ _ | .profileRetire _ _ | .profileBusyEnd | .storedBitError _ _
  | .parameterByteGathered _ _ => true

end Sys2Proof
end

