-- ==== Sys2Proof/Certificates/Slice0/Obligations.lean ====
section
/-! DEFINITION. The statements for the provers. A statement about a command says what `exec` answers for it; it writes
the next state as a changed copy of the state before, or gives a frame `⟨t with the fields named⟩ = s`, so that it also
says what stays. No statement rests on the value of a free value of Config. -/

section

open Sys2Proof Sys2Proof.Machine

/-! ## The block: queue, tick, every command -/

/-- A step takes the command at the front of the queue and carries it out with the queue's rest (log 1). -/
def Obligations.StepTakesFrontCommand : Prop :=
  ∀ (c : Instr) (rest : List Instr) (s : State), s.pending = c :: rest → step s = exec c { s with pending := rest }

/-- A step on an empty queue lets one elapsed tick pass, unless RESETn is low: it moves the clock, takes the free values
of a tick, notes what the hub drives for the sample, and puts rows into the queue, among them exactly one advance of the
count, one sample after it and one acceptance for each of the sixteen lines directly after the sample (model's choice,
log 1, log 2, log 30; R38, R39, R98). -/
def Obligations.EmptyQueueTick : Prop :=
  ∀ s : State, s.pending = [] →
    (s.phase = .pinReset → step s = .next s) ∧
    (s.phase ≠ .pinReset →
      ∃ a b c held level order, (order : List LineId).Perm (List.finRange 16) ∧
        step s = .next { s with
          elapsed := s.elapsed + 1
          free := s.free + 1
          tickPins := some (Vector.ofFn (fun n => s.drive n))
          pending := a ++ .countAdvance ::
            (b ++ .lineSample held level :: (order.map .edgeAccepted ++ c)) } ∧
        ∀ x ∈ a ++ b ++ c, x ≠ .countAdvance ∧ (∀ h l, x ≠ .lineSample h l) ∧ ∀ n, x ≠ .edgeAccepted n)

/-- A tick puts the row of a timer into the queue exactly when the clock reaches the timer's time (R17, R23, R24, R39,
R80, R81, R128, R135, R143, R156, R157, R161, R162, R165, R184; model's choice, log 2, log 24). Of the rows of one tick,
those that make a query due stand before the word slot, so that the query leaves in the first slot at or after its time
(R157, R160). -/
def Obligations.TickBringsDueTimers : Prop :=
  ∀ s : State, s.pending = [] → s.phase ≠ .pinReset → ∃ t : State, step s = .next t ∧
    (∀ r, .leaseExpiry r ∈ t.pending ↔ ∃ e ≤ s.elapsed + 1, (s.claim r).expiry = some e) ∧
    (∀ r, .waitDeadline r ∈ t.pending ↔ ∃ w ∈ (s.claim r).waiters, w.deadline ≤ s.elapsed + 1) ∧
    (∀ i, .pulseEnd i ∈ t.pending ↔ ∃ h, s.entry i = some h ∧ ∃ e ≤ s.elapsed + 1, h.status.pulseEnd = some e) ∧
    (∀ i, .trainBoundary i ∈ t.pending ↔
      ∃ h, s.entry i = some h ∧ ∃ e ≤ s.elapsed + 1, h.status.nextBoundary = some e) ∧
    (.drainLimitExpiry ∈ t.pending ↔
      s.maint.mode = .draining ∧ ∃ e ≤ s.elapsed + 1, s.maint.drainDeadline = some e) ∧
    (.checkWindowEnd ∈ t.pending ↔ ∃ p, s.maint.check = .running p ∧ p.windowEnd ≤ s.elapsed + 1) ∧
    (.scrubVisit ∈ t.pending ↔ ∃ e ≤ s.elapsed + 1, s.integ.scrubDue = some e) ∧
    (.profileBusyEnd ∈ t.pending ↔ ∃ b, s.storeBusy = some b ∧ b.until_ ≤ s.elapsed + 1) ∧
    (.retrainDownEnd ∈ t.pending ↔ s.link.state = .down ∧ ∃ e ≤ s.elapsed + 1, s.link.deadline = some e) ∧
    (.aligningDeadline ∈ t.pending ↔ s.link.state = .aligning ∧ ∃ e ≤ s.elapsed + 1, s.link.deadline = some e) ∧
    (.holdoffEnd ∈ t.pending ↔ s.link.state = .holdoff ∧ ∃ e ≤ s.elapsed + 1, s.link.deadline = some e) ∧
    (.finalAbilitySent ∈ t.pending ↔ ∃ e ≤ s.elapsed + 1, s.link.finalEnd = some e) ∧
    (.queryDue ∈ t.pending ↔ ∃ e ≤ s.elapsed + 1, s.link.nextQuery = some e) ∧
    (.replyDeadline ∈ t.pending ↔ ∃ q, s.link.query = some q ∧ q.deadline ≤ s.elapsed + 1) ∧
    (.followerSilenceDeadline ∈ t.pending ↔ ∃ e ≤ s.elapsed + 1, s.link.silence = some e) ∧
    ((∃ e ≤ s.elapsed + 1, s.link.nextSlot = some e) → .wordSlot ∈ t.pending) ∧
    ((s.link.state = .aligning ∨ s.link.state = .locked) → s.link.finalEnd = none →
      ∀ x y, t.pending = x ++ .wordSlot :: y → .queryDue ∉ y ∧ .replyDeadline ∉ y)

/-- No command stops the hub: each answers a next state, and leaves the queue of commands and, but for PIN_RESET, the
clock alone ("No error stops the hub", 11_port_transactions_and_commands.md; model's choice, log 1). -/
def Obligations.EveryCommandAnswersNext : Prop :=
  ∀ (c : Instr) (s : State), ∃ t : State, exec c s = .next t ∧ t.pending = s.pending ∧
    (c ≠ .pinReset → t.elapsed = s.elapsed)

/-! ## Reset and LOADING -/

/-- The values that the manual states for pin reset, in `State.reset` (R13, R36, R53, R76, R110, R122, R140, R151,
R167, R180). What it states no value for is the model's (log 7, log 8, log 9, log 15, log 23, log 26) and stays out;
and the reset state obeys the laws of the hub. -/
def Obligations.ResetValues : Prop :=
  State.reset.phase = .pinReset ∧ State.reset.pending = [] ∧
  (∀ p, let q := State.reset.port p
    q.queue = [] ∧ q.lost = 0 ∧ q.overrun = 0 ∧ q.overrunLatch = false ∧ q.frameLatch = false ∧ q.mask = 0xFF ∧
      q.frame = .idle ∧ q.attn = false ∧ ∀ k, State.reset.dataOut p k = none) ∧
  (∀ r, State.reset.claim r = ⟨none, 0, none, []⟩) ∧
  (∀ n, State.reset.line n = ⟨.off, .low, none, .input, 2, none⟩ ∧ State.reset.drive n = none ∧
    State.reset.pinLevel n = .low ∧ (State.reset.filter n).filtered = .low ∧ (State.reset.filter n).run = none) ∧
  (∀ p l, State.reset.cell p l = .none) ∧
  State.reset.tb.count = 0 ∧ State.reset.tb.run = .halted ∧ State.reset.tb.epoch = 0 ∧
  State.reset.tb.source = .localTime ∧
  (∀ i, State.reset.slot i = ⟨Body.free, [], none⟩) ∧ State.reset.postOrder = 0 ∧
  (∀ p : PortId, State.reset.loaded.quota[p.val] = 32 ∧ State.reset.slotsInUse p = 0) ∧
  State.reset.maint = ⟨.run, 10000, none, .idle⟩ ∧
  (∀ p, State.reset.errors p = ⟨0, 0, 16, false⟩) ∧ State.reset.integ.scrubPos = 0 ∧
  State.reset.integ.scrubDue = none ∧ State.reset.integ.firstError = none ∧
  State.reset.link.state = .down ∧ State.reset.link.role = none ∧ State.reset.link.rate = none ∧
  State.reset.link.ack = false ∧ State.reset.link.deadline = none ∧ State.reset.link.query = none ∧
  State.reset.link.silence = none ∧ State.reset.link.lastD = 0 ∧ State.reset.link.forward = [] ∧
  State.reset.link.drops = 0 ∧ State.reset.link.wire = none ∧ State.reset.storeBusy = none ∧
  State.reset.queuesLawful ∧ State.reset.claimsLawful ∧ State.reset.modeLawful ∧ State.reset.storeLawful ∧
  State.reset.entriesLawful

/-- PIN_RESET puts every block at its reset values and keeps the store, the select pins and what outside equipment does
at the lines. Of an operation that it cuts short, each bit that it was setting stands set or clear (R180, R184). The
model's choices among the values of `State.reset` and what is kept: the queue and the free values (log 1, log 23), the
clock at 0, no slot in force and no slew (log 7), the sampled levels (log 9), the settings of the TIE group (log 15), the
select pins kept (log 26), and the pins that outside equipment holds, with their levels, kept (log 8). -/
def Obligations.PinResetAnswers : Prop :=
  ∀ s : State, s.storeLawful → ∃ m : Memory,
    exec .pinReset s = .next { State.reset with
      pending := s.pending
      free := s.free + 1
      ports := s.ports.map (fun q => ⟨[], 0, 0, false, false, 0xFF, .idle, q.selected⟩)
      held := s.held
      level := s.level
      store := m } ∧
    (s.storeBusy = none → m = s.store) ∧
    (∀ b, s.storeBusy = some b →
      (∀ a, a ∉ b.old.map (fun c => c.1) → Memory.read m a = Memory.read s.store a) ∧
      (∀ c ∈ b.old, c.2 &&& Memory.read m c.1 = c.2 ∧
        Memory.read m c.1 &&& Memory.read s.store c.1 = Memory.read m c.1))

/-- LOADING's seven steps at a hub whose blocks are at their pin-reset values, whatever waits, the clock, the free values,
the selected ports, what outside equipment holds, and the profile store: the first slot that qualifies is in force and
every setting is that of its groups or its default; the hub is READY, every line is in its park mode with its filter
restarted without an edge, the count runs from 0, the link probes or is off, each queue holds its RESET record, and the
scrub's first visit is 64 ticks on (R180 to R183, R53, R110, R122, R143, R167; model's choices: LOADING as one row,
log 6, the first word slot at the entry into PROBING, log 12, the settings of a rejected TIE group, log 15, and filters
that restart under the drive of the park mode, log 16, or at the outside level of a held pin, log 8). -/
def Obligations.LoadingWholeRow : Prop :=
  ∀ (queue : List Instr) (clock free : Nat) (selected : Vector Bool 4) (held level : LineSet) (store : Memory),
    let s : State := { State.reset with
      pending := queue, elapsed := clock, free := free, held := held, level := level, store := store
      ports := selected.map (fun b => ⟨[], 0, 0, false, false, 0xFF, .idle, b⟩) }
    ∃ t : State, exec (.loading 7) s = .next t ∧
      t.phase = .ready ∧ t.pending = queue ∧ t.elapsed = clock ∧ t.store = store ∧ t.storeBusy = none ∧
      (∀ i : Fin 3, t.inForce = some i ↔ s.mayBeInForce i ∧ ∀ j : Fin 3, j < i → ¬ s.mayBeInForce j) ∧
      t.settingsLoaded ∧ t.tb = ⟨0, .running, 0, .localTime, none⟩ ∧
      (∀ n, let l := t.line n
        l.mode = l.park.mode ∧ l.scheduled = .low ∧ l.override = none ∧ l.saved = none ∧
          l.filterLen = t.loaded.filter[n.val]) ∧
      (∀ n, (t.filter n).run = none ∧ ((t.line n).park = .off → (t.filter n).filtered = .low) ∧
        ((t.line n).park ≠ .off → held.getLsbD n.val = true →
          (t.filter n).filtered = Level.ofBit (level.getLsbD n.val)) ∧
        ((t.line n).park = .parkLow → held.getLsbD n.val = false → (t.filter n).filtered = .low) ∧
        ((t.line n).park = .parkHigh → held.getLsbD n.val = false → (t.filter n).filtered = .high)) ∧
      (t.loaded.tieEnable = true →
        t.link.state = .probing ∧ t.link.ack = false ∧ t.link.rate = some .r5 ∧ t.link.nextSlot = some clock) ∧
      (t.loaded.tieEnable = false → t.link.state = .off ∧ t.link.rate = none ∧ t.link.nextSlot = none) ∧
      (∀ p, let q := t.port p
        q.queue = [.reset .power] ∧ q.lost = 0 ∧ q.overrun = 0 ∧ q.overrunLatch = false ∧ q.frameLatch = false ∧
          q.selected = selected[p.val] ∧ q.mask = t.loaded.mask[p.val] ∧
          q.attn = (t.loaded.mask[p.val]).getLsbD 7) ∧
      (∀ r, t.claim r = ⟨none, 0, none, []⟩) ∧ (∀ i, t.slot i = ⟨Body.free, [], none⟩) ∧
      (∀ p l, t.cell p l = .none) ∧ t.maint.mode = .run ∧ t.maint.check = .idle ∧ t.integ.scrubPos = 0 ∧
      t.integ.scrubDue = some (clock + 64) ∧ t.integ.firstError = none ∧
      (∀ p, (t.errors p).corrected = 0 ∧ (t.errors p).uncorrectable = 0 ∧ (t.errors p).mark = false)

/-- LOADING's first step takes as the in-force slot the first of 0, 1, 2 that is sealed, not retired and has a valid
check code; if none qualifies there is none (R181). That a row of LOADING names its last step is the model's choice
(log 6). -/
def Obligations.InForceSlot : Prop :=
  ∀ s : State, s.phase = .pinReset → ∃ t : State, exec (.loading 1) s = .next t ∧
    { t with inForce := s.inForce, phase := s.phase } = s ∧
    (∀ i : Fin 3, t.inForce = some i ↔ s.mayBeInForce i ∧ ∀ j : Fin 3, j < i → ¬ s.mayBeInForce j) ∧
    (t.inForce = none ↔ ∀ i : Fin 3, ¬ s.mayBeInForce i)

/-- LOADING's second step applies each group of the in-force slot whole, or gives it its defaults whole; nothing else
changes (R182, 13_frame_and_record_layouts.md, The profile slot). The operand of LOADING (log 6) and the defaults of the
TIE group beside its enable (log 15) are the model's. -/
def Obligations.GroupsAllOrDefault : Prop :=
  ∀ s : State, s.phase = .loading 1 → ∃ t : State, exec (.loading 2) s = .next t ∧ t.phase = .loading 2 ∧
    { t with loaded := s.loaded, ports := s.ports, lines := s.lines, maint := s.maint, integ := s.integ,
             phase := s.phase } = s ∧
    (∀ p, { t.port p with mask := (s.port p).mask } = s.port p ∧ (t.port p).mask = t.loaded.mask[p.val] ∧
      { t.errors p with threshold := (s.errors p).threshold } = s.errors p) ∧
    (∀ n, { t.line n with park := (s.line n).park, filterLen := (s.line n).filterLen } = s.line n ∧
      (t.line n).filterLen = t.loaded.filter[n.val]) ∧
    { t.maint with drainLimit := s.maint.drainLimit } = s.maint ∧
    { t.integ with counters := s.integ.counters } = s.integ ∧ t.settingsLoaded

/-! ## Frames and results -/

/-- A frame starts with the status byte fixed; a known code with parameters and every parameter byte but the last are
gathered; an unknown code is ignored (R168, R171). While RESETn is low no byte is gathered, a frame whose select falls
stays IDLE, and the rise of select ends it without a FRAME latch (R172). A fall of select at a port that is selected,
or a rise at one that is not, is no event and has no effect (model's choice, log 3). The select rises: the frame is
IDLE again, and the FRAME latch is set when the frame ended after at least one clock and before its command was taken,
but not during LOADING (R170, R172). Data out: high impedance while RESETn is low and in IDLE, the status byte in CODE,
0x00 in PARAMETERS, in RESPONSE the result code and data, then the records of TAKE_NOTICES from the head of the queue,
then 0x00, and in IGNORE UNKNOWN_COMMAND, then 0x00 (R117, R168, R169, R171, R172, R187). -/
def Obligations.FrameEvents : Prop :=
  (∀ (p : PortId) (s : State),
    ((s.port p).selected = true → exec (.frameStart p) s = .next s) ∧
    ((s.port p).selected = false → ∀ clocked, exec (.frameEnd p clocked) s = .next s) ∧
    (s.phase = .pinReset →
      (∀ b, exec (.parameterByteGathered p b) s = .next s) ∧ (∀ code, exec (.unknownCommand p code) s = .next s) ∧
      ((s.port p).selected = false →
        exec (.frameStart p) s = .next (s.setPort p { s.port p with selected := true, frame := .idle })) ∧
      ((s.port p).selected = true → ∀ clocked,
        exec (.frameEnd p clocked) s = .next (s.setPort p { s.port p with selected := false, frame := .idle }))) ∧
    (s.phase ≠ .pinReset →
      ((s.port p).selected = false → ∃ status : Byte,
        exec (.frameStart p) s =
          .next (s.setPort p { s.port p with selected := true, frame := .code status }) ∧
        (status.getLsbD 7 = true ↔ s.phase = .ready) ∧ status.getLsbD 6 = (s.port p).overrunLatch ∧
        ((s.port p).queue.length ≤ 40 → (status &&& 0x3F).toNat = (s.port p).queue.length)) ∧
      (∀ b status k, (s.port p).frame = .code status → paramCount b = some (k + 1) →
        exec (.parameterByteGathered p b) s = .next (s.setPort p { s.port p with frame := .parameters b [] })) ∧
      (∀ b code got k, (s.port p).frame = .parameters code got → paramCount code = some k → got.length + 1 < k →
        exec (.parameterByteGathered p b) s =
          .next (s.setPort p { s.port p with frame := .parameters code (got ++ [b]) })) ∧
      (∀ code status, (s.port p).frame = .code status → paramCount code = none →
        exec (.unknownCommand p code) s = .next (s.setPort p { s.port p with frame := .ignore })))) ∧
  (∀ (p : PortId) (clocked : Bool) (s : State), (s.port p).selected = true →
    exec (.frameEnd p clocked) s = .next (s.setPort p { s.port p with
      selected := false
      frame := .idle
      frameLatch := (s.port p).frameLatch || (s.phase == .ready &&
        match (s.port p).frame with
        | .code _ => clocked
        | .parameters _ _ => true
        | _ => false) })) ∧
  (∀ (p : PortId) (k : Nat) (s : State),
    ((s.phase = .pinReset ∨ (s.port p).frame = .idle) → s.dataOut p k = none) ∧
    (s.phase ≠ .pinReset →
      (∀ status, (s.port p).frame = .code status → s.dataOut p k = some status) ∧
      (∀ code got, (s.port p).frame = .parameters code got → s.dataOut p k = some 0x00) ∧
      (∀ sent left, (s.port p).frame = .response sent left →
        (∀ b, sent[k]? = some b → s.dataOut p k = some b) ∧
        (∀ j m r b, j < left → (s.port p).queue[j]? = some r → r.bytes[m]? = some b → k = sent.length + 12 * j + m →
          s.dataOut p k = some b) ∧
        (sent.length + 12 * min left (s.port p).queue.length ≤ k → s.dataOut p k = some 0x00)) ∧
      ((s.port p).frame = .ignore → s.dataOut p k = some (if k = 0 then 0x0E else 0x00))))

/-- "A known command gathers its parameter bytes and is taken as usual, and it is answered NOT_READY with no effect and
no data" during LOADING (R172), for each of the 37 commands. -/
def Obligations.NotReadyWhileLoading : Prop :=
  ∀ (c : Instr) (p : PortId) (code : Byte) (params : List Byte) (s : State), c.onPort = some (p, code, params) →
    s.loadingFor p code params → exec c s = .next (s.answered p [0x0D])

/-- A command taken by a READY hub answers exactly one result code of R173, and data with OK only (R169); one that the
frame does not bring is not taken (model's choice, log 5). -/
def Obligations.OneResultCode : Prop :=
  ∀ (c : Instr) (p : PortId) (code : Byte) (params : List Byte) (s : State), c.onPort = some (p, code, params) →
    (s.readyFor p code params → ∃ t b data k, exec c s = .next t ∧ (t.port p).frame = .response (b :: data) k ∧
      1 ≤ b.toNat ∧ b.toNat ≤ 0x0D ∧ (b ≠ 0x01 → data = [] ∧ k = 0)) ∧
    (¬ s.awaits p code params → exec c s = .next s)

/-- A CAPTURE record is admitted below 32 records with the lost count written in, and otherwise dropped and counted; a
record of another kind is admitted below 40, and otherwise dropped, counted, and the OVERRUN latch set; a record offered
to all is offered to each queue on its own (R114, R115). -/
def Obligations.Admission : Prop :=
  ∀ (s : State) (p : PortId) (r : Record),
    (∀ l e t ep h st rem n, r = .capture l e t ep h st rem n →
      ((s.port p).queue.length < 32 → s.offer p r = s.setPort p { s.port p with
        queue := (s.port p).queue ++ [.capture l e t ep h st rem (s.port p).lost], lost := 0 }) ∧
      (32 ≤ (s.port p).queue.length → s.offer p r = s.setPort p { s.port p with
        lost := if (s.port p).lost = 255 then 255 else (s.port p).lost + 1 })) ∧
    (r.kind ≠ .capture →
      ((s.port p).queue.length < 40 → s.offer p r = s.setPort p { s.port p with
        queue := (s.port p).queue ++ [r] }) ∧
      (40 ≤ (s.port p).queue.length → s.offer p r = s.setPort p { s.port p with
        overrun := if (s.port p).overrun = 255 then 255 else (s.port p).overrun + 1, overrunLatch := true })) ∧
    (s.offerAll r).port p = (s.offer p r).port p ∧ { s.offerAll r with ports := s.ports } = s

/-! ## Claims -/

/-- CLAIM in every case, with its refusals, the lease and the WANTED record (R18, R19). -/
def Obligations.ClaimOutcomes : Prop :=
  ∀ (p : PortId) (resource : Byte) (waitMs leaseMs : BitVec 16) (s : State),
    let params := [resource] ++ bytesOf 2 waitMs ++ bytesOf 2 leaseMs
    let run := exec (.claim p resource waitMs leaseMs) s
    (s.loadingFor p 0x10 params → run = .next (s.answered p [0x0D])) ∧
    (s.readyFor p 0x10 params →
      (17 < resource.toNat → run = .next (s.answered p [0x08])) ∧
      ∀ r : ResourceId, r.val = resource.toNat →
        let c := s.claim r
        (c.holder = none →
          run = .next ((s.setClaim r ⟨some p, leaseMs, leaseFrom s.elapsed leaseMs, c.waiters⟩).answered p [0x01])) ∧
        (c.holder = some p → run = .next (s.answered p [0x03])) ∧
        (∀ h, c.holder = some h → h ≠ p →
          ((∃ w ∈ c.waiters, w.port = p) → run = .next (s.answered p [0x03])) ∧
          ((∀ w ∈ c.waiters, w.port ≠ p) →
            (waitMs = 0 → run = .next (s.answered p [0x04])) ∧
            (waitMs ≠ 0 →
              let t := s.setClaim r
                { c with waiters := c.waiters ++ [⟨p, s.elapsed + waitMs.toNat * 10000, leaseMs⟩] }
              (c.waiters = [] → run = .next ((t.offer h (.claim r .wanted)).answered p [0x02])) ∧
              (c.waiters ≠ [] → run = .next (t.answered p [0x02]))))))

/-- RELEASE of a wait, of TB and of MX, and its refusals; a released TB or MX passes to its head waiter, who is offered
GRANTED and, while others wait, WANTED. At the end of the MX claim a hub that is DRAINING or DIRECT first returns to
RUN with reason MX_LOST, and a running check ends ABORTED with CHECK_DONE to its requester (R20, R27, R30, R31, R32).
LEASE_EXPIRY before the expiry, on a resource without one, and on TB and MX: the former holder is offered REVOKED
before the claim passes on (R23). Model's choices: a row that comes too early has no effect (log 3), and at the return
to RUN a suspended train goes on at the first grid boundary at or after it, counted from the boundary it holds (log
28), and one with no pulses left has its slot checked before the trains behind it go on, as well as when it finishes
(log 32). -/
def Obligations.ClaimEndsElsewhere : Prop :=
  let cleared (s : State) (r : ResourceId) (u : State) : Prop :=
    (r = resTB ∨ r = resMX ∧ s.maint.mode = .run ∧ s.maint.check.isRunning = false) ∧ u = s ∨
    r = resMX ∧ s.maint.mode ≠ .run ∧ s.maint.check.isRunning = false ∧ s.returned .mxLost u ∨
    r = resMX ∧ s.maint.mode = .run ∧ ∃ c, s.maint.check = .running c ∧
      s.checkEnded c.requester ⟨.aborted, c.passed, c.completed, c.failure⟩ u
  let passed (s u : State) (r : ResourceId) : State :=
    (u.setClaim r ((s.claim r).next s.elapsed)).greet r (s.claim r).waiters
  (∀ (p : PortId) (resource : Byte) (s : State), s.readyFor p 0x11 [resource] →
    let run := exec (.release p resource) s
    (17 < resource.toNat → run = .next (s.answered p [0x08])) ∧
    ∀ r : ResourceId, r.val = resource.toNat →
      let c := s.claim r
      (c.holder ≠ some p → (∀ w ∈ c.waiters, w.port ≠ p) → run = .next (s.answered p [0x05])) ∧
      (c.holder ≠ some p → (∃ w ∈ c.waiters, w.port = p) →
        run = .next ((s.setClaim r { c with waiters := c.waiters.filter (fun w => w.port != p) }).answered p [0x01])) ∧
      (c.holder = some p → r = resTB ∨ r = resMX ∧ s.modeLawful →
        ∃ u, cleared s r u ∧ run = .next ((passed s u r).answered p [0x01]))) ∧
  (∀ (r : ResourceId) (s : State),
    ((∀ e, (s.claim r).expiry = some e → s.elapsed < e) → exec (.leaseExpiry r) s = .next s) ∧
    (∀ e p, (s.claim r).expiry = some e → e ≤ s.elapsed → (s.claim r).holder = some p →
      r = resTB ∨ r = resMX ∧ s.modeLawful →
      ∃ u, cleared s r u ∧ exec (.leaseExpiry r) s = .next (passed s (u.offer p (.claim r .revoked)) r)))

/-- The end of a claim on a line, by RELEASE or by the lease's expiry: the former holder's entries on the line are
withdrawn in post order with the cause's outcome and their pulses cut, the line is in its park mode without override
and saved values, its filter cleared in OFF, restarted without an edge when it leaves OFF, and else as it was, a
running check that tests it ends ABORTED with the other lines restored, the claim has passed to its head waiter or is
free, and the last pulse in progress while DRAINING takes the hub into DIRECT. The notices, in order: the ACTION_DONE
records, CHECK_DONE, REVOKED to the former holder, GRANTED and WANTED to the new one (R11, R12, R20, R23, R27, R28,
R29, R30, R74, R89, R102, R127). The model's: a cut reads the inactive level from the line and not from the body (R142,
log 11), and a filter that restarts reads the pin under the new drive (log 16), which is the outside level where
outside equipment holds the pin (log 8), as its sampled level (log 9). -/
def Obligations.LineClaimEnds : Prop :=
  ∀ (p : PortId) (n : LineId) (s : State), (s.claim (lineRes n)).holder = some p →
    let r := lineRes n
    let mine (h : Header) : Prop := h.owner = p ∧ h.line = n
    let tested (c : Progress) : Prop := s.maint.check = .running c ∧ c.tested.getLsbD n.val = true
    let aborted (c : Progress) : CheckResult := ⟨.aborted, c.passed, c.completed, c.failure⟩
    let told (u : State) (revoked : Bool) : State :=
      (if revoked then u.offer p (.claim r .revoked) else u).greet r (s.claim r).waiters
    let freed (t : State) (o : EntryOutcome) (revoked : Bool) : Prop :=
      t.claim r = (s.claim r).next s.elapsed ∧ (∀ q, q ≠ r → t.claim q = s.claim q) ∧
      (∀ i, (∀ h, s.entry i = some h → mine h → t.slot i = ⟨Body.free, [], none⟩) ∧
        ((∀ h, s.entry i = some h → ¬ mine h) → t.slot i = s.slot i)) ∧
      (t.line n).mode = (s.line n).park.mode ∧ (t.line n).override = none ∧ (t.line n).saved = none ∧
      (t.line n).park = (s.line n).park ∧ (t.line n).filterLen = (s.line n).filterLen ∧
      s.levelCut mine n (t.line n).scheduled ∧ s.filterParked n ((s.line n).mode = .off) (t.filter n) ∧
      ((∀ c, ¬ tested c) → t.maint.check = s.maint.check ∧ ∀ m, m ≠ n → t.line m = s.line m ∧ t.filter m = s.filter m) ∧
      (∀ c, tested c → t.maint.check = .finished (aborted c) ∧ ∀ m, m ≠ n → s.lineRestored c.requester m t) ∧
      t.tb = s.tb ∧ t.link = s.link ∧ t.subs = s.subs ∧ t.store = s.store ∧
      (s.drainsOn mine → { t.maint with check := s.maint.check } = s.maint) ∧
      (¬ s.drainsOn mine → (∃ i h, s.entry i = some h ∧ mine h) →
        { t.maint with check := s.maint.check } = { s.maint with mode := .direct, drainDeadline := none }) ∧
      ∀ l, s.postOrdered mine l → ∃ u, s.recorded mine o l u ∧
        ((∀ c, ¬ tested c) → t.ports = (told u revoked).ports) ∧
        (∀ c, tested c → t.ports = (told (u.offer c.requester (.checkDone (aborted c))) revoked).ports)
    (s.readyFor p 0x11 [lineByte n] →
      ∃ t : State, exec (.release p (lineByte n)) s = .next (t.answered p [0x01]) ∧ freed t .released false) ∧
    (∀ e, (s.claim r).expiry = some e → e ≤ s.elapsed →
      ∃ t : State, exec (.leaseExpiry r) s = .next t ∧ freed t .revoked true)

/-- RENEW of one resource and of all (R21). -/
def Obligations.RenewOutcomes : Prop :=
  ∀ (p : PortId) (resource : Byte) (s : State),
    let run := exec (.renew p resource) s
    let renewed (c : ClaimRec) : ClaimRec :=
      if c.leaseMs = 0 then c else { c with expiry := some (s.elapsed + c.leaseMs.toNat * 10000) }
    (s.loadingFor p 0x12 [resource] → run = .next (s.answered p [0x0D])) ∧
    (s.readyFor p 0x12 [resource] →
      (17 < resource.toNat → resource ≠ 0xFF → run = .next (s.answered p [0x08])) ∧
      (∀ r : ResourceId, r.val = resource.toNat →
        ((s.claim r).holder = some p → run = .next ((s.setClaim r (renewed (s.claim r))).answered p [0x01])) ∧
        ((s.claim r).holder ≠ some p → run = .next (s.answered p [0x05]))) ∧
      (resource = 0xFF → ∃ t : State, run = .next (t.answered p [0x01]) ∧ { t with claims := s.claims } = s ∧
        ∀ r, t.claim r = if (s.claim r).holder = some p then renewed (s.claim r) else s.claim r))

/-- QUERY_CLAIM reports the holder, the remaining lease rounded up and the waiters, and changes nothing (R22, R175). At
the tick of the expiry, before LEASE_EXPIRY is taken, the remaining lease reads 0 (model's choice, log 31). -/
def Obligations.QueryClaimReports : Prop :=
  ∀ (p : PortId) (resource : Byte) (s : State),
    let run := exec (.queryClaim p resource) s
    (s.loadingFor p 0x13 [resource] → run = .next (s.answered p [0x0D])) ∧
    (s.readyFor p 0x13 [resource] →
      (17 < resource.toNat → run = .next (s.answered p [0x08])) ∧
      ∀ r : ResourceId, r.val = resource.toNat → (s.claim r).lawful → ∃ holder hi lo w₀ w₁ w₂ : Byte,
        run = .next (s.answered p [0x01, holder, hi, lo, BitVec.ofNat 8 (s.claim r).waiters.length, w₀, w₁, w₂]) ∧
        holder = (match (s.claim r).holder with | some q => BitVec.ofNat 8 q.val | none => 0xFF) ∧
        ((s.claim r).expiry = none → hi = 0 ∧ lo = 0) ∧
        (∀ e, (s.claim r).expiry = some e → s.elapsed ≤ e → e ≤ s.elapsed + 655350000 →
          (hi.toNat * 256 + lo.toNat) * 10000 < e - s.elapsed + 10000 ∧
          e - s.elapsed ≤ (hi.toNat * 256 + lo.toNat) * 10000) ∧
        [w₀, w₁, w₂] = ((s.claim r).waiters.map (fun w => BitVec.ofNat 8 w.port.val)) ++
          List.replicate (3 - (s.claim r).waiters.length) 0xFF)

/-- A wait whose deadline is reached times out: the entry is removed, the others keep their order, and the port is
offered TIMED_OUT; nothing else changes (R24). With several, the first in list order goes (log 20); with none reached
the row has no effect (log 3). -/
def Obligations.WaitTimesOut : Prop :=
  ∀ (r : ResourceId) (s : State),
    ((∀ w ∈ (s.claim r).waiters, s.elapsed < w.deadline) → exec (.waitDeadline r) s = .next s) ∧
    (∀ before w after, (s.claim r).waiters = before ++ w :: after → (∀ v ∈ before, s.elapsed < v.deadline) →
      w.deadline ≤ s.elapsed →
      exec (.waitDeadline r) s = .next
        ((s.setClaim r { s.claim r with waiters := before ++ after }).offer w.port (.claim r .timedOut)))

/-! ## Lines and capture -/

/-- LINE_CONFIG: its checks in order, and the record and the filter after it (R8, R9, R2, R3, R7, R102). Model's choices:
a line in OFF keeps its cleared filter when its filter length changes (log 17), and a filter that restarts reads the pin
under the new drive (log 16), which is the outside level where outside equipment holds the pin (log 8). -/
def Obligations.LineConfigOutcomes : Prop :=
  ∀ (p : PortId) (line mode level filter : Byte) (s : State), s.readyFor p 0x20 [line, mode, level, filter] →
    let run := exec (.lineConfig p line mode level filter) s
    ((15 < line.toNat ∨ 2 < mode.toNat ∨ 1 < level.toNat ∨ 15 < filter.toNat) → run = .next (s.answered p [0x08])) ∧
    (∀ (n : LineId) (m : LineMode) (f : BitVec 4), n.val = line.toNat → mode.toNat ≤ 2 → level.toNat ≤ 1 →
      f.toNat = filter.toNat →
      m = (if mode = 0 then .off else if mode = 1 then .input else .output) →
      ((s.claim (lineRes n)).holder ≠ some p → run = .next (s.answered p [0x05])) ∧
      ((s.claim (lineRes n)).holder = some p → (s.line n).mode = .test → run = .next (s.answered p [0x0B])) ∧
      ((s.claim (lineRes n)).holder = some p → s.occupied n → m ≠ .output → run = .next (s.answered p [0x0B])) ∧
      ((s.claim (lineRes n)).holder = some p → (s.line n).mode ≠ .test → (s.occupied n → m = .output) →
        ∃ t : State, run = .next (t.answered p [0x01]) ∧
          { t with lines := s.lines, filters := s.filters, free := s.free } = s ∧
          t.line n = { s.line n with
            mode := m
            filterLen := f
            scheduled := if m = .output ∧ (s.line n).mode ≠ .output then (if level = 1 then .high else .low)
              else (s.line n).scheduled
            override := if m = .output then (s.line n).override else none } ∧
          (∀ k, k ≠ n → t.line k = s.line k ∧ t.filter k = s.filter k) ∧
          (m = .off → (t.filter n).filtered = .low ∧ (t.filter n).run = none) ∧
          (m ≠ .off → (s.line n).mode ≠ .off → f = (s.line n).filterLen → t.filter n = s.filter n) ∧
          ((s.line n).mode ≠ .off → (t.filter n).sampled = (s.filter n).sampled) ∧
          (m ≠ .off → ((s.line n).mode = .off ∨ f ≠ (s.line n).filterLen) → (t.filter n).run = none ∧
            (s.held.getLsbD n.val = true → (t.filter n).filtered = Level.ofBit (s.level.getLsbD n.val)) ∧
            (∀ v, s.held.getLsbD n.val = false → t.drive n = some v → (t.filter n).filtered = v))))

/-- What the hub drives at a pin: nothing in OFF and INPUT, in OUTPUT the override or else the scheduled level, in PARKED
the override or else the park level (R2, R3, R7; in TEST, CheckWindows). And what reading commands report of the state,
and that they change nothing: LINE_READ the mode, pin level and filtered level of each line, READ_TIME the timebase, IDENT
the hub, QUERY_ENTRY a slot after the check of it: clean, corrected, or lost and reported FREE (R3, R10, R41, R73, R142,
R177, 13_frame_and_record_layouts.md, Codes in result data). The level of a pulse that is cut is log 11's deduction. -/
def Obligations.ReadingCommands : Prop :=
  (∀ (n : LineId) (s : State),
    let shown (level : Level) : Option Level := match (s.line n).override with | some v => some v | none => some level
    (((s.line n).mode = .off ∨ (s.line n).mode = .input) → s.drive n = none) ∧
    ((s.line n).mode = .output → s.drive n = shown (s.line n).scheduled) ∧
    ((s.line n).mode = .parked → (s.line n).park = .parkLow → s.drive n = shown .low) ∧
    ((s.line n).mode = .parked → (s.line n).park = .parkHigh → s.drive n = shown .high)) ∧
  (∀ (p : PortId) (s : State),
    (s.readyFor p 0x21 [] → ∃ bytes : Vector Byte 16, exec (.lineRead p) s = .next (s.answered p (0x01 :: bytes.toList)) ∧
      ∀ n : LineId,
        bytes[n.val].toNat % 8 = (match (s.line n).mode with
          | .off => 0 | .input => 1 | .output => 2 | .parked => 3 | .test => 4) ∧
        bytes[n.val].getLsbD 4 = ((match (s.line n).mode with
          | .off => .low
          | .input => (s.filter n).sampled
          | _ => (s.drive n).getD .low) == Level.high) ∧
        bytes[n.val].getLsbD 5 = ((s.filter n).filtered == .high) ∧
        bytes[n.val].getLsbD 3 = false ∧ bytes[n.val].getLsbD 6 = false ∧ bytes[n.val].getLsbD 7 = false) ∧
    (s.readyFor p 0x40 [] → ∃ a b c d e : Byte,
      exec (.readTime p) s = .next (s.answered p [0x01, a, b, c, d, e, s.tb.epoch,
        (match s.tb.run with | .running => 0 | .halted => 1),
        (match s.tb.source with | .localTime => 0 | .leader => 1 | .follower => 2 | .freeRun => 3)]) ∧
      a ++ b ++ c ++ d ++ e = s.tb.count) ∧
    (s.readyFor p 0x91 [] → exec (.ident p) s =
      .next (s.answered p [0x01, 0x4A, 0x16, 0x01, s.loaded.unit, BitVec.ofNat 8 p.val, 16, 128]))) ∧
  (∀ (p : PortId) (id : Byte) (s : State), s.readyFor p 0x33 [id] →
    let run := exec (.queryEntry p id) s
    (127 < id.toNat → run = .next (s.answered p [0x08])) ∧
    ∀ i : SlotId, i.val = id.toNat → (s.slot i).wrongBits.length ≤ 2 → ∃ u : State, s.checkedSlot i u ∧
      (u.entry i = none → run = .next (u.answered p (0x01 :: List.replicate 16 0x00))) ∧
      (∀ h, u.entry i = some h → ∃ t₁ t₀ a₁ a₀ b₁ b₀ d₄ d₃ d₂ d₁ d₀ : Byte,
        run = .next (u.answered p [0x01,
          (match h.status with
            | .pending _ => 1 | .armed => 2 | .active _ => 3 | .suspended _ => 4 | .deferred _ _ => 5),
          BitVec.ofNat 8 h.owner.val, BitVec.ofNat 8 h.line.val, t₁, t₀,
          (match (u.body i).action with
            | .setHigh => 0 | .setLow => 1 | .toggle => 2 | .pulse _ _ => 3 | .train _ _ _ _ => 4),
          (match h.status with | .pending _ => 1 | .deferred _ _ => 1 | _ => 0),
          d₄, d₃, d₂, d₁, d₀, a₁, a₀, b₁, b₀]) ∧
        t₁ ++ t₀ = h.tag ∧ a₁ ++ a₀ = h.countA ∧ b₁ ++ b₀ = h.countB ∧
        d₄ ++ d₃ ++ d₂ ++ d₁ ++ d₀ = (match h.status with | .pending d => d | .deferred d _ => d | _ => 0 : Count)))

/-- SUBSCRIBE writes one cell of the table, whatever the claims and modes (R104). -/
def Obligations.SubscribeOutcomes : Prop :=
  ∀ (p : PortId) (line sel : Byte) (s : State), s.readyFor p 0x22 [line, sel] →
    let run := exec (.subscribe p line sel) s
    ((31 < line.toNat ∨ 3 < sel.toNat) → run = .next (s.answered p [0x08])) ∧
    (∀ l : AnyLine, l.val = line.toNat → sel.toNat ≤ 3 → ∃ t : State, run = .next (t.answered p [0x01]) ∧
      { t with subs := s.subs } = s ∧
      ∀ q k, t.cell q k = if q = p ∧ k = l
        then (if sel = 0 then .none else if sel = 1 then .rise else if sel = 2 then .fall else .both)
        else s.cell q k)

/-- One sample, line by line: every line that is not in OFF is sampled, at what raw level, and how the sample is judged
against the filter. A pin that nothing drives has a free level (log 8); a run that has reached F + 1 samples stands until
its acceptance is taken (model's choice, log 18); the drive is the one that the tick found (R98, log 30). -/
def Obligations.SampleOfATick : Prop :=
  ∀ (held level : LineSet) (s : State), ∃ t : State, exec (.lineSample held level) s = .next t ∧
    { t with held := s.held, level := s.level, filters := s.filters, tickPins := s.tickPins, free := s.free } = s ∧
    t.held = held ∧ t.level = level ∧ t.tickPins = none ∧
    ∀ n : LineId,
      let drive : Option Level := match s.tickPins with
        | some v => v[n.val]
        | none => s.drive n
      let f := s.filter n
      ((s.line n).mode = .off → t.filter n = f) ∧
      ((s.line n).mode ≠ .off → ∃ raw : Level,
        (held.getLsbD n.val = true → raw = Level.ofBit (level.getLsbD n.val)) ∧
        (∀ v, held.getLsbD n.val = false → drive = some v → raw = v) ∧
        (f.run = none → raw = f.filtered → t.filter n = { f with sampled := raw }) ∧
        (f.run = none → raw ≠ f.filtered →
          t.filter n = { f with sampled := raw, run := some ⟨1, s.tb.count, false⟩ }) ∧
        (∀ r, f.run = some r → r.len ≤ (s.line n).filterLen.toNat →
          (raw = f.filtered → t.filter n = { f with sampled := raw, run := none }) ∧
          (raw ≠ f.filtered → t.filter n = { f with sampled := raw, run := some { r with len := r.len + 1 } })) ∧
        (∀ r, f.run = some r → (s.line n).filterLen.toNat < r.len → t.filter n = { f with sampled := raw }))

/-- EDGE_ACCEPTED: in TEST the edge goes to the check alone; otherwise, where it matches no anchor, its record goes to
every port whose cell matches and, when its line is exported and the link LOCKED, to the forward queue (R99, R101, R103,
R105, R106, R108, R163). Model's choices: below F + 1 samples or in OFF the row has no effect (log 3), and the acceptance
is a row of its own, with the epoch and the HALTED flag of that row (log 18). -/
def Obligations.EdgeAcceptedDelivers : Prop :=
  ∀ (n : LineId) (s : State),
    let f := s.filter n
    (((s.line n).mode = .off ∨ f.run = none ∨ ∃ r, f.run = some r ∧ r.len ≤ (s.line n).filterLen.toNat) →
      exec (.edgeAccepted n) s = .next s) ∧
    ∀ r, f.run = some r → (s.line n).filterLen.toNat < r.len →
      let lev : Level := if f.filtered = .low then .high else .low
      let e : Edge := if f.filtered = .low then .rise else .fall
      let s₁ := s.setFilter n { f with filtered := lev, run := none }
      ((s.line n).mode = .test → ∃ c, exec (.edgeAccepted n) s = .next (s₁.setCheck c)) ∧
      ((s.line n).mode ≠ .off → (s.line n).mode ≠ .test → s.noneAwaits ⟨n.val, by omega⟩ e →
        ∃ t : State, exec (.edgeAccepted n) s = .next t ∧
          { t with filters := s.filters, ports := s.ports, link := s.link } = s ∧ t.filters = s₁.filters ∧
          (∀ p, t.port p = if (s.cell p ⟨n.val, by omega⟩).selects e = true
            then (s.port p).enqueue (.capture ⟨n.val, by omega⟩ e r.stamp s.tb.epoch (s.tb.run == .halted) r.stepped false 0)
            else s.port p) ∧
          t.link =
            if s.loaded.exported.getLsbD n.val = true ∧ s.link.state = .locked then
              if s.link.forward.length < 16 then
                { s.link with forward := s.link.forward ++
                    [⟨n, e, r.stamp, s.tb.epoch, s.tb.run == .halted, r.stepped⟩] }
              else { s.link with drops := if s.link.drops = 65535 then 65535 else s.link.drops + 1 }
            else s.link)

/-- An accepted edge arms the ARMED entries that it matches, one after another in post order: its CAPTURE records stand
first; then the slot of each entry is checked, an entry that the check withdraws being spent, and the entry waits PENDING
with stamp plus delay, arrives, or is handled late (dropped with ACTION_DONE DROPPED_LATE, re-armed with a missed anchor
counted, or applied late); then the edge is exported (R66, R77 to R81, R86, R87, R90, R96, R105, R108, R142, R163). The
acceptance is a row of its own, with the epoch and the run state of that row (model's choice, log 18). -/
def Obligations.EdgeArmsEntry : Prop :=
  ∀ (n : LineId) (s : State) (r : FilterRun) (l : List SlotId),
    let f := s.filter n
    let lev : Level := if f.filtered = .low then .high else .low
    let e : Edge := if f.filtered = .low then .rise else .fall
    let line : AnyLine := ⟨n.val, by omega⟩
    f.run = some r → (s.line n).filterLen.toNat < r.len →
    (s.line n).mode ≠ .off → (s.line n).mode ≠ .test → s.postOrdered (fun h => h.awaits line e = true) l →
    s.readableAt l → s.drainsOn (fun _ => False) →
    let u : State := { s.setFilter n { f with filtered := lev, run := none } with
      ports := Vector.ofFn (fun p => if (s.cell p line).selects e = true
        then (s.port p).enqueue (.capture line e r.stamp s.tb.epoch (s.tb.run == .halted) r.stepped false 0)
        else s.port p) }
    ∃ out : State, eachBecomes (State.edgeArms r.stamp) l u out ∧ exec (.edgeAccepted n) s = .next { out with
      link := if s.loaded.exported.getLsbD n.val = true ∧ s.link.state = .locked then
          if s.link.forward.length < 16 then
            { s.link with forward := s.link.forward ++
                [⟨n, e, r.stamp, s.tb.epoch, s.tb.run == .halted, r.stepped⟩] }
          else { s.link with drops := if s.link.drops = 65535 then 65535 else s.link.drops + 1 }
        else s.link }

/-! ## The action schedule -/

/-- The judgement of a time D against the count C by the distance (D - C) mod 2^40 (R40). -/
def Obligations.JudgeByDistance : Prop :=
  ∀ d c : Count, let x := (d.toNat + 2 ^ 40 - c.toNat) % 2 ^ 40
    (judge d c = .due ↔ x = 0) ∧ (judge d c = .ahead ↔ 1 ≤ x ∧ x ≤ 2 ^ 39) ∧ (judge d c = .behind ↔ 2 ^ 39 + 1 ≤ x)

/-- POST's checks in their order, and that a POST which passes them is accepted with the number of the lowest FREE slot
(R59, R60, R61). -/
def Obligations.PostChecks : Prop :=
  ∀ (p : PortId) (b : PostBlock) (s : State),
    let run := exec (.post p b) s
    (s.loadingFor p 0x30 (postBytes b) → run = .next (s.answered p [0x0D])) ∧
    (s.readyFor p 0x30 (postBytes b) →
      (¬ postInRange b → run = .next (s.answered p [0x08])) ∧
      (postInRange b → ∀ n : LineId, n.val = b.line.toNat →
        ((s.claim (lineRes n)).holder ≠ some p → run = .next (s.answered p [0x05])) ∧
        ((s.claim (lineRes n)).holder = some p → (s.line n).mode ≠ .output → run = .next (s.answered p [0x0B])) ∧
        ((s.claim (lineRes n)).holder = some p → (s.line n).mode = .output →
          let full := (s.loaded.quota[p.val]).toNat ≤ s.slotsInUse p
          let late := b.timing = 0 ∧ b.late = 1 ∧ judge b.due s.tb.count = .behind
          (full → run = .next (s.answered p [0x09])) ∧
          (¬ full → (∀ i, s.entry i ≠ none) → run = .next (s.answered p [0x09])) ∧
          (¬ full → (∃ i, s.entry i = none) → late → run = .next (s.answered p [0x0A])) ∧
          (∀ i, ¬ full → ¬ late → s.entry i = none → (∀ j, j < i → s.entry j ≠ none) →
            ∃ t : State, run = .next (t.answered p [0x01, BitVec.ofNat 8 i.val])))))

/-- An accepted POST writes its fields, and no others, into the lowest FREE slot with the next post order. An ABSOLUTE
entry that is ahead waits PENDING, an ANCHORED entry ARMED; due, or behind under FIRE_LATE, the entry is applied,
deferred or collides at once. The whole next state is given (R57, R59, R61, R62, R66, R77 to R81, R90). -/
def Obligations.PostPlacesEntry : Prop :=
  ∀ (p : PortId) (b : PostBlock) (n : LineId) (i : SlotId) (s : State), s.readyFor p 0x30 (postBytes b) →
    postInRange b → n.val = b.line.toNat → (s.claim (lineRes n)).holder = some p → (s.line n).mode = .output →
    s.slotsInUse p < (s.loaded.quota[p.val]).toNat → s.entry i = none → (∀ j, j < i → s.entry j ≠ none) →
    ¬ (b.timing = 0 ∧ b.late = 1 ∧ judge b.due s.tb.count = .behind) →
    ∃ (body : Body) (anchor : Option Anchor),
      (b.action = 0 → body.action = .setHigh) ∧ (b.action = 1 → body.action = .setLow) ∧
      (b.action = 2 → body.action = .toggle) ∧
      (b.action = 3 → body.action = .pulse (Level.ofBit (b.active == 1)) b.width) ∧
      (b.action = 4 → body.action = .train (Level.ofBit (b.active == 1)) b.width b.period b.count) ∧
      (b.timing = 0 → anchor = none ∧ body.timing = .absolute b.due) ∧
      (b.timing = 1 → ∃ l e r, anchor = some ⟨l, e⟩ ∧ body.timing = .anchored b.delay r ∧
        l.val = b.anchorLine.toNat ∧ (b.anchorEdge = 1 → e = .rise) ∧ (b.anchorEdge = 2 → e = .fall) ∧
        (b.anchorEdge = 3 → e = .both) ∧ (b.rep = 0 → r = .once) ∧ (b.rep = 1 → r = .every)) ∧
      (b.late = 0 → body.late = .fireLate) ∧ (b.late = 1 → body.late = .dropLate) ∧
      let id : Byte := BitVec.ofNat 8 i.val
      let run := exec (.post p b) s
      let occupied (a : BitVec 16) (st : EntryStatus) : State :=
        { s.setSlot i ⟨body, [], some ⟨p, n, b.tag, s.postOrder, anchor, a, 0, st⟩⟩ with
          postOrder := s.postOrder + 1 }
      let done (o : EntryOutcome) : State :=
        let u : State := { s.setSlot i ⟨Body.free, [], none⟩ with postOrder := s.postOrder + 1 }
        u.offer p (.actionDone i b.tag n o 0 0)
      let judged := judge b.due s.tb.count
      let when_ : Timeliness := if judged = .due then .onTime else .late
      (b.timing = 1 → run = .next ((occupied 0 .armed).answered p [0x01, id])) ∧
      (b.timing = 0 → judged = .ahead → run = .next ((occupied 0 (.pending b.due)).answered p [0x01, id])) ∧
      (b.timing = 0 → judged ≠ .ahead → s.maint.mode ≠ .run → ∃ place : Nat,
        run = .next ((occupied 0 (.deferred b.due place)).answered p [0x01, id]) ∧
        ∀ j h d k, s.entry j = some h → h.status = .deferred d k → k < place) ∧
      (b.timing = 0 → judged ≠ .ahead → s.maint.mode = .run → s.busy n →
        run = .next ((done .collided).answered p [0x01, id])) ∧
      (b.timing = 0 → judged ≠ .ahead → s.maint.mode = .run → ¬ s.busy n →
        let outcome : EntryOutcome := if judged = .due then .applied else .lateApplied
        (b.action = 0 → run = .next (((done outcome).setScheduled n .high).answered p [0x01, id])) ∧
        (b.action = 1 → run = .next (((done outcome).setScheduled n .low).answered p [0x01, id])) ∧
        (b.action = 2 → run = .next (((done outcome).setScheduled n
          (if (s.line n).scheduled = .high then .low else .high)).answered p [0x01, id])) ∧
        (b.action = 3 → run = .next (((occupied 0
          (.active ⟨s.elapsed, .inPulse (s.elapsed + b.width.toNat), when_, none⟩)).setScheduled n
            (Level.ofBit (b.active == 1))).answered p [0x01, id])) ∧
        (b.action = 4 → run = .next (((occupied 1
          (.active ⟨s.elapsed, .inPulse (s.elapsed + b.width.toNat), when_,
            some ⟨1, 0, if b.count = 1 then none else some (s.elapsed + b.period.toNat)⟩⟩)).setScheduled n
              (Level.ofBit (b.active == 1))).answered p [0x01, id])))

/-- CANCEL's refusals, and the completion CANCELLED of the owner's entry from every state: a pulse in progress is cut to
its inactive level, and when it was the last in progress while DRAINING the hub enters DIRECT (R69, R70, R74, R127). The
cut reads no body (R142): the inactive level is the opposite of the scheduled level, which the pulse set (model's
deduction, log 11). -/
def Obligations.CancelOutcomes : Prop :=
  ∀ (p : PortId) (id : Byte) (s : State), s.readyFor p 0x31 [id] →
    let run := exec (.cancel p id) s
    (127 < id.toNat → run = .next (s.answered p [0x08])) ∧
    ∀ i : SlotId, i.val = id.toNat →
      (s.entry i = none → run = .next (s.answered p [0x07])) ∧
      ∀ h, s.entry i = some h →
        (h.owner ≠ p → run = .next (s.answered p [0x06])) ∧
        (h.owner = p →
          let s₁ := (s.setSlot i ⟨Body.free, [], none⟩).offer p
            (.actionDone i h.tag h.line .cancelled h.countA h.countB)
          let direct (t : State) : State :=
            let u : State := { t with maint := { t.maint with mode := .direct, drainDeadline := none } }
            u.offerAll .directEntered
          let others := ∃ j k, j ≠ i ∧ s.entry j = some k ∧ k.status.isPulse = true
          (h.status.isPulse = false → (s.maint.mode ≠ .draining ∨ others) → run = .next (s₁.answered p [0x01])) ∧
          (h.status.isPulse = true →
            let s₂ := s₁.setScheduled h.line (if (s.line h.line).scheduled = .high then .low else .high)
            ((s.maint.mode ≠ .draining ∨ others) → run = .next (s₂.answered p [0x01])) ∧
            (s.maint.mode = .draining → ¬ others → run = .next ((direct s₂).answered p [0x01]))))

/-- CANCEL_LINE withdraws the requester's entries on the line in post order, each with its ACTION_DONE record CANCELLED,
cuts a pulse to its inactive level (read from the line, log 11), and reports their number; other entries stay. When the
last pulse in progress is cut so while DRAINING, the hub enters DIRECT (R70, R72, R74, R127). -/
def Obligations.CancelLineOutcomes : Prop :=
  ∀ (p : PortId) (line : Byte) (s : State), s.readyFor p 0x32 [line] →
    let run := exec (.cancelLine p line) s
    (15 < line.toNat → run = .next (s.answered p [0x08])) ∧
    ∀ n : LineId, n.val = line.toNat →
      let mine (h : Header) : Prop := h.owner = p ∧ h.line = n
      let isMine (i : SlotId) : Bool := (s.entry i).any (fun h => h.owner == p && h.line == n)
      ∃ (t : State) (k : Byte), run = .next (t.answered p [0x01, k]) ∧
        k.toNat = ((List.finRange 128).filter isMine).length ∧
        (∀ i, t.slot i = if isMine i = true then ⟨Body.free, [], none⟩ else s.slot i) ∧
        (∀ m, m ≠ n → t.line m = s.line m) ∧
        { t.line n with scheduled := (s.line n).scheduled } = s.line n ∧ s.levelCut mine n (t.line n).scheduled ∧
        { t with pool := s.pool, lines := s.lines, ports := s.ports, maint := s.maint } = s ∧
        (s.drainsOn mine → t.maint = s.maint) ∧
        (¬ s.drainsOn mine → (∃ i h, s.entry i = some h ∧ mine h) →
          t.maint = { s.maint with mode := .direct, drainDeadline := none }) ∧
        ∀ l, s.postOrdered mine l → ∃ u, s.recorded mine .cancelled l u ∧ t.ports = u.ports

/-- The advance of the count: none while HALTED, none at a held tick, one otherwise, two at a double tick; the slew is
used up (R38, R49). The PENDING entries that are due at the new counts arrive one after another in due-list order, at a
double tick those of the first count before those of the second. The slot of each is checked: one changed bit is
corrected and the entry goes on, two withdraw it with outcome INTEGRITY and it gets nothing more. Then it is deferred
while firing is held, collides on a line that an earlier one made busy, and otherwise is applied on time (R64, R77 to
R81, R84, R90, R96, R142). -/
def Obligations.CountAdvances : Prop :=
  ∀ s : State,
    let run := exec .countAdvance s
    let at_ (k : Count) : State := { s with tb := { s.tb with count := s.tb.count + k, slew := none } }
    (s.tb.run = .halted → run = .next s) ∧
    (s.tb.run = .running → s.tb.slew = some .held → run = .next (at_ 0)) ∧
    (s.tb.run = .running → s.tb.slew = none → s.noneDue (s.tb.count + 1) → run = .next (at_ 1)) ∧
    (s.tb.run = .running → s.tb.slew = some .double → s.noneDue (s.tb.count + 1) → s.noneDue (s.tb.count + 2) →
      run = .next (at_ 2)) ∧
    (∀ (k : Count) (l : List SlotId), s.tb.run = .running →
      (s.tb.slew = none ∧ k = 1 ∧ s.dueOrdered (fun d => d = 1) l ∨
        s.tb.slew = some .double ∧ k = 2 ∧ s.dueOrdered (fun d => d = 1 ∨ d = 2) l) → s.readableAt l →
      ∃ out : State, eachBecomes State.comesDue l (at_ k) out ∧ run = .next out)

/-- The pulse end of an entry, after the check of its slot: an entry whose body is lost is withdrawn and its pulse cut by
that check. Else the line takes the inactive level; a PULSE, and a finite TRAIN at its last pulse, completes or re-arms; a
TRAIN with pulses left is between pulses, or SUSPENDED while firing is held; and when no other pulse is in progress while
DRAINING, the hub then enters DIRECT and every port is told (R80, R81, R82, R89, R90, R96, R127, R142). Before the pulse
end, or with no pulse in progress, the row has no effect (model's choice, log 3); and the level of a pulse that is cut
with its body lost is the model's deduction (log 11). -/
def Obligations.PulseEnds : Prop :=
  ∀ (i : SlotId) (s : State),
    ((∀ h e, s.entry i = some h → h.status.pulseEnd = some e → s.elapsed < e) → exec (.pulseEnd i) s = .next s) ∧
    ∀ (h : Header) (r : Run) (e : Nat), s.entry i = some h → h.status = .active r → r.phase = .inPulse e →
      e ≤ s.elapsed → s.readableAt [i] →
      ∃ t : State, exec (.pulseEnd i) s = .next t ∧ s.reads i (fun u _ t => ∀ act : Level,
        let u₁ := u.setScheduled h.line (other act)
        let every := ∃ d, (u.body i).timing = .anchored d .every
        let beside := ∃ j k, j ≠ i ∧ u.entry j = some k ∧ k.status.isPulse = true
        let becomes (x : State) : Prop :=
          ((u.maint.mode ≠ .draining ∨ beside) → t = x) ∧
          (u.maint.mode = .draining → ¬ beside → t = x.nowDirect)
        let ended : Prop :=
          (¬ every → becomes (u₁.entryEnded i h (firedAs r.timeliness))) ∧
          (every → becomes (u₁.entryNow i { h with status := .armed, countA := sat16 h.countA }))
        (∀ w, (u.body i).action = .pulse act w → r.train = none → ended) ∧
        (∀ w q c x, (u.body i).action = .train act w q c → r.train = some x →
          (c ≠ 0 → c.toNat ≤ x.begun.toNat + x.skipped.toNat → ended) ∧
          ((c = 0 ∨ x.begun.toNat + x.skipped.toNat < c.toNat) →
            (u.maint.mode = .run →
              becomes (u₁.entryNow i { h with status := .active { r with phase := .betweenPulses } })) ∧
            (u.maint.mode ≠ .run →
              becomes (u₁.entryNow i { h with status := .suspended { r with phase := .betweenPulses } }))))) t

/-- A grid boundary of a TRAIN, after the check of its slot, which withdraws an entry whose body is lost: ACTIVE between
pulses a pulse begins, SUSPENDED it is skipped; the next boundary is a period on while pulses are left (R81, R91, R96,
R142). Without a boundary reached the row has no effect (model's choice, log 3), and the run part holds the next boundary
(log 21). -/
def Obligations.TrainBoundaries : Prop :=
  ∀ (i : SlotId) (s : State),
    ((∀ h b, s.entry i = some h → h.status.nextBoundary = some b → s.elapsed < b) →
      exec (.trainBoundary i) s = .next s) ∧
    ∀ (h : Header) (r : Run) (t : TrainRun) (b : Nat),
      s.entry i = some h → (h.status = .active r ∨ h.status = .suspended r) → r.train = some t →
      r.phase = .betweenPulses → t.nextBoundary = some b → b ≤ s.elapsed → s.readableAt [i] →
      ∃ out : State, exec (.trainBoundary i) s = .next out ∧ s.reads i (fun u _ out =>
        ∀ (act : Level) (w q : BitVec 24) (c : BitVec 16), (u.body i).action = .train act w q c →
          let every := ∃ d, (u.body i).timing = .anchored d .every
          let goOn (begun skipped : BitVec 16) : TrainRun :=
            ⟨begun, skipped, if c = 0 ∨ begun.toNat + skipped.toNat < c.toNat then some (b + q.toNat) else none⟩
          (h.status = .active r → ∀ a, (every → a = h.countA) → (¬ every → a = sat16 h.countA) →
            out = (u.setScheduled h.line act).entryNow i { h with
              countA := a
              status := .active { r with
                phase := .inPulse (b + w.toNat), train := some (goOn (sat16 t.begun) t.skipped) } }) ∧
          (h.status = .suspended r → ∀ a, (every → a = h.countB) → (¬ every → a = sat16 h.countB) →
            out = u.entryNow i { h with
              countB := a
              status := .suspended { r with train := some (goOn t.begun (sat16 t.skipped)) } })) out

/-! ## The timebase -/

/-- The checks of SET_TIME, STEP_TIME, HALT and RESUME, in their order (R42). -/
def Obligations.TimeCommandChecks : Prop :=
  ∀ (p : PortId) (s : State) (count offset : Count),
    let holds := (s.claim resTB).holder = some p
    (∀ c code params, (c, code, params) ∈ ([(.setTime p count, 0x41, bytesOf 5 count),
        (.stepTime p offset, 0x42, bytesOf 5 offset), (.halt p, 0x43, []), (.resume p, 0x44, [])] :
          List (Instr × Byte × List Byte)) →
      (s.loadingFor p code params → exec c s = .next (s.answered p [0x0D])) ∧
      (s.readyFor p code params → (code = 0x42 → offset ≠ BitVec.ofNat 40 (2 ^ 39)) →
        (¬ holds → exec c s = .next (s.answered p [0x05])) ∧
        (holds → s.tb.source = .follower → exec c s = .next (s.answered p [0x0C])) ∧
        (holds → s.tb.source ≠ .follower →
          (code = 0x43 → s.tb.run = .halted → exec c s = .next (s.answered p [0x03])) ∧
          (code = 0x44 → s.tb.run = .running → exec c s = .next (s.answered p [0x03])) ∧
          ((code = 0x43 → s.tb.run = .running) → (code = 0x44 → s.tb.run = .halted) →
            ∃ t : State, exec c s = .next (t.answered p [0x01]))))) ∧
    (s.readyFor p 0x42 (bytesOf 5 offset) → offset = BitVec.ofNat 40 (2 ^ 39) →
      exec (.stepTime p offset) s = .next (s.answered p [0x08]))

/-- An accepted SET_TIME or STEP_TIME: the count, the epoch plus one, a pending slew discarded, the outstanding query
voided, every run in progress marked STEPPED, and one TIMEBASE record to each port with the new epoch and count (R43, R44,
R47, R49, R52, R101, R158). Then the PENDING entries are re-examined one after another, in the order of the due list from
before the change: ahead an entry stays, unread; otherwise its slot is checked, and due it arrives, behind it is offered
late, dropped, or re-armed with a missed anchor (R66, R67, R68, R77 to R81, R90, R96, R142). An accepted HALT or RESUME
changes the run state, voids the outstanding query, and offers every port a TIMEBASE record with the epoch and the count
as they are; nothing else changes (R45, R52, R158). -/
def Obligations.TimeCommandsTakeEffect : Prop :=
  (∀ (p : PortId) (count offset : Count) (s : State), (s.claim resTB).holder = some p → s.tb.source ≠ .follower →
    let changed (e : TimeEvent) (c : Count) : State :=
      let u : State := { s with
        tb := { s.tb with count := c, epoch := s.tb.epoch + 1, slew := none }
        link := { s.link with query := none }
        filters := s.steppedFilters }
      u.offerAll (.timebase e (s.tb.epoch + 1) c)
    (s.readyFor p 0x41 (bytesOf 5 count) →
      (s.nonePending → exec (.setTime p count) s = .next ((changed .set count).answered p [0x01])) ∧
      (∀ l, s.dueOrdered (fun _ => True) l → s.readableAt l → s.drainsOn (fun _ => False) →
        ∃ out : State, eachBecomes State.rejudgesTo l (changed .set count) out ∧
          exec (.setTime p count) s = .next (out.answered p [0x01]))) ∧
    (s.readyFor p 0x42 (bytesOf 5 offset) → offset ≠ BitVec.ofNat 40 (2 ^ 39) →
      (s.nonePending →
        exec (.stepTime p offset) s = .next ((changed .step (s.tb.count + offset)).answered p [0x01])) ∧
      (∀ l, s.dueOrdered (fun _ => True) l → s.readableAt l → s.drainsOn (fun _ => False) →
        ∃ out : State, eachBecomes State.rejudgesTo l (changed .step (s.tb.count + offset)) out ∧
          exec (.stepTime p offset) s = .next (out.answered p [0x01])))) ∧
  (∀ (p : PortId) (s : State), (s.claim resTB).holder = some p → s.tb.source ≠ .follower →
    let changed (run : RunState) (e : TimeEvent) : State :=
      let u : State := { s with tb := { s.tb with run := run }, link := { s.link with query := none } }
      u.offerAll (.timebase e s.tb.epoch s.tb.count)
    (s.readyFor p 0x43 [] → s.tb.run = .running → exec (.halt p) s = .next ((changed .halted .halt).answered p [0x01])) ∧
    (s.readyFor p 0x44 [] → s.tb.run = .halted →
      exec (.resume p) s = .next ((changed .running .resume).answered p [0x01])))

/-! ## Notices -/

/-- TAKE_NOTICES fixes its response count; a record leaves the head of the queue when it has been sent whole, and the
others stay (R117). The records go out on data out as FrameEvents says, in the layout that NoticesReadAndMasked gives.
Where no record is being sent the removal row has no effect (model's choice, log 3). -/
def Obligations.TakeNotices : Prop :=
  ∀ (p : PortId) (s : State),
    (∀ max : Byte, s.readyFor p 0x50 [max] →
      ((max = 0 ∨ 8 < max.toNat) → exec (.takeNotices p max) s = .next (s.answered p [0x08])) ∧
      (1 ≤ max.toNat → max.toNat ≤ 8 →
        let k := min max.toNat (s.port p).queue.length
        exec (.takeNotices p max) s =
          .next (s.setPort p { s.port p with frame := .response [0x01, BitVec.ofNat 8 k] k }) ∧
        ∀ m, m < 12 * k → ∃ t : State, exec (.takeNotices p max) s = .next t ∧
          t.dataOut p (2 + m) = ((s.port p).queue[m / 12]?).bind (fun r => r.bytes[m % 12]?))) ∧
    (∀ sent k r rest, (s.port p).frame = .response sent (k + 1) → (s.port p).queue = r :: rest →
      exec (.noticeRecordRemoved p) s =
        .next (s.setPort p { s.port p with queue := rest, frame := .response (sent ++ r.bytes) k })) ∧
    (((∀ sent k, (s.port p).frame ≠ .response sent (k + 1)) ∨ (s.port p).queue = []) →
      exec (.noticeRecordRemoved p) s = .next s)

/-- PEEK_NOTICE shows the head record and removes nothing, SET_ATTN_MASK writes the mask, SNAPSHOT reports the status
block and then clears both latches and the overrun counter (R119, R120, R121). ATTN is asserted exactly while a record of
an enabled kind stands in the queue or the OVERRUN latch is set (R120). And the twelve bytes of each kind of record
(13_frame_and_record_layouts.md, Notice records). -/
def Obligations.NoticesReadAndMasked : Prop :=
  (∀ (p : PortId) (s : State),
    (s.readyFor p 0x51 [] →
      ((s.port p).queue = [] → exec (.peekNotice p) s = .next (s.answered p (0x01 :: List.replicate 12 0x00))) ∧
      (∀ r rest, (s.port p).queue = r :: rest → exec (.peekNotice p) s = .next (s.answered p (0x01 :: r.bytes)) ∧
        r.bytes.length = 12)) ∧
    (∀ mask, s.readyFor p 0x52 [mask] → exec (.setAttnMask p mask) s =
      .next ((s.setPort p { s.port p with mask := mask }).answered p [0x01])) ∧
    (s.readyFor p 0x53 [] → ∃ c₃ c₂ c₁ c₀ r₂ r₁ r₀ last latches : Byte,
      exec (.snapshot p) s =
        .next ((s.setPort p { s.port p with overrunLatch := false, frameLatch := false, overrun := 0 }).answered p
          [0x01, BitVec.ofNat 8 p.val, BitVec.ofNat 8 (s.port p).queue.length, (s.port p).lost, (s.port p).overrun,
            latches, r₂, r₁, r₀, BitVec.ofNat 8 (s.slotsInUse p), s.loaded.quota[p.val], c₃, c₂, c₁, c₀,
            s.tb.epoch, last]) ∧
      c₃ ++ c₂ ++ c₁ ++ c₀ = s.tb.count.setWidth 32 ∧
      (∀ r : ResourceId, (r₂ ++ r₁ ++ r₀).getLsbD r.val = ((s.claim r).holder == some p)) ∧
      (∀ k, 18 ≤ k → (r₂ ++ r₁ ++ r₀).getLsbD k = false) ∧
      latches.toNat = (if (s.port p).overrunLatch then 1 else 0) + (if (s.port p).frameLatch then 2 else 0) ∧
      last.toNat = (match s.maint.mode with | .run => 0 | .draining => 1 | .direct => 2) +
        16 * (match s.link.state with
          | .off => 0 | .down => 1 | .probing => 2 | .aligning => 3 | .locked => 4 | .holdoff => 5 | .conflict => 6))) ∧
  (∀ q : Port, q.attn = true ↔ q.overrunLatch = true ∨ ∃ r ∈ q.queue, q.mask.getLsbD r.kind.bit = true) ∧
  (let edge (e : Edge) : Byte := match e with | .rise => 1 | .fall => 2
   (∀ line e time epoch halted stepped remote lost, ∃ t₄ t₃ t₂ t₁ t₀ flags : Byte,
      (Record.capture line e time epoch halted stepped remote lost).bytes =
        [0x01, BitVec.ofNat 8 line.val, edge e, t₄, t₃, t₂, t₁, t₀, epoch, flags, lost, 0] ∧
      t₄ ++ t₃ ++ t₂ ++ t₁ ++ t₀ = time ∧ flags.toNat = (if halted then 1 else 0) + (if stepped then 2 else 0) +
        (if remote then 4 else 0)) ∧
   (∀ id tag line o a b, ∃ g₁ g₀ a₁ a₀ b₁ b₀ : Byte, (Record.actionDone id tag line o a b).bytes =
        [0x02, BitVec.ofNat 8 id.val, g₁, g₀, BitVec.ofNat 8 line.val, (match o with
          | .applied => 1 | .lateApplied => 2 | .droppedLate => 3 | .collided => 4 | .cancelled => 5 | .released => 6
          | .revoked => 7 | .cut => 8 | .integrity => 9), a₁, a₀, b₁, b₀, 0, 0] ∧
      g₁ ++ g₀ = tag ∧ a₁ ++ a₀ = a ∧ b₁ ++ b₀ = b) ∧
   (∀ r e, (Record.claim r e).bytes = 0x03 :: BitVec.ofNat 8 r.val :: (match e with
      | .granted => 1 | .timedOut => 2 | .revoked => 3 | .wanted => 4) :: List.replicate 9 0) ∧
   (∀ e epoch count, ∃ t₄ t₃ t₂ t₁ t₀ : Byte, (Record.timebase e epoch count).bytes = 0x04 :: (match e with
      | .set => 1 | .step => 2 | .halt => 3 | .resume => 4 | .alignStep => 5) :: epoch :: t₄ :: t₃ :: t₂ :: t₁ :: t₀ ::
        List.replicate 4 0 ∧ t₄ ++ t₃ ++ t₂ ++ t₁ ++ t₀ = count) ∧
   Record.directEntered.bytes = 0x05 :: 0x01 :: List.replicate 10 0 ∧
   (∀ reason, (Record.directExited reason).bytes =
      0x05 :: 0x02 :: (match reason with | .command => 1 | .mxLost => 2) :: List.replicate 9 0) ∧
   (∀ o x y failure, ∃ x₁ x₀ y₁ y₀ f l e : Byte, (Record.checkDone ⟨o, x, y, failure⟩).bytes =
        [0x05, 0x03, (match o with | .passed => 1 | .failed => 2 | .aborted => 3), x₁, x₀, y₁, y₀, f, l, e, 0, 0] ∧
      x₁ ++ x₀ = x ∧ y₁ ++ y₀ = y ∧ (failure = none → f = 0 ∧ l = 0 ∧ e = 0) ∧
      (∀ g, failure = some g → f = 1 ∧ l = BitVec.ofNat 8 g.line.val ∧ e = edge g.expected)) ∧
   (∀ e, (Record.link e).bytes = 0x06 :: (match e with | .locked => 1 | .lost => 2 | .conflict => 3 | .down => 4) ::
      List.replicate 10 0) ∧
   (∀ n i, (Record.integrity n i).bytes = 0x07 :: 0x01 :: n :: BitVec.ofNat 8 i.val :: List.replicate 8 0) ∧
   (∀ reason, (Record.reset reason).bytes =
      0x08 :: (match reason with | .power => 1 | .soft => 2 | .port => 3) :: List.replicate 10 0))

/-! ## Direct drive and the line check -/

/-- ENTER_DIRECT: its checks in order; trains between pulses are SUSPENDED, and every other entry stays; with no pulse in
progress the hub is in DIRECT at once and tells every port; with one, it is DRAINING until the drain deadline, and with a
drain limit of 0 every pulse is cut at once, as at the deadline, and the hub enters DIRECT (R90, R92, R126, R128). That a
cut reads the inactive level from the line (R142) is the model's deduction (log 11). -/
def Obligations.EnterDirect : Prop :=
  ∀ (p : PortId) (s : State), s.readyFor p 0x60 [] →
    let run := exec (.enterDirect p) s
    let holds := (s.claim resMX).holder = some p
    let checking := ∃ c, s.maint.check = .running c
    let pulse := ∃ i h, s.entry i = some h ∧ h.status.isPulse = true
    let pool : Vector Slot 128 := s.pool.map (fun sl => { sl with entry := sl.entry.map (fun h =>
      match h.status with
      | .active r => if r.phase = .betweenPulses then { h with status := .suspended r } else h
      | _ => h) })
    (¬ holds → run = .next (s.answered p [0x05])) ∧
    (holds → checking → run = .next (s.answered p [0x0B])) ∧
    (holds → ¬ checking → s.maint.mode ≠ .run → run = .next (s.answered p [0x03])) ∧
    (holds → ¬ checking → s.maint.mode = .run → ¬ pulse →
      let t : State := { s with pool := pool, maint := { s.maint with mode := .direct } }
      run = .next ((t.offerAll .directEntered).answered p [0x01])) ∧
    (holds → ¬ checking → s.maint.mode = .run → pulse →
      (s.maint.drainLimit ≠ 0 →
        let t : State := { s with
          pool := pool
          maint := { s.maint with
            mode := .draining, drainDeadline := some (s.elapsed + s.maint.drainLimit.toNat) } }
        run = .next (t.answered p [0x02])) ∧
      (s.maint.drainLimit = 0 → ∃ t : State, run = .next (t.answered p [0x02]) ∧
        ({ s with pool := pool } : State).drained t))

/-- The drain deadline, reached while DRAINING: every pulse in progress is cut, in post order: its line takes the
inactive level, a PULSE completes CUT, a TRAIN is SUSPENDED with its counts as they were; every other entry stays; then
the hub is in DIRECT and every port is told (R92, R127, R128). The cut reads no body (R142): the inactive level is the
opposite of the scheduled level (model's deduction, log 11). Before the deadline, or out of DRAINING, the row has no
effect (model's choice, log 3). And the end of the last pulse in progress moves the hub into DIRECT and tells every port,
after the entry has ended or, its body lost, been withdrawn (R89, R96, R127, R146). -/
def Obligations.DrainingEnds : Prop :=
  (∀ s : State,
    ((s.maint.mode ≠ .draining ∨ ∀ d, s.maint.drainDeadline = some d → s.elapsed < d) →
      exec .drainLimitExpiry s = .next s) ∧
    (∀ d, s.maint.mode = .draining → s.maint.drainDeadline = some d → d ≤ s.elapsed →
      ∃ t : State, exec .drainLimitExpiry s = .next t ∧ s.drained t)) ∧
  (∀ (i : SlotId) (s : State) (h : Header) (r : Run) (e : Nat) (act : Level) (w : BitVec 24), s.entry i = some h →
    h.status = .active r → r.phase = .inPulse e → e ≤ s.elapsed → r.train = none → s.maint.mode = .draining →
    (∀ j k, j ≠ i → s.entry j = some k → k.status.isPulse = false) → s.readableAt [i] →
    ∃ t : State, exec (.pulseEnd i) s = .next t ∧ s.reads i (fun u _ t =>
      (u.body i).action = .pulse act w → (∀ d, (u.body i).timing ≠ .anchored d .every) →
      t = ((u.setScheduled h.line (other act)).entryEnded i h (firedAs r.timeliness)).nowDirect) t)

/-- EXIT_DIRECT: its checks in order, and the return to RUN: every override gone, every port told DIRECT_EXITED with
reason COMMAND, and the schedule catching up: the DEFERRED entries are handled late one after another in deferral
order, then each SUSPENDED train, in post order, goes on at its first grid boundary at or after the return, then those
with no pulses left finish in post order; the slot of each is checked first (R66, R93, R96, R131, R142). Model's
choices: the boundary that a suspended train goes on at (log 28), and that step 2 checks the slot of a train with no
pulses left too (log 32). -/
def Obligations.ExitDirect : Prop :=
  ∀ (p : PortId) (s : State), s.readyFor p 0x61 [] →
    let run := exec (.exitDirect p) s
    let holds := (s.claim resMX).holder = some p
    (¬ holds → run = .next (s.answered p [0x05])) ∧
    (holds → s.maint.mode = .run → run = .next (s.answered p [0x0B])) ∧
    (holds → s.maint.mode ≠ .run → ∃ t : State, s.returned .command t ∧ run = .next (t.answered p [0x01]))

/-- DIRECT_DRIVE sets or clears the override of a line in OUTPUT or PARKED in hub mode DIRECT, whoever holds the line
(R129). -/
def Obligations.DirectDrive : Prop :=
  ∀ (p : PortId) (line drive : Byte) (s : State),
    let run := exec (.directDrive p line drive) s
    let holds := (s.claim resMX).holder = some p
    (s.loadingFor p 0x62 [line, drive] → run = .next (s.answered p [0x0D])) ∧
    (s.readyFor p 0x62 [line, drive] →
      ((15 < line.toNat ∨ 2 < drive.toNat) → run = .next (s.answered p [0x08])) ∧
      (∀ n : LineId, n.val = line.toNat → drive.toNat ≤ 2 →
        let driven := (s.line n).mode = .output ∨ (s.line n).mode = .parked
        (¬ holds → run = .next (s.answered p [0x05])) ∧
        (holds → s.maint.mode ≠ .direct → run = .next (s.answered p [0x0B])) ∧
        (holds → s.maint.mode = .direct → ¬ driven → run = .next (s.answered p [0x0B])) ∧
        (holds → s.maint.mode = .direct → driven →
          let o : Option Level := if drive = 0 then some .low else if drive = 1 then some .high else none
          run = .next ((s.setLine n { s.line n with override := o }).answered p [0x01]))))

/-- LINE_CHECK: its checks in order, and the start of an accepted one: every tested line in TEST driving LOW with its
mode and scheduled level saved, the lowest one current in window 1; the filter of one that leaves OFF is restarted at LOW,
without an edge, and the others stay (R12, R102, R133, R134). Where outside equipment holds the pin the filter restarts at
the outside level (R98; model's choice, log 8), read under the new drive (log 16), as its sampled level (log 9). -/
def Obligations.LineCheckStarts : Prop :=
  ∀ (p : PortId) (tested : LineSet) (s : State),
    s.readyFor p 0x63 (bytesOf 2 tested) →
    let run := exec (.lineCheck p tested) s
    let holds (r : ResourceId) := (s.claim r).holder = some p
    let checking := ∃ c, s.maint.check = .running c
    let allHeld := ∀ n : LineId, tested.getLsbD n.val = true → holds (lineRes n)
    let occupied := ∃ n : LineId, tested.getLsbD n.val = true ∧ s.occupied n
    (tested = 0 → run = .next (s.answered p [0x08])) ∧
    (tested ≠ 0 → ¬ holds resMX → run = .next (s.answered p [0x05])) ∧
    (tested ≠ 0 → holds resMX → checking → run = .next (s.answered p [0x04])) ∧
    (tested ≠ 0 → holds resMX → ¬ checking → s.maint.mode ≠ .run → run = .next (s.answered p [0x0B])) ∧
    (tested ≠ 0 → holds resMX → ¬ checking → s.maint.mode = .run → ¬ allHeld → run = .next (s.answered p [0x05])) ∧
    (tested ≠ 0 → holds resMX → ¬ checking → s.maint.mode = .run → allHeld → occupied →
      run = .next (s.answered p [0x0B])) ∧
    (∀ n : LineId, tested.getLsbD n.val = true → (∀ m, m < n → tested.getLsbD m.val = false) → holds resMX →
      ¬ checking → s.maint.mode = .run → allHeld → ¬ occupied →
      ∃ t : State, run = .next (t.answered p [0x02]) ∧
        { t with lines := s.lines, filters := s.filters, maint := s.maint, free := s.free } = s ∧
        (let c : Progress :=
          { requester := p, tested := tested, current := n, window := .w1,
            windowEnd := s.elapsed + (s.line n).filterLen.toNat + 16, rise := .undecided, fall := .undecided,
            passed := 0, completed := 0, failure := none }
        t.maint = { s.maint with check := .running c }) ∧
        ∀ m : LineId, (tested.getLsbD m.val = false → t.line m = s.line m ∧ t.filter m = s.filter m) ∧
          (tested.getLsbD m.val = true → t.line m = { s.line m with
              mode := .test, saved := some ((s.line m).mode, (s.line m).scheduled) } ∧ t.drive m = some .low ∧
            ((s.line m).mode ≠ .off → t.filter m = s.filter m) ∧
            ((s.line m).mode = .off → s.restartedUnder m (some .low) (t.filter m))))

/-- The windows of a check: the current line drives HIGH in window 2, and every line in TEST drives LOW otherwise; the
first edge accepted on the current line decides window 2 or 3, and later ones, and edges in window 1 and on other lines,
are ignored (R103, R134, R135); the window's end closes it and opens the next, and after the last line the lines are
restored, the result is set and CHECK_DONE goes to the requester (R12, R135, R136). Before the window end the row has no
effect (model's choice, log 3). -/
def Obligations.CheckWindows : Prop :=
  ∀ (c : Progress) (s : State), s.maint.check = .running c →
    let fail (e : Edge) (o : Observed) : Option Failure :=
      match c.failure with | some f => some f | none => some ⟨c.current, e, o⟩
    let with_ (c' : Progress) : State := { s with maint := { s.maint with check := .running c' } }
    let next_ := s.elapsed + (s.line c.current).filterLen.toNat + 16
    (∀ n, (s.line n).mode = .test → s.drive n = some (if n = c.current ∧ c.window = .w2 then .high else .low)) ∧
    (s.elapsed < c.windowEnd → exec .checkWindowEnd s = .next s) ∧
    (c.windowEnd ≤ s.elapsed →
      (c.window = .w1 → exec .checkWindowEnd s = .next (with_ { c with window := .w2, windowEnd := next_ })) ∧
      (c.window = .w2 → c.rise ≠ .undecided →
        exec .checkWindowEnd s = .next (with_ { c with window := .w3, windowEnd := next_ })) ∧
      (c.window = .w2 → c.rise = .undecided → exec .checkWindowEnd s = .next (with_ { c with
        window := .w3, windowEnd := next_, rise := .failed, failure := fail .rise .nothing })) ∧
      (c.window = .w3 →
        let passed := if c.rise = .met ∧ c.fall = .met then c.passed ||| ((1 : LineSet) <<< c.current.val) else c.passed
        let completed := c.completed ||| ((1 : LineSet) <<< c.current.val)
        let failure := if c.fall = .undecided then fail .fall .nothing else c.failure
        (∀ n : LineId, c.current < n → c.tested.getLsbD n.val = true →
          (∀ m, c.current < m → m < n → c.tested.getLsbD m.val = false) →
          exec .checkWindowEnd s = .next (with_ { c with
            current := n, window := .w1, windowEnd := s.elapsed + (s.line n).filterLen.toNat + 16,
            rise := .undecided, fall := .undecided, passed := passed, completed := completed,
            failure := failure })) ∧
        ((∀ n, c.current < n → c.tested.getLsbD n.val = false) →
          let result : CheckResult := ⟨if passed = c.tested then .passed else .failed, passed, completed, failure⟩
          ∃ t : State, exec .checkWindowEnd s = .next t ∧ s.checkEnded c.requester result t))) ∧
    (∀ (n : LineId) (r : FilterRun), (s.line n).mode = .test → (s.filter n).run = some r →
      (s.line n).filterLen.toNat < r.len →
      let lev : Level := if (s.filter n).filtered = .low then .high else .low
      let e : Edge := if (s.filter n).filtered = .low then .rise else .fall
      let judged (c' : Progress) : Prop := exec (.edgeAccepted n) s =
        .next ((with_ c').setFilter n { s.filter n with filtered := lev, run := none })
      ((n ≠ c.current ∨ c.window = .w1 ∨ c.window = .w2 ∧ c.rise ≠ .undecided ∨
        c.window = .w3 ∧ c.fall ≠ .undecided) → judged c) ∧
      (n = c.current → c.window = .w2 → c.rise = .undecided → judged
        (if e = .rise then { c with rise := .met }
          else { c with rise := .failed, failure := fail .rise .wrongEdge })) ∧
      (n = c.current → c.window = .w3 → c.fall = .undecided → judged
        (if e = .fall then { c with fall := .met }
          else { c with fall := .failed, failure := fail .fall .wrongEdge })))

/-- ABORT_CHECK ends a running check with outcome ABORTED and its sets as they stand, and restores the lines still in
TEST; CHECK_RESULT reports the check state, with the first failure also while RUNNING, and changes nothing that is not a
free value (R12, R137, R138, R176; log 14). -/
def Obligations.CheckAbortsAndReports : Prop :=
  ∀ (p : PortId) (s : State),
    (s.readyFor p 0x64 [] →
      let run := exec (.abortCheck p) s
      ((s.claim resMX).holder ≠ some p → run = .next (s.answered p [0x05])) ∧
      ((s.claim resMX).holder = some p → (∀ c, s.maint.check ≠ .running c) → run = .next (s.answered p [0x0B])) ∧
      (∀ c, (s.claim resMX).holder = some p → s.maint.check = .running c →
        ∃ t : State, run = .next (t.answered p [0x01]) ∧
          s.checkEnded c.requester ⟨.aborted, c.passed, c.completed, c.failure⟩ t)) ∧
    (s.readyFor p 0x65 [] → ∃ (t : State) (a b c₁ c₀ d₁ d₀ f l e o : Byte),
      exec (.checkResult p) s = .next (t.answered p [0x01, a, b, c₁, c₀, d₁, d₀, f, l, e, o]) ∧
      { t with free := s.free } = s ∧
      let reports (x : Option Failure) : Prop := (x = none → f = 0) ∧
        (∀ g, x = some g → f = 1 ∧ l = BitVec.ofNat 8 g.line.val ∧
          e = (match g.expected with | .rise => 1 | .fall => 2) ∧
          o = (match g.observed with | .nothing => 1 | .wrongEdge => 2))
      (s.maint.check = .idle → a = 0 ∧ b = 0 ∧ c₁ ++ c₀ = 0#16 ∧ d₁ ++ d₀ = 0#16 ∧ reports none) ∧
      (∀ c, s.maint.check = .running c → a = 1 ∧ b = 4 ∧ c₁ ++ c₀ = c.passed ∧ d₁ ++ d₀ = c.completed ∧
        reports c.failure) ∧
      (∀ r, s.maint.check = .finished r → a = 2 ∧
        b = (match r.outcome with | .passed => 1 | .failed => 2 | .aborted => 3) ∧
        c₁ ++ c₀ = r.passed ∧ d₁ ++ d₀ = r.completed ∧ reports r.failure))

/-! ## Pool integrity -/

/-- A scrub visit checks the slot at the scrub position and moves on 64 ticks. A clean slot is unchanged; one changed bit
is corrected and charged to the owner, with a threshold notice when its counter has just reached the threshold; two
changed bits withdraw the entry with outcome INTEGRITY, which may end DRAINING; the first error is recorded (R127, R141,
R143 to R148). STORED_BIT_ERROR is what changes a bit, but not while RESETn is low, when every body holds the free
pattern (R151). The bit's number is a name only (log 29); before its time the scrub has no effect (log 3); the level of a
pulse that is cut with its body lost is the model's deduction (log 11). -/
def Obligations.ScrubChecksSlot : Prop :=
  (∀ (i : SlotId) (bit : Nat) (s : State), s.phase = .pinReset → exec (.storedBitError i bit) s = .next s) ∧
  (∀ (i : SlotId) (bit : Nat) (s : State), s.phase ≠ .pinReset →
    (bit ∉ (s.slot i).wrongBits → exec (.storedBitError i bit) s =
      .next (s.setSlot i { s.slot i with wrongBits := bit :: (s.slot i).wrongBits })) ∧
    (bit ∈ (s.slot i).wrongBits → exec (.storedBitError i bit) s =
      .next (s.setSlot i { s.slot i with wrongBits := (s.slot i).wrongBits.erase bit }))) ∧
  ∀ s : State, let i := s.integ.scrubPos
    ((∀ d, s.integ.scrubDue = some d → s.elapsed < d) → exec .scrubVisit s = .next s) ∧
    ∀ d, s.integ.scrubDue = some d → d ≤ s.elapsed → ∃ t : State, exec .scrubVisit s = .next t ∧
      t.integ.scrubPos.val = (i.val + 1) % 128 ∧ t.integ.scrubDue = some (d + 64) ∧
      s.checkedSlot i { t with integ := { t.integ with scrubPos := i, scrubDue := some d } }

/-- INTEGRITY_READ reports the counters, the scrub position and the first error; INTEGRITY_CLEAR, by the MX holder,
clears the counters and marks of all ports and the first error, and keeps the thresholds and the scrub (R149, R150). The
bytes of an absent first error are free values (log 14). -/
def Obligations.IntegrityReadAndClear : Prop :=
  ∀ (p : PortId) (s : State),
    (s.readyFor p 0x66 [] → ∃ (t : State) (first : List Byte),
      exec (.integrityRead p) s = .next (t.answered p
        (0x01 :: (((List.finRange 4).flatMap (fun q => [(s.errors q).corrected, (s.errors q).uncorrectable,
          (s.errors q).threshold, if (s.errors q).mark then 1 else 0])) ++
          BitVec.ofNat 8 s.integ.scrubPos.val :: first))) ∧
      { t with free := s.free } = s ∧ first.length = 8 ∧
      (s.integ.firstError = none → first.head? = some 0) ∧
      (∀ g, s.integ.firstError = some g → ∃ e₃ e₂ e₁ e₀ : Byte,
        first = [1, BitVec.ofNat 8 g.slot.val, (match g.severity with | .corrected => 1 | .uncorrectable => 2),
          (match g.owner with | some q => BitVec.ofNat 8 q.val | none => 0xFF), e₃, e₂, e₁, e₀] ∧
        e₃ ++ e₂ ++ e₁ ++ e₀ = g.time)) ∧
    (s.loadingFor p 0x67 [] → exec (.integrityClear p) s = .next (s.answered p [0x0D])) ∧
    (s.readyFor p 0x67 [] →
      ((s.claim resMX).holder ≠ some p → exec (.integrityClear p) s = .next (s.answered p [0x05])) ∧
      ((s.claim resMX).holder = some p → exec (.integrityClear p) s = .next
        (State.answered { s with integ := { s.integ with
          counters := s.integ.counters.map (fun c => ⟨0, 0, c.threshold, false⟩), firstError := none } } p [0x01])))

/-! ## Resets by command -/

/-- SOFT_RESET: all six parts, with the filters that restart and, on data out, 0x00 in place of the records of a response
in progress; select and a frame in any other state stay as they were, but that the frame of the command answers (R14, R35,
R76, R102, R111, R118, R122, R137, R140, R168, R179). The response keeps its result code and record count (model's
choice, log 34); a filter that restarts reads the pin under the new drive (log 16), the outside level
where outside equipment holds it (log 8). -/
def Obligations.SoftReset : Prop :=
  ∀ (p : PortId) (s : State), s.readyFor p 0x68 [] →
    ((s.claim resMX).holder ≠ some p → exec (.softReset p) s = .next (s.answered p [0x05])) ∧
    ((s.claim resMX).holder = some p → ∃ t : State, exec (.softReset p) s = .next (t.answered p [0x01]) ∧
      { t with maint := s.maint, pool := s.pool, postOrder := s.postOrder, claims := s.claims, lines := s.lines,
               filters := s.filters, subs := s.subs, ports := s.ports, free := s.free } = s ∧
      t.maint.mode = .run ∧ t.maint.drainDeadline = none ∧ t.maint.drainLimit = s.maint.drainLimit ∧
      t.maint.check = (match s.maint.check with
        | .running c => .finished ⟨.aborted, c.passed, c.completed, c.failure⟩
        | other => other) ∧
      (∀ i, t.slot i = ⟨Body.free, [], none⟩) ∧ t.postOrder = 0 ∧ (∀ r, t.claim r = ⟨none, 0, none, []⟩) ∧
      (∀ n, t.line n = ⟨(s.line n).park.mode, .low, none, (s.line n).park, s.loaded.filter[n.val], none⟩) ∧
      (∀ n, ((s.line n).park = .off → (t.filter n).filtered = .low ∧ (t.filter n).run = none) ∧
        ((s.line n).park ≠ .off → (s.line n).mode ≠ .off → (s.line n).filterLen = s.loaded.filter[n.val] →
          t.filter n = s.filter n) ∧
        ((s.line n).mode ≠ .off → (t.filter n).sampled = (s.filter n).sampled) ∧
        ((s.line n).park ≠ .off → ((s.line n).mode = .off ∨ (s.line n).filterLen ≠ s.loaded.filter[n.val]) →
          (t.filter n).run = none ∧
          (s.held.getLsbD n.val = true → (t.filter n).filtered = Level.ofBit (s.level.getLsbD n.val)) ∧
          (∀ v, s.held.getLsbD n.val = false → t.drive n = some v → (t.filter n).filtered = v))) ∧
      (∀ q l, t.cell q l = .none) ∧
      (∀ q, (t.port q).queue = [.reset .soft] ∧ (t.port q).lost = 0 ∧ (t.port q).overrun = (s.port q).overrun ∧
        (t.port q).overrunLatch = (s.port q).overrunLatch ∧ (t.port q).frameLatch = (s.port q).frameLatch ∧
        (t.port q).mask = (s.port q).mask ∧
        (t.port q).selected = (s.port q).selected ∧
        ((∀ sent k, (s.port q).frame ≠ .response sent k) → (t.port q).frame = (s.port q).frame) ∧
        (∀ sent k, (s.port q).frame = .response sent k → (t.port q).frame = .response sent 0 ∧
          ∀ j, sent.length ≤ j → t.dataOut q j = some 0x00)))

/-- PORT_RESET: the port holds nothing, waits for nothing, subscribes to nothing and owns no occupied slot, the lines
it held are in their park mode, and its queue and port state are reset; the timebase, the link, the integrity counters
and the profile store stay. With nothing held, only the port's waits, subscriptions and port state change. Else each
claim ends, in ascending resource number: every resource passes to its head waiter, who is offered GRANTED and, while
others wait, WANTED; the port's entries are withdrawn, and the last pulse in progress while DRAINING takes the hub into
DIRECT; a running check of the port ends ABORTED, without CHECK_DONE, with its lines restored; the lines it did not
hold keep their records; the filter of a line it held is cleared in OFF, restarted when the line leaves OFF (a line in
TEST too, when an earlier claim end has restored it to OFF), and else as it was; and with MX lost out of RUN the hub
returns to RUN, every other port is told DIRECT_EXITED MX_LOST, and the schedule catches up (R11, R12, R27 to R32, R34,
R76, R89, R102, R111, R123, R127, R137, R178). Model's choices: a cut reads the inactive level from the line (log 11),
a suspended train goes on from the boundary it holds (log 28), the slot of one with no pulses left is checked twice
(log 32), and a filter that restarts reads the pin under the new drive (log 16), the outside level where it is held
(log 8), as its sampled level (log 9). -/
def Obligations.PortReset : Prop :=
  ∀ (p : PortId) (s : State), s.readyFor p 0x90 [] →
    let holds (r : ResourceId) : Prop := (s.claim r).holder = some p
    let waits (r : ResourceId) : List Waiter := (s.claim r).waiters.filter (fun w => w.port != p)
    let greets (l : List ResourceId) (x : State) : State := l.foldl (fun x r => x.greet r (waits r)) x
    let ended : List ResourceId :=
      (List.finRange 18).filter (fun r => (s.claim r).holder == some p && r != resMX)
    let mine (h : Header) : Prop := h.owner = p ∧ holds (lineRes h.line)
    let stopped (c : Progress) : Prop := s.maint.check = .running c ∧
      (holds resMX ∨ ∃ n, holds (lineRes n) ∧ c.tested.getLsbD n.val = true)
    ∃ t : State, exec (.portReset p) s = .next (t.answered p [0x01]) ∧
      (∀ r, (t.claim r).holder ≠ some p ∧ (∀ w ∈ (t.claim r).waiters, w.port ≠ p)) ∧
      (∀ r, (holds r → t.claim r = ClaimRec.next { s.claim r with waiters := waits r } s.elapsed) ∧
        (¬ holds r → t.claim r = { s.claim r with waiters := waits r })) ∧
      (∀ l, t.cell p l = .none) ∧ (∀ q l, q ≠ p → t.cell q l = s.cell q l) ∧
      (s.entriesLawful → ∀ i h, t.entry i = some h → h.owner ≠ p) ∧
      (∀ n, holds (lineRes n) →
        (t.line n).mode = (s.line n).park.mode ∧ (t.line n).override = none ∧ (t.line n).saved = none ∧
          (t.line n).park = (s.line n).park ∧ (t.line n).filterLen = (s.line n).filterLen) ∧
      t.port p = { s.port p with
        queue := [.reset .port], lost := 0, overrun := 0, overrunLatch := false, frameLatch := false,
        mask := s.loaded.mask[p.val] } ∧
      t.tb = s.tb ∧ t.link = s.link ∧ t.store = s.store ∧ t.storeBusy = s.storeBusy ∧ t.loaded = s.loaded ∧
      (s.maint.mode = .run → t.integ = s.integ) ∧
      ((∀ r, (s.claim r).holder ≠ some p) →
        { t with claims := s.claims, subs := s.subs, ports := s.ports } = s ∧ (∀ q, q ≠ p → t.port q = s.port q) ∧
        ∀ r, t.claim r = { s.claim r with waiters := (s.claim r).waiters.filter (fun w => w.port != p) }) ∧
      (holds resMX → t.maint.mode = .run) ∧
      (s.modeLawful → ∃ u : State,
        { u with claims := s.claims, pool := s.pool, lines := s.lines, filters := s.filters, maint := s.maint,
                 ports := s.ports, free := s.free } = s ∧
        (∀ i, (∀ h, s.entry i = some h → mine h → u.slot i = ⟨Body.free, [], none⟩) ∧
          ((∀ h, s.entry i = some h → ¬ mine h) → u.slot i = s.slot i)) ∧
        (∀ n, holds (lineRes n) → (s.line n).mode ≠ .test → s.levelCut mine n (u.line n).scheduled) ∧
        (∀ before n after, ended = before ++ lineRes n :: after →
          let restoredOff := (s.line n).mode = .test ∧ (∃ level, (s.line n).saved = some (.off, level)) ∧
            ∃ c, s.maint.check = .running c ∧ c.requester = p ∧
              ∃ m, lineRes m ∈ before ∧ c.tested.getLsbD m.val = true
          s.filterParked n ((s.line n).mode = .off ∨ restoredOff) (u.filter n)) ∧
        (∀ n, ¬ holds (lineRes n) →
          ((∀ c, ¬ stopped c) → u.line n = s.line n ∧ u.filter n = s.filter n) ∧
          (∀ c, stopped c → s.lineRestored c.requester n u)) ∧
        ((∀ c, ¬ stopped c) → u.maint.check = s.maint.check) ∧
        (∀ c, stopped c → u.maint.check = .finished ⟨.aborted, c.passed, c.completed, c.failure⟩) ∧
        (s.drainsOn mine → { u.maint with check := s.maint.check } = s.maint ∧
          ∀ q, q ≠ p → u.port q = (greets ended s).port q) ∧
        (¬ s.drainsOn mine → (∃ i h, s.entry i = some h ∧ mine h) →
          { u.maint with check := s.maint.check } = { s.maint with mode := .direct, drainDeadline := none }) ∧
        (¬ s.drainsOn mine → ∀ before n after, ended = before ++ lineRes n :: after →
          (∃ i h, s.entry i = some h ∧ mine h ∧ h.line = n ∧ h.status.isPulse = true) →
          (∀ i h, s.entry i = some h → mine h → lineRes h.line ∈ after → h.status.isPulse = false) →
          ∀ q, q ≠ p → u.port q = (greets (lineRes n :: after) ((greets before s).nowDirect)).port q) ∧
        let same (v : State) : Prop := t.pool = v.pool ∧ t.lines = v.lines ∧ t.filters = v.filters ∧
          t.maint = v.maint ∧ t.integ = v.integ
        (¬ holds resMX → same u ∧ ∀ q, q ≠ p → t.port q = u.port q) ∧
        (holds resMX → s.maint.mode = .run →
          same u ∧ ∀ q, q ≠ p → t.port q = (u.greet resMX (waits resMX)).port q) ∧
        (holds resMX → s.maint.mode ≠ .run → ∃ v : State, u.returned .mxLost v ∧ same v ∧
          ∀ q, q ≠ p → t.port q = (v.greet resMX (waits resMX)).port q))

/-! ## The tie link -/

/-- LINK_STATUS reports the link and changes nothing; LINK_RETRAIN is refused without TB or in OFF, and otherwise takes
the link DOWN for 10 ms, empties the forward queue, gives the source back and tells every port (R48, R165, R166). -/
def Obligations.LinkStatusAndRetrain : Prop :=
  ∀ (p : PortId) (s : State),
    (s.readyFor p 0x70 [] → ∃ d₄ d₃ d₂ d₁ d₀ f₁ f₀ : Byte,
      exec (.linkStatus p) s = .next (s.answered p [0x01,
        (match s.link.state with
          | .off => 0 | .down => 1 | .probing => 2 | .aligning => 3 | .locked => 4 | .holdoff => 5 | .conflict => 6),
        (match s.link.role with | none => 0 | some .leader => 1 | some .follower => 2),
        (match s.link.rate with | none => 0 | some .r5 => 5 | some .r10 => 10 | some .r20 => 20),
        d₄, d₃, d₂, d₁, d₀, f₁, f₀, BitVec.ofNat 8 s.link.forward.length,
        (match s.tb.source with | .localTime => 0 | .leader => 1 | .follower => 2 | .freeRun => 3)]) ∧
      d₄ ++ d₃ ++ d₂ ++ d₁ ++ d₀ = BitVec.ofInt 40 s.link.lastD ∧ f₁ ++ f₀ = s.link.drops) ∧
    (s.readyFor p 0x71 [] →
      let run := exec (.linkRetrain p) s
      let holds := (s.claim resTB).holder = some p
      (¬ holds → run = .next (s.answered p [0x05])) ∧
      (holds → s.link.state = .off → run = .next (s.answered p [0x0B])) ∧
      (holds → s.link.state ≠ .off →
        let t : State := { s with
          link := quietLink s.link .down (some (s.elapsed + 100000)) []
          tb := if s.link.state = .locked then s.tb.unlocked else s.tb }
        run = .next ((t.offerAll (.link .down)).answered p [0x01])))

/-- The timers of the link, each when it is reached: the end of DOWN and of HOLDOFF begin PROBING; the deadline of
ALIGNING and of the follower's silence lead to HOLDOFF; a missed reply counts, and the third loses lock; the next query
falls due (R155, R157, R160, R161, R162, R165). The first 100 us mark is the model's choice (log 12); a row that comes
too early has no effect (log 3). -/
def Obligations.LinkTimers : Prop :=
  ∀ s : State,
    let probing (t : State) : Prop := ∃ mark, (mark = s.elapsed ∨ mark = s.elapsed + 1000) ∧
      t = { s with link := { quietLink s.link .probing none s.link.forward with
        rate := some .r5, nextSlot := some s.elapsed, nextAbility := some mark } }
    (∀ c st, (c, st) ∈ ([(.retrainDownEnd, .down), (.holdoffEnd, .holdoff)] : List (Instr × LinkState)) →
      ((s.link.state ≠ st ∨ ∀ d, s.link.deadline = some d → s.elapsed < d) → exec c s = .next s) ∧
      (∀ d, s.link.state = st → s.link.deadline = some d → d ≤ s.elapsed →
        ∃ t : State, exec c s = .next t ∧ probing t)) ∧
    ((s.link.state ≠ .aligning ∨ ∀ d, s.link.deadline = some d → s.elapsed < d) →
      exec .aligningDeadline s = .next s) ∧
    (∀ d, s.link.state = .aligning → s.link.deadline = some d → d ≤ s.elapsed →
      exec .aligningDeadline s = .next { s with
        link := quietLink s.link .holdoff (some (s.elapsed + 100000)) s.link.forward }) ∧
    ((s.link.state ≠ .locked ∨ ∀ d, s.link.silence = some d → s.elapsed < d) →
      exec .followerSilenceDeadline s = .next s) ∧
    (∀ d, s.link.state = .locked → s.link.silence = some d → d ≤ s.elapsed →
      exec .followerSilenceDeadline s = .next s.unlocked) ∧
    ((∀ q, s.link.query = some q → s.elapsed < q.deadline) → exec .replyDeadline s = .next s) ∧
    (∀ q, s.link.query = some q → q.deadline ≤ s.elapsed →
      (s.link.state ≠ .locked → exec .replyDeadline s = .next { s with link := { s.link with query := none } }) ∧
      (s.link.state = .locked → s.link.missed < 2 → exec .replyDeadline s = .next { s with
        link := { s.link with query := none, missed := s.link.missed + 1, queryDue := true } }) ∧
      (s.link.state = .locked → 2 ≤ s.link.missed → exec .replyDeadline s = .next s.unlocked)) ∧
    ((¬ s.isRole .follower ∨ ∀ d, s.link.nextQuery = some d → s.elapsed < d) → exec .queryDue s = .next s) ∧
    (∀ d, s.isRole .follower → s.link.nextQuery = some d → d ≤ s.elapsed →
      exec .queryDue s = .next { s with link := { s.link with
        queryDue := true, nextQuery := if s.link.state = .aligning then some (d + 10000) else none } })

/-- A word slot sends the first thing that waits: an ABILITY word at its mark or the final one in PROBING and CONFLICT;
in ALIGNING and LOCKED the reply owed or the query due, then in LOCKED the head of the forward queue; else IDLE. The
leader's first reply locks it. Once the final ABILITY is sent the link is ALIGNING with the role and rate decided
(R153, R154, R156, R157, R158, R159, R163). Model's choices: a row before its time has no effect (log 3), the first slot
begins at the rate switch (log 12), the transmitter's fields (log 22), and the rate set sent as it was loaded (log 33). -/
def Obligations.WordSlots : Prop :=
  ∀ s : State,
    let run := exec .wordSlot s
    let ticks : Nat := match s.link.rate with | some .r10 => 160 | some .r20 => 80 | _ => 320
    let sends (l : Link) (w : Word) : State :=
      { s with link := { l with wire := some w, nextSlot := some (s.elapsed + ticks) } }
    let ability (ack : Bool) : Word := .ability s.loaded.rolePref s.loaded.unit s.loaded.rateSet ack
    let begun := ∃ e ≤ s.elapsed, s.link.nextSlot = some e
    let exchanging := s.link.state = .aligning ∨ s.link.state = .locked
    (¬ begun → run = .next s) ∧
    (∀ ack : Bool, begun → (s.link.state = .probing ∧ s.link.resolved = none ∧ ack = s.link.ack ∨
        s.link.state = .conflict ∧ ack = true) →
      ((∀ m, s.link.nextAbility = some m → s.elapsed < m) → run = .next (sends s.link .idle)) ∧
      (∀ m, s.link.nextAbility = some m → m ≤ s.elapsed → ∃ m', s.elapsed < m' ∧ m' ≤ s.elapsed + 1000 ∧
        (∃ k, m' = m + k * 1000) ∧
        run = .next (sends { s.link with nextAbility := some m' } (ability ack)))) ∧
    (begun → s.link.state = .probing → s.link.resolved ≠ none → run = .next { s with link := { s.link with
      wire := some (ability true), nextSlot := none, finalEnd := some (s.elapsed + ticks) } }) ∧
    (∀ o, begun → exchanging → s.link.owed = some o →
      let word : Word := .timeReply o.c1 o.l1 s.tb.count s.tb.epoch (s.tb.run == .halted)
      (s.link.state = .locked → run = .next (sends { s.link with owed := none } word)) ∧
      (s.link.state = .aligning →
        let t : State := { sends { s.link with
            owed := none, state := .locked, deadline := none, silence := some (s.elapsed + 30000) } word with
          tb := { s.tb with source := .leader } }
        run = .next (t.offerAll (.link .locked)))) ∧
    (begun → exchanging → s.link.owed = none → s.link.queryDue = true →
      run = .next (sends { s.link with queryDue := false, query := some ⟨s.tb.count, s.elapsed + 10000⟩ }
        (.timeQuery s.tb.count))) ∧
    (∀ f rest, begun → s.link.state = .locked → s.link.owed = none → s.link.queryDue = false →
      s.link.forward = f :: rest → run = .next (sends { s.link with forward := rest } (.capture f))) ∧
    (begun → exchanging → s.link.owed = none → s.link.queryDue = false →
      (s.link.state = .aligning ∨ s.link.forward = []) → run = .next (sends s.link .idle)) ∧
    ((s.link.resolved = none ∨ ∀ e, s.link.finalEnd = some e → s.elapsed < e) →
      exec .finalAbilitySent s = .next s) ∧
    (∀ role rate e, s.link.resolved = some (role, rate) → s.link.finalEnd = some e → e ≤ s.elapsed →
      exec .finalAbilitySent s = .next { s with link := { quietLink s.link .aligning (some (s.elapsed + 20000))
          s.link.forward with
        role := some role, rate := some rate, nextSlot := some s.elapsed, queryDue := role == .follower,
        nextQuery := if role = .follower then some (s.elapsed + 10000) else none } })

/-- A valid ABILITY word: in PROBING it sets the ack flag and, with the peer's ack set, resolves the roles by the table
or ends in CONFLICT; in ALIGNING only one with the ack clear matters; in LOCKED it loses lock (R153 to R157,
R161, R188). Model's choices: the row has no effect for anything else, a valid word of another kind included, which is
counted by the row of its own kind (log 3); the resolved field and the first mark (log 12, log 22). -/
def Obligations.AbilityReceived : Prop :=
  ∀ (w : WireWord) (s : State),
    let run := exec (.abilityReceived w) s
    let own := s.loaded.rolePref
    let code := w.bytes.getD 1 0
    let peer : RolePref := if code = 1 then .leader else if code = 2 then .follower else .either
    let unit := w.bytes.getD 2 0
    let rates := w.bytes.getD 3 0
    let ack := (w.bytes.getD 4 0).getLsbD 0
    let bothEither := own = .either ∧ peer = .either
    let leads := (own = .leader ∧ peer ≠ .leader) ∨ (own = .either ∧ peer = .follower) ∨
      (bothEither ∧ unit.toNat < s.loaded.unit.toNat)
    let follows := (own = .follower ∧ peer ≠ .follower) ∨ (own = .either ∧ peer = .leader) ∨
      (bothEither ∧ s.loaded.unit.toNat < unit.toNat)
    let rate : Rate := if s.loaded.rateSet.getLsbD 2 && rates.getLsbD 2 then .r20
      else if s.loaded.rateSet.getLsbD 1 && rates.getLsbD 1 then .r10 else .r5
    (¬ s.hears w 0x11 → run = .next s) ∧
    (s.hears w 0x11 →
      (s.link.state = .probing → s.link.resolved ≠ none → run = .next s) ∧
      (s.link.state = .probing → s.link.resolved = none →
        (ack = false → run = .next { s with link := { s.link with ack := true } }) ∧
        (ack = true → leads → run = .next { s with link := { s.link with
          ack := true, resolved := some (.leader, rate) } }) ∧
        (ack = true → follows → run = .next { s with link := { s.link with
          ack := true, resolved := some (.follower, rate) } }) ∧
        (ack = true → ¬ leads → ¬ follows → ∃ mark, (mark = s.elapsed ∨ mark = s.elapsed + 1000) ∧
          run = .next (State.offerAll { s with link := { s.link with
            state := .conflict, ack := true, nextAbility := some mark } } (.link .conflict)))) ∧
      (s.link.state = .aligning → ack = true → run = .next s) ∧
      (s.link.state = .aligning → ack = false → run = .next { s with
        link := quietLink s.link .holdoff (some (s.elapsed + 100000)) s.link.forward }) ∧
      (s.link.state = .locked → run = .next s.unlocked))

/-- A TIME_QUERY makes the leader owe a reply, in place of any it owed; an IDLE word only counts as a valid word; a
CAPTURE word is delivered in LOCKED on line 16 + n, flagged REMOTE: its records, then the ARMED entries that it matches
are armed, one after another in post order, by the time it carries, each after the check of its slot (R86, R87, R96, R109,
R142, R153, R158, R161, R164, R188). A row has no effect for anything that is not a valid word of its kind; a valid word
of another kind is counted by the row of its own kind (model's choice, log 3). -/
def Obligations.QueryCaptureIdleReceived : Prop :=
  ∀ (w : WireWord) (s : State),
    let count (k : Nat) : Count := w.bytes.getD k 0 ++ w.bytes.getD (k + 1) 0 ++ w.bytes.getD (k + 2) 0 ++
      w.bytes.getD (k + 3) 0 ++ w.bytes.getD (k + 4) 0
    let counted : State := { s with link := s.linkAfterWord }
    (¬ s.hears w 0x12 → exec (.timeQueryReceived w) s = .next s) ∧
    (s.hears w 0x12 → s.isRole .leader → exec (.timeQueryReceived w) s = .next { s with
      link := { s.linkAfterWord with owed := some ⟨count 1, s.tb.count⟩ } }) ∧
    (s.hears w 0x12 → ¬ s.isRole .leader → exec (.timeQueryReceived w) s = .next counted) ∧
    (¬ s.hears w 0x15 → exec (.idleWordReceived w) s = .next s) ∧
    (s.hears w 0x15 → exec (.idleWordReceived w) s = .next counted) ∧
    (¬ s.hears w 0x14 → exec (.captureWordReceived w) s = .next s) ∧
    (s.hears w 0x14 →
      (s.link.state ≠ .locked → exec (.captureWordReceived w) s = .next counted) ∧
      (s.link.state = .locked →
        ((15 < (w.bytes.getD 1 0).toNat ∨ (w.bytes.getD 2 0 ≠ 1 ∧ w.bytes.getD 2 0 ≠ 2)) →
          exec (.captureWordReceived w) s = .next counted) ∧
        (∀ (n : AnyLine) (e : Edge), n.val = 16 + (w.bytes.getD 1 0).toNat →
          (w.bytes.getD 2 0 = 1 ∧ e = .rise ∨ w.bytes.getD 2 0 = 2 ∧ e = .fall) → s.noneAwaits n e →
          ∃ t : State, exec (.captureWordReceived w) s = .next t ∧ { t with ports := s.ports } = counted ∧
            ∀ p, t.port p = if (s.cell p n).selects e = true
              then (s.port p).enqueue (.capture n e (count 3) (w.bytes.getD 8 0) ((w.bytes.getD 9 0).getLsbD 0)
                ((w.bytes.getD 9 0).getLsbD 1) true 0)
              else s.port p) ∧
        (∀ (n : AnyLine) (e : Edge) (l : List SlotId), n.val = 16 + (w.bytes.getD 1 0).toNat →
          (w.bytes.getD 2 0 = 1 ∧ e = .rise ∨ w.bytes.getD 2 0 = 2 ∧ e = .fall) →
          s.postOrdered (fun h => h.awaits n e = true) l → s.readableAt l → s.drainsOn (fun _ => False) →
          let u : State := { counted with ports := Vector.ofFn (fun p => if (s.cell p n).selects e = true
            then (s.port p).enqueue (.capture n e (count 3) (w.bytes.getD 8 0) ((w.bytes.getD 9 0).getLsbD 0)
              ((w.bytes.getD 9 0).getLsbD 1) true 0)
            else s.port p) }
          ∃ out : State, eachBecomes (State.edgeArms (count 3)) l u out ∧
            exec (.captureWordReceived w) s = .next out)))

/-- A TIME_REPLY: taken by the follower whose outstanding query it answers, and otherwise only a valid word. The
follower computes the leader's time and d; in ALIGNING it steps and locks, in LOCKED it steps when the epoch differs or
|d| is above 8, and otherwise copies the halted flag and asks for a slew. An alignment step re-examines the PENDING
entries one after another in the order of the due list from before it, each with the check of its slot where it is due
or behind (R44, R45, R49, R50, R52, R66, R67, R96, R142, R158, R159, R160). Model's choices: the row has no effect for
anything that is not a valid TIME_REPLY, a valid word of another kind being counted by its own row (log 3); d = 2^39 is
taken as positive (log 27). -/
def Obligations.TimeReplyReceived : Prop :=
  ∀ (w : WireWord) (s : State),
    let run := exec (.timeReplyReceived w) s
    let count (k : Nat) : Count := w.bytes.getD k 0 ++ w.bytes.getD (k + 1) 0 ++ w.bytes.getD (k + 2) 0 ++
      w.bytes.getD (k + 3) 0 ++ w.bytes.getD (k + 4) 0
    let c₂ := s.tb.count
    let epoch := w.bytes.getD 16 0
    let halted := (w.bytes.getD 17 0).getLsbD 0
    let taken := s.isRole .follower ∧ ∃ q, s.link.query = some q ∧ q.c1 = count 1
    let delay : Nat := ((c₂ - count 1).toNat - (count 11 - count 6).toNat) / 2
    let time : Count := if halted then count 11 else count 11 + BitVec.ofNat 40 delay
    let x : Nat := (time - c₂).toNat
    let d : Int := if x ≤ 2 ^ 39 then (x : Int) else (x : Int) - 2 ^ 40
    let state : RunState := if halted then .halted else .running
    let event : TimeEvent := if halted then .halt else .resume
    let next_ := some (s.elapsed + 10000)
    let told : State :=
      let u : State := { s with
        tb := { s.tb with count := time, epoch := epoch, run := state, slew := none }
        filters := s.steppedFilters
        link := { s.link with query := none, lastD := d } }
      if state = s.tb.run then u.offerAll (.timebase .alignStep epoch time)
      else (u.offerAll (.timebase .alignStep epoch time)).offerAll (.timebase event epoch time)
    let after : Link := { s.link with query := none, lastD := d, missed := 0, queryDue := false, nextQuery := next_ }
    (¬ s.hears w 0x13 → run = .next s) ∧
    (s.hears w 0x13 → ¬ taken → run = .next { s with link := s.linkAfterWord }) ∧
    (s.hears w 0x13 → taken →
      (∀ l, s.dueOrdered (fun _ => True) l → s.readableAt l → s.drainsOn (fun _ => False) →
        (s.link.state = .aligning → ∃ out : State, eachBecomes State.rejudgesTo l told out ∧
          let locked : State := { out with
            link := { after with state := .locked, deadline := none }
            tb := { out.tb with source := .follower } }
          run = .next (locked.offerAll (.link .locked))) ∧
        (s.link.state = .locked → (epoch ≠ s.tb.epoch ∨ 8 < d ∨ d < -8) →
          ∃ out : State, eachBecomes State.rejudgesTo l told out ∧ run = .next { out with link := after })) ∧
      (s.link.state = .locked →
        (epoch = s.tb.epoch → -8 ≤ d → d ≤ 8 →
          let slew : Option Slew := if state = .halted ∨ d = 0 then s.tb.slew
            else if 0 < d then some .double else some .held
          let u : State := { s with
            tb := { s.tb with run := state, slew := slew }
            link := { s.link with query := none, lastD := d, missed := 0, queryDue := false, nextQuery := next_ } }
          run = .next (if state = s.tb.run then u else u.offerAll (.timebase event epoch s.tb.count)))))

/-! ## The profile store -/

/-- The four profile commands in every case, and the end of the busy time: bits are only ever set, and the store is busy
for 2,000 ticks after each accepted write (R184, R185, R186, R188). Before its time PROFILE_BUSY_END has no effect
(model's choice, log 3). -/
def Obligations.ProfileStoreCommands : Prop :=
  ∀ (p : PortId) (slot offset byte : Byte) (s : State), s.storeLawful →
    let holds := (s.claim resMX).holder = some p
    let busy := s.storeBusy ≠ none
    let writes (t : State) (i : Fin 3) (bits : Nat → Byte) : Prop :=
      { t with store := s.store, storeBusy := s.storeBusy } = s ∧
      (∃ b, t.storeBusy = some b ∧ b.until_ = s.elapsed + 2000) ∧
      (∀ j k, j ≠ i.val → k < 64 → t.storeByte j k = s.storeByte j k) ∧
      (∀ k, k < 64 → t.storeByte i.val k = s.storeByte i.val k ||| bits k)
    (s.readyFor p 0x80 [slot, offset, byte] →
      let run := exec (.profileRead p slot offset byte) s
      let bad := 2 < slot.toNat ∨ 63 < offset.toNat ∨ byte = 0 ∨ 16 < byte.toNat ∨ 64 < offset.toNat + byte.toNat
      (bad → run = .next (s.answered p [0x08])) ∧ (¬ bad → busy → run = .next (s.answered p [0x04])) ∧
      (¬ bad → ¬ busy → ∃ data : List Byte, run = .next (s.answered p (0x01 :: data)) ∧ data.length = byte.toNat ∧
        ∀ k < byte.toNat, data[k]? = some (s.storeByte slot.toNat (offset.toNat + k)))) ∧
    (s.readyFor p 0x81 [slot, offset, byte] →
      let run := exec (.profileWrite p slot offset byte) s
      let bad := 2 < slot.toNat ∨ 0x3C ≤ offset.toNat
      let isSealed := s.storeByte slot.toNat 0x3E = 0x5A
      (bad → run = .next (s.answered p [0x08])) ∧ (¬ bad → ¬ holds → run = .next (s.answered p [0x05])) ∧
      (¬ bad → holds → busy → run = .next (s.answered p [0x04])) ∧
      (¬ bad → holds → ¬ busy → isSealed → run = .next (s.answered p [0x0B])) ∧
      (∀ i : Fin 3, i.val = slot.toNat → ¬ bad → holds → ¬ busy → ¬ isSealed →
        ∃ t : State, run = .next (t.answered p [0x01]) ∧
          writes t i (fun k => if k = offset.toNat then byte else 0))) ∧
    (s.readyFor p 0x82 [slot] →
      let run := exec (.profileSeal p slot) s
      (2 < slot.toNat → run = .next (s.answered p [0x08])) ∧
      (slot.toNat ≤ 2 → ¬ holds → run = .next (s.answered p [0x05])) ∧
      (slot.toNat ≤ 2 → holds → busy → run = .next (s.answered p [0x04])) ∧
      (slot.toNat ≤ 2 → holds → ¬ busy → s.storeByte slot.toNat 0x3E = 0x5A → run = .next (s.answered p [0x03])) ∧
      (∀ i : Fin 3, i.val = slot.toNat → holds → ¬ busy → s.storeByte slot.toNat 0x3E ≠ 0x5A →
        let check := crc (s.storeBytes slot.toNat 0 60)
        ∃ t : State, run = .next (t.answered p [0x01]) ∧
          writes t i (fun k => if k = 0x3C then (check >>> 8).setWidth 8 else if k = 0x3D then check.setWidth 8
            else if k = 0x3E then 0x5A else 0))) ∧
    (s.readyFor p 0x83 [slot] →
      let run := exec (.profileRetire p slot) s
      (2 < slot.toNat → run = .next (s.answered p [0x08])) ∧
      (slot.toNat ≤ 2 → ¬ holds → run = .next (s.answered p [0x05])) ∧
      (slot.toNat ≤ 2 → holds → busy → run = .next (s.answered p [0x04])) ∧
      (slot.toNat ≤ 2 → holds → ¬ busy → s.storeByte slot.toNat 0x3F = 0xC3 → run = .next (s.answered p [0x03])) ∧
      (∀ i : Fin 3, i.val = slot.toNat → holds → ¬ busy → s.storeByte slot.toNat 0x3F ≠ 0xC3 →
        ∃ t : State, run = .next (t.answered p [0x01]) ∧ writes t i (fun k => if k = 0x3F then 0xC3 else 0))) ∧
    ((∀ b, s.storeBusy = some b → s.elapsed < b.until_) → exec .profileBusyEnd s = .next s) ∧
    (∀ b, s.storeBusy = some b → b.until_ ≤ s.elapsed → exec .profileBusyEnd s = .next { s with storeBusy := none })

/-! ## Invariants: what every step keeps -/

/-- Every step keeps the queue law: at most 40 records, at most 32 of them CAPTURE (R112). -/
def Obligations.EveryStepKeepsQueueLaw : Prop :=
  ∀ s t : State, s.queuesLawful → step s = .next t → t.queuesLawful

/-- Every step keeps the claim laws: waiters are distinct and not the holder, and a free resource has none (R16). -/
def Obligations.EveryStepKeepsClaimLaw : Prop :=
  ∀ s t : State, s.claimsLawful → step s = .next t → t.claimsLawful

/-- Every step keeps the mode law: out of RUN, MX is held and no check runs (R125). -/
def Obligations.EveryStepKeepsModeLaw : Prop :=
  ∀ s t : State, s.modeLawful → step s = .next t → t.modeLawful

/-- Every step keeps the entry law: an occupied entry's owner holds the claim on its line, the line is in OUTPUT, and
before READY no slot is occupied (R58, R76). -/
def Obligations.EveryStepKeepsEntryLaw : Prop :=
  ∀ s t : State, s.entriesLawful → step s = .next t → t.entriesLawful

/-- Every step keeps the profile store in its canonical form, with what a busy store will keep part of it. Both are the
model's choice: the sorted list without blank bytes is its representation of the 192 bytes of R184 and R188, and what an
operation in progress keeps of the bytes from before it is log 13. -/
def Obligations.EveryStepKeepsStoreForm : Prop :=
  ∀ s t : State, s.storeLawful → step s = .next t → t.storeLawful

end
end

