-- ==== Sys2Proof/Laws/State.lean ====
section
/-! SUPPORT. What each update of one record changes and what it leaves: one lemma per field and update, so that no proof
unfolds a record update. -/

namespace Sys2Proof.Machine

variable (s : State)

/-! ## setPort -/

@[simp] theorem setPort_pending (p : PortId) (x : Port) : (s.setPort p x).pending = s.pending := rfl
@[simp] theorem setPort_phase (p : PortId) (x : Port) : (s.setPort p x).phase = s.phase := rfl
@[simp] theorem setPort_elapsed (p : PortId) (x : Port) : (s.setPort p x).elapsed = s.elapsed := rfl
@[simp] theorem setPort_free (p : PortId) (x : Port) : (s.setPort p x).free = s.free := rfl
@[simp] theorem setPort_claims (p : PortId) (x : Port) : (s.setPort p x).claims = s.claims := rfl
@[simp] theorem setPort_lines (p : PortId) (x : Port) : (s.setPort p x).lines = s.lines := rfl
@[simp] theorem setPort_filters (p : PortId) (x : Port) : (s.setPort p x).filters = s.filters := rfl
@[simp] theorem setPort_subs (p : PortId) (x : Port) : (s.setPort p x).subs = s.subs := rfl
@[simp] theorem setPort_held (p : PortId) (x : Port) : (s.setPort p x).held = s.held := rfl
@[simp] theorem setPort_level (p : PortId) (x : Port) : (s.setPort p x).level = s.level := rfl
@[simp] theorem setPort_tickPins (p : PortId) (x : Port) : (s.setPort p x).tickPins = s.tickPins := rfl
@[simp] theorem setPort_tb (p : PortId) (x : Port) : (s.setPort p x).tb = s.tb := rfl
@[simp] theorem setPort_pool (p : PortId) (x : Port) : (s.setPort p x).pool = s.pool := rfl
@[simp] theorem setPort_postOrder (p : PortId) (x : Port) : (s.setPort p x).postOrder = s.postOrder := rfl
@[simp] theorem setPort_maint (p : PortId) (x : Port) : (s.setPort p x).maint = s.maint := rfl
@[simp] theorem setPort_integ (p : PortId) (x : Port) : (s.setPort p x).integ = s.integ := rfl
@[simp] theorem setPort_link (p : PortId) (x : Port) : (s.setPort p x).link = s.link := rfl
@[simp] theorem setPort_loaded (p : PortId) (x : Port) : (s.setPort p x).loaded = s.loaded := rfl
@[simp] theorem setPort_inForce (p : PortId) (x : Port) : (s.setPort p x).inForce = s.inForce := rfl
@[simp] theorem setPort_store (p : PortId) (x : Port) : (s.setPort p x).store = s.store := rfl
@[simp] theorem setPort_storeBusy (p : PortId) (x : Port) : (s.setPort p x).storeBusy = s.storeBusy := rfl
@[simp] theorem setPort_claim (p : PortId) (x : Port) (r : ResourceId) : (s.setPort p x).claim r = s.claim r := rfl
@[simp] theorem setPort_line (p : PortId) (x : Port) (m : LineId) : (s.setPort p x).line m = s.line m := rfl
@[simp] theorem setPort_filter (p : PortId) (x : Port) (m : LineId) : (s.setPort p x).filter m = s.filter m := rfl
@[simp] theorem setPort_slot (p : PortId) (x : Port) (j : SlotId) : (s.setPort p x).slot j = s.slot j := rfl
@[simp] theorem setPort_errors (p : PortId) (x : Port) (q : PortId) : (s.setPort p x).errors q = s.errors q := rfl
@[simp] theorem setPort_holds (p : PortId) (x : Port) (q : PortId) (r : ResourceId) : (s.setPort p x).holds q r = s.holds q r := rfl
@[simp] theorem setPort_entry (p : PortId) (x : Port) (j : SlotId) : (s.setPort p x).entry j = s.entry j := rfl
@[simp] theorem setPort_body (p : PortId) (x : Port) (j : SlotId) : (s.setPort p x).body j = s.body j := rfl

/-! ## setClaim -/

@[simp] theorem setClaim_pending (r' : ResourceId) (x : ClaimRec) : (s.setClaim r' x).pending = s.pending := rfl
@[simp] theorem setClaim_phase (r' : ResourceId) (x : ClaimRec) : (s.setClaim r' x).phase = s.phase := rfl
@[simp] theorem setClaim_elapsed (r' : ResourceId) (x : ClaimRec) : (s.setClaim r' x).elapsed = s.elapsed := rfl
@[simp] theorem setClaim_free (r' : ResourceId) (x : ClaimRec) : (s.setClaim r' x).free = s.free := rfl
@[simp] theorem setClaim_ports (r' : ResourceId) (x : ClaimRec) : (s.setClaim r' x).ports = s.ports := rfl
@[simp] theorem setClaim_lines (r' : ResourceId) (x : ClaimRec) : (s.setClaim r' x).lines = s.lines := rfl
@[simp] theorem setClaim_filters (r' : ResourceId) (x : ClaimRec) : (s.setClaim r' x).filters = s.filters := rfl
@[simp] theorem setClaim_subs (r' : ResourceId) (x : ClaimRec) : (s.setClaim r' x).subs = s.subs := rfl
@[simp] theorem setClaim_held (r' : ResourceId) (x : ClaimRec) : (s.setClaim r' x).held = s.held := rfl
@[simp] theorem setClaim_level (r' : ResourceId) (x : ClaimRec) : (s.setClaim r' x).level = s.level := rfl
@[simp] theorem setClaim_tickPins (r' : ResourceId) (x : ClaimRec) : (s.setClaim r' x).tickPins = s.tickPins := rfl
@[simp] theorem setClaim_tb (r' : ResourceId) (x : ClaimRec) : (s.setClaim r' x).tb = s.tb := rfl
@[simp] theorem setClaim_pool (r' : ResourceId) (x : ClaimRec) : (s.setClaim r' x).pool = s.pool := rfl
@[simp] theorem setClaim_postOrder (r' : ResourceId) (x : ClaimRec) : (s.setClaim r' x).postOrder = s.postOrder := rfl
@[simp] theorem setClaim_maint (r' : ResourceId) (x : ClaimRec) : (s.setClaim r' x).maint = s.maint := rfl
@[simp] theorem setClaim_integ (r' : ResourceId) (x : ClaimRec) : (s.setClaim r' x).integ = s.integ := rfl
@[simp] theorem setClaim_link (r' : ResourceId) (x : ClaimRec) : (s.setClaim r' x).link = s.link := rfl
@[simp] theorem setClaim_loaded (r' : ResourceId) (x : ClaimRec) : (s.setClaim r' x).loaded = s.loaded := rfl
@[simp] theorem setClaim_inForce (r' : ResourceId) (x : ClaimRec) : (s.setClaim r' x).inForce = s.inForce := rfl
@[simp] theorem setClaim_store (r' : ResourceId) (x : ClaimRec) : (s.setClaim r' x).store = s.store := rfl
@[simp] theorem setClaim_storeBusy (r' : ResourceId) (x : ClaimRec) : (s.setClaim r' x).storeBusy = s.storeBusy := rfl
@[simp] theorem setClaim_port (r' : ResourceId) (x : ClaimRec) (q : PortId) : (s.setClaim r' x).port q = s.port q := rfl
@[simp] theorem setClaim_line (r' : ResourceId) (x : ClaimRec) (m : LineId) : (s.setClaim r' x).line m = s.line m := rfl
@[simp] theorem setClaim_filter (r' : ResourceId) (x : ClaimRec) (m : LineId) : (s.setClaim r' x).filter m = s.filter m := rfl
@[simp] theorem setClaim_slot (r' : ResourceId) (x : ClaimRec) (j : SlotId) : (s.setClaim r' x).slot j = s.slot j := rfl
@[simp] theorem setClaim_errors (r' : ResourceId) (x : ClaimRec) (q : PortId) : (s.setClaim r' x).errors q = s.errors q := rfl
@[simp] theorem setClaim_entry (r' : ResourceId) (x : ClaimRec) (j : SlotId) : (s.setClaim r' x).entry j = s.entry j := rfl
@[simp] theorem setClaim_body (r' : ResourceId) (x : ClaimRec) (j : SlotId) : (s.setClaim r' x).body j = s.body j := rfl

/-! ## setLine -/

@[simp] theorem setLine_pending (n : LineId) (x : LineRec) : (s.setLine n x).pending = s.pending := rfl
@[simp] theorem setLine_phase (n : LineId) (x : LineRec) : (s.setLine n x).phase = s.phase := rfl
@[simp] theorem setLine_elapsed (n : LineId) (x : LineRec) : (s.setLine n x).elapsed = s.elapsed := rfl
@[simp] theorem setLine_free (n : LineId) (x : LineRec) : (s.setLine n x).free = s.free := rfl
@[simp] theorem setLine_ports (n : LineId) (x : LineRec) : (s.setLine n x).ports = s.ports := rfl
@[simp] theorem setLine_claims (n : LineId) (x : LineRec) : (s.setLine n x).claims = s.claims := rfl
@[simp] theorem setLine_filters (n : LineId) (x : LineRec) : (s.setLine n x).filters = s.filters := rfl
@[simp] theorem setLine_subs (n : LineId) (x : LineRec) : (s.setLine n x).subs = s.subs := rfl
@[simp] theorem setLine_held (n : LineId) (x : LineRec) : (s.setLine n x).held = s.held := rfl
@[simp] theorem setLine_level (n : LineId) (x : LineRec) : (s.setLine n x).level = s.level := rfl
@[simp] theorem setLine_tickPins (n : LineId) (x : LineRec) : (s.setLine n x).tickPins = s.tickPins := rfl
@[simp] theorem setLine_tb (n : LineId) (x : LineRec) : (s.setLine n x).tb = s.tb := rfl
@[simp] theorem setLine_pool (n : LineId) (x : LineRec) : (s.setLine n x).pool = s.pool := rfl
@[simp] theorem setLine_postOrder (n : LineId) (x : LineRec) : (s.setLine n x).postOrder = s.postOrder := rfl
@[simp] theorem setLine_maint (n : LineId) (x : LineRec) : (s.setLine n x).maint = s.maint := rfl
@[simp] theorem setLine_integ (n : LineId) (x : LineRec) : (s.setLine n x).integ = s.integ := rfl
@[simp] theorem setLine_link (n : LineId) (x : LineRec) : (s.setLine n x).link = s.link := rfl
@[simp] theorem setLine_loaded (n : LineId) (x : LineRec) : (s.setLine n x).loaded = s.loaded := rfl
@[simp] theorem setLine_inForce (n : LineId) (x : LineRec) : (s.setLine n x).inForce = s.inForce := rfl
@[simp] theorem setLine_store (n : LineId) (x : LineRec) : (s.setLine n x).store = s.store := rfl
@[simp] theorem setLine_storeBusy (n : LineId) (x : LineRec) : (s.setLine n x).storeBusy = s.storeBusy := rfl
@[simp] theorem setLine_port (n : LineId) (x : LineRec) (q : PortId) : (s.setLine n x).port q = s.port q := rfl
@[simp] theorem setLine_claim (n : LineId) (x : LineRec) (r : ResourceId) : (s.setLine n x).claim r = s.claim r := rfl
@[simp] theorem setLine_filter (n : LineId) (x : LineRec) (m : LineId) : (s.setLine n x).filter m = s.filter m := rfl
@[simp] theorem setLine_slot (n : LineId) (x : LineRec) (j : SlotId) : (s.setLine n x).slot j = s.slot j := rfl
@[simp] theorem setLine_errors (n : LineId) (x : LineRec) (q : PortId) : (s.setLine n x).errors q = s.errors q := rfl
@[simp] theorem setLine_holds (n : LineId) (x : LineRec) (q : PortId) (r : ResourceId) : (s.setLine n x).holds q r = s.holds q r := rfl
@[simp] theorem setLine_entry (n : LineId) (x : LineRec) (j : SlotId) : (s.setLine n x).entry j = s.entry j := rfl
@[simp] theorem setLine_body (n : LineId) (x : LineRec) (j : SlotId) : (s.setLine n x).body j = s.body j := rfl

/-! ## setFilter -/

@[simp] theorem setFilter_pending (n : LineId) (x : Filter) : (s.setFilter n x).pending = s.pending := rfl
@[simp] theorem setFilter_phase (n : LineId) (x : Filter) : (s.setFilter n x).phase = s.phase := rfl
@[simp] theorem setFilter_elapsed (n : LineId) (x : Filter) : (s.setFilter n x).elapsed = s.elapsed := rfl
@[simp] theorem setFilter_free (n : LineId) (x : Filter) : (s.setFilter n x).free = s.free := rfl
@[simp] theorem setFilter_ports (n : LineId) (x : Filter) : (s.setFilter n x).ports = s.ports := rfl
@[simp] theorem setFilter_claims (n : LineId) (x : Filter) : (s.setFilter n x).claims = s.claims := rfl
@[simp] theorem setFilter_lines (n : LineId) (x : Filter) : (s.setFilter n x).lines = s.lines := rfl
@[simp] theorem setFilter_subs (n : LineId) (x : Filter) : (s.setFilter n x).subs = s.subs := rfl
@[simp] theorem setFilter_held (n : LineId) (x : Filter) : (s.setFilter n x).held = s.held := rfl
@[simp] theorem setFilter_level (n : LineId) (x : Filter) : (s.setFilter n x).level = s.level := rfl
@[simp] theorem setFilter_tickPins (n : LineId) (x : Filter) : (s.setFilter n x).tickPins = s.tickPins := rfl
@[simp] theorem setFilter_tb (n : LineId) (x : Filter) : (s.setFilter n x).tb = s.tb := rfl
@[simp] theorem setFilter_pool (n : LineId) (x : Filter) : (s.setFilter n x).pool = s.pool := rfl
@[simp] theorem setFilter_postOrder (n : LineId) (x : Filter) : (s.setFilter n x).postOrder = s.postOrder := rfl
@[simp] theorem setFilter_maint (n : LineId) (x : Filter) : (s.setFilter n x).maint = s.maint := rfl
@[simp] theorem setFilter_integ (n : LineId) (x : Filter) : (s.setFilter n x).integ = s.integ := rfl
@[simp] theorem setFilter_link (n : LineId) (x : Filter) : (s.setFilter n x).link = s.link := rfl
@[simp] theorem setFilter_loaded (n : LineId) (x : Filter) : (s.setFilter n x).loaded = s.loaded := rfl
@[simp] theorem setFilter_inForce (n : LineId) (x : Filter) : (s.setFilter n x).inForce = s.inForce := rfl
@[simp] theorem setFilter_store (n : LineId) (x : Filter) : (s.setFilter n x).store = s.store := rfl
@[simp] theorem setFilter_storeBusy (n : LineId) (x : Filter) : (s.setFilter n x).storeBusy = s.storeBusy := rfl
@[simp] theorem setFilter_port (n : LineId) (x : Filter) (q : PortId) : (s.setFilter n x).port q = s.port q := rfl
@[simp] theorem setFilter_claim (n : LineId) (x : Filter) (r : ResourceId) : (s.setFilter n x).claim r = s.claim r := rfl
@[simp] theorem setFilter_line (n : LineId) (x : Filter) (m : LineId) : (s.setFilter n x).line m = s.line m := rfl
@[simp] theorem setFilter_slot (n : LineId) (x : Filter) (j : SlotId) : (s.setFilter n x).slot j = s.slot j := rfl
@[simp] theorem setFilter_errors (n : LineId) (x : Filter) (q : PortId) : (s.setFilter n x).errors q = s.errors q := rfl
@[simp] theorem setFilter_holds (n : LineId) (x : Filter) (q : PortId) (r : ResourceId) : (s.setFilter n x).holds q r = s.holds q r := rfl
@[simp] theorem setFilter_entry (n : LineId) (x : Filter) (j : SlotId) : (s.setFilter n x).entry j = s.entry j := rfl
@[simp] theorem setFilter_body (n : LineId) (x : Filter) (j : SlotId) : (s.setFilter n x).body j = s.body j := rfl

/-! ## setSlot -/

@[simp] theorem setSlot_pending (i : SlotId) (x : Slot) : (s.setSlot i x).pending = s.pending := rfl
@[simp] theorem setSlot_phase (i : SlotId) (x : Slot) : (s.setSlot i x).phase = s.phase := rfl
@[simp] theorem setSlot_elapsed (i : SlotId) (x : Slot) : (s.setSlot i x).elapsed = s.elapsed := rfl
@[simp] theorem setSlot_free (i : SlotId) (x : Slot) : (s.setSlot i x).free = s.free := rfl
@[simp] theorem setSlot_ports (i : SlotId) (x : Slot) : (s.setSlot i x).ports = s.ports := rfl
@[simp] theorem setSlot_claims (i : SlotId) (x : Slot) : (s.setSlot i x).claims = s.claims := rfl
@[simp] theorem setSlot_lines (i : SlotId) (x : Slot) : (s.setSlot i x).lines = s.lines := rfl
@[simp] theorem setSlot_filters (i : SlotId) (x : Slot) : (s.setSlot i x).filters = s.filters := rfl
@[simp] theorem setSlot_subs (i : SlotId) (x : Slot) : (s.setSlot i x).subs = s.subs := rfl
@[simp] theorem setSlot_held (i : SlotId) (x : Slot) : (s.setSlot i x).held = s.held := rfl
@[simp] theorem setSlot_level (i : SlotId) (x : Slot) : (s.setSlot i x).level = s.level := rfl
@[simp] theorem setSlot_tickPins (i : SlotId) (x : Slot) : (s.setSlot i x).tickPins = s.tickPins := rfl
@[simp] theorem setSlot_tb (i : SlotId) (x : Slot) : (s.setSlot i x).tb = s.tb := rfl
@[simp] theorem setSlot_postOrder (i : SlotId) (x : Slot) : (s.setSlot i x).postOrder = s.postOrder := rfl
@[simp] theorem setSlot_maint (i : SlotId) (x : Slot) : (s.setSlot i x).maint = s.maint := rfl
@[simp] theorem setSlot_integ (i : SlotId) (x : Slot) : (s.setSlot i x).integ = s.integ := rfl
@[simp] theorem setSlot_link (i : SlotId) (x : Slot) : (s.setSlot i x).link = s.link := rfl
@[simp] theorem setSlot_loaded (i : SlotId) (x : Slot) : (s.setSlot i x).loaded = s.loaded := rfl
@[simp] theorem setSlot_inForce (i : SlotId) (x : Slot) : (s.setSlot i x).inForce = s.inForce := rfl
@[simp] theorem setSlot_store (i : SlotId) (x : Slot) : (s.setSlot i x).store = s.store := rfl
@[simp] theorem setSlot_storeBusy (i : SlotId) (x : Slot) : (s.setSlot i x).storeBusy = s.storeBusy := rfl
@[simp] theorem setSlot_port (i : SlotId) (x : Slot) (q : PortId) : (s.setSlot i x).port q = s.port q := rfl
@[simp] theorem setSlot_claim (i : SlotId) (x : Slot) (r : ResourceId) : (s.setSlot i x).claim r = s.claim r := rfl
@[simp] theorem setSlot_line (i : SlotId) (x : Slot) (m : LineId) : (s.setSlot i x).line m = s.line m := rfl
@[simp] theorem setSlot_filter (i : SlotId) (x : Slot) (m : LineId) : (s.setSlot i x).filter m = s.filter m := rfl
@[simp] theorem setSlot_errors (i : SlotId) (x : Slot) (q : PortId) : (s.setSlot i x).errors q = s.errors q := rfl
@[simp] theorem setSlot_holds (i : SlotId) (x : Slot) (q : PortId) (r : ResourceId) : (s.setSlot i x).holds q r = s.holds q r := rfl

/-! ## setTb -/

@[simp] theorem setTb_pending (x : Timebase) : (s.setTb x).pending = s.pending := rfl
@[simp] theorem setTb_phase (x : Timebase) : (s.setTb x).phase = s.phase := rfl
@[simp] theorem setTb_elapsed (x : Timebase) : (s.setTb x).elapsed = s.elapsed := rfl
@[simp] theorem setTb_free (x : Timebase) : (s.setTb x).free = s.free := rfl
@[simp] theorem setTb_ports (x : Timebase) : (s.setTb x).ports = s.ports := rfl
@[simp] theorem setTb_claims (x : Timebase) : (s.setTb x).claims = s.claims := rfl
@[simp] theorem setTb_lines (x : Timebase) : (s.setTb x).lines = s.lines := rfl
@[simp] theorem setTb_filters (x : Timebase) : (s.setTb x).filters = s.filters := rfl
@[simp] theorem setTb_subs (x : Timebase) : (s.setTb x).subs = s.subs := rfl
@[simp] theorem setTb_held (x : Timebase) : (s.setTb x).held = s.held := rfl
@[simp] theorem setTb_level (x : Timebase) : (s.setTb x).level = s.level := rfl
@[simp] theorem setTb_tickPins (x : Timebase) : (s.setTb x).tickPins = s.tickPins := rfl
@[simp] theorem setTb_tb (x : Timebase) : (s.setTb x).tb = x := rfl
@[simp] theorem setTb_pool (x : Timebase) : (s.setTb x).pool = s.pool := rfl
@[simp] theorem setTb_postOrder (x : Timebase) : (s.setTb x).postOrder = s.postOrder := rfl
@[simp] theorem setTb_maint (x : Timebase) : (s.setTb x).maint = s.maint := rfl
@[simp] theorem setTb_integ (x : Timebase) : (s.setTb x).integ = s.integ := rfl
@[simp] theorem setTb_link (x : Timebase) : (s.setTb x).link = s.link := rfl
@[simp] theorem setTb_loaded (x : Timebase) : (s.setTb x).loaded = s.loaded := rfl
@[simp] theorem setTb_inForce (x : Timebase) : (s.setTb x).inForce = s.inForce := rfl
@[simp] theorem setTb_store (x : Timebase) : (s.setTb x).store = s.store := rfl
@[simp] theorem setTb_storeBusy (x : Timebase) : (s.setTb x).storeBusy = s.storeBusy := rfl
@[simp] theorem setTb_port (x : Timebase) (q : PortId) : (s.setTb x).port q = s.port q := rfl
@[simp] theorem setTb_claim (x : Timebase) (r : ResourceId) : (s.setTb x).claim r = s.claim r := rfl
@[simp] theorem setTb_line (x : Timebase) (m : LineId) : (s.setTb x).line m = s.line m := rfl
@[simp] theorem setTb_filter (x : Timebase) (m : LineId) : (s.setTb x).filter m = s.filter m := rfl
@[simp] theorem setTb_slot (x : Timebase) (j : SlotId) : (s.setTb x).slot j = s.slot j := rfl
@[simp] theorem setTb_errors (x : Timebase) (q : PortId) : (s.setTb x).errors q = s.errors q := rfl
@[simp] theorem setTb_holds (x : Timebase) (q : PortId) (r : ResourceId) : (s.setTb x).holds q r = s.holds q r := rfl
@[simp] theorem setTb_entry (x : Timebase) (j : SlotId) : (s.setTb x).entry j = s.entry j := rfl
@[simp] theorem setTb_body (x : Timebase) (j : SlotId) : (s.setTb x).body j = s.body j := rfl

/-! ## setMaint -/

@[simp] theorem setMaint_pending (x : Maint) : (s.setMaint x).pending = s.pending := rfl
@[simp] theorem setMaint_phase (x : Maint) : (s.setMaint x).phase = s.phase := rfl
@[simp] theorem setMaint_elapsed (x : Maint) : (s.setMaint x).elapsed = s.elapsed := rfl
@[simp] theorem setMaint_free (x : Maint) : (s.setMaint x).free = s.free := rfl
@[simp] theorem setMaint_ports (x : Maint) : (s.setMaint x).ports = s.ports := rfl
@[simp] theorem setMaint_claims (x : Maint) : (s.setMaint x).claims = s.claims := rfl
@[simp] theorem setMaint_lines (x : Maint) : (s.setMaint x).lines = s.lines := rfl
@[simp] theorem setMaint_filters (x : Maint) : (s.setMaint x).filters = s.filters := rfl
@[simp] theorem setMaint_subs (x : Maint) : (s.setMaint x).subs = s.subs := rfl
@[simp] theorem setMaint_held (x : Maint) : (s.setMaint x).held = s.held := rfl
@[simp] theorem setMaint_level (x : Maint) : (s.setMaint x).level = s.level := rfl
@[simp] theorem setMaint_tickPins (x : Maint) : (s.setMaint x).tickPins = s.tickPins := rfl
@[simp] theorem setMaint_tb (x : Maint) : (s.setMaint x).tb = s.tb := rfl
@[simp] theorem setMaint_pool (x : Maint) : (s.setMaint x).pool = s.pool := rfl
@[simp] theorem setMaint_postOrder (x : Maint) : (s.setMaint x).postOrder = s.postOrder := rfl
@[simp] theorem setMaint_maint (x : Maint) : (s.setMaint x).maint = x := rfl
@[simp] theorem setMaint_integ (x : Maint) : (s.setMaint x).integ = s.integ := rfl
@[simp] theorem setMaint_link (x : Maint) : (s.setMaint x).link = s.link := rfl
@[simp] theorem setMaint_loaded (x : Maint) : (s.setMaint x).loaded = s.loaded := rfl
@[simp] theorem setMaint_inForce (x : Maint) : (s.setMaint x).inForce = s.inForce := rfl
@[simp] theorem setMaint_store (x : Maint) : (s.setMaint x).store = s.store := rfl
@[simp] theorem setMaint_storeBusy (x : Maint) : (s.setMaint x).storeBusy = s.storeBusy := rfl
@[simp] theorem setMaint_port (x : Maint) (q : PortId) : (s.setMaint x).port q = s.port q := rfl
@[simp] theorem setMaint_claim (x : Maint) (r : ResourceId) : (s.setMaint x).claim r = s.claim r := rfl
@[simp] theorem setMaint_line (x : Maint) (m : LineId) : (s.setMaint x).line m = s.line m := rfl
@[simp] theorem setMaint_filter (x : Maint) (m : LineId) : (s.setMaint x).filter m = s.filter m := rfl
@[simp] theorem setMaint_slot (x : Maint) (j : SlotId) : (s.setMaint x).slot j = s.slot j := rfl
@[simp] theorem setMaint_errors (x : Maint) (q : PortId) : (s.setMaint x).errors q = s.errors q := rfl
@[simp] theorem setMaint_holds (x : Maint) (q : PortId) (r : ResourceId) : (s.setMaint x).holds q r = s.holds q r := rfl
@[simp] theorem setMaint_entry (x : Maint) (j : SlotId) : (s.setMaint x).entry j = s.entry j := rfl
@[simp] theorem setMaint_body (x : Maint) (j : SlotId) : (s.setMaint x).body j = s.body j := rfl

/-! ## setInteg -/

@[simp] theorem setInteg_pending (x : Integrity) : (s.setInteg x).pending = s.pending := rfl
@[simp] theorem setInteg_phase (x : Integrity) : (s.setInteg x).phase = s.phase := rfl
@[simp] theorem setInteg_elapsed (x : Integrity) : (s.setInteg x).elapsed = s.elapsed := rfl
@[simp] theorem setInteg_free (x : Integrity) : (s.setInteg x).free = s.free := rfl
@[simp] theorem setInteg_ports (x : Integrity) : (s.setInteg x).ports = s.ports := rfl
@[simp] theorem setInteg_claims (x : Integrity) : (s.setInteg x).claims = s.claims := rfl
@[simp] theorem setInteg_lines (x : Integrity) : (s.setInteg x).lines = s.lines := rfl
@[simp] theorem setInteg_filters (x : Integrity) : (s.setInteg x).filters = s.filters := rfl
@[simp] theorem setInteg_subs (x : Integrity) : (s.setInteg x).subs = s.subs := rfl
@[simp] theorem setInteg_held (x : Integrity) : (s.setInteg x).held = s.held := rfl
@[simp] theorem setInteg_level (x : Integrity) : (s.setInteg x).level = s.level := rfl
@[simp] theorem setInteg_tickPins (x : Integrity) : (s.setInteg x).tickPins = s.tickPins := rfl
@[simp] theorem setInteg_tb (x : Integrity) : (s.setInteg x).tb = s.tb := rfl
@[simp] theorem setInteg_pool (x : Integrity) : (s.setInteg x).pool = s.pool := rfl
@[simp] theorem setInteg_postOrder (x : Integrity) : (s.setInteg x).postOrder = s.postOrder := rfl
@[simp] theorem setInteg_maint (x : Integrity) : (s.setInteg x).maint = s.maint := rfl
@[simp] theorem setInteg_integ (x : Integrity) : (s.setInteg x).integ = x := rfl
@[simp] theorem setInteg_link (x : Integrity) : (s.setInteg x).link = s.link := rfl
@[simp] theorem setInteg_loaded (x : Integrity) : (s.setInteg x).loaded = s.loaded := rfl
@[simp] theorem setInteg_inForce (x : Integrity) : (s.setInteg x).inForce = s.inForce := rfl
@[simp] theorem setInteg_store (x : Integrity) : (s.setInteg x).store = s.store := rfl
@[simp] theorem setInteg_storeBusy (x : Integrity) : (s.setInteg x).storeBusy = s.storeBusy := rfl
@[simp] theorem setInteg_port (x : Integrity) (q : PortId) : (s.setInteg x).port q = s.port q := rfl
@[simp] theorem setInteg_claim (x : Integrity) (r : ResourceId) : (s.setInteg x).claim r = s.claim r := rfl
@[simp] theorem setInteg_line (x : Integrity) (m : LineId) : (s.setInteg x).line m = s.line m := rfl
@[simp] theorem setInteg_filter (x : Integrity) (m : LineId) : (s.setInteg x).filter m = s.filter m := rfl
@[simp] theorem setInteg_slot (x : Integrity) (j : SlotId) : (s.setInteg x).slot j = s.slot j := rfl
@[simp] theorem setInteg_holds (x : Integrity) (q : PortId) (r : ResourceId) : (s.setInteg x).holds q r = s.holds q r := rfl
@[simp] theorem setInteg_entry (x : Integrity) (j : SlotId) : (s.setInteg x).entry j = s.entry j := rfl
@[simp] theorem setInteg_body (x : Integrity) (j : SlotId) : (s.setInteg x).body j = s.body j := rfl

/-! ## setLink -/

@[simp] theorem setLink_pending (x : Link) : (s.setLink x).pending = s.pending := rfl
@[simp] theorem setLink_phase (x : Link) : (s.setLink x).phase = s.phase := rfl
@[simp] theorem setLink_elapsed (x : Link) : (s.setLink x).elapsed = s.elapsed := rfl
@[simp] theorem setLink_free (x : Link) : (s.setLink x).free = s.free := rfl
@[simp] theorem setLink_ports (x : Link) : (s.setLink x).ports = s.ports := rfl
@[simp] theorem setLink_claims (x : Link) : (s.setLink x).claims = s.claims := rfl
@[simp] theorem setLink_lines (x : Link) : (s.setLink x).lines = s.lines := rfl
@[simp] theorem setLink_filters (x : Link) : (s.setLink x).filters = s.filters := rfl
@[simp] theorem setLink_subs (x : Link) : (s.setLink x).subs = s.subs := rfl
@[simp] theorem setLink_held (x : Link) : (s.setLink x).held = s.held := rfl
@[simp] theorem setLink_level (x : Link) : (s.setLink x).level = s.level := rfl
@[simp] theorem setLink_tickPins (x : Link) : (s.setLink x).tickPins = s.tickPins := rfl
@[simp] theorem setLink_tb (x : Link) : (s.setLink x).tb = s.tb := rfl
@[simp] theorem setLink_pool (x : Link) : (s.setLink x).pool = s.pool := rfl
@[simp] theorem setLink_postOrder (x : Link) : (s.setLink x).postOrder = s.postOrder := rfl
@[simp] theorem setLink_maint (x : Link) : (s.setLink x).maint = s.maint := rfl
@[simp] theorem setLink_integ (x : Link) : (s.setLink x).integ = s.integ := rfl
@[simp] theorem setLink_link (x : Link) : (s.setLink x).link = x := rfl
@[simp] theorem setLink_loaded (x : Link) : (s.setLink x).loaded = s.loaded := rfl
@[simp] theorem setLink_inForce (x : Link) : (s.setLink x).inForce = s.inForce := rfl
@[simp] theorem setLink_store (x : Link) : (s.setLink x).store = s.store := rfl
@[simp] theorem setLink_storeBusy (x : Link) : (s.setLink x).storeBusy = s.storeBusy := rfl
@[simp] theorem setLink_port (x : Link) (q : PortId) : (s.setLink x).port q = s.port q := rfl
@[simp] theorem setLink_claim (x : Link) (r : ResourceId) : (s.setLink x).claim r = s.claim r := rfl
@[simp] theorem setLink_line (x : Link) (m : LineId) : (s.setLink x).line m = s.line m := rfl
@[simp] theorem setLink_filter (x : Link) (m : LineId) : (s.setLink x).filter m = s.filter m := rfl
@[simp] theorem setLink_slot (x : Link) (j : SlotId) : (s.setLink x).slot j = s.slot j := rfl
@[simp] theorem setLink_errors (x : Link) (q : PortId) : (s.setLink x).errors q = s.errors q := rfl
@[simp] theorem setLink_holds (x : Link) (q : PortId) (r : ResourceId) : (s.setLink x).holds q r = s.holds q r := rfl
@[simp] theorem setLink_entry (x : Link) (j : SlotId) : (s.setLink x).entry j = s.entry j := rfl
@[simp] theorem setLink_body (x : Link) (j : SlotId) : (s.setLink x).body j = s.body j := rfl

/-! ## setSubs -/

@[simp] theorem setSubs_pending (x : Vector (Vector EdgeSel 32) 4) : (s.setSubs x).pending = s.pending := rfl
@[simp] theorem setSubs_phase (x : Vector (Vector EdgeSel 32) 4) : (s.setSubs x).phase = s.phase := rfl
@[simp] theorem setSubs_elapsed (x : Vector (Vector EdgeSel 32) 4) : (s.setSubs x).elapsed = s.elapsed := rfl
@[simp] theorem setSubs_free (x : Vector (Vector EdgeSel 32) 4) : (s.setSubs x).free = s.free := rfl
@[simp] theorem setSubs_ports (x : Vector (Vector EdgeSel 32) 4) : (s.setSubs x).ports = s.ports := rfl
@[simp] theorem setSubs_claims (x : Vector (Vector EdgeSel 32) 4) : (s.setSubs x).claims = s.claims := rfl
@[simp] theorem setSubs_lines (x : Vector (Vector EdgeSel 32) 4) : (s.setSubs x).lines = s.lines := rfl
@[simp] theorem setSubs_filters (x : Vector (Vector EdgeSel 32) 4) : (s.setSubs x).filters = s.filters := rfl
@[simp] theorem setSubs_subs (x : Vector (Vector EdgeSel 32) 4) : (s.setSubs x).subs = x := rfl
@[simp] theorem setSubs_held (x : Vector (Vector EdgeSel 32) 4) : (s.setSubs x).held = s.held := rfl
@[simp] theorem setSubs_level (x : Vector (Vector EdgeSel 32) 4) : (s.setSubs x).level = s.level := rfl
@[simp] theorem setSubs_tickPins (x : Vector (Vector EdgeSel 32) 4) : (s.setSubs x).tickPins = s.tickPins := rfl
@[simp] theorem setSubs_tb (x : Vector (Vector EdgeSel 32) 4) : (s.setSubs x).tb = s.tb := rfl
@[simp] theorem setSubs_pool (x : Vector (Vector EdgeSel 32) 4) : (s.setSubs x).pool = s.pool := rfl
@[simp] theorem setSubs_postOrder (x : Vector (Vector EdgeSel 32) 4) : (s.setSubs x).postOrder = s.postOrder := rfl
@[simp] theorem setSubs_maint (x : Vector (Vector EdgeSel 32) 4) : (s.setSubs x).maint = s.maint := rfl
@[simp] theorem setSubs_integ (x : Vector (Vector EdgeSel 32) 4) : (s.setSubs x).integ = s.integ := rfl
@[simp] theorem setSubs_link (x : Vector (Vector EdgeSel 32) 4) : (s.setSubs x).link = s.link := rfl
@[simp] theorem setSubs_loaded (x : Vector (Vector EdgeSel 32) 4) : (s.setSubs x).loaded = s.loaded := rfl
@[simp] theorem setSubs_inForce (x : Vector (Vector EdgeSel 32) 4) : (s.setSubs x).inForce = s.inForce := rfl
@[simp] theorem setSubs_store (x : Vector (Vector EdgeSel 32) 4) : (s.setSubs x).store = s.store := rfl
@[simp] theorem setSubs_storeBusy (x : Vector (Vector EdgeSel 32) 4) : (s.setSubs x).storeBusy = s.storeBusy := rfl
@[simp] theorem setSubs_port (x : Vector (Vector EdgeSel 32) 4) (q : PortId) : (s.setSubs x).port q = s.port q := rfl
@[simp] theorem setSubs_claim (x : Vector (Vector EdgeSel 32) 4) (r : ResourceId) : (s.setSubs x).claim r = s.claim r := rfl
@[simp] theorem setSubs_line (x : Vector (Vector EdgeSel 32) 4) (m : LineId) : (s.setSubs x).line m = s.line m := rfl
@[simp] theorem setSubs_filter (x : Vector (Vector EdgeSel 32) 4) (m : LineId) : (s.setSubs x).filter m = s.filter m := rfl
@[simp] theorem setSubs_slot (x : Vector (Vector EdgeSel 32) 4) (j : SlotId) : (s.setSubs x).slot j = s.slot j := rfl
@[simp] theorem setSubs_errors (x : Vector (Vector EdgeSel 32) 4) (q : PortId) : (s.setSubs x).errors q = s.errors q := rfl
@[simp] theorem setSubs_holds (x : Vector (Vector EdgeSel 32) 4) (q : PortId) (r : ResourceId) : (s.setSubs x).holds q r = s.holds q r := rfl
@[simp] theorem setSubs_entry (x : Vector (Vector EdgeSel 32) 4) (j : SlotId) : (s.setSubs x).entry j = s.entry j := rfl
@[simp] theorem setSubs_body (x : Vector (Vector EdgeSel 32) 4) (j : SlotId) : (s.setSubs x).body j = s.body j := rfl

/-! ## bumpFree -/

@[simp] theorem bumpFree_pending : s.bumpFree.pending = s.pending := rfl
@[simp] theorem bumpFree_phase : s.bumpFree.phase = s.phase := rfl
@[simp] theorem bumpFree_elapsed : s.bumpFree.elapsed = s.elapsed := rfl
@[simp] theorem bumpFree_free : s.bumpFree.free = s.free + 1 := rfl
@[simp] theorem bumpFree_ports : s.bumpFree.ports = s.ports := rfl
@[simp] theorem bumpFree_claims : s.bumpFree.claims = s.claims := rfl
@[simp] theorem bumpFree_lines : s.bumpFree.lines = s.lines := rfl
@[simp] theorem bumpFree_filters : s.bumpFree.filters = s.filters := rfl
@[simp] theorem bumpFree_subs : s.bumpFree.subs = s.subs := rfl
@[simp] theorem bumpFree_held : s.bumpFree.held = s.held := rfl
@[simp] theorem bumpFree_level : s.bumpFree.level = s.level := rfl
@[simp] theorem bumpFree_tickPins : s.bumpFree.tickPins = s.tickPins := rfl
@[simp] theorem bumpFree_tb : s.bumpFree.tb = s.tb := rfl
@[simp] theorem bumpFree_pool : s.bumpFree.pool = s.pool := rfl
@[simp] theorem bumpFree_postOrder : s.bumpFree.postOrder = s.postOrder := rfl
@[simp] theorem bumpFree_maint : s.bumpFree.maint = s.maint := rfl
@[simp] theorem bumpFree_integ : s.bumpFree.integ = s.integ := rfl
@[simp] theorem bumpFree_link : s.bumpFree.link = s.link := rfl
@[simp] theorem bumpFree_loaded : s.bumpFree.loaded = s.loaded := rfl
@[simp] theorem bumpFree_inForce : s.bumpFree.inForce = s.inForce := rfl
@[simp] theorem bumpFree_store : s.bumpFree.store = s.store := rfl
@[simp] theorem bumpFree_storeBusy : s.bumpFree.storeBusy = s.storeBusy := rfl
@[simp] theorem bumpFree_port (q : PortId) : s.bumpFree.port q = s.port q := rfl
@[simp] theorem bumpFree_claim (r : ResourceId) : s.bumpFree.claim r = s.claim r := rfl
@[simp] theorem bumpFree_line (m : LineId) : s.bumpFree.line m = s.line m := rfl
@[simp] theorem bumpFree_filter (m : LineId) : s.bumpFree.filter m = s.filter m := rfl
@[simp] theorem bumpFree_slot (j : SlotId) : s.bumpFree.slot j = s.slot j := rfl
@[simp] theorem bumpFree_errors (q : PortId) : s.bumpFree.errors q = s.errors q := rfl
@[simp] theorem bumpFree_holds (q : PortId) (r : ResourceId) : s.bumpFree.holds q r = s.holds q r := rfl
@[simp] theorem bumpFree_entry (j : SlotId) : s.bumpFree.entry j = s.entry j := rfl
@[simp] theorem bumpFree_body (j : SlotId) : s.bumpFree.body j = s.body j := rfl

/-! ## withPending -/

@[simp] theorem withPending_pending (x : List Instr) : (s.withPending x).pending = x := rfl
@[simp] theorem withPending_phase (x : List Instr) : (s.withPending x).phase = s.phase := rfl
@[simp] theorem withPending_elapsed (x : List Instr) : (s.withPending x).elapsed = s.elapsed := rfl
@[simp] theorem withPending_free (x : List Instr) : (s.withPending x).free = s.free := rfl
@[simp] theorem withPending_ports (x : List Instr) : (s.withPending x).ports = s.ports := rfl
@[simp] theorem withPending_claims (x : List Instr) : (s.withPending x).claims = s.claims := rfl
@[simp] theorem withPending_lines (x : List Instr) : (s.withPending x).lines = s.lines := rfl
@[simp] theorem withPending_filters (x : List Instr) : (s.withPending x).filters = s.filters := rfl
@[simp] theorem withPending_subs (x : List Instr) : (s.withPending x).subs = s.subs := rfl
@[simp] theorem withPending_held (x : List Instr) : (s.withPending x).held = s.held := rfl
@[simp] theorem withPending_level (x : List Instr) : (s.withPending x).level = s.level := rfl
@[simp] theorem withPending_tickPins (x : List Instr) : (s.withPending x).tickPins = s.tickPins := rfl
@[simp] theorem withPending_tb (x : List Instr) : (s.withPending x).tb = s.tb := rfl
@[simp] theorem withPending_pool (x : List Instr) : (s.withPending x).pool = s.pool := rfl
@[simp] theorem withPending_postOrder (x : List Instr) : (s.withPending x).postOrder = s.postOrder := rfl
@[simp] theorem withPending_maint (x : List Instr) : (s.withPending x).maint = s.maint := rfl
@[simp] theorem withPending_integ (x : List Instr) : (s.withPending x).integ = s.integ := rfl
@[simp] theorem withPending_link (x : List Instr) : (s.withPending x).link = s.link := rfl
@[simp] theorem withPending_loaded (x : List Instr) : (s.withPending x).loaded = s.loaded := rfl
@[simp] theorem withPending_inForce (x : List Instr) : (s.withPending x).inForce = s.inForce := rfl
@[simp] theorem withPending_store (x : List Instr) : (s.withPending x).store = s.store := rfl
@[simp] theorem withPending_storeBusy (x : List Instr) : (s.withPending x).storeBusy = s.storeBusy := rfl
@[simp] theorem withPending_port (x : List Instr) (q : PortId) : (s.withPending x).port q = s.port q := rfl
@[simp] theorem withPending_claim (x : List Instr) (r : ResourceId) : (s.withPending x).claim r = s.claim r := rfl
@[simp] theorem withPending_line (x : List Instr) (m : LineId) : (s.withPending x).line m = s.line m := rfl
@[simp] theorem withPending_filter (x : List Instr) (m : LineId) : (s.withPending x).filter m = s.filter m := rfl
@[simp] theorem withPending_slot (x : List Instr) (j : SlotId) : (s.withPending x).slot j = s.slot j := rfl
@[simp] theorem withPending_errors (x : List Instr) (q : PortId) : (s.withPending x).errors q = s.errors q := rfl
@[simp] theorem withPending_holds (x : List Instr) (q : PortId) (r : ResourceId) : (s.withPending x).holds q r = s.holds q r := rfl
@[simp] theorem withPending_entry (x : List Instr) (j : SlotId) : (s.withPending x).entry j = s.entry j := rfl
@[simp] theorem withPending_body (x : List Instr) (j : SlotId) : (s.withPending x).body j = s.body j := rfl

/-! ## The record that an update writes -/

/-- Reading a vector at a place that was written or another. -/
theorem getElem_set_fin {α : Type} {k : Nat} (v : Vector α k) (i j : Fin k) (x : α) :
    (v.set i.val x)[j.val] = if i = j then x else v[j.val] := by
  rw [Vector.getElem_set]; simp [Fin.ext_iff]

@[simp] theorem setPort_port (p q : PortId) (x : Port) : (s.setPort p x).port q = if p = q then x else s.port q :=
  getElem_set_fin ..
@[simp] theorem setClaim_claim (p q : ResourceId) (x : ClaimRec) :
    (s.setClaim p x).claim q = if p = q then x else s.claim q := getElem_set_fin ..
@[simp] theorem setLine_line (p q : LineId) (x : LineRec) : (s.setLine p x).line q = if p = q then x else s.line q :=
  getElem_set_fin ..
@[simp] theorem setFilter_filter (p q : LineId) (x : Filter) :
    (s.setFilter p x).filter q = if p = q then x else s.filter q := getElem_set_fin ..
@[simp] theorem setSlot_slot (p q : SlotId) (x : Slot) : (s.setSlot p x).slot q = if p = q then x else s.slot q :=
  getElem_set_fin ..

theorem setSlot_entry (p q : SlotId) (x : Slot) :
    (s.setSlot p x).entry q = if p = q then x.entry else s.entry q := by
  simp only [State.entry, setSlot_slot]; split <;> rfl

/-- Every port after a record is offered to all four. -/
@[simp] theorem offerAll_port (r : Record) (q : PortId) : (s.offerAll r).port q = (s.port q).enqueue r := by
  simp [State.offerAll, State.port]

/-- A vector is what its places hold. -/
theorem vector_ext_fin {α : Type} {k : Nat} {u v : Vector α k} (h : ∀ i : Fin k, u[i.val] = v[i.val]) : u = v :=
  Vector.ext (fun i hi => h ⟨i, hi⟩)

end Sys2Proof.Machine
end

