-- ==== Sys2Proof/Laws/Queue.lean ====
section
/-! SUPPORT. The admission of a record to a queue: everything it can do, and the law of the queues. -/

namespace Sys2Proof.Machine

/-- A port to which records were offered, one after another. -/
inductive Offered : Port → Port → Prop where
  | same (q : Port) : Offered q q
  | more {q t : Port} (r : Record) (h : Offered q t) : Offered q (t.enqueue r)

theorem Offered.one (q : Port) (r : Record) : Offered q (q.enqueue r) := .more r (.same q)

theorem Offered.trans {a b c : Port} (h : Offered a b) (k : Offered b c) : Offered a c := by
  induction k with
  | same => exact h
  | more r _ ih => exact .more r ih

/-- Is the frame, the select pin, the mask and the FRAME latch as before? -/
def Port.kept (q : Port) : Frame × Bool × Byte × Bool := (q.frame, q.selected, q.mask, q.frameLatch)

theorem enqueue_kept (q : Port) (r : Record) : (q.enqueue r).kept = q.kept := by
  unfold Port.enqueue; split
  · split <;> rfl
  · split <;> rfl

theorem Offered.kept {q t : Port} (h : Offered q t) : t.kept = q.kept := by
  induction h with
  | same => rfl
  | more r _ ih => rw [enqueue_kept, ih]

theorem enqueue_frame (q : Port) (r : Record) : (q.enqueue r).frame = q.frame := congrArg (·.1) (enqueue_kept q r)

theorem isCapture_withLost (r : Record) (n : Byte) : (r.withLost n).isCapture = r.isCapture := by cases r <;> rfl

/-- An admission keeps the law of the queue (R112). -/
theorem enqueue_lawful {q : Port} (h : q.lawful) (r : Record) : (q.enqueue r).lawful := by
  obtain ⟨h40, h32⟩ := h
  have hle : (q.queue.filter Record.isCapture).length ≤ q.queue.length := List.length_filter_le ..
  unfold Port.enqueue Port.lawful
  by_cases hc : r.isCapture = true
  · rw [if_pos hc]
    split
    · refine ⟨by simp; omega, ?_⟩
      simp only [List.filter_append, List.length_append]
      have : (List.filter Record.isCapture [r.withLost q.lost]).length ≤ 1 :=
        Nat.le_trans (List.length_filter_le ..) (by simp)
      omega
    · exact ⟨h40, h32⟩
  · rw [if_neg hc]
    split
    · refine ⟨by simp; omega, ?_⟩
      simpa [List.filter_append, List.filter_cons, hc] using h32
    · exact ⟨h40, h32⟩

theorem Offered.lawful {q t : Port} (h : Offered q t) (hq : q.lawful) : t.lawful := by
  induction h with
  | same => exact hq
  | more r _ ih => exact enqueue_lawful ih r

/-- Records at the head leave: the law stays. -/
theorem lawful_of_sublist {q t : Port} (h : t.queue.Sublist q.queue) (hq : q.lawful) : t.lawful :=
  ⟨Nat.le_trans h.length_le hq.1, Nat.le_trans (h.filter _).length_le hq.2⟩

/-- The law is about the queue alone. -/
theorem lawful_congr {q t : Port} (h : t.queue = q.queue) (hq : q.lawful) : t.lawful :=
  lawful_of_sublist (h ▸ List.Sublist.refl _) hq

theorem offer_port (s : State) (p q : PortId) (r : Record) :
    (s.offer p r).port q = if p = q then (s.port p).enqueue r else s.port q := by
  simp [State.offer]

theorem offer_offered (s : State) (p q : PortId) (r : Record) : Offered (s.port q) ((s.offer p r).port q) := by
  rw [offer_port]; split
  · rename_i h; exact h ▸ Offered.one ..
  · exact .same _

theorem offerAll_offered (s : State) (r : Record) (q : PortId) : Offered (s.port q) ((s.offerAll r).port q) := by
  rw [offerAll_port]; exact Offered.one ..

end Sys2Proof.Machine
end

