-- ==== Sys2Proof/Laws/Schedule.lean ====
section
/-! SUPPORT. What the operations of the action schedule and of pool integrity can do, said once: they offer records,
move scheduled levels, change or free slots without a new owner or line, count errors, and let the hub mode go from
DRAINING to DIRECT. Everything else stands. -/

namespace Sys2Proof.Machine

/-- What no operation of the schedule changes. -/
def State.fixed (s : State) :=
  (s.pending, s.phase, s.elapsed, s.claims, s.filters, s.subs, s.held, s.level, s.tb, s.link, s.loaded, s.inForce,
    s.store, s.storeBusy, s.postOrder, s.maint.check, s.maint.drainLimit, s.tickPins)

/-- What the operations of the schedule can do to a state. -/
structure Scheduled (s t : State) : Prop where
  fixed : t.fixed = s.fixed
  ports : ∀ p, Offered (s.port p) (t.port p)
  lines : ∀ n, ∃ l, t.line n = { s.line n with scheduled := l }
  entries : ∀ i h', t.entry i = some h' → ∃ h, s.entry i = some h ∧ h'.owner = h.owner ∧ h'.line = h.line
  maint : t.maint = s.maint ∨
    (s.maint.mode = .draining ∧ t.maint = { s.maint with mode := .direct, drainDeadline := none })

namespace Scheduled

variable {s t u : State}

theorem refl (s : State) : Scheduled s s :=
  ⟨rfl, fun _ => .same _, fun _ => ⟨_, rfl⟩, fun _ h' k => ⟨h', k, rfl, rfl⟩, .inl rfl⟩

theorem trans (h : Scheduled s t) (k : Scheduled t u) : Scheduled s u where
  fixed := k.fixed.trans h.fixed
  ports p := (h.ports p).trans (k.ports p)
  lines n := by
    obtain ⟨a, ha⟩ := h.lines n
    obtain ⟨b, hb⟩ := k.lines n
    exact ⟨b, by rw [hb, ha]⟩
  entries i h' e := by
    obtain ⟨h1, e1, o1, l1⟩ := k.entries i h' e
    obtain ⟨h0, e0, o0, l0⟩ := h.entries i h1 e1
    exact ⟨h0, e0, o1.trans o0, l1.trans l0⟩
  maint := by
    rcases h.maint with a | ⟨a, b⟩
    · rcases k.maint with c | ⟨c, d⟩
      · exact .inl (c.trans a)
      · exact .inr ⟨a ▸ c, a ▸ d⟩
    · rcases k.maint with c | ⟨c, d⟩
      · exact .inr ⟨a, c.trans b⟩
      · rw [b] at c; cases c

theorem mode (h : Scheduled s t) : t.maint.mode = s.maint.mode ∨ (s.maint.mode = .draining ∧ t.maint.mode = .direct) := by
  rcases h.maint with a | ⟨a, b⟩
  · exact .inl (by rw [a])
  · exact .inr ⟨a, by rw [b]⟩

theorem pending (h : Scheduled s t) : t.pending = s.pending := congrArg (·.1) h.fixed
theorem phase (h : Scheduled s t) : t.phase = s.phase := congrArg (·.2.1) h.fixed
theorem elapsed (h : Scheduled s t) : t.elapsed = s.elapsed := congrArg (·.2.2.1) h.fixed
theorem claims (h : Scheduled s t) : t.claims = s.claims := congrArg (·.2.2.2.1) h.fixed
theorem filters (h : Scheduled s t) : t.filters = s.filters := congrArg (·.2.2.2.2.1) h.fixed
theorem subs (h : Scheduled s t) : t.subs = s.subs := congrArg (·.2.2.2.2.2.1) h.fixed
theorem tb (h : Scheduled s t) : t.tb = s.tb := congrArg (·.2.2.2.2.2.2.2.2.1) h.fixed
theorem link (h : Scheduled s t) : t.link = s.link := congrArg (·.2.2.2.2.2.2.2.2.2.1) h.fixed
theorem loaded (h : Scheduled s t) : t.loaded = s.loaded := congrArg (·.2.2.2.2.2.2.2.2.2.2.1) h.fixed
theorem store (h : Scheduled s t) : t.store = s.store := congrArg (·.2.2.2.2.2.2.2.2.2.2.2.2.1) h.fixed
theorem storeBusy (h : Scheduled s t) : t.storeBusy = s.storeBusy := congrArg (·.2.2.2.2.2.2.2.2.2.2.2.2.2.1) h.fixed
theorem check (h : Scheduled s t) : t.maint.check = s.maint.check :=
  congrArg (·.2.2.2.2.2.2.2.2.2.2.2.2.2.2.2.1) h.fixed

theorem claim (h : Scheduled s t) (r : ResourceId) : t.claim r = s.claim r := by simp [State.claim, h.claims]
theorem holds (h : Scheduled s t) (p : PortId) (r : ResourceId) : t.holds p r = s.holds p r := by
  simp [State.holds, h.claim]
theorem filter (h : Scheduled s t) (n : LineId) : t.filter n = s.filter n := by simp [State.filter, h.filters]

theorem lineMode (h : Scheduled s t) (n : LineId) : (t.line n).mode = (s.line n).mode := by
  obtain ⟨l, hl⟩ := h.lines n; rw [hl]

theorem entry_none (h : Scheduled s t) {i : SlotId} (e : s.entry i = none) : t.entry i = none := by
  cases k : t.entry i with
  | none => rfl
  | some h' => obtain ⟨_, e', _⟩ := h.entries i h' k; rw [e] at e'; cases e'

/-- A fold of steps of the schedule is one. -/
theorem foldl {α : Type} {f : State → α → State} (hf : ∀ s a, Scheduled s (f s a)) (l : List α) (s : State) :
    Scheduled s (l.foldl f s) := by
  induction l generalizing s with
  | nil => exact refl s
  | cons a t ih => exact (hf s a).trans (ih _)

end Scheduled

open Scheduled (refl trans foldl)

/-! ## The primitives -/

theorem offer_scheduled (s : State) (p : PortId) (r : Record) : Scheduled s (s.offer p r) :=
  ⟨rfl, fun q => offer_offered s p q r, fun _ => ⟨_, rfl⟩, fun _ h' k => ⟨h', k, rfl, rfl⟩, .inl rfl⟩

theorem offerAll_scheduled (s : State) (r : Record) : Scheduled s (s.offerAll r) :=
  ⟨rfl, offerAll_offered s r, fun _ => ⟨_, rfl⟩, fun _ h' k => ⟨h', k, rfl, rfl⟩, .inl rfl⟩

theorem setScheduled_scheduled (s : State) (n : LineId) (l : Level) : Scheduled s (s.setScheduled n l) :=
  ⟨rfl, fun _ => .same _, fun m => by
    unfold State.setScheduled
    rw [setLine_line]; split
    · rename_i h; exact ⟨l, by rw [h]⟩
    · exact ⟨_, rfl⟩, fun _ h' k => ⟨h', k, rfl, rfl⟩, .inl rfl⟩

theorem setInteg_scheduled (s : State) (x : Integrity) : Scheduled s (s.setInteg x) :=
  ⟨rfl, fun _ => .same _, fun _ => ⟨_, rfl⟩, fun _ h' k => ⟨h', k, rfl, rfl⟩, .inl rfl⟩

theorem bumpFree_scheduled (s : State) : Scheduled s s.bumpFree :=
  ⟨rfl, fun _ => .same _, fun _ => ⟨_, rfl⟩, fun _ h' k => ⟨h', k, rfl, rfl⟩, .inl rfl⟩

/-- A slot is rewritten with no entry, or with the entry it had, under the same owner and line. -/
theorem setSlot_scheduled (s : State) (i : SlotId) (x : Slot)
    (hx : ∀ h', x.entry = some h' → ∃ h, s.entry i = some h ∧ h'.owner = h.owner ∧ h'.line = h.line) :
    Scheduled s (s.setSlot i x) :=
  ⟨rfl, fun _ => .same _, fun _ => ⟨_, rfl⟩, fun j h' k => by
    rw [setSlot_entry] at k
    split at k
    · rename_i e; subst e; exact hx h' k
    · exact ⟨h', k, rfl, rfl⟩, .inl rfl⟩

theorem freeSlot_scheduled (s : State) (i : SlotId) : Scheduled s (s.setSlot i Slot.free) :=
  setSlot_scheduled s i _ (fun _ h => nomatch h)

theorem setEntry_scheduled {s : State} {i : SlotId} {h0 h : Header} (e : s.entry i = some h0)
    (ho : h.owner = h0.owner) (hl : h.line = h0.line) : Scheduled s (s.setEntry i h) :=
  setSlot_scheduled s i _ (fun h' k => by cases k; exact ⟨h0, e, ho, hl⟩)

theorem setStatus_scheduled {s : State} {i : SlotId} {h0 h : Header} (e : s.entry i = some h0)
    (ho : h.owner = h0.owner) (hl : h.line = h0.line) (t : EntryStatus) : Scheduled s (s.setStatus i h t) :=
  setEntry_scheduled e ho hl

theorem goDirect_scheduled (s : State) (h : s.maint.mode = .draining) : Scheduled s s.goDirect :=
  ⟨rfl, fun p => offerAll_offered (s.setMaint _) _ p, fun _ => ⟨_, rfl⟩, fun _ h' k => ⟨h', k, rfl, rfl⟩,
    .inr ⟨h, rfl⟩⟩

theorem reportDrain_scheduled (s : State) : Scheduled s s.reportDrain := by
  unfold State.reportDrain; split
  · rename_i h; exact goDirect_scheduled s h.1
  · exact refl s

/-! ## Completion and withdrawal -/

theorem complete_scheduled (s : State) (i : SlotId) (o : EntryOutcome) : Scheduled s (s.complete i o) := by
  unfold State.complete; split
  · exact refl s
  · exact ((freeSlot_scheduled s i).trans (offer_scheduled ..)).trans (reportDrain_scheduled _)

/-- A completed slot is FREE. -/
theorem complete_entry (s : State) (i : SlotId) (o : EntryOutcome) : (s.complete i o).entry i = none := by
  unfold State.complete; split
  · assumption
  · refine Scheduled.entry_none ((offer_scheduled ..).trans (reportDrain_scheduled _)) ?_
    rw [setSlot_entry, if_pos rfl]; rfl

theorem cutPulse_scheduled (s : State) (h : Header) : Scheduled s (s.cutPulse h) := by
  unfold State.cutPulse; split
  · exact setScheduled_scheduled ..
  · exact refl s

theorem withdraw_scheduled (s : State) (i : SlotId) (o : EntryOutcome) : Scheduled s (s.withdraw i o) := by
  unfold State.withdraw; split
  · exact refl s
  · exact (cutPulse_scheduled ..).trans (complete_scheduled ..)

theorem withdraw_entry (s : State) (i : SlotId) (o : EntryOutcome) : (s.withdraw i o).entry i = none := by
  unfold State.withdraw; split
  · assumption
  · exact complete_entry ..

theorem withdrawAll_scheduled (s : State) (l : List SlotId) (o : EntryOutcome) : Scheduled s (s.withdrawAll l o) :=
  foldl (fun s i => withdraw_scheduled s i o) l s

theorem withdrawAll_entry (s : State) (l : List SlotId) (o : EntryOutcome) (i : SlotId) (hi : i ∈ l) :
    (s.withdrawAll l o).entry i = none := by
  unfold State.withdrawAll
  induction l generalizing s with
  | nil => cases hi
  | cons j t ih =>
    rcases List.mem_cons.1 hi with h | h
    · subst h
      exact (withdrawAll_scheduled (s.withdraw i o) t o).entry_none (withdraw_entry ..)
    · exact ih _ h

/-! ## The check of a slot -/

theorem setErrors_scheduled (s : State) (p : PortId) (c : ErrorCounters) : Scheduled s (s.setErrors p c) :=
  setInteg_scheduled ..

theorem chargeCorrected_scheduled (s : State) (p : PortId) (i : SlotId) : Scheduled s (s.chargeCorrected p i) := by
  unfold State.chargeCorrected; dsimp only; split
  · exact (offer_scheduled ..).trans (setErrors_scheduled ..)
  · exact setErrors_scheduled ..

theorem chargeUncorrectable_scheduled (s : State) (p : PortId) : Scheduled s (s.chargeUncorrectable p) :=
  setErrors_scheduled ..

theorem noteError_scheduled (s : State) (i : SlotId) (v : Severity) (o : Option PortId) :
    Scheduled s (s.noteError i v o) := setInteg_scheduled ..

theorem correct_scheduled (s : State) (i : SlotId) (b : Body) : Scheduled s (s.correct i b) := by
  have h0 : Scheduled s (s.setSlot i { s.slot i with body := b, wrongBits := [] }) :=
    setSlot_scheduled s i _ (fun h' k => ⟨h', k, rfl, rfl⟩)
  unfold State.correct; dsimp only; split
  · exact h0.trans (noteError_scheduled ..)
  · exact (h0.trans (chargeCorrected_scheduled ..)).trans (noteError_scheduled ..)

theorem loseBody_scheduled (s : State) (i : SlotId) : Scheduled s (s.loseBody i) := by
  unfold State.loseBody; split
  · exact (freeSlot_scheduled s i).trans (noteError_scheduled ..)
  · exact (((withdraw_scheduled ..).trans (freeSlot_scheduled ..)).trans (chargeUncorrectable_scheduled ..)).trans
      (noteError_scheduled ..)

theorem checkSlot_scheduled (s : State) (i : SlotId) : Scheduled s (s.checkSlot i) := by
  unfold State.checkSlot; dsimp only; split
  · exact refl s
  · split
    · exact (setSlot_scheduled s i { s.slot i with body := bodyRead (s.slot i) s.free, wrongBits := [] }
        (fun h' k => ⟨h', k, rfl, rfl⟩)).trans (bumpFree_scheduled _)
    · exact (correct_scheduled ..).trans (bumpFree_scheduled _)
    · exact (loseBody_scheduled ..).trans (bumpFree_scheduled _)

/-- A slot without a changed bit is read as it stands. -/
theorem checkSlot_clean {s : State} {i : SlotId} (h : (s.slot i).wrongBits = []) : s.checkSlot i = s := by
  unfold State.checkSlot; simp only [h]

/-! ## Application -/

variable {s : State} {i : SlotId} {h0 h : Header}

theorem finish_scheduled (e : s.entry i = some h0) (ho : h.owner = h0.owner) (hl : h.line = h0.line) (t : Timeliness) :
    Scheduled s (s.finish i h t) := by
  unfold State.finish; split
  · exact setEntry_scheduled e ho hl
  · exact complete_scheduled ..

theorem missAnchor_scheduled (e : s.entry i = some h0) (ho : h.owner = h0.owner) (hl : h.line = h0.line) :
    Scheduled s (s.missAnchor i h) := setEntry_scheduled e ho hl

theorem applyLevel_scheduled (e : s.entry i = some h0) (ho : h.owner = h0.owner) (hl : h.line = h0.line) (l : Level)
    (t : Timeliness) : Scheduled s (s.applyLevel i h l t) :=
  (setScheduled_scheduled ..).trans (finish_scheduled (s := s.setScheduled h.line l) e ho hl t)

theorem beginTrainPulse_scheduled (e : s.entry i = some h0) (ho : h.owner = h0.owner) (hl : h.line = h0.line) (r : Run)
    (t : TrainRun) (b : Nat) : Scheduled s (s.beginTrainPulse i h r t b) := by
  unfold State.beginTrainPulse; dsimp only; split
  · exact (setScheduled_scheduled s h.line ((activeLevel (s.body i).action).getD .low)).trans
      (setStatus_scheduled (s := s.setScheduled h.line _) (h0 := h0) e ho hl _)
  · exact (setScheduled_scheduled s h.line ((activeLevel (s.body i).action).getD .low)).trans
      (setStatus_scheduled (s := s.setScheduled h.line _) (h0 := h0) (h := { h with countA := sat16 h.countA }) e ho hl
        _)

theorem applyEntry_scheduled (e : s.entry i = some h0) (ho : h.owner = h0.owner) (hl : h.line = h0.line)
    (t : Timeliness) : Scheduled s (s.applyEntry i h t) := by
  unfold State.applyEntry; split
  · exact applyLevel_scheduled e ho hl _ _
  · exact applyLevel_scheduled e ho hl _ _
  · exact applyLevel_scheduled e ho hl _ _
  · exact (setStatus_scheduled e ho hl _).trans (setScheduled_scheduled ..)
  · exact beginTrainPulse_scheduled e ho hl _ _ _

theorem collide_scheduled (e : s.entry i = some h0) (ho : h.owner = h0.owner) (hl : h.line = h0.line) :
    Scheduled s (s.collide i h) := by
  unfold State.collide; split
  · exact missAnchor_scheduled e ho hl
  · exact complete_scheduled ..

theorem defer_scheduled (e : s.entry i = some h0) (ho : h.owner = h0.owner) (hl : h.line = h0.line) :
    Scheduled s (s.defer i h) := setStatus_scheduled e ho hl _

theorem arrive_scheduled (s : State) (i : SlotId) (t : Timeliness) : Scheduled s (s.arrive i t) := by
  unfold State.arrive; dsimp only; split
  · exact checkSlot_scheduled ..
  · rename_i h e
    refine (checkSlot_scheduled s i).trans ?_
    split
    · exact defer_scheduled e rfl rfl
    · split
      · exact collide_scheduled e rfl rfl
      · exact applyEntry_scheduled e rfl rfl _

theorem handleLate_scheduled (s : State) (i : SlotId) : Scheduled s (s.handleLate i) := by
  unfold State.handleLate; dsimp only; split
  · exact checkSlot_scheduled ..
  · rename_i h e
    refine (checkSlot_scheduled s i).trans ?_
    split
    · exact arrive_scheduled ..
    · split
      · exact missAnchor_scheduled e rfl rfl
      · exact complete_scheduled ..

theorem treatPending_scheduled (s : State) (i : SlotId) : Scheduled s (s.treatPending i) := by
  unfold State.treatPending; split
  · exact refl s
  · split
    · exact refl s
    · exact arrive_scheduled ..
    · exact handleLate_scheduled ..

/-! ## Arming, advances, re-examination -/

theorem armEntry_scheduled (s : State) (i : SlotId) (c : Count) : Scheduled s (s.armEntry i c) := by
  unfold State.armEntry; dsimp only; split
  · exact checkSlot_scheduled ..
  · rename_i h e
    exact ((checkSlot_scheduled s i).trans (setStatus_scheduled e rfl rfl _)).trans (treatPending_scheduled ..)

theorem reportEdge_scheduled (s : State) (n : AnyLine) (e : Edge) (c : Count) : Scheduled s (s.reportEdge n e c) :=
  foldl (fun s i => armEntry_scheduled s i c) _ s

theorem arriveAll_scheduled (s : State) (l : List SlotId) : Scheduled s (s.arriveAll l) :=
  foldl (fun s i => by split <;> [exact arrive_scheduled ..; exact refl s]) l s

theorem reexamine_scheduled (s : State) (l : List SlotId) : Scheduled s (s.reexamine l) :=
  foldl (fun s i => treatPending_scheduled s i) l s

/-! ## Pulse ends and boundaries -/

theorem afterPulse_scheduled (e : s.entry i = some h0) (ho : h.owner = h0.owner) (hl : h.line = h0.line) (r : Run) :
    Scheduled s (s.afterPulse i h r) := by
  unfold State.afterPulse; split
  · exact finish_scheduled e ho hl _
  · split
    · split
      · exact setStatus_scheduled e ho hl _
      · exact setStatus_scheduled e ho hl _
    · exact finish_scheduled e ho hl _

theorem endPulse_scheduled (s : State) (i : SlotId) : Scheduled s (s.endPulse i) := by
  unfold State.endPulse; dsimp only; split
  · exact checkSlot_scheduled ..
  · rename_i h e
    refine (checkSlot_scheduled s i).trans ?_
    split
    · exact refl _
    · exact ((setScheduled_scheduled ..).trans
        (afterPulse_scheduled (s := (s.checkSlot i).setScheduled _ _) e rfl rfl _)).trans (reportDrain_scheduled _)

theorem skipPulse_scheduled (e : s.entry i = some h0) (ho : h.owner = h0.owner) (hl : h.line = h0.line) (r : Run)
    (t : TrainRun) (b : Nat) : Scheduled s (s.skipPulse i h r t b) := by
  unfold State.skipPulse; dsimp only; split
  · exact setStatus_scheduled e ho hl _
  · exact setStatus_scheduled (h := { h with countB := sat16 h.countB }) e ho hl _

theorem trainAt_scheduled (s : State) (i : SlotId) (b : Nat) : Scheduled s (s.trainAt i b) := by
  unfold State.trainAt; dsimp only; split
  · exact checkSlot_scheduled ..
  · rename_i h e
    refine (checkSlot_scheduled s i).trans ?_
    split
    · split
      · exact beginTrainPulse_scheduled e rfl rfl _ _ _
      · exact refl _
    · split
      · exact skipPulse_scheduled e rfl rfl _ _ _
      · exact refl _
    · exact refl _
    · exact refl _
    · exact refl _

/-! ## Firing held and the return to RUN -/

theorem suspendBetween_entry (x : Slot) (h' : Header) (e : x.suspendBetween.entry = some h') :
    ∃ h, x.entry = some h ∧ h'.owner = h.owner ∧ h'.line = h.line := by
  unfold Slot.suspendBetween at e
  split at e
  · exact ⟨h', e, rfl, rfl⟩
  · rename_i h k
    split at e
    · split at e
      · exact ⟨h', e, rfl, rfl⟩
      · cases e; exact ⟨h, k, rfl, rfl⟩
    all_goals exact ⟨h', e, rfl, rfl⟩

theorem suspendTrains_slot (s : State) (i : SlotId) : s.suspendTrains.slot i = (s.slot i).suspendBetween := by
  simp [State.suspendTrains, State.slot]

theorem suspendTrains_scheduled (s : State) : Scheduled s s.suspendTrains :=
  ⟨rfl, fun _ => .same _, fun _ => ⟨_, rfl⟩, fun j h' k => by
    unfold State.entry at k
    rw [suspendTrains_slot] at k
    exact suspendBetween_entry _ _ k, .inl rfl⟩

theorem drainCut_scheduled (s : State) (i : SlotId) : Scheduled s (s.drainCut i) := by
  unfold State.drainCut; split
  · exact refl s
  · rename_i h e
    split
    · exact refl s
    · split
      · split
        · exact withdraw_scheduled ..
        · refine ((cutPulse_scheduled s h).trans
            (setStatus_scheduled (s := s.cutPulse h) (h0 := h) ?_ rfl rfl _)).trans (reportDrain_scheduled _)
          unfold State.cutPulse; split
          · exact e
          · exact e
      · exact refl s

theorem drainExpire_scheduled (s : State) : Scheduled s s.drainExpire :=
  (foldl (fun s i => drainCut_scheduled s i) _ s).trans (reportDrain_scheduled _)

theorem resumeTrain_scheduled (s : State) (i : SlotId) : Scheduled s (s.resumeTrain i) := by
  unfold State.resumeTrain; dsimp only; split
  · exact checkSlot_scheduled ..
  · rename_i h e
    refine (checkSlot_scheduled s i).trans ?_
    split
    · exact refl _
    · split
      · exact refl _
      · split
        · split
          · exact beginTrainPulse_scheduled e rfl rfl _ _ _
          · exact setStatus_scheduled e rfl rfl _
        · exact refl _

theorem finishTrain_scheduled (s : State) (i : SlotId) : Scheduled s (s.finishTrain i) := by
  unfold State.finishTrain; dsimp only; split
  · exact checkSlot_scheduled ..
  · rename_i h e
    refine (checkSlot_scheduled s i).trans ?_
    split
    · exact refl _
    · split
      · exact refl _
      · split
        · exact refl _
        · exact finish_scheduled e rfl rfl _

theorem catchUp_scheduled (s : State) : Scheduled s s.catchUp :=
  ((foldl (fun s i => handleLate_scheduled s i) _ s).trans (foldl (fun s i => resumeTrain_scheduled s i) _ _)).trans
    (foldl (fun s i => finishTrain_scheduled s i) _ _)

end Sys2Proof.Machine
end

