-- ==== Sys2Proof/Laws/Lines.lean ====
section
/-! SUPPORT. What the operations of the line unit and of the line check can do, said once: they change line records and
the filters that follow them; the end of a check also changes the check state and offers a record. -/

namespace Sys2Proof.Machine

/-- What no change of a line record reaches. -/
def State.unlined (s : State) :=
  (s.pending, s.phase, s.elapsed, s.ports, s.claims, s.subs, s.held, s.level, s.tb, s.pool, s.postOrder, s.maint,
    s.integ, s.link, s.loaded, s.inForce, s.store, s.storeBusy,
    s.tickPins)

section
variable {s t : State} (h : t.unlined = s.unlined)
include h
theorem unlined_pending : t.pending = s.pending := congrArg (·.1) h
theorem unlined_phase : t.phase = s.phase := congrArg (·.2.1) h
theorem unlined_elapsed : t.elapsed = s.elapsed := congrArg (·.2.2.1) h
theorem unlined_ports : t.ports = s.ports := congrArg (·.2.2.2.1) h
theorem unlined_claims : t.claims = s.claims := congrArg (·.2.2.2.2.1) h
theorem unlined_held : t.held = s.held := congrArg (·.2.2.2.2.2.2.1) h
theorem unlined_level : t.level = s.level := congrArg (·.2.2.2.2.2.2.2.1) h
theorem unlined_pool : t.pool = s.pool := congrArg (·.2.2.2.2.2.2.2.2.2.1) h
theorem unlined_maint : t.maint = s.maint := congrArg (·.2.2.2.2.2.2.2.2.2.2.2.1) h
theorem unlined_loaded : t.loaded = s.loaded := congrArg (·.2.2.2.2.2.2.2.2.2.2.2.2.2.2.1) h
theorem unlined_store : t.store = s.store := congrArg (·.2.2.2.2.2.2.2.2.2.2.2.2.2.2.2.2.1) h
theorem unlined_port (p : PortId) : t.port p = s.port p := by simp [State.port, unlined_ports h]
theorem unlined_claim (r : ResourceId) : t.claim r = s.claim r := by simp [State.claim, unlined_claims h]
theorem unlined_entry (i : SlotId) : t.entry i = s.entry i := by simp [State.entry, State.slot, unlined_pool h]
theorem unlined_holds (p : PortId) (r : ResourceId) : t.holds p r = s.holds p r := by
  simp [State.holds, unlined_claim h]
end

/-! ## One line -/

theorem changeLine_unlined (s : State) (n : LineId) (x : LineRec) : (s.changeLine n x).unlined = s.unlined := by
  unfold State.changeLine; dsimp only; split
  · rfl
  · split <;> rfl

theorem changeLine_line (s : State) (n m : LineId) (x : LineRec) :
    (s.changeLine n x).line m = if n = m then x else s.line m := by
  have : (s.setLine n x).line m = if n = m then x else s.line m := setLine_line ..
  unfold State.changeLine; dsimp only; split
  · exact this
  · split
    · exact this
    · exact this

/-- The filter of another line stands. -/
theorem changeLine_filter_ne (s : State) (n m : LineId) (x : LineRec) (h : n ≠ m) :
    (s.changeLine n x).filter m = s.filter m := by
  unfold State.changeLine State.clearFilter State.restart; dsimp only; split
  · simp [h]
  · split <;> simp [h]

/-- The filter of the line itself: cleared in OFF, restarted when the line leaves OFF or its filter length changes, and
otherwise as it was (R2, R9, R14, R102). -/
theorem changeLine_filter (s : State) (n : LineId) (x : LineRec) :
    (s.changeLine n x).filter n =
      if x.mode = .off then { s.filter n with filtered := .low, run := none }
      else if (s.line n).mode = .off ∨ (s.line n).filterLen ≠ x.filterLen then
        ⟨(s.setLine n x).raw n, none, if (s.line n).mode = .off then (s.setLine n x).raw n else (s.filter n).sampled⟩
      else s.filter n := by
  unfold State.changeLine State.clearFilter State.restart; dsimp only
  split
  · simp
  · split
    · by_cases h : (s.line n).mode = .off <;> simp [h]
    · simp

theorem park_unlined (s : State) (n : LineId) : (s.park n).unlined = s.unlined := changeLine_unlined ..

/-- A parked line: the mode its park mode gives and no override (R11). -/
theorem park_line (s : State) (n m : LineId) :
    (s.park n).line m =
      if n = m then { s.line n with mode := (s.line n).park.mode, override := none, saved := none } else s.line m :=
  changeLine_line ..

theorem enterTest_unlined (s : State) (n : LineId) : (s.enterTest n).unlined = s.unlined := changeLine_unlined ..

theorem restoreLine_unlined (s : State) (p : PortId) (n : LineId) : (s.restoreLine p n).unlined = s.unlined := by
  unfold State.restoreLine; dsimp only; split
  · split
    · exact changeLine_unlined ..
    · exact park_unlined ..
    · exact park_unlined ..
  · rfl

/-- Only a line in TEST is restored (R12). -/
theorem restoreLine_line (s : State) (p : PortId) (n m : LineId) (h : (s.line m).mode ≠ .test) :
    (s.restoreLine p n).line m = s.line m := by
  unfold State.restoreLine; dsimp only; split
  · rename_i k
    have hn : n ≠ m := fun e => h (e ▸ k)
    split
    · rw [changeLine_line, if_neg hn]
    · rw [park_line, if_neg hn]
    · rw [park_line, if_neg hn]
  · rfl

/-! ## All lines -/

theorem foldl_unlined {α : Type} {f : State → α → State} (hf : ∀ s a, (f s a).unlined = s.unlined) (l : List α)
    (s : State) : (l.foldl f s).unlined = s.unlined := by
  induction l generalizing s with
  | nil => rfl
  | cons a t ih => exact (ih _).trans (hf s a)

theorem restoreLines_unlined (s : State) (p : PortId) : (s.restoreLines p).unlined = s.unlined :=
  foldl_unlined (fun s n => restoreLine_unlined s p n) _ s

theorem restoreLines_line (s : State) (p : PortId) (m : LineId) (h : (s.line m).mode ≠ .test) :
    (s.restoreLines p).line m = s.line m := by
  unfold State.restoreLines
  generalize allLines = l
  induction l generalizing s with
  | nil => rfl
  | cons a t ih =>
    have e := restoreLine_line s p a m h
    exact (ih _ (e ▸ h)).trans e

/-! ## The end of a check -/

/-- What the end of a check leaves (R12, R136, R137). -/
def State.unchecked (s : State) :=
  (s.pending, s.phase, s.elapsed, s.claims, s.subs, s.held, s.level, s.tb, s.pool, s.postOrder, s.maint.mode,
    s.maint.drainDeadline, s.maint.drainLimit, s.integ, s.link, s.loaded, s.inForce, s.store, s.storeBusy,
    s.tickPins)

theorem unchecked_of_unlined {s t : State} (h : t.unlined = s.unlined) : t.unchecked = s.unchecked := by
  simp only [State.unlined, Prod.mk.injEq] at h
  simp only [State.unchecked, h]

theorem endCheck_unchecked (s : State) (p : PortId) (r : CheckResult) (b : Bool) :
    (s.endCheck p r b).unchecked = s.unchecked := by
  have h := unchecked_of_unlined (restoreLines_unlined s p)
  unfold State.endCheck
  generalize s.restoreLines p = t at h
  cases b <;> exact h

theorem endCheck_line (s : State) (p : PortId) (r : CheckResult) (b : Bool) (m : LineId)
    (h : (s.line m).mode ≠ .test) : (s.endCheck p r b).line m = s.line m := by
  have e := restoreLines_line s p m h
  unfold State.endCheck
  generalize s.restoreLines p = t at e
  cases b <;> exact e

theorem endCheck_check (s : State) (p : PortId) (r : CheckResult) (b : Bool) :
    (s.endCheck p r b).maint.check = .finished r := by
  unfold State.endCheck
  generalize s.restoreLines p = t
  cases b <;> rfl

theorem endCheck_offered (s : State) (p : PortId) (r : CheckResult) (b : Bool) (q : PortId) :
    Offered (s.port q) ((s.endCheck p r b).port q) := by
  have e : (s.restoreLines p).port q = s.port q := unlined_port (restoreLines_unlined s p) q
  unfold State.endCheck
  generalize s.restoreLines p = t at e
  rw [← e]
  cases b
  · exact .same _
  · exact offer_offered (t.setCheck (.finished r)) p q _

theorem abortCheck_unchecked (s : State) (b : Bool) : (s.abortCheck b).unchecked = s.unchecked := by
  unfold State.abortCheck; split
  · exact endCheck_unchecked ..
  · rfl
  · rfl

theorem abortCheck_line (s : State) (b : Bool) (m : LineId) (h : (s.line m).mode ≠ .test) :
    (s.abortCheck b).line m = s.line m := by
  unfold State.abortCheck; split
  · exact endCheck_line _ _ _ _ _ h
  · rfl
  · rfl

theorem abortCheck_offered (s : State) (b : Bool) (q : PortId) : Offered (s.port q) ((s.abortCheck b).port q) := by
  unfold State.abortCheck; split
  · exact endCheck_offered ..
  · exact .same _
  · exact .same _

section
variable {s t : State} (h : t.unchecked = s.unchecked)
include h
theorem unchecked_pending : t.pending = s.pending := congrArg (·.1) h
theorem unchecked_phase : t.phase = s.phase := congrArg (·.2.1) h
theorem unchecked_elapsed : t.elapsed = s.elapsed := congrArg (·.2.2.1) h
theorem unchecked_claims : t.claims = s.claims := congrArg (·.2.2.2.1) h
theorem unchecked_pool : t.pool = s.pool := congrArg (·.2.2.2.2.2.2.2.2.1) h
theorem unchecked_mode : t.maint.mode = s.maint.mode := congrArg (·.2.2.2.2.2.2.2.2.2.2.1) h
theorem unchecked_store : t.store = s.store := congrArg (·.2.2.2.2.2.2.2.2.2.2.2.2.2.2.2.2.2.1) h
theorem unchecked_claim (r : ResourceId) : t.claim r = s.claim r := by simp [State.claim, unchecked_claims h]
theorem unchecked_entry (i : SlotId) : t.entry i = s.entry i := by simp [State.entry, State.slot, unchecked_pool h]
end

end Sys2Proof.Machine
end

