-- ==== Sys2Proof/Laws/Calm.lean ====
section
/-! SUPPORT. What the timebase, the capture unit and the tie link can do, said once: they touch neither claims, nor line
modes, nor the store, and they bring no new entry. -/

namespace Sys2Proof.Machine

/-- What no event of these units changes. -/
def State.base (s : State) :=
  (s.pending, s.phase, s.elapsed, s.claims, s.subs, s.loaded, s.inForce, s.store, s.storeBusy, s.postOrder,
    s.maint.drainLimit)

/-- What the events of these units, and of the schedule, can do to a state. -/
structure Calm (s t : State) : Prop where
  base : t.base = s.base
  ports : ∀ p, Offered (s.port p) (t.port p)
  entries : ∀ i h', t.entry i = some h' → ∃ h, s.entry i = some h ∧ h'.owner = h.owner ∧ h'.line = h.line
  lines : ∀ n, ∃ l, t.line n = { s.line n with scheduled := l }
  mode : t.maint.mode = s.maint.mode ∨ (s.maint.mode = .draining ∧ t.maint.mode = .direct)
  check : t.maint.check.isRunning = s.maint.check.isRunning

namespace Calm

variable {s t u : State}

theorem refl (s : State) : Calm s s :=
  ⟨rfl, fun _ => .same _, fun _ h' k => ⟨h', k, rfl, rfl⟩, fun _ => ⟨_, rfl⟩, .inl rfl, rfl⟩

theorem trans (h : Calm s t) (k : Calm t u) : Calm s u where
  base := k.base.trans h.base
  ports p := (h.ports p).trans (k.ports p)
  entries i h' e := by
    obtain ⟨h1, e1, o1, l1⟩ := k.entries i h' e
    obtain ⟨h0, e0, o0, l0⟩ := h.entries i h1 e1
    exact ⟨h0, e0, o1.trans o0, l1.trans l0⟩
  lines n := by
    obtain ⟨a, ha⟩ := h.lines n
    obtain ⟨b, hb⟩ := k.lines n
    exact ⟨b, by rw [hb, ha]⟩
  mode := by
    rcases h.mode with a | ⟨a, b⟩
    · rcases k.mode with c | ⟨c, d⟩
      · exact .inl (c.trans a)
      · exact .inr ⟨a ▸ c, d⟩
    · rcases k.mode with c | ⟨c, d⟩
      · exact .inr ⟨a, c.trans b⟩
      · exact .inr ⟨a, d⟩
  check := k.check.trans h.check

theorem pending (h : Calm s t) : t.pending = s.pending := congrArg (·.1) h.base
theorem phase (h : Calm s t) : t.phase = s.phase := congrArg (·.2.1) h.base
theorem elapsed (h : Calm s t) : t.elapsed = s.elapsed := congrArg (·.2.2.1) h.base
theorem claims (h : Calm s t) : t.claims = s.claims := congrArg (·.2.2.2.1) h.base
theorem store (h : Calm s t) : t.store = s.store := congrArg (·.2.2.2.2.2.2.2.1) h.base
theorem claim (h : Calm s t) (r : ResourceId) : t.claim r = s.claim r := by simp [State.claim, h.claims]
theorem holds (h : Calm s t) (p : PortId) (r : ResourceId) : t.holds p r = s.holds p r := by
  simp [State.holds, h.claim]

theorem lineMode (h : Calm s t) (n : LineId) : (t.line n).mode = (s.line n).mode := by
  obtain ⟨l, hl⟩ := h.lines n; rw [hl]

theorem foldl {α : Type} {f : State → α → State} (hf : ∀ s a, Calm s (f s a)) (l : List α) (s : State) :
    Calm s (l.foldl f s) := by
  induction l generalizing s with
  | nil => exact refl s
  | cons a t ih => exact (hf s a).trans (ih _)

end Calm

open Calm (refl)

theorem Scheduled.calm {s t : State} (h : Scheduled s t) : Calm s t where
  base := by
    have e := h.fixed
    simp only [State.fixed, Prod.mk.injEq] at e
    simp only [State.base, e]
  ports := h.ports
  entries := h.entries
  lines := h.lines
  mode := h.mode
  check := congrArg Check.isRunning h.check

/-! ## The primitives -/

theorem setTb_calm (s : State) (x : Timebase) : Calm s (s.setTb x) :=
  ⟨rfl, fun _ => .same _, fun _ h' k => ⟨h', k, rfl, rfl⟩, fun _ => ⟨_, rfl⟩, .inl rfl, rfl⟩

theorem setLink_calm (s : State) (x : Link) : Calm s (s.setLink x) :=
  ⟨rfl, fun _ => .same _, fun _ h' k => ⟨h', k, rfl, rfl⟩, fun _ => ⟨_, rfl⟩, .inl rfl, rfl⟩

theorem setFilter_calm (s : State) (n : LineId) (x : Filter) : Calm s (s.setFilter n x) :=
  ⟨rfl, fun _ => .same _, fun _ h' k => ⟨h', k, rfl, rfl⟩, fun _ => ⟨_, rfl⟩, .inl rfl, rfl⟩

theorem markRuns_calm (s : State) : Calm s s.markRuns :=
  ⟨rfl, fun _ => .same _, fun _ h' k => ⟨h', k, rfl, rfl⟩, fun _ => ⟨_, rfl⟩, .inl rfl, rfl⟩

theorem offerAll_calm (s : State) (r : Record) : Calm s (s.offerAll r) := (offerAll_scheduled s r).calm
theorem offer_calm (s : State) (p : PortId) (r : Record) : Calm s (s.offer p r) := (offer_scheduled s p r).calm

/-! ## The timebase -/

theorem changeCount_calm (s : State) (e : TimeEvent) (c : Count) (ep : Byte) (run : RunState) :
    Calm s (s.changeCount e c ep run) := by
  have h : Calm s
      ((((s.setTb { s.tb with count := c, epoch := ep, run := run, slew := none }).voidQuery).markRuns).announceTime e) :=
    (((setTb_calm ..).trans (setLink_calm ..)).trans (markRuns_calm _)).trans (offerAll_calm ..)
  unfold State.changeCount; dsimp only; split
  · exact h.trans (reexamine_scheduled ..).calm
  · exact (h.trans (offerAll_calm ..)).trans (reexamine_scheduled ..).calm

theorem setRun_calm (s : State) (run : RunState) : Calm s (s.setRun run) :=
  ((setTb_calm ..).trans (setLink_calm ..)).trans (offerAll_calm ..)

theorem copyHalted_calm (s : State) (b : Bool) : Calm s (s.copyHalted b) := by
  unfold State.copyHalted; dsimp only; split
  · split
    · exact refl s
    · exact setRun_calm ..
  · split
    · exact refl s
    · exact setRun_calm ..

theorem leaveLock_calm (s : State) : Calm s s.leaveLock := by
  unfold State.leaveLock; split
  · exact setTb_calm ..
  · exact setTb_calm ..
  · exact refl s
  · exact refl s

theorem requestSlew_calm (s : State) (w : Slew) : Calm s (s.requestSlew w) := by
  unfold State.requestSlew; split
  · exact refl s
  · exact setTb_calm ..

theorem advanceBy_calm (s : State) (k : Nat) : Calm s (s.advanceBy k) :=
  (setTb_calm ..).trans (arriveAll_scheduled ..).calm

theorem advance_calm (s : State) : Calm s s.advance := by
  unfold State.advance; split
  · exact refl s
  · exact advanceBy_calm ..
  · exact advanceBy_calm ..
  · exact setTb_calm ..

/-! ## The capture unit -/

theorem deliver_calm (s : State) (x : CapturedEdge) : Calm s (s.deliver x) := by
  have h : Calm s (s.notifyEdge x) :=
    Calm.foldl (fun s p => by split <;> [exact offer_calm ..; exact refl s]) _ s
  exact h.trans (reportEdge_scheduled ..).calm

theorem exportEdge_calm (s : State) (n : LineId) (f : Forward) : Calm s (s.exportEdge n f) := by
  unfold State.exportEdge; split
  · exact setLink_calm ..
  · exact refl s

theorem checkEdge_calm (s : State) (n : LineId) (e : Edge) : Calm s (s.checkEdge n e) := by
  unfold State.checkEdge; split
  · rename_i p h
    exact ⟨rfl, fun _ => .same _, fun _ h' k => ⟨h', k, rfl, rfl⟩, fun _ => ⟨_, rfl⟩, .inl rfl, by rw [h]; rfl⟩
  · exact refl s
  · exact refl s

theorem acceptRun_calm (s : State) (n : LineId) (r : FilterRun) : Calm s (s.acceptRun n r) := by
  unfold State.acceptRun; dsimp only; split
  · exact refl s
  · exact (setFilter_calm ..).trans (checkEdge_calm ..)
  · exact ((setFilter_calm ..).trans (deliver_calm ..)).trans (exportEdge_calm ..)
  · exact ((setFilter_calm ..).trans (deliver_calm ..)).trans (exportEdge_calm ..)
  · exact ((setFilter_calm ..).trans (deliver_calm ..)).trans (exportEdge_calm ..)

theorem acceptEdge_calm (s : State) (n : LineId) : Calm s (s.acceptEdge n) := by
  unfold State.acceptEdge; split
  · exact refl s
  · split
    · exact acceptRun_calm ..
    · exact refl s

theorem sampleAll_calm (s : State) (a b : LineSet) : Calm s (s.sampleAll a b) :=
  ⟨rfl, fun _ => .same _, fun _ h' k => ⟨h', k, rfl, rfl⟩, fun _ => ⟨_, rfl⟩, .inl rfl, rfl⟩

/-! ## The tie link -/

theorem loseLock_calm (s : State) : Calm s s.loseLock :=
  ((setLink_calm ..).trans (leaveLock_calm _)).trans (offerAll_calm ..)

theorem sendWord_calm (s : State) (w : Word) : Calm s (s.sendWord w) := setLink_calm ..

theorem sendAbility_calm (s : State) (a : Bool) : Calm s (s.sendAbility a) := by
  unfold State.sendAbility; split
  · split
    · exact (setLink_calm ..).trans (sendWord_calm ..)
    · exact sendWord_calm ..
  · exact sendWord_calm ..

theorem leaderLock_calm (s : State) : Calm s s.leaderLock :=
  ((setLink_calm ..).trans (setTb_calm ..)).trans (offerAll_calm ..)

theorem sendReply_calm (s : State) (o : Owed) : Calm s (s.sendReply o) := by
  unfold State.sendReply; dsimp only; split
  · exact ((setLink_calm ..).trans (sendWord_calm ..)).trans (leaderLock_calm _)
  · exact (setLink_calm ..).trans (sendWord_calm ..)

theorem sendForward_calm (s : State) : Calm s s.sendForward := by
  unfold State.sendForward; split
  · exact sendWord_calm ..
  · exact (setLink_calm ..).trans (sendWord_calm ..)

theorem sendExchange_calm (s : State) : Calm s s.sendExchange := by
  unfold State.sendExchange; split
  · exact sendReply_calm ..
  · split
    · exact (setLink_calm ..).trans (sendWord_calm ..)
    · split
      · exact sendForward_calm _
      · exact sendWord_calm ..

theorem slotBegins_calm (s : State) : Calm s s.slotBegins := by
  unfold State.slotBegins; split
  · split
    · exact setLink_calm ..
    · exact sendAbility_calm ..
  · exact sendAbility_calm ..
  · exact sendExchange_calm _
  · exact sendExchange_calm _
  · exact refl s
  · exact refl s
  · exact refl s

theorem finalSent_calm (s : State) : Calm s s.finalSent := by
  unfold State.finalSent; split
  · split
    · exact setLink_calm ..
    · exact refl s
  · exact refl s

theorem noteValid_calm (s : State) : Calm s s.noteValid := by
  unfold State.noteValid; split
  · exact setLink_calm ..
  · exact refl s

theorem resolve_calm (s : State) (a : RolePref) (b : Byte) (c : BitVec 3) : Calm s (s.resolve a b c) := by
  unfold State.resolve; split
  · exact setLink_calm ..
  · exact (setLink_calm ..).trans (offerAll_calm ..)

theorem takeAbility_calm (s : State) (a : RolePref) (b : Byte) (c : BitVec 3) (d : Bool) :
    Calm s (s.takeAbility a b c d) := by
  unfold State.takeAbility; split
  · split
    · exact refl s
    · dsimp only; split
      · exact (setLink_calm ..).trans (resolve_calm ..)
      · exact setLink_calm ..
  · split
    · exact refl s
    · exact setLink_calm ..
  · exact loseLock_calm _
  · exact refl s
  · exact refl s
  · exact refl s
  · exact refl s

theorem takeQuery_calm (s : State) (c : Count) : Calm s (s.takeQuery c) := by
  unfold State.takeQuery; split
  · exact setLink_calm ..
  · exact refl s

theorem alignStep_calm (s : State) (x : Exchange) : Calm s (s.alignStep x) := changeCount_calm ..

theorem followerLock_calm (s : State) (x : Exchange) : Calm s (s.followerLock x) :=
  (((alignStep_calm s x).trans (setLink_calm ..)).trans (setTb_calm ..)).trans (offerAll_calm ..)

theorem correctBy_calm (s : State) (d : Int) : Calm s (s.correctBy d) := by
  unfold State.correctBy; split
  · exact refl s
  · split
    · exact requestSlew_calm ..
    · exact requestSlew_calm ..

theorem followerTrack_calm (s : State) (x : Exchange) : Calm s (s.followerTrack x) := by
  unfold State.followerTrack; dsimp only; split
  · exact (alignStep_calm ..).trans (setLink_calm ..)
  · exact ((copyHalted_calm ..).trans (correctBy_calm ..)).trans (setLink_calm ..)

theorem takeReply_calm (s : State) (a b c : Count) (d : Byte) (e : Bool) : Calm s (s.takeReply a b c d e) := by
  unfold State.takeReply; split
  · split
    · dsimp only; split
      · exact (setLink_calm ..).trans (followerLock_calm ..)
      · exact (setLink_calm ..).trans (followerTrack_calm ..)
    · exact refl s
  · exact refl s
  · exact refl s

theorem takeCapture_calm (s : State) (f : Forward) : Calm s (s.takeCapture f) := by
  unfold State.takeCapture; split
  · exact deliver_calm ..
  · exact refl s

theorem queryFallsDue_calm (s : State) : Calm s s.queryFallsDue := by
  unfold State.queryFallsDue; split
  · split
    · exact setLink_calm ..
    · exact refl s
  · exact refl s

theorem replyMissed_calm (s : State) : Calm s s.replyMissed := by
  unfold State.replyMissed; split
  · split
    · dsimp only; split
      · exact (setLink_calm ..).trans (loseLock_calm _)
      · exact setLink_calm ..
    · exact setLink_calm ..
  · exact refl s

theorem retrain_calm (s : State) : Calm s s.retrain := by
  have h : Calm s (if s.linkIn .locked then s.leaveLock else s) := by
    split
    · exact leaveLock_calm _
    · exact refl s
  exact (h.trans (setLink_calm ..)).trans (offerAll_calm ..)

/-! ## Rows of the hub's own clock -/

theorem pulseEndEvent_calm (s : State) (i : SlotId) : Calm s (s.pulseEndEvent i) := by
  unfold State.pulseEndEvent; split
  · exact (endPulse_scheduled ..).calm
  · exact refl s

theorem boundaryEvent_calm (s : State) (i : SlotId) : Calm s (s.boundaryEvent i) := by
  unfold State.boundaryEvent; split
  · exact refl s
  · split
    · exact (trainAt_scheduled ..).calm
    · exact refl s

theorem scrubEvent_calm (s : State) : Calm s s.scrubEvent := by
  unfold State.scrubEvent; split
  · exact refl s
  · split
    · exact ((checkSlot_scheduled ..).trans (setInteg_scheduled ..)).calm
    · exact refl s

theorem drainDeadlineEvent_calm (s : State) : Calm s s.drainDeadlineEvent := by
  unfold State.drainDeadlineEvent; split
  · exact (drainExpire_scheduled _).calm
  · exact refl s

end Sys2Proof.Machine
end

