-- ==== Sys2Proof/Laws/Claims.lean ====
section
/-! SUPPORT. What the end of a claim can do, said once: the clearing away of the holder's work (R27, R31, R32), and the
passing on of the resource (R30). -/

namespace Sys2Proof.Machine

/-- What the clearing away never reaches. -/
def State.beside (s : State) :=
  (s.pending, s.phase, s.elapsed, s.claims, s.subs, s.held, s.level, s.tb, s.link, s.loaded, s.inForce, s.store,
    s.storeBusy, s.postOrder, s.tickPins)

/-- What the clearing away of a holder's work can do; lines of `keep` stay in OUTPUT. -/
structure Cleared (keep : LineId → Prop) (s t : State) : Prop where
  beside : t.beside = s.beside
  ports : ∀ p, Offered (s.port p) (t.port p)
  entries : ∀ i h', t.entry i = some h' → ∃ h, s.entry i = some h ∧ h'.owner = h.owner ∧ h'.line = h.line
  lines : ∀ m, keep m → (s.line m).mode = .output → (t.line m).mode = .output
  mode : t.maint.mode = s.maint.mode ∨ (s.maint.mode = .draining ∧ t.maint.mode = .direct) ∨ t.maint.mode = .run
  check : t.maint.check = s.maint.check ∨ t.maint.check.isRunning = false

namespace Cleared

variable {keep : LineId → Prop} {s t u : State}

theorem refl (s : State) : Cleared keep s s :=
  ⟨rfl, fun _ => .same _, fun _ h' k => ⟨h', k, rfl, rfl⟩, fun _ _ h => h, .inl rfl, .inl rfl⟩

theorem trans (h : Cleared keep s t) (k : Cleared keep t u) : Cleared keep s u where
  beside := k.beside.trans h.beside
  ports p := (h.ports p).trans (k.ports p)
  entries i h' e := by
    obtain ⟨h1, e1, o1, l1⟩ := k.entries i h' e
    obtain ⟨h0, e0, o0, l0⟩ := h.entries i h1 e1
    exact ⟨h0, e0, o1.trans o0, l1.trans l0⟩
  lines m km hm := k.lines m km (h.lines m km hm)
  mode := by
    rcases k.mode with c | ⟨c, d⟩ | c
    · rw [c]; exact h.mode
    · rcases h.mode with a | ⟨a, b⟩ | a
      · exact .inr (.inl ⟨a ▸ c, d⟩)
      · rw [b] at c; cases c
      · rw [a] at c; cases c
    · exact .inr (.inr c)
  check := by
    rcases k.check with c | c
    · rw [c]; exact h.check
    · exact .inr c

theorem pending (h : Cleared keep s t) : t.pending = s.pending := congrArg (·.1) h.beside
theorem phase (h : Cleared keep s t) : t.phase = s.phase := congrArg (·.2.1) h.beside
theorem elapsed (h : Cleared keep s t) : t.elapsed = s.elapsed := congrArg (·.2.2.1) h.beside
theorem claims (h : Cleared keep s t) : t.claims = s.claims := congrArg (·.2.2.2.1) h.beside
theorem tb (h : Cleared keep s t) : t.tb = s.tb := congrArg (·.2.2.2.2.2.2.2.1) h.beside
theorem link (h : Cleared keep s t) : t.link = s.link := congrArg (·.2.2.2.2.2.2.2.2.1) h.beside
theorem store (h : Cleared keep s t) : t.store = s.store := congrArg (·.2.2.2.2.2.2.2.2.2.2.2.1) h.beside
theorem claim (h : Cleared keep s t) (r : ResourceId) : t.claim r = s.claim r := by simp [State.claim, h.claims]
theorem holds (h : Cleared keep s t) (p : PortId) (r : ResourceId) : t.holds p r = s.holds p r := by
  simp [State.holds, h.claim]
theorem entry_none (h : Cleared keep s t) {i : SlotId} (e : s.entry i = none) : t.entry i = none := by
  cases k : t.entry i with
  | none => rfl
  | some h' => obtain ⟨_, e', _⟩ := h.entries i h' k; rw [e] at e'; cases e'

end Cleared

/-- The schedule's operations are such a clearing. -/
theorem Scheduled.cleared {keep : LineId → Prop} {s t : State} (h : Scheduled s t) : Cleared keep s t where
  beside := by
    have e := h.fixed
    simp only [State.fixed, Prod.mk.injEq] at e
    simp only [State.beside, e]
  ports := h.ports
  entries := h.entries
  lines m _ hm := (h.lineMode m).trans hm
  mode := h.mode.elim .inl (fun k => .inr (.inl k))
  check := .inl h.check

theorem park_cleared (s : State) (n : LineId) : Cleared (· ≠ n) s (s.park n) := by
  have e := park_unlined s n
  refine ⟨?_, fun p => ?_, fun i h' k => ⟨h', ?_, rfl, rfl⟩, fun m hm k => ?_, .inl ?_, .inl ?_⟩
  · simp only [State.unlined, Prod.mk.injEq] at e
    simp only [State.beside, e]
  · rw [unlined_port e]; exact .same _
  · rwa [unlined_entry e] at k
  · rw [park_line, if_neg (Ne.symm hm)]; exact k
  · rw [unlined_maint e]
  · rw [unlined_maint e]

theorem abortCheck_cleared {keep : LineId → Prop} (s : State) (b : Bool) : Cleared keep s (s.abortCheck b) := by
  have e := abortCheck_unchecked s b
  refine ⟨?_, abortCheck_offered s b, fun i h' k => ⟨h', ?_, rfl, rfl⟩, fun m _ k => ?_,
    .inl (unchecked_mode e), ?_⟩
  · simp only [State.unchecked, Prod.mk.injEq] at e
    simp only [State.beside, e]
  · rwa [unchecked_entry e] at k
  · rw [abortCheck_line s b m (by rw [k]; decide)]; exact k
  · unfold State.abortCheck; split
    · rw [endCheck_check]; exact .inr rfl
    · exact .inl rfl
    · exact .inl rfl

theorem clearLine_cleared (s : State) (p : PortId) (n : LineId) (c : EndCause) :
    Cleared (· ≠ n) s (s.clearLine p n c) := by
  have h := (withdrawAll_scheduled s (s.entriesWhere (fun h => h.owner == p && h.line == n)) c.outcome).cleared.trans
    (park_cleared _ n)
  unfold State.clearLine; dsimp only; split
  · exact h.trans (abortCheck_cleared ..)
  · exact h

theorem mem_insertBy {α : Type} (le : α → α → Bool) (a b : α) (l : List α) :
    b ∈ insertBy le a l ↔ b = a ∨ b ∈ l := by
  induction l with
  | nil => simp [insertBy]
  | cons c t ih =>
    simp only [insertBy]; split
    · simp
    · simp [ih]; tauto

theorem mem_sortBy {α : Type} (le : α → α → Bool) (b : α) (l : List α) : b ∈ sortBy le l ↔ b ∈ l := by
  induction l with
  | nil => simp [sortBy]
  | cons a t ih => simp [sortBy, mem_insertBy, ih]

/-- The occupied slots of a kind. -/
theorem mem_entriesWhere (s : State) (f : Header → Bool) (i : SlotId) :
    i ∈ s.entriesWhere f ↔ (s.entry i).any f = true := by
  unfold State.entriesWhere State.inPostOrder
  rw [mem_sortBy, List.mem_filter]
  simp [allSlots]

/-- No entry of the former holder stays on the line (R27 step 1). -/
theorem clearLine_entry (s : State) (p : PortId) (n : LineId) (c : EndCause) (i : SlotId) (h : Header)
    (e : (s.clearLine p n c).entry i = some h) : ¬(h.owner = p ∧ h.line = n) := by
  intro ⟨ho, hl⟩
  obtain ⟨h0, e0, o0, l0⟩ := (clearLine_cleared s p n c).entries i h e
  have hm : i ∈ s.entriesWhere (fun h => h.owner == p && h.line == n) := by
    rw [mem_entriesWhere, e0]; simp [← o0, ← l0, ho, hl]
  have hw := withdrawAll_entry s _ c.outcome i hm
  have hp : ((s.withdrawAll (s.entriesWhere (fun h => h.owner == p && h.line == n)) c.outcome).park n).entry i
      = none := by rw [unlined_entry (park_unlined ..)]; exact hw
  have : (s.clearLine p n c).entry i = none := by
    unfold State.clearLine; dsimp only; split
    · rw [unchecked_entry (abortCheck_unchecked ..)]; exact hp
    · exact hp
  rw [this] at e; cases e

/-- The return to RUN with its catch-up (R131, R93). -/
theorem returnToRun_cleared {keep : LineId → Prop} (s : State) (r : ExitReason) :
    Cleared keep s (s.returnToRun r) := by
  have h1 : Cleared keep s
      (((s.setMaint { s.maint with mode := .run, drainDeadline := none }).clearOverrides).offerAll (.directExited r)) :=
    ⟨rfl, fun p => offerAll_offered _ _ p, fun _ h' k => ⟨h', k, rfl, rfl⟩,
      fun m _ k => by
        have : (((s.setMaint { s.maint with mode := .run, drainDeadline := none }).clearOverrides).offerAll
            (.directExited r)).line m = { s.line m with override := none } := by
          simp [State.offerAll, State.clearOverrides, State.line, State.setMaint]
        rw [this]; exact k,
      .inr (.inr rfl), .inl rfl⟩
  exact h1.trans (catchUp_scheduled _).cleared

/-- The hub mode after the return to RUN is RUN. -/
theorem returnToRun_mode (s : State) (r : ExitReason) : (s.returnToRun r).maint.mode = .run := by
  unfold State.returnToRun
  rcases (catchUp_scheduled (((s.setMaint { s.maint with mode := .run, drainDeadline := none }).clearOverrides).offerAll
    (.directExited r))).mode with h | ⟨h, _⟩
  · exact h
  · cases h

theorem clearMX_cleared {keep : LineId → Prop} (s : State) (c : EndCause) : Cleared keep s (s.clearMX c) := by
  unfold State.clearMX; dsimp only; split
  · exact abortCheck_cleared ..
  · exact (returnToRun_cleared s _).trans (abortCheck_cleared ..)

theorem clearMX_mode (s : State) (c : EndCause) : (s.clearMX c).maint.mode = .run := by
  unfold State.clearMX; dsimp only
  rw [unchecked_mode (abortCheck_unchecked ..)]
  split
  · assumption
  · exact returnToRun_mode ..

/-! ## Passing on -/

/-- A claim record whose claim ends at a moment: the head waiter holds it, or it is free (R27 step 5, R30). -/
def ClaimRec.passed (c : ClaimRec) (now : Nat) : ClaimRec :=
  match c.waiters with
  | [] => ClaimRec.free
  | w :: rest => ⟨some w.port, w.leaseMs, leaseEnd now w.leaseMs, rest⟩

/-- Passing on changes the one claim record and offers records; nothing else. -/
theorem passOn_claim (s : State) (r q : ResourceId) :
    (s.passOn r).claim q = if r = q then (s.claim r).passed s.elapsed else s.claim q := by
  unfold State.passOn ClaimRec.passed
  cases (s.claim r).waiters with
  | nil => exact setClaim_claim ..
  | cons w rest =>
    dsimp only; split
    · exact setClaim_claim s r q _
    · exact setClaim_claim s r q _

/-- What the passing on of a claim leaves. -/
def State.unclaimed (s : State) :=
  (s.pending, s.phase, s.elapsed, s.free, s.lines, s.filters, s.subs, s.held, s.level, s.tb, s.pool, s.postOrder,
    s.maint, s.integ, s.link, s.loaded, s.inForce, s.store, s.storeBusy, s.tickPins)

theorem passOn_unclaimed (s : State) (r : ResourceId) : (s.passOn r).unclaimed = s.unclaimed := by
  unfold State.passOn; split
  · rfl
  · dsimp only; split
    · rfl
    · rfl

theorem passOn_offered (s : State) (r : ResourceId) (q : PortId) : Offered (s.port q) ((s.passOn r).port q) := by
  unfold State.passOn; split
  · exact .same _
  · rename_i w rest _
    dsimp only
    have h := offer_offered (s.setClaim r ⟨some w.port, w.leaseMs, leaseEnd s.elapsed w.leaseMs, rest⟩) w.port q
      (.claim r .granted)
    split
    · exact h
    · exact h.trans (offer_offered ..)

/-- The clearing away at the end of a claim, before the resource passes on. -/
def State.clearFor (s : State) (r : ResourceId) (p : PortId) (c : EndCause) : State :=
  let s1 :=
    if h : r.val < 16 then s.clearLine p ⟨r.val, h⟩ c
    else if r = resMX then s.clearMX c
    else s
  if c = .revoked then s1.offer p (.claim r .revoked) else s1

theorem endClaim_held {s : State} {r : ResourceId} {p : PortId} (h : (s.claim r).holder = some p) (c : EndCause) :
    s.endClaim r c = (s.clearFor r p c).passOn r := by
  simp only [State.endClaim, h, State.clearFor]

theorem endClaim_free {s : State} {r : ResourceId} (h : (s.claim r).holder = none) (c : EndCause) :
    s.endClaim r c = s := by
  simp only [State.endClaim, h]

theorem clearFor_cleared (s : State) (r : ResourceId) (p : PortId) (c : EndCause) :
    Cleared (fun m => lineRes m ≠ r) s (s.clearFor r p c) := by
  have h1 : Cleared (fun m => lineRes m ≠ r) s
      (if h : r.val < 16 then s.clearLine p ⟨r.val, h⟩ c else if r = resMX then s.clearMX c else s) := by
    split
    · rename_i h
      have k := clearLine_cleared s p ⟨r.val, h⟩ c
      exact ⟨k.beside, k.ports, k.entries,
        fun m hm => k.lines m (fun e => hm (by subst e; rfl)), k.mode, k.check⟩
    · split
      · exact clearMX_cleared ..
      · exact .refl _
  unfold State.clearFor; dsimp only; split
  · exact h1.trans (offer_scheduled ..).cleared
  · exact h1

/-- The claim records after a claim has ended: the one passed on, every other as it was. -/
theorem endClaim_claim {s : State} {r : ResourceId} {p : PortId} (h : (s.claim r).holder = some p) (c : EndCause)
    (q : ResourceId) :
    (s.endClaim r c).claim q = if r = q then (s.claim r).passed s.elapsed else s.claim q := by
  have k := clearFor_cleared s r p c
  rw [endClaim_held h, passOn_claim, k.claim, k.claim, k.elapsed]

section
variable {s t : State} (h : t.unclaimed = s.unclaimed)
include h
theorem unclaimed_pending : t.pending = s.pending := congrArg (·.1) h
theorem unclaimed_phase : t.phase = s.phase := congrArg (·.2.1) h
theorem unclaimed_elapsed : t.elapsed = s.elapsed := congrArg (·.2.2.1) h
theorem unclaimed_lines : t.lines = s.lines := congrArg (·.2.2.2.2.1) h
theorem unclaimed_pool : t.pool = s.pool := congrArg (·.2.2.2.2.2.2.2.2.2.2.1) h
theorem unclaimed_maint : t.maint = s.maint := congrArg (·.2.2.2.2.2.2.2.2.2.2.2.2.1) h
theorem unclaimed_store : t.store = s.store := congrArg (·.2.2.2.2.2.2.2.2.2.2.2.2.2.2.2.2.2.1) h
theorem unclaimed_line (n : LineId) : t.line n = s.line n := by simp [State.line, unclaimed_lines h]
theorem unclaimed_entry (i : SlotId) : t.entry i = s.entry i := by simp [State.entry, State.slot, unclaimed_pool h]
end

end Sys2Proof.Machine
end

