-- ==== Sys2Proof/Laws/Entries.lean ====
section
/-! SUPPORT. What the pool holds: the lists of entries that the schedule walks through, and the questions that other
blocks ask of it, in terms of single entries. -/

namespace Sys2Proof.Machine

/-! ## Questions as propositions -/

theorem holds_iff (s : State) (p : PortId) (r : ResourceId) : s.holds p r = true ↔ (s.claim r).holder = some p := by
  simp [State.holds]

theorem holds_false_iff (s : State) (p : PortId) (r : ResourceId) :
    s.holds p r = false ↔ (s.claim r).holder ≠ some p := by
  simp [State.holds]

theorem any_slots (s : State) (f : Header → Bool) :
    allSlots.any (fun i => (s.entry i).any f) = true ↔ ∃ i h, s.entry i = some h ∧ f h = true := by
  simp [allSlots, List.any_eq_true, Option.any_eq_true]

theorem lineBusy_iff (s : State) (n : LineId) : s.lineBusy n = true ↔ s.busy n := by
  unfold State.lineBusy; rw [any_slots]; simp [State.busy]

theorem lineOccupied_iff (s : State) (n : LineId) : s.lineOccupied n = true ↔ s.occupied n := by
  unfold State.lineOccupied; rw [any_slots]; simp [State.occupied]

theorem pulseInProgress_iff (s : State) :
    s.pulseInProgress = true ↔ ∃ i h, s.entry i = some h ∧ h.status.isPulse = true := by
  unfold State.pulseInProgress; rw [any_slots]

theorem isRunning_iff (c : Check) : c.isRunning = true ↔ ∃ p, c = .running p := by
  cases c <;> simp [Check.isRunning]

/-! ## Lists of entries -/

/-- A list in order holds the same elements. -/
theorem sortBy_perm {α : Type} (le : α → α → Bool) (l : List α) : (sortBy le l).Perm l := by
  have ins : ∀ (a : α) (l : List α), (insertBy le a l).Perm (a :: l) := by
    intro a l
    induction l with
    | nil => exact .refl _
    | cons b t ih =>
      simp only [insertBy]; split
      · exact .refl _
      · exact (ih.cons b).trans (.swap a b t)
  induction l with
  | nil => exact .refl _
  | cons a t ih => exact (ins a _).trans (ih.cons a)

theorem filter_slots_none {f : SlotId → Bool} (h : ∀ i, f i = false) : allSlots.filter f = [] := by
  simp [List.filter_eq_nil_iff, h]

theorem filter_slots_one {f : SlotId → Bool} {i : SlotId} (hi : f i = true) (h : ∀ j, f j = true → j = i) :
    allSlots.filter f = [i] := by
  have e : f = fun j => decide (j = i) := by
    funext j
    by_cases k : j = i
    · subst k; simp [hi]
    · have : f j = false := by
        cases q : f j
        · rfl
        · exact absurd (h j q) k
      simp [k, this]
  have p : (allSlots.filter f).Nodup := (List.nodup_finRange 128).filter _
  have m : ∀ j, j ∈ allSlots.filter f ↔ j = i := by simp [allSlots, e]
  cases q : allSlots.filter f with
  | nil => have := (m i).mpr rfl; rw [q] at this; simp at this
  | cons a t =>
    rw [q] at p m
    have ha := (m a).mp (by simp)
    subst ha
    cases t with
    | nil => rfl
    | cons b u =>
      have hb := (m b).mp (by simp)
      subst hb
      simp at p

theorem entriesWhere_none {s : State} {f : Header → Bool} (h : ∀ i k, s.entry i = some k → f k = false) :
    s.entriesWhere f = [] := by
  unfold State.entriesWhere State.inPostOrder
  rw [filter_slots_none (f := fun i => (s.entry i).any f)]
  · rfl
  · intro i
    cases e : s.entry i with
    | none => rfl
    | some k => simpa using h i k e

theorem entriesWhere_one {s : State} {f : Header → Bool} {i : SlotId} {k : Header} (e : s.entry i = some k)
    (hk : f k = true) (h : ∀ j k, s.entry j = some k → f k = true → j = i) : s.entriesWhere f = [i] := by
  unfold State.entriesWhere State.inPostOrder
  rw [filter_slots_one (f := fun i => (s.entry i).any f) (i := i)]
  · rfl
  · simp [e, hk]
  · intro j hj
    obtain ⟨k', e', hk'⟩ := Option.any_eq_true .. |>.mp hj
    exact h j k' e' hk'

theorem pendingDue_isSome (t : EntryStatus) : t.pendingDue.isSome = true ↔ ∃ d, t = .pending d := by
  cases t <;> simp [EntryStatus.pendingDue]

theorem pendingDue_eq (t : EntryStatus) (d : Count) : t.pendingDue = some d ↔ t = .pending d := by
  cases t <;> simp [EntryStatus.pendingDue]

theorem dueList_none {s : State} (h : s.nonePending) : s.dueList = [] := by
  unfold State.dueList
  rw [entriesWhere_none]
  · rfl
  · intro i k e
    cases q : k.status.pendingDue with
    | none => rfl
    | some d => exact absurd ((pendingDue_eq _ _).mp q) (h i k d e)

theorem dueList_one {s : State} {i : SlotId} {k : Header} {d : Count} (e : s.entry i = some k)
    (hk : k.status = .pending d) (h : ∀ j k e, s.entry j = some k → k.status = .pending e → j = i) :
    s.dueList = [i] := by
  unfold State.dueList
  rw [entriesWhere_one e (by simp [hk, EntryStatus.pendingDue])]
  · rfl
  · intro j k' e' hk'
    obtain ⟨d', hd'⟩ := (pendingDue_isSome _).mp hk'
    exact h j k' d' e' hd'

theorem mem_dueList (s : State) (i : SlotId) : i ∈ s.dueList ↔ ∃ d, s.pendingDue i = some d := by
  unfold State.dueList
  rw [mem_sortBy, mem_entriesWhere]
  unfold State.pendingDue
  cases s.entry i with
  | none => simp
  | some h => simp [Option.isSome_iff_exists]

theorem dueList_nodup (s : State) : s.dueList.Nodup := by
  unfold State.dueList State.entriesWhere State.inPostOrder
  exact (sortBy_perm _ _).nodup_iff.mpr ((sortBy_perm _ _).nodup_iff.mpr ((List.nodup_finRange 128).filter _))

/-- No entry arrives at a tick whose new counts no PENDING entry is due at. -/
theorem arriving_none {s : State} {k : Nat}
    (h : ∀ i d, s.pendingDue i = some d → 1 ≤ distance d s.tb.count → distance d s.tb.count ≤ k → False) :
    s.arriving k = [] := by
  unfold State.arriving
  rw [List.filter_eq_nil_iff]
  intro i hi
  obtain ⟨d, hd⟩ := (mem_dueList s i).mp hi
  simp only [State.distanceOf, hd, Option.map_some, Option.getD_some, decide_eq_true_eq]
  exact fun ⟨a, b⟩ => h i d hd a b

/-- One entry arrives at a tick. -/
theorem arriving_one {s : State} {k : Nat} {i : SlotId} {d : Count} (e : s.pendingDue i = some d)
    (h1 : 1 ≤ distance d s.tb.count) (h2 : distance d s.tb.count ≤ k)
    (h : ∀ j d, s.pendingDue j = some d → 1 ≤ distance d s.tb.count → distance d s.tb.count ≤ k → j = i) :
    s.arriving k = [i] := by
  have nd : (s.arriving k).Nodup := (dueList_nodup s).filter _
  have m : ∀ j, j ∈ s.arriving k ↔ j = i := by
    intro j
    unfold State.arriving
    rw [List.mem_filter, mem_dueList]
    constructor
    · rintro ⟨⟨d', hd'⟩, q⟩
      simp only [State.distanceOf, hd', Option.map_some, Option.getD_some, decide_eq_true_eq] at q
      exact h j d' hd' q.1 q.2
    · rintro rfl
      exact ⟨⟨d, e⟩, by simp [State.distanceOf, e, h1, h2]⟩
  cases q : s.arriving k with
  | nil => have := (m i).mpr rfl; rw [q] at this; simp at this
  | cons a t =>
    rw [q] at nd m
    have ha := (m a).mp (by simp)
    subst ha
    cases t with
    | nil => rfl
    | cons b u =>
      have hb := (m b).mp (by simp)
      subst hb
      simp at nd

end Sys2Proof.Machine
end

