-- ==== Sys2Proof/Laws/Outcomes.lean ====
section
/-! SUPPORT. What one entry becomes, said once in the words of the statements: when it completes, arrives, is handled
late or is armed, and what the check of a slot does. -/

namespace Sys2Proof.Machine

/-! ## Reading a slot after a change -/

theorem setSlot_body (s : State) (i j : SlotId) (x : Slot) :
    (s.setSlot i x).body j = if i = j then x.body else s.body j := by
  unfold State.body; rw [setSlot_slot]; split <;> rfl

theorem setSlot_setSlot (s : State) (i : SlotId) (x y : Slot) : (s.setSlot i x).setSlot i y = s.setSlot i y := by
  simp [State.setSlot]

theorem entryNow_entryNow (s : State) (i : SlotId) (h k : Header) : (s.entryNow i h).entryNow i k = s.entryNow i k := by
  unfold State.entryNow; rw [setSlot_slot, if_pos rfl, setSlot_setSlot]

/-- A header put into its slot as the operations of the schedule do it. -/
theorem setEntry_eq (s : State) (i : SlotId) (h : Header) : s.setEntry i h = s.entryNow i h := rfl

theorem isEvery_iff (s : State) (i : SlotId) : s.isEvery i = true ↔ ∃ d, (s.body i).timing = .anchored d .every := by
  unfold State.isEvery
  cases h : (s.body i).timing with
  | absolute d => simp [timingEvery]
  | anchored d r => cases r <;> simp [timingEvery]

theorem opposite_eq_other (l : Level) : l.opposite = other l := by cases l <;> rfl

/-- The place of the next deferred entry is behind every other (R90). -/
theorem place_lt_nextPlace {s : State} {j : SlotId} {k : Header} {d : Count} {q : Nat} (e : s.entry j = some k)
    (h : k.status = .deferred d q) : q < s.nextPlace := by
  have gen : ∀ (l : List SlotId) (a : Nat),
      let m := l.foldl (fun k i => max k (((s.entry i).bind (fun h => h.status.place)).elim 0 (fun p => p + 1))) a
      a ≤ m ∧ (j ∈ l → q < m) := by
    intro l
    induction l with
    | nil => intro a; simp
    | cons x t ih =>
      intro a
      refine ⟨le_trans (le_max_left _ _) (ih _).1, fun hm => ?_⟩
      rcases List.mem_cons.mp hm with rfl | hm
      · refine lt_of_lt_of_le ?_ (ih _).1
        simp [e, h, EntryStatus.place]
      · exact (ih _).2 hm
  exact (gen allSlots 0).2 (by simp [allSlots])

/-! ## Completion -/

/-- The report of R89 while DRAINING. -/
theorem reportDrain_now {s : State} (h : s.maint.mode = .draining) (k : s.pulseInProgress = false) :
    s.reportDrain = s.nowDirect := by
  unfold State.reportDrain; rw [if_pos ⟨h, k⟩]; rfl

/-- No report out of DRAINING, and none while a pulse is in progress. -/
theorem reportDrain_none {s : State}
    (h : s.maint.mode = .draining → ∃ j k, s.entry j = some k ∧ k.status.isPulse = true) : s.reportDrain = s := by
  unfold State.reportDrain
  rw [if_neg]
  rintro ⟨a, b⟩
  rw [(pulseInProgress_iff s).mpr (h a)] at b
  cases b

/-- A completion frees the slot, offers the record, and then reports (R74, R89). -/
theorem complete_eq {s : State} {i : SlotId} {h : Header} (e : s.entry i = some h) (o : EntryOutcome) :
    s.complete i o = (s.entryEnded i h o).reportDrain := by
  unfold State.complete; rw [e]; rfl

theorem entryEnded_entry (s : State) (i j : SlotId) (h : Header) (o : EntryOutcome) :
    (s.entryEnded i h o).entry j = if i = j then none else s.entry j := setSlot_entry s i j ⟨Body.free, [], none⟩

/-- A completion without a report: out of DRAINING, or with a pulse in progress at another entry. -/
theorem complete_quiet {s : State} {i : SlotId} {h : Header} (e : s.entry i = some h) (o : EntryOutcome)
    (d : s.maint.mode = .draining → ∃ j k, j ≠ i ∧ s.entry j = some k ∧ k.status.isPulse = true) :
    s.complete i o = s.entryEnded i h o := by
  rw [complete_eq e]
  refine reportDrain_none (fun hm => ?_)
  obtain ⟨j, k, hj, hk, hp⟩ := d hm
  exact ⟨j, k, by rw [entryEnded_entry, if_neg hj.symm]; exact hk, hp⟩

/-- The end of an application that has done its work: an EVERY entry is ARMED again, any other has fired (R79). -/
theorem finish_eq {s : State} {i : SlotId} {h k : Header} (e : s.entry i = some h) (t : Timeliness)
    (hk : k.owner = h.owner ∧ k.tag = h.tag ∧ k.line = h.line ∧ k.countA = h.countA ∧ k.countB = h.countB)
    (d : s.maint.mode = .draining → ∃ j k, j ≠ i ∧ s.entry j = some k ∧ k.status.isPulse = true) :
    s.finish i k t = if s.isEvery i then s.entryNow i { k with status := .armed, countA := sat16 k.countA }
      else s.entryEnded i k (firedAs t) := by
  unfold State.finish; split
  · rfl
  · rw [complete_quiet e _ d]
    unfold State.entryEnded
    rw [hk.1, hk.2.1, hk.2.2.1, hk.2.2.2.1, hk.2.2.2.2]
    cases t <;> rfl

/-! ## A pulse of a train begins -/

theorem boundaryAfter_eq (act : Level) (w q : BitVec 24) (c : BitVec 16) (t : TrainRun) (b : Nat) :
    boundaryAfter (.train act w q c) t b = { t with nextBoundary := boundaryLeft c t.begun t.skipped (b + q.toNat) } := by
  unfold boundaryAfter boundaryLeft
  congr 1
  exact ite_congr (by simp [pulsesLeft]) (fun _ => rfl) (fun _ => rfl)

/-- A pulse of a train begins at a boundary: the line takes the active level, the pulse is counted, and the grid goes on
(R81). -/
theorem beginTrainPulse_eq {s : State} {i : SlotId} {h : Header} {r : Run} {t : TrainRun} {b : Nat} {act : Level}
    {w q : BitVec 24} {c : BitVec 16} (ha : (s.body i).action = .train act w q c) :
    s.beginTrainPulse i h r t b = (s.setScheduled h.line act).entryNow i { h with
      countA := if s.isEvery i then h.countA else sat16 h.countA
      status := .active { r with
        phase := .inPulse (b + w.toNat)
        train := some ⟨sat16 t.begun, t.skipped, boundaryLeft c (sat16 t.begun) t.skipped (b + q.toNat)⟩ } } := by
  unfold State.beginTrainPulse
  rw [ha]; dsimp only; rw [boundaryAfter_eq]
  by_cases hv : s.isEvery i = true
  · rw [if_pos hv, if_pos hv]; rfl
  · rw [if_neg hv, if_neg hv]; rfl

/-! ## Arrival, late handling and arming -/

/-- An arrival in the words of the statements: `u` is the state with the entry's header as it was before (R66, R77 to
R81, R90). -/
theorem arrive_arrivesAs {u : State} {i : SlotId} {h : Header} {st : EntryStatus} {due : Count} (t : Timeliness)
    (e : u.entry i = some { h with status := st }) (hs : st.due = some due) (c : (u.slot i).wrongBits = []) :
    u.arrivesAs i h due t (u.arrive i t) := by
  have hb : u.lineBusy h.line = true ↔ u.busy h.line := lineBusy_iff u h.line
  have ar : u.arrive i t = if u.maint.mode ≠ .run then u.defer i { h with status := st }
      else if u.lineBusy h.line then u.collide i { h with status := st } else u.applyEntry i { h with status := st } t := by
    unfold State.arrive; rw [checkSlot_clean c]; dsimp only; rw [e]
  refine ⟨fun hm => ?_, fun hm hbz => ?_, fun hm hbz => ?_⟩
  · rw [ar, if_pos hm]
    refine ⟨u.nextPlace, ?_, fun j k d q _ hk hd => place_lt_nextPlace hk hd⟩
    unfold State.defer State.setStatus
    simp [hs, setEntry_eq]
  · have nd : u.maint.mode = .draining → ∃ j k, j ≠ i ∧ u.entry j = some k ∧ k.status.isPulse = true := by
      intro x; rw [hm] at x; cases x
    rw [ar, if_neg (by simp [hm]), if_pos (hb.mpr hbz)]
    unfold State.collide State.missAnchor
    refine ⟨fun hv => ?_, fun hv => ?_⟩
    · rw [if_neg (by rw [isEvery_iff]; exact hv), complete_quiet e _ nd]; rfl
    · rw [if_pos ((isEvery_iff u i).mpr hv)]; rfl
  · rw [ar, if_neg (by simp [hm]), if_neg (by rw [hb]; exact hbz)]
    have fin : ∀ lev, (u.setScheduled h.line lev).finish i { h with status := st } t =
        if u.isEvery i then (u.setScheduled h.line lev).entryNow i { h with status := .armed, countA := sat16 h.countA }
        else (u.setScheduled h.line lev).entryEnded i h (firedAs t) := by
      intro lev
      refine (finish_eq (s := u.setScheduled h.line lev) e t ⟨rfl, rfl, rfl, rfl, rfl⟩ ?_).trans rfl
      intro x
      have : u.maint.mode = .draining := x
      rw [hm] at this; cases this
    refine ⟨fun lev hl => ?_, fun act w ha => ?_, fun act w q c' a ha h1 h2 => ?_⟩
    · have ap : u.applyEntry i { h with status := st } t = (u.setScheduled h.line lev).finish i { h with status := st } t := by
        unfold State.applyEntry
        rcases hl with ⟨a, rfl⟩ | ⟨a, rfl⟩ | ⟨a, rfl⟩
        · rw [a]; rfl
        · rw [a]; rfl
        · rw [a, ← opposite_eq_other]; rfl
      rw [ap, fin]
      exact ⟨fun hv => if_neg (by rw [isEvery_iff]; exact hv), fun hv => if_pos ((isEvery_iff u i).mpr hv)⟩
    · unfold State.applyEntry; rw [ha]; rfl
    · have key : u.applyEntry i { h with status := st } t =
          u.beginTrainPulse i { h with status := st } ⟨u.elapsed, .betweenPulses, t, none⟩ ⟨0, 0, none⟩ u.elapsed := by
        unfold State.applyEntry; rw [ha]
      rw [key, beginTrainPulse_eq ha]
      by_cases hv : u.isEvery i = true
      · rw [if_pos hv, h1 ((isEvery_iff u i).mp hv)]; rfl
      · rw [if_neg hv, h2 (by rw [← isEvery_iff]; exact hv)]; rfl

/-- An entry is handled late: it is offered late, dropped, or re-armed with a missed anchor (R66). -/
theorem handleLate_latesTo {u : State} {i : SlotId} {h : Header} {st : EntryStatus} {due : Count}
    (e : u.entry i = some { h with status := st }) (hs : st.due = some due) (c : (u.slot i).wrongBits = [])
    (d : u.maint.mode = .draining → ∃ j k, j ≠ i ∧ u.entry j = some k ∧ k.status.isPulse = true) :
    u.latesTo i h due (u.handleLate i) := by
  have hl : u.handleLate i = match (u.body i).late with
      | .fireLate => u.arrive i .late
      | .dropLate => if u.isEvery i then u.missAnchor i { h with status := st } else u.complete i .droppedLate := by
    unfold State.handleLate; rw [checkSlot_clean c]; dsimp only; rw [e]; try rfl
  refine ⟨fun a => ?_, fun a => ⟨fun hv => ?_, fun hv => ?_⟩⟩
  · rw [hl, a]; exact arrive_arrivesAs .late e hs c
  · rw [hl, a]; dsimp only
    rw [if_neg (by rw [isEvery_iff]; exact hv), complete_quiet e _ d]; rfl
  · rw [hl, a]; dsimp only
    rw [if_pos ((isEvery_iff u i).mpr hv)]; rfl

/-- What an arrival makes of an entry does not depend on the header that stands in its slot. -/
theorem arrivesAs_entryNow {u : State} {i : SlotId} {h k : Header} {due : Count} {t : Timeliness} {out : State}
    (e : u.entry i = some h) (hb : h.status.isBusy = false) (kb : k.status.isBusy = false)
    (a : (u.entryNow i k).arrivesAs i h due t out) : u.arrivesAs i h due t out := by
  have en : ∀ j, (u.entryNow i k).entry j = if i = j then some k else u.entry j := fun j => setSlot_entry u i j _
  have bd : (u.entryNow i k).body i = u.body i := by
    unfold State.entryNow; rw [setSlot_body, if_pos rfl]; rfl
  have bz : (u.entryNow i k).busy h.line ↔ u.busy h.line := by
    constructor
    · rintro ⟨j, x, hx, hl, hz⟩
      rw [en] at hx
      split at hx
      · cases hx; rw [kb] at hz; cases hz
      · exact ⟨j, x, hx, hl, hz⟩
    · rintro ⟨j, x, hx, hl, hz⟩
      refine ⟨j, x, ?_, hl, hz⟩
      rw [en, if_neg]
      · exact hx
      · rintro rfl
        rw [e] at hx; cases hx; rw [hb] at hz; cases hz
  have now : ∀ (l : LineId) (lev : Level) (x : Header), ((u.entryNow i k).setScheduled l lev).entryNow i x =
      (u.setScheduled l lev).entryNow i x := fun l lev x => entryNow_entryNow (u.setScheduled l lev) i k x
  have ended : ∀ (l : LineId) (lev : Level) (o : EntryOutcome), ((u.entryNow i k).setScheduled l lev).entryEnded i h o =
      (u.setScheduled l lev).entryEnded i h o := by
    intro l lev o
    unfold State.entryEnded
    congr 1
    exact setSlot_setSlot (u.setScheduled l lev) i _ _
  obtain ⟨a1, a2, a3⟩ := a
  rw [bd] at a2 a3
  refine ⟨fun hm => ?_, fun hm hz => ?_, fun hm hz => ?_⟩
  · obtain ⟨place, hp, hq⟩ := a1 hm
    refine ⟨place, by rw [hp, entryNow_entryNow], fun j x d q hj hx => hq j x d q hj ?_⟩
    rw [en, if_neg hj.symm]; exact hx
  · obtain ⟨b1, b2⟩ := a2 hm (bz.mpr hz)
    refine ⟨fun hv => ?_, fun hv => ?_⟩
    · rw [b1 hv]; unfold State.entryEnded State.entryNow; rw [setSlot_setSlot]
    · rw [b2 hv, entryNow_entryNow]
  · obtain ⟨b1, b2, b3⟩ := a3 hm (fun x => hz (bz.mp x))
    refine ⟨fun lev hl => ?_, fun act w ha => ?_, fun act w q c x ha h1 h2 => ?_⟩
    · obtain ⟨c1, c2⟩ := b1 lev hl
      exact ⟨fun hv => (c1 hv).trans (ended ..), fun hv => (c2 hv).trans (now ..)⟩
    · exact (b2 act w ha).trans (now ..)
    · exact (b3 act w q c x ha h1 h2).trans (now ..)

/-- Nor does what late handling makes of it. -/
theorem latesTo_entryNow {u : State} {i : SlotId} {h k : Header} {due : Count} {out : State}
    (e : u.entry i = some h) (hb : h.status.isBusy = false) (kb : k.status.isBusy = false)
    (a : (u.entryNow i k).latesTo i h due out) : u.latesTo i h due out := by
  have bd : (u.entryNow i k).body i = u.body i := by
    unfold State.entryNow; rw [setSlot_body, if_pos rfl]; rfl
  obtain ⟨a1, a2⟩ := a
  rw [bd] at a1 a2
  refine ⟨fun hl => arrivesAs_entryNow e hb kb (a1 hl), fun hl => ⟨fun hv => ?_, fun hv => ?_⟩⟩
  · rw [(a2 hl).1 hv]; unfold State.entryEnded State.entryNow; rw [setSlot_setSlot]
  · rw [(a2 hl).2 hv, entryNow_entryNow]

theorem distance_eq (a b : Count) : distance a b = (a.toNat + 2 ^ 40 - b.toNat) % 2 ^ 40 := by
  unfold distance; rw [BitVec.toNat_sub]
  congr 1
  have := b.isLt
  omega

/-- A PENDING entry judged against the count (R62, R67, R87). -/
theorem treatPending_eq {s : State} {i : SlotId} {h : Header} {d : Count} (e : s.entry i = some h)
    (k : h.status = .pending d) : s.treatPending i = match judge d s.tb.count with
      | .ahead => s
      | .due => s.arrive i .onTime
      | .behind => s.handleLate i := by
  unfold State.treatPending State.pendingDue
  rw [e]; simp only [Option.bind_some, k, EntryStatus.pendingDue]; try rfl

/-- One matching ARMED entry is armed (R86, R87). -/
theorem armEntry_armsTo {u : State} {i : SlotId} {h : Header} (stamp : Count) (e : u.entry i = some h)
    (ha : h.status = .armed) (c : (u.slot i).wrongBits = [])
    (d : u.maint.mode = .draining → ∃ j k, u.entry j = some k ∧ k.status.isPulse = true) :
    u.armsTo i h stamp (u.armEntry i stamp) := by
  intro delay rep ht due dist
  have hb : h.status.isBusy = false := by rw [ha]; rfl
  have ar : u.armEntry i stamp = (u.entryNow i { h with status := .pending due }).treatPending i := by
    unfold State.armEntry; rw [checkSlot_clean c]; dsimp only; rw [e]; dsimp only; rw [ht]; rfl
  have ve : (u.entryNow i { h with status := .pending due }).entry i = some { h with status := .pending due } := by
    unfold State.entryNow; rw [setSlot_entry, if_pos rfl]
  have vc : ((u.entryNow i { h with status := .pending due }).slot i).wrongBits = [] := by
    unfold State.entryNow; rw [setSlot_slot, if_pos rfl]; exact c
  have vd : (u.entryNow i { h with status := .pending due }).maint.mode = .draining →
      ∃ j k, j ≠ i ∧ (u.entryNow i { h with status := .pending due }).entry j = some k ∧ k.status.isPulse = true := by
    intro hm
    obtain ⟨j, k, hk, hp⟩ := d hm
    have hj : j ≠ i := by
      rintro rfl
      rw [e] at hk; cases hk; rw [ha] at hp; cases hp
    exact ⟨j, k, hj, by unfold State.entryNow; rw [setSlot_entry, if_neg hj.symm]; exact hk, hp⟩
  have tp := treatPending_eq ve rfl
  have hd : dist = distance due u.tb.count := (distance_eq _ _).symm
  have tb : (u.entryNow i { h with status := .pending due }).tb = u.tb := rfl
  rw [tb] at tp
  rw [ar, tp]
  refine ⟨fun h1 h2 => ?_, fun h0 => ?_, fun h1 => ?_⟩ <;> unfold judge
  · rw [if_neg (by omega), if_pos (by omega)]
  · rw [if_pos (by omega)]
    exact arrivesAs_entryNow e hb rfl (arrive_arrivesAs .onTime ve rfl vc)
  · rw [if_neg (by omega), if_neg (by omega)]
    exact latesTo_entryNow e hb rfl (handleLate_latesTo (h := h) ve rfl vc vd)

/-! ## The filter of a line that changes its mode (R102) -/

theorem parkMode_off {k : ParkMode} : k.mode = .off ↔ k = .off := by cases k <;> decide

/-- A filter restarted at the raw level under a new line record, whose drive is one that is given where it is any. -/
theorem raw_restartedUnder {s : State} {n : LineId} {x : LineRec} {drive : Option Level}
    (d : ∀ v, drive = some v → (s.setLine n x).drive n = some v) :
    s.restartedUnder n drive ⟨(s.setLine n x).raw n, none, (s.setLine n x).raw n⟩ := by
  have raw : (s.setLine n x).raw n = if s.held.getLsbD n.val then Level.ofBit (s.level.getLsbD n.val)
      else ((s.setLine n x).drive n).getD (Config.floatingLevel s.free n.val) := rfl
  rw [raw]
  refine ⟨_, rfl, fun held => if_pos held, fun v free hv => ?_⟩
  rw [if_neg (by rw [free]; decide), d v hv]; rfl

/-- The filter of a line that takes its park mode (R11, R102). -/
theorem park_filter (s : State) (n : LineId) : s.filterParked n ((s.line n).mode = .off) ((s.park n).filter n) := by
  unfold State.park
  rw [changeLine_filter]; dsimp only
  refine ⟨fun h => ?_, fun h no => ?_, fun h off => ?_⟩
  · rw [if_pos (parkMode_off.mpr h)]; exact ⟨rfl, rfl⟩
  · rw [if_neg (fun z => h (parkMode_off.mp z)), if_neg (by simpa using no)]
  · rw [if_neg (fun z => h (parkMode_off.mp z)), if_pos (.inl off), if_pos off]
    refine raw_restartedUnder (fun v hv => ?_)
    unfold State.drive
    rw [setLine_line, if_pos rfl]
    cases hk : (s.line n).park with
    | off => exact absurd hk h
    | input => rw [hk] at hv; cases hv
    | parkLow => rw [hk] at hv; cases hv; rfl
    | parkHigh => rw [hk] at hv; cases hv; rfl

/-- The filter of a tested line: restarted, at LOW where the hub drives the pin, when the line leaves OFF, and else as it
was (R12, R102, R134). -/
theorem enterTest_filter (s : State) (n : LineId) (low : s.maint.check.drive n = .low) :
    ((s.line n).mode ≠ .off → (s.enterTest n).filter n = s.filter n) ∧
      ((s.line n).mode = .off → s.restartedUnder n (some .low) ((s.enterTest n).filter n)) := by
  unfold State.enterTest
  rw [changeLine_filter]; dsimp only
  rw [if_neg (by decide)]
  refine ⟨fun h => if_neg (by simpa using h), fun h => ?_⟩
  rw [if_pos (.inl h), if_pos h]
  refine raw_restartedUnder (fun v hv => ?_)
  cases hv
  unfold State.drive
  rw [setLine_line, if_pos rfl]
  exact congrArg some low

/-- The same for each line of a walk. -/
theorem enterTests_filter (l : List LineId) (nd : l.Nodup) (s : State) (low : ∀ m, s.maint.check.drive m = .low)
    (m : LineId) : let t := l.foldl State.enterTest s
    (m ∉ l → t.filter m = s.filter m) ∧ (m ∈ l → ((s.line m).mode ≠ .off → t.filter m = s.filter m) ∧
      ((s.line m).mode = .off → s.restartedUnder m (some .low) (t.filter m))) := by
  induction l generalizing s with
  | nil => exact ⟨fun _ => rfl, fun h => absurd h List.not_mem_nil⟩
  | cons a t ih =>
    obtain ⟨ha, nt⟩ := List.nodup_cons.mp nd
    have u := enterTest_unlined s a
    obtain ⟨no, on⟩ := ih nt (s.enterTest a) (fun k => by rw [unlined_maint u]; exact low k)
    dsimp only [List.foldl_cons] at no on ⊢
    refine ⟨fun hm => ?_, fun hm => ?_⟩
    · obtain ⟨ma, mt⟩ := not_or.mp (fun z => hm (List.mem_cons.mpr z))
      exact (no mt).trans (changeLine_filter_ne _ _ _ _ (Ne.symm ma))
    · rcases eq_or_ne m a with rfl | ma
      · rw [no ha]; exact enterTest_filter s m (low m)
      · obtain ⟨keep, restart⟩ := on ((List.mem_cons.mp hm).resolve_left ma)
        have lm : (s.enterTest a).line m = s.line m := by
          unfold State.enterTest; rw [changeLine_line, if_neg (Ne.symm ma)]
        have fm : (s.enterTest a).filter m = s.filter m := changeLine_filter_ne _ _ _ _ (Ne.symm ma)
        unfold State.restartedUnder at restart ⊢
        rw [lm, unlined_held u, unlined_level u] at restart
        rw [lm, fm] at keep
        exact ⟨keep, restart⟩

/-- The filter of a parked line, said from another state with the same pins, park mode and filter. -/
theorem filterParked_congr {a b : State} {n : LineId} {off : Prop} {f : Filter} (hh : a.held = b.held)
    (hl : a.level = b.level) (hp : (a.line n).park = (b.line n).park) (hf : a.filter n = b.filter n)
    (k : a.filterParked n off f) : b.filterParked n off f := by
  unfold State.filterParked State.restartedUnder at k ⊢
  rw [hh, hl, hp, hf] at k
  exact k

/-! ## The end of a check (R12, R136, R137) -/

theorem offer_ports_congr {t u : State} (h : t.ports = u.ports) (p : PortId) (r : Record) :
    (t.offer p r).ports = (u.offer p r).ports := by
  simp only [State.offer, State.setPort, State.port, h]

/-- A line record and its filter. -/
def State.lineAndFilter (s : State) (n : LineId) : LineRec × Filter := (s.line n, s.filter n)

/-- A walk over lines whose step changes its own line only, by that line and the claims: it acts on each line of the list
as its own step does. -/
theorem foldl_lines {f : State → LineId → State} (claims : ∀ s n, (f s n).claims = s.claims)
    (away : ∀ s n m, n ≠ m → (f s n).lineAndFilter m = s.lineAndFilter m)
    (own : ∀ s t n, t.lineAndFilter n = s.lineAndFilter n → t.claims = s.claims →
      (f t n).lineAndFilter n = (f s n).lineAndFilter n)
    (l : List LineId) (nd : l.Nodup) (s : State) (m : LineId) :
    (l.foldl f s).lineAndFilter m = if m ∈ l then (f s m).lineAndFilter m else s.lineAndFilter m := by
  induction l generalizing s with
  | nil => rfl
  | cons a t ih =>
    obtain ⟨ha, nt⟩ := List.nodup_cons.mp nd
    rw [List.foldl_cons, ih nt]
    by_cases ma : a = m
    · subst ma; rw [if_neg ha, if_pos List.mem_cons_self]
    · by_cases mt : m ∈ t
      · rw [if_pos mt, if_pos (List.mem_cons_of_mem _ mt), own s (f s a) m (away s a m ma) (claims s a)]
      · rw [if_neg mt, if_neg (by simp [mt, Ne.symm ma]), away s a m ma]

/-- A walk over lines whose step changes lines and filters alone, and of these only its own: what a step does to its line
in any such state holds of every line of the list after the walk. -/
theorem foldl_each_line {f : State → LineId → State} {P : LineId → LineRec × Filter → Prop} {s : State}
    (unlined : ∀ u n, (f u n).unlined = u.unlined)
    (away : ∀ u n m, n ≠ m → (f u n).lineAndFilter m = u.lineAndFilter m)
    (own : ∀ u n, u.unlined = s.unlined → u.lineAndFilter n = s.lineAndFilter n → P n ((f u n).lineAndFilter n))
    (l : List LineId) (nd : l.Nodup) (m : LineId) (hm : m ∈ l) : P m ((l.foldl f s).lineAndFilter m) := by
  have gen : ∀ u : State, u.unlined = s.unlined → (∀ n ∈ l, u.lineAndFilter n = s.lineAndFilter n) →
      P m ((l.foldl f u).lineAndFilter m) := by
    induction l with
    | nil => cases hm
    | cons a t ih =>
      intro u hu hs
      obtain ⟨ha, nt⟩ := List.nodup_cons.mp nd
      have keep : ∀ n ∈ t, (f u a).lineAndFilter n = s.lineAndFilter n := fun n hn =>
        (away u a n (fun e => ha (e ▸ hn))).trans (hs n (List.mem_cons_of_mem _ hn))
      rw [List.foldl_cons]
      by_cases mt : m ∈ t
      · exact ih nt mt (f u a) ((unlined u a).trans hu) keep
      · have ma : m = a := (List.mem_cons.mp hm).resolve_right mt
        subst ma
        have stay : ∀ (l : List LineId) (v : State), m ∉ l → (l.foldl f v).lineAndFilter m = v.lineAndFilter m := by
          intro l
          induction l with
          | nil => intro v _; rfl
          | cons b r ihr =>
            intro v hv
            rw [List.foldl_cons, ihr (f v b) (fun x => hv (List.mem_cons_of_mem _ x)),
              away v b m (fun e => hv (e ▸ List.mem_cons_self))]
        rw [stay t (f u m) ha]
        exact own u m hu (hs m List.mem_cons_self)
  exact gen s rfl (fun _ _ => rfl)

/-- A line in TEST gets another mode with its filter length: its filter is cleared in OFF and undisturbed otherwise. -/
theorem changeLine_tested {s : State} {n : LineId} {x : LineRec} (h : (s.line n).mode = .test)
    (f : x.filterLen = (s.line n).filterLen) :
    s.changeLine n x = if x.mode = .off then (s.setLine n x).clearFilter n else s.setLine n x := by
  unfold State.changeLine
  dsimp only
  rw [h, f]
  simp

/-- The record that a line in TEST is restored to (R12). -/
def State.restoredLine (s : State) (p : PortId) (n : LineId) : LineRec :=
  match (s.line n).saved, s.holds p (lineRes n) with
  | some (m, l), true => { s.line n with mode := m, scheduled := l, saved := none }
  | _, _ => { s.line n with mode := (s.line n).park.mode, override := none, saved := none }

theorem restoredLine_length (s : State) (p : PortId) (n : LineId) :
    (s.restoredLine p n).filterLen = (s.line n).filterLen := by
  unfold State.restoredLine; split <;> rfl

theorem restoreLine_eq (s : State) (p : PortId) (n : LineId) :
    s.restoreLine p n = if (s.line n).mode = .test then s.changeLine n (s.restoredLine p n) else s := by
  unfold State.restoreLine State.restoredLine State.park
  dsimp only
  split
  · split
    · rename_i h1 h2; rw [h1, h2]
    · rename_i h1 h2; rw [h1, h2]
    · rename_i h1; rw [h1]
  · rfl

theorem restoreLine_same (s : State) (p : PortId) (n : LineId) :
    { s.restoreLine p n with lines := s.lines, filters := s.filters } = s := by
  rw [restoreLine_eq]
  by_cases h : (s.line n).mode = .test
  · rw [if_pos h, changeLine_tested h (restoredLine_length ..)]
    split <;> rfl
  · rw [if_neg h]

theorem restoreLine_away (s : State) (p : PortId) (n m : LineId) (h : n ≠ m) :
    (s.restoreLine p n).lineAndFilter m = s.lineAndFilter m := by
  rw [restoreLine_eq]
  split
  · unfold State.lineAndFilter
    rw [changeLine_line, if_neg h, changeLine_filter_ne _ _ _ _ h]
  · rfl

/-- One line as the end of a check leaves it. -/
theorem restoreLine_restored (s : State) (p : PortId) (n : LineId) : s.lineRestored p n (s.restoreLine p n) := by
  rw [restoreLine_eq]
  refine ⟨fun h => by rw [if_neg h]; exact ⟨rfl, rfl⟩, fun h => ?_⟩
  have len := restoredLine_length s p n
  rw [if_pos h, changeLine_line, if_pos rfl, changeLine_tested h len]
  refine ⟨fun m l hs hh => ?_, fun hx => ?_, fun hm => by rw [if_neg hm]; rfl, fun hm => ?_⟩
  · unfold State.restoredLine
    rw [hs, (holds_iff ..).mpr hh]
  · unfold State.restoredLine
    split
    · rename_i hs hh
      rcases hx with hx | hx
      · rw [hs] at hx; cases hx
      · exact absurd ((holds_iff ..).mp hh) hx
    · rfl
  · rw [if_pos hm]
    unfold State.clearFilter
    rw [setFilter_filter, if_pos rfl]
    exact ⟨rfl, rfl⟩

theorem lineRestored_congr {s t u : State} {p : PortId} {n : LineId} (h : u.lineAndFilter n = t.lineAndFilter n)
    (r : s.lineRestored p n t) : s.lineRestored p n u := by
  have hl : u.line n = t.line n := congrArg Prod.fst h
  have hf : u.filter n = t.filter n := congrArg Prod.snd h
  unfold State.lineRestored at r ⊢
  rw [hl, hf]
  exact r

theorem restoreLines_same (s : State) (p : PortId) :
    { s.restoreLines p with lines := s.lines, filters := s.filters } = s := by
  unfold State.restoreLines
  generalize allLines = l
  induction l generalizing s with
  | nil => rfl
  | cons a t ih =>
    exact (congrArg (fun u : State => { u with lines := s.lines, filters := s.filters }) (ih (s.restoreLine p a))).trans
      (restoreLine_same s p a)

/-- Every line as the end of a check leaves it (R12). -/
theorem restoreLines_restored (s : State) (p : PortId) (n : LineId) : s.lineRestored p n (s.restoreLines p) := by
  refine lineRestored_congr ?_ (restoreLine_restored s p n)
  have h := foldl_lines (f := fun s n => s.restoreLine p n)
    (fun s n => unlined_claims (restoreLine_unlined s p n)) (fun s n m h => restoreLine_away s p n m h)
    (fun s t n h c => by
      have hl : t.line n = s.line n := congrArg Prod.fst h
      have hf : t.filter n = s.filter n := congrArg Prod.snd h
      have hx : t.restoredLine p n = s.restoredLine p n := by
        unfold State.restoredLine State.holds State.claim; rw [hl, c]
      rw [restoreLine_eq, restoreLine_eq, hl, hx]
      by_cases ht : (s.line n).mode = .test
      · rw [if_pos ht, if_pos ht, changeLine_tested ht (restoredLine_length ..),
          changeLine_tested (by rw [hl]; exact ht) (by rw [restoredLine_length, hl])]
        unfold State.lineAndFilter State.clearFilter
        split <;> simp [hf]
      · rw [if_neg ht, if_neg ht]; exact h)
    allLines (List.nodup_finRange 16) s n
  rw [if_pos (by simp [allLines])] at h
  exact h

/-- A check ends with a result, and its requester is told. -/
theorem endCheck_checkEnded (s : State) (p : PortId) (r : CheckResult) : s.checkEnded p r (s.endCheck p r true) := by
  have same := restoreLines_same s p
  have hm := unlined_maint (restoreLines_unlined s p)
  have hp := unlined_ports (restoreLines_unlined s p)
  have each := fun n => restoreLines_restored s p n
  unfold State.endCheck
  rw [if_pos rfl]
  generalize s.restoreLines p = u at same hm hp each
  refine ⟨?_, congrArg (fun m : Maint => { m with check := .finished r }) hm, each, ?_⟩
  · exact (congrArg (fun u : State => { u with maint := s.maint, ports := s.ports }) same)
  · exact offer_ports_congr (t := u.setCheck (.finished r)) hp p _

end Sys2Proof.Machine
end

