-- ==== Sys2Proof/Laws/Withdraw.lean ====
section
/-! SUPPORT. Entries withdrawn one after another: which slots they leave, what becomes of the lines, and which records
stand in which order (R28, R70, R72, R74, R89, R95). -/

namespace Sys2Proof.Machine

/-! ## The list that an operation walks through is the one in post order -/

theorem sortBy_pairwise {α : Type} {le : α → α → Bool} (total : ∀ a b, le a b = true ∨ le b a = true)
    (trans : ∀ a b c, le a b = true → le b c = true → le a c = true) (l : List α) :
    (sortBy le l).Pairwise (fun a b => le a b = true) := by
  have ins : ∀ (a : α) (l : List α), l.Pairwise (fun a b => le a b = true) →
      (insertBy le a l).Pairwise (fun a b => le a b = true) := by
    intro a l h
    induction l with
    | nil => exact List.pairwise_singleton ..
    | cons b t ih =>
      obtain ⟨h1, h2⟩ := List.pairwise_cons.mp h
      simp only [insertBy]; split
      · rename_i hab
        exact List.pairwise_cons.mpr ⟨fun c hc => (List.mem_cons.mp hc).elim (fun e => e ▸ hab)
          (fun hc => trans a b c hab (h1 c hc)), h⟩
      · rename_i hab
        refine List.pairwise_cons.mpr ⟨fun c hc => ?_, ih h2⟩
        rcases (mem_insertBy le a c t).mp hc with rfl | hc
        · exact (total c b).resolve_left hab
        · exact h1 c hc
  induction l with
  | nil => exact List.Pairwise.nil
  | cons a t ih => exact ins a _ ih

theorem entriesWhere_pairwise (s : State) (f : Header → Bool) :
    (s.entriesWhere f).Pairwise (fun i j => s.orderOf i ≤ s.orderOf j) := by
  have h := sortBy_pairwise (le := fun i j => decide (s.orderOf i ≤ s.orderOf j))
    (fun a b => by simpa using le_total (s.orderOf a) (s.orderOf b))
    (fun a b c x y => by simp at x y ⊢; omega) (allSlots.filter (fun i => (s.entry i).any f))
  exact h.imp (fun x => of_decide_eq_true x)

theorem entriesWhere_nodup (s : State) (f : Header → Bool) : (s.entriesWhere f).Nodup :=
  (sortBy_perm ..).nodup_iff.mpr ((List.nodup_finRange 128).filter _)

/-- A list put in the order of a key is the one list of the same members in which the key rises. -/
theorem sortBy_eq {key : SlotId → Nat} {m l : List SlotId} (nm : m.Nodup) (strict : l.Pairwise (fun i j => key i < key j))
    (mem : ∀ i, i ∈ m ↔ i ∈ l) : sortBy (fun i j => decide (key i ≤ key j)) m = l := by
  have nd : l.Nodup := strict.imp (fun x e => absurd (e ▸ x) (lt_irrefl _))
  have sorted := (sortBy_pairwise (le := fun i j => decide (key i ≤ key j))
    (fun a b => by simpa using le_total (key a) (key b)) (fun a b c x y => by simp at x y ⊢; omega) m).imp
      (fun x => of_decide_eq_true x)
  refine ((sortBy_perm _ m).trans ((List.perm_ext_iff_of_nodup nm nd).mpr mem)).eq_of_pairwise
    (fun a b ha hb x y => ?_) sorted (strict.imp (fun x => le_of_lt x))
  by_contra e
  have := List.pairwise_iff_getElem.mp strict
  obtain ⟨i, hi, rfl⟩ := List.getElem_of_mem ((mem a).mp ((mem_sortBy _ a m).mp ha))
  obtain ⟨j, hj, rfl⟩ := List.getElem_of_mem hb
  rcases Nat.lt_trichotomy i j with o | o | o
  · have := this i j hi hj o; omega
  · subst o; exact e rfl
  · have := this j i hj hi o; omega

/-- The walk of an operation over the entries of a kind is the list of them in post order. -/
theorem postOrdered_entriesWhere {s : State} {f : Header → Prop} {g : Header → Bool} (hg : ∀ h, g h = true ↔ f h)
    {l : List SlotId} (h : s.postOrdered f l) : s.entriesWhere g = l := by
  refine sortBy_eq ((List.nodup_finRange 128).filter _) h.1 (fun i => ?_)
  rw [List.mem_filter, h.2 i, Option.any_eq_true]
  exact ⟨fun ⟨_, k, e, x⟩ => ⟨k, e, (hg k).mp x⟩, fun ⟨k, e, x⟩ => ⟨by simp [allSlots], k, e, (hg k).mpr x⟩⟩

/-- A list in post order names each slot once. -/
theorem postOrdered_nodup {s : State} {f : Header → Prop} {l : List SlotId} (h : s.postOrdered f l) : l.Nodup :=
  h.1.imp (fun x e => absurd (e ▸ x) (lt_irrefl _))

/-! ## One withdrawal -/

theorem reportDrain_same (s : State) : { s.reportDrain with maint := s.maint, ports := s.ports } = s := by
  unfold State.reportDrain State.goDirect; split <;> rfl

/-- A withdrawal: the pulse is cut, the entry completes, and the report follows. -/
theorem withdraw_eq {s : State} {i : SlotId} {h : Header} {o : EntryOutcome} (e : s.entry i = some h) :
    s.withdraw i o = ((s.cutPulse h).entryEnded i h o).reportDrain := by
  unfold State.withdraw; rw [e]; dsimp only
  refine complete_eq ?_ o
  unfold State.cutPulse; split
  · exact e
  · exact e

theorem withdraw_slot {s : State} {i : SlotId} {h : Header} {o : EntryOutcome} (e : s.entry i = some h)
    (j : SlotId) : (s.withdraw i o).slot j = if i = j then ⟨Body.free, [], none⟩ else s.slot j := by
  have cut : (s.cutPulse h).pool = s.pool := by unfold State.cutPulse; split <;> rfl
  have rep : ∀ u : State, u.reportDrain.slot j = u.slot j := fun u => by
    unfold State.slot; rw [congrArg State.pool (reportDrain_same u).symm]
  rw [withdraw_eq e, rep]
  refine (setSlot_slot (s.cutPulse h) i j _).trans ?_
  split
  · rfl
  · unfold State.slot; rw [cut]

theorem withdraw_line {s : State} {i : SlotId} {h : Header} {o : EntryOutcome} (e : s.entry i = some h)
    (n : LineId) : (s.withdraw i o).line n =
      if h.line = n ∧ h.status.isPulse = true then { s.line n with scheduled := (s.line n).scheduled.opposite }
      else s.line n := by
  have rep : ∀ u : State, u.reportDrain.line n = u.line n := fun u => by
    unfold State.line; rw [congrArg State.lines (reportDrain_same u).symm]
  rw [withdraw_eq e, rep]
  show (s.cutPulse h).line n = _
  unfold State.cutPulse
  by_cases hp : h.status.isPulse = true
  · rw [if_pos hp]
    unfold State.setScheduled
    rw [setLine_line]
    by_cases hn : h.line = n
    · subst hn; rw [if_pos rfl, if_pos ⟨rfl, hp⟩]
    · rw [if_neg hn, if_neg (fun x => hn x.1)]
  · rw [if_neg hp, if_neg (fun x => hp x.2)]

theorem withdraw_same (s : State) (i : SlotId) {o : EntryOutcome} :
    { s.withdraw i o with pool := s.pool, lines := s.lines, ports := s.ports, maint := s.maint } = s := by
  cases e : s.entry i with
  | none => unfold State.withdraw; rw [e]
  | some h =>
    rw [withdraw_eq e]
    unfold State.reportDrain State.cutPulse; split <;> split <;> rfl

theorem withdraw_other {s : State} {i j : SlotId} {h : Header} {o : EntryOutcome} (e : s.entry i = some h)
    (hj : i ≠ j) : (s.withdraw i o).entry j = s.entry j := by
  unfold State.entry; rw [withdraw_slot e, if_neg hj]

/-! ## Several withdrawals -/

variable {s : State} {o : EntryOutcome} {l : List SlotId}

theorem withdrawAll_cons (s : State) (i : SlotId) (t : List SlotId) (o : EntryOutcome) :
    s.withdrawAll (i :: t) o = (s.withdraw i o).withdrawAll t o := rfl

theorem withdrawAll_same (s : State) (l : List SlotId) {o : EntryOutcome} :
    { s.withdrawAll l o with pool := s.pool, lines := s.lines, ports := s.ports, maint := s.maint } = s := by
  induction l generalizing s with
  | nil => rfl
  | cons i t ih =>
    exact (congrArg (fun u : State => { u with pool := s.pool, lines := s.lines, ports := s.ports, maint := s.maint })
      (ih (s.withdraw i o))).trans (withdraw_same s i)

/-- Every slot of the list is FREE afterwards, and every other is as it was. -/
theorem withdrawAll_slot (occ : ∀ i ∈ l, ∃ h, s.entry i = some h) (nd : l.Nodup) (j : SlotId) :
    (s.withdrawAll l o).slot j = if j ∈ l then ⟨Body.free, [], none⟩ else s.slot j := by
  induction l generalizing s with
  | nil => simp [State.withdrawAll]
  | cons i t ih =>
    obtain ⟨h, e⟩ := occ i List.mem_cons_self
    obtain ⟨hi, nt⟩ := List.nodup_cons.mp nd
    rw [withdrawAll_cons, ih ?_ nt, withdraw_slot e]
    · by_cases ht : j ∈ t
      · rw [if_pos ht, if_pos (List.mem_cons_of_mem _ ht)]
      · by_cases hj : i = j
        · subst hj; simp [ht]
        · rw [if_neg ht, if_neg hj, if_neg (by simp [ht, Ne.symm hj])]
    · intro x hx
      rw [withdraw_other e (fun y => hi (y ▸ hx))]
      exact occ x (List.mem_cons_of_mem _ hx)

/-- A line changes its scheduled level only, and only by a pulse that is cut on it. -/
theorem withdrawAll_line (occ : ∀ i ∈ l, ∃ h, s.entry i = some h) (nd : l.Nodup) (n : LineId) :
    { (s.withdrawAll l o).line n with scheduled := (s.line n).scheduled } = s.line n ∧
    ((∀ i ∈ l, ∀ h, s.entry i = some h → h.line = n → h.status.isPulse = false) →
      (s.withdrawAll l o).line n = s.line n) ∧
    (∀ i h, i ∈ l → s.entry i = some h → h.line = n → h.status.isPulse = true →
      (∀ j ∈ l, ∀ x, s.entry j = some x → x.line = n → x.status.isPulse = true → j = i) →
      ((s.withdrawAll l o).line n).scheduled = other (s.line n).scheduled) := by
  induction l generalizing s with
  | nil => exact ⟨rfl, fun _ => rfl, fun i _ hi => absurd hi (by simp)⟩
  | cons i t ih =>
    obtain ⟨h, e⟩ := occ i List.mem_cons_self
    obtain ⟨hi, nt⟩ := List.nodup_cons.mp nd
    have keep : ∀ j ∈ t, (s.withdraw i o).entry j = s.entry j := fun j hj =>
      withdraw_other e (fun y => hi (y ▸ hj))
    obtain ⟨h1, h2, h3⟩ := ih (s := s.withdraw i o)
      (fun x hx => by rw [keep x hx]; exact occ x (List.mem_cons_of_mem _ hx)) nt
    have wl := withdraw_line (o := o) e n
    rw [withdrawAll_cons]
    refine ⟨?_, fun c => ?_, fun j x hj hx hn hp uniq => ?_⟩
    · have : { (s.withdraw i o).line n with scheduled := (s.line n).scheduled } = s.line n := by
        rw [wl]; split <;> rfl
      exact (congrArg (fun x : LineRec => { x with scheduled := (s.line n).scheduled }) h1).trans this
    · rw [h2 (fun j hj x hx => c j (List.mem_cons_of_mem _ hj) x (by rw [← keep j hj]; exact hx)), wl, if_neg]
      rintro ⟨hn, hp⟩
      rw [c i List.mem_cons_self h e hn] at hp
      cases hp
    · rcases List.mem_cons.mp hj with rfl | hj
      · rw [e] at hx; cases hx
        rw [h2, wl, if_pos ⟨hn, hp⟩]
        · exact opposite_eq_other _
        · intro m hm y hy hyn
          rw [keep m hm] at hy
          by_contra hyp
          have := uniq m (List.mem_cons_of_mem _ hm) y hy hyn (by simpa using hyp)
          exact hi (this ▸ hm)
      · refine (h3 j x (by exact hj) (by rw [keep j hj]; exact hx) hn hp
          (fun m hm y hy => uniq m (List.mem_cons_of_mem _ hm) y (by rw [← keep m hm]; exact hy))).trans ?_
        rw [wl, if_neg]
        rintro ⟨hl, hq⟩
        exact hi ((uniq i List.mem_cons_self h e hl hq) ▸ hj)

/-- The level of a line after the entries of a kind were withdrawn (R70, R95). -/
theorem withdrawAll_levelCut {f : Header → Prop} (mem : ∀ i, i ∈ l ↔ ∃ h, s.entry i = some h ∧ f h)
    (nd : l.Nodup) (n : LineId) : s.levelCut f n ((s.withdrawAll l o).line n).scheduled := by
  obtain ⟨-, h2, h3⟩ := withdrawAll_line (fun i hi => ((mem i).mp hi).imp (fun _ x => x.1)) nd n
  refine ⟨fun c => ?_, fun i h c uniq => ?_⟩
  · rw [h2]
    intro i hi h e hn
    obtain ⟨x, ex, fx⟩ := (mem i).mp hi
    rw [e] at ex; cases ex
    by_contra hp
    exact c i h ⟨e, fx, hn, by simpa using hp⟩
  · obtain ⟨e, fh, hn, hp⟩ := c
    refine h3 i h ((mem i).mpr ⟨h, e, fh⟩) e hn hp (fun j hj x hx hxn hxp => ?_)
    obtain ⟨y, ey, fy⟩ := (mem j).mp hj
    rw [hx] at ey; cases ey
    exact uniq j x ⟨hx, fy, hxn, hxp⟩

/-! ## The records, and the end of DRAINING -/

/-- The record of one completion as State.withRecords offers it. -/
def State.withRecord (s : State) (o : EntryOutcome) (t : State) (i : SlotId) : State :=
  match s.entry i with
  | some h => t.offer h.owner (.actionDone i h.tag h.line o h.countA h.countB)
  | none => t

theorem withRecords_eq (s : State) (l : List SlotId) (o : EntryOutcome) :
    s.withRecords l o = l.foldl (s.withRecord o) s := rfl

theorem withRecord_ports (s : State) (o : EntryOutcome) {t u : State} (h : t.ports = u.ports) (i : SlotId) :
    (s.withRecord o t i).ports = (s.withRecord o u i).ports := by
  unfold State.withRecord; split
  · exact offer_ports_congr h _ _
  · exact h

theorem withRecords_congr (s : State) (o : EntryOutcome) (l : List SlotId) {t u : State} (h : t.ports = u.ports) :
    (l.foldl (s.withRecord o) t).ports = (l.foldl (s.withRecord o) u).ports := by
  induction l generalizing t u with
  | nil => exact h
  | cons i r ih => exact ih (withRecord_ports s o h i)

theorem withRecords_pool (s t : State) (o : EntryOutcome) (l : List SlotId) :
    (l.foldl (s.withRecord o) t).pool = t.pool := by
  induction l generalizing t with
  | nil => rfl
  | cons i r ih => exact (ih (s.withRecord o t i)).trans (by unfold State.withRecord; split <;> rfl)

/-- While no withdrawal of the list ends the draining, only records are offered. -/
theorem withdrawAll_quiet {s₀ : State} (nd : l.Nodup)
    (occ : ∀ i ∈ l, ∃ h, s.entry i = some h) (same : ∀ i ∈ l, s.entry i = s₀.entry i)
    (d : s.maint.mode = .draining → ∃ j x, j ∉ l ∧ s.entry j = some x ∧ x.status.isPulse = true) :
    (s.withdrawAll l o).maint = s.maint ∧ (s.withdrawAll l o).ports = (l.foldl (s₀.withRecord o) s).ports := by
  induction l generalizing s with
  | nil => exact ⟨rfl, rfl⟩
  | cons i t ih =>
    obtain ⟨h, e⟩ := occ i List.mem_cons_self
    obtain ⟨hi, nt⟩ := List.nodup_cons.mp nd
    have quiet : s.withdraw i o = (s.cutPulse h).entryEnded i h o := by
      rw [withdraw_eq e, reportDrain_none]
      intro hm
      have hm' : s.maint.mode = .draining := by
        have : ((s.cutPulse h).entryEnded i h o).maint = s.maint := by
          unfold State.cutPulse; split <;> rfl
        rw [this] at hm; exact hm
      obtain ⟨j, x, hj, hx, hp⟩ := d hm'
      refine ⟨j, x, ?_, hp⟩
      rw [entryEnded_entry, if_neg (fun y : i = j => hj (y ▸ List.mem_cons_self))]
      have : (s.cutPulse h).entry j = s.entry j := by unfold State.cutPulse; split <;> rfl
      rw [this]; exact hx
    have keep : ∀ j, j ≠ i → (s.withdraw i o).entry j = s.entry j := fun j hj => withdraw_other e hj.symm
    have hm : (s.withdraw i o).maint = s.maint := by
      rw [quiet]; unfold State.cutPulse; split <;> rfl
    have hp : (s.withdraw i o).ports = (s₀.withRecord o s i).ports := by
      unfold State.withRecord
      rw [quiet, ← same i List.mem_cons_self, e]
      unfold State.cutPulse; split <;> rfl
    have ne : ∀ j ∈ t, j ≠ i := fun j hj y => hi (y ▸ hj)
    obtain ⟨h1, h2⟩ := ih (s := s.withdraw i o) nt
      (fun j hj => by rw [keep j (ne j hj)]; exact occ j (List.mem_cons_of_mem _ hj))
      (fun j hj => by rw [keep j (ne j hj)]; exact same j (List.mem_cons_of_mem _ hj))
      (fun hd => by
        rw [hm] at hd
        obtain ⟨j, x, hj, hx, hxp⟩ := d hd
        exact ⟨j, x, fun y => hj (List.mem_cons_of_mem _ y),
          by rw [keep j (fun y => hj (y ▸ List.mem_cons_self))]; exact hx, hxp⟩)
    exact ⟨h1.trans hm, h2.trans (withRecords_congr s₀ o t hp)⟩

theorem withdrawAll_append (s : State) (l r : List SlotId) (o : EntryOutcome) :
    s.withdrawAll (l ++ r) o = (s.withdrawAll l o).withdrawAll r o := List.foldl_append ..

/-- The withdrawal that ends the last pulse in progress while DRAINING: its record, and then the entry into DIRECT. -/
theorem withdraw_last {i : SlotId} {h : Header} (e : s.entry i = some h)
    (hm : s.maint.mode = .draining) (c : ∀ j x, j ≠ i → s.entry j = some x → x.status.isPulse = false) :
    (s.withdraw i o).maint = { s.maint with mode := .direct, drainDeadline := none } ∧
    (s.withdraw i o).ports = (s.withRecord o s i).nowDirect.ports := by
  have cut : ∀ u : State, u = s.cutPulse h → u.pool = s.pool ∧ u.maint = s.maint ∧ u.ports = s.ports := by
    rintro u rfl; unfold State.cutPulse; split <;> exact ⟨rfl, rfl, rfl⟩
  obtain ⟨cp, cm, cq⟩ := cut _ rfl
  rw [withdraw_eq e, reportDrain_now (show ((s.cutPulse h).entryEnded i h o).maint.mode = .draining from by
    rw [show ((s.cutPulse h).entryEnded i h o).maint = s.maint from cm]; exact hm)]
  · refine ⟨congrArg (fun m : Maint => { m with mode := .direct, drainDeadline := none }) cm, ?_⟩
    unfold State.withRecord
    rw [e]
    show (((s.cutPulse h).offer h.owner _).ports).map _ = ((s.offer h.owner _).ports).map _
    simp only [State.offer, State.setPort, State.port, cq]
  · by_contra hp
    obtain ⟨j, x, hx, hxp⟩ := (pulseInProgress_iff _).mp (by simpa using hp)
    rw [entryEnded_entry] at hx
    by_cases hj : i = j
    · rw [if_pos hj] at hx; cases hx
    · rw [if_neg hj] at hx
      have : (s.cutPulse h).entry j = s.entry j := by unfold State.entry State.slot; rw [cp]
      rw [this] at hx
      rw [c j x (Ne.symm hj) hx] at hxp
      cases hxp

/-- A list has one last element with a property. -/
theorem last_unique {α : Type} {P : α → Prop} {a b a' b' : List α} {i i' : α} (eq : a ++ i :: b = a' ++ i' :: b')
    (p : P i) (p' : P i') (n : ∀ j ∈ b, ¬ P j) (n' : ∀ j ∈ b', ¬ P j) : a = a' ∧ i = i' ∧ b = b' := by
  rcases List.append_eq_append_iff.mp eq with ⟨c, rfl, h⟩ | ⟨c, rfl, h⟩
  · cases c with
    | nil => simp at h; exact ⟨by simp, h⟩
    | cons x t =>
      obtain ⟨rfl, rfl⟩ := List.cons.inj h
      exact absurd p' (n i' (by simp))
  · cases c with
    | nil => simp at h; exact ⟨by simp, h.1.symm, h.2.symm⟩
    | cons x t =>
      obtain ⟨rfl, rfl⟩ := List.cons.inj h
      exact absurd p (n' i (by simp))

theorem withRecord_pool {s t : State} (h : t.pool = s.pool) (o : EntryOutcome) : t.withRecord o = s.withRecord o := by
  funext u i
  unfold State.withRecord State.entry State.slot
  rw [h]

/-- The list up to the last pulse, then the entry into DIRECT, then the rest. -/
theorem withdrawAll_drained {a b : List SlotId} {i : SlotId} (nd : (a ++ i :: b).Nodup)
    (occ : ∀ j ∈ a ++ i :: b, ∃ h, s.entry j = some h) (hm : s.maint.mode = .draining)
    (p : ∃ h, s.entry i = some h ∧ h.status.isPulse = true)
    (nb : ∀ j ∈ b, ∀ h, s.entry j = some h → h.status.isPulse = false)
    (all : ∀ j x, s.entry j = some x → x.status.isPulse = true → j ∈ a ++ i :: b) :
    (s.withdrawAll (a ++ i :: b) o).ports = (((s.withRecords (a ++ [i]) o).nowDirect).withRecords b o).ports := by
  obtain ⟨h, e, hp⟩ := p
  obtain ⟨na, nib, disj⟩ := List.nodup_append.mp nd
  obtain ⟨hib, nb'⟩ := List.nodup_cons.mp nib
  have hia : i ∉ a := fun x => disj i x i List.mem_cons_self rfl
  have occ_a : ∀ j ∈ a, ∃ h, s.entry j = some h := fun j hj => occ j (List.mem_append_left _ hj)
  obtain ⟨m1, p1⟩ := withdrawAll_quiet (s₀ := s) na occ_a (fun _ _ => rfl) (fun _ => ⟨i, h, hia, e, hp⟩)
  have rest : ∀ j, j ∉ a → (s.withdrawAll a o).entry j = s.entry j := fun j hj => by
    unfold State.entry; rw [withdrawAll_slot occ_a na, if_neg hj]
  have gone : ∀ j ∈ a, (s.withdrawAll a o).entry j = none := fun j hj => by
    unfold State.entry; rw [withdrawAll_slot occ_a na, if_pos hj]
  have e1 : (s.withdrawAll a o).entry i = some h := (rest i hia).trans e
  obtain ⟨m2, p2⟩ := withdraw_last e1 (m1 ▸ hm) (fun j x hj hx => by
    by_cases ha : j ∈ a
    · rw [gone j ha] at hx; cases hx
    · rw [rest j ha] at hx
      by_contra hxp
      rcases List.mem_append.mp (all j x hx (by simpa using hxp)) with y | y
      · exact ha y
      · rcases List.mem_cons.mp y with rfl | y
        · exact hj rfl
        · exact hxp (nb j y x hx))
  have ne : ∀ j ∈ b, i ≠ j := fun j hj y => hib (y ▸ hj)
  have nab : ∀ j ∈ b, j ∉ a := fun j hj ha => disj j ha j (List.mem_cons_of_mem _ hj) rfl
  have e2 : ∀ j ∈ b, ((s.withdrawAll a o).withdraw i o).entry j = s.entry j := fun j hj =>
    (withdraw_other e1 (ne j hj)).trans (rest j (nab j hj))
  obtain ⟨-, p3⟩ := withdrawAll_quiet (s := (s.withdrawAll a o).withdraw i o) (s₀ := s) nb'
    (fun j hj => by rw [e2 j hj]; exact occ j (List.mem_append_right _ (List.mem_cons_of_mem _ hj)))
    (fun j hj => e2 j hj) (fun x => by rw [m2] at x; cases x)
  have pool : ((s.withRecords (a ++ [i]) o).nowDirect).pool = s.pool := withRecords_pool s s o (a ++ [i])
  rw [withdrawAll_append, withdrawAll_cons, p3, withRecords_eq _ b, withRecord_pool pool]
  refine withRecords_congr s o b (p2.trans ?_)
  have one : (s.withdrawAll a o).withRecord o (s.withdrawAll a o) i = s.withRecord o (s.withdrawAll a o) i := by
    unfold State.withRecord; rw [e1, e]
  rw [one, withRecords_eq, List.foldl_append]
  show ((s.withRecord o (s.withdrawAll a o) i).ports).map _ = ((s.withRecord o (a.foldl (s.withRecord o) s) i).ports).map _
  rw [withRecord_ports s o p1]

/-- What the ports and the hub mode hold after the entries of a kind were withdrawn (R74, R89, R127). -/
theorem withdrawAll_recorded {f : Header → Prop} (mem : ∀ i, i ∈ l ↔ ∃ h, s.entry i = some h ∧ f h)
    (nd : l.Nodup) : (s.drainsOn f → (s.withdrawAll l o).maint = s.maint) ∧
    ∃ u, s.recorded f o l u ∧ (s.withdrawAll l o).ports = u.ports := by
  have occ : ∀ i ∈ l, ∃ h, s.entry i = some h := fun i hi => ((mem i).mp hi).imp (fun _ x => x.1)
  have on : s.drainsOn f → (s.withdrawAll l o).maint = s.maint ∧ (s.withdrawAll l o).ports = (s.withRecords l o).ports := by
    intro d
    refine withdrawAll_quiet nd occ (fun _ _ => rfl) (fun hm => ?_)
    obtain ⟨j, x, hx, hf, hp⟩ := d hm
    refine ⟨j, x, fun hj => ?_, hx, hp⟩
    obtain ⟨y, ey, fy⟩ := (mem j).mp hj
    rw [hx] at ey; cases ey; exact hf fy
  refine ⟨fun d => (on d).1, ?_⟩
  by_cases d : s.drainsOn f
  · exact ⟨s.withRecords l o, ⟨fun _ => rfl, fun x => absurd d x⟩, (on d).2⟩
  · have hm : s.maint.mode = .draining := by
      by_contra hm; exact d (fun x => absurd x hm)
    have all : ∀ j x, s.entry j = some x → x.status.isPulse = true → j ∈ l := by
      intro j x hx hp
      by_contra hj
      exact d (fun _ => ⟨j, x, hx, fun hf => hj ((mem j).mpr ⟨x, hx, hf⟩), hp⟩)
    by_cases last : ∃ before i after, l = before ++ i :: after ∧ (∃ h, s.entry i = some h ∧ h.status.isPulse = true) ∧
        ∀ j ∈ after, ∀ h, s.entry j = some h → h.status.isPulse = false
    · obtain ⟨a, i, b, rfl, ⟨h, e, hp⟩, nb⟩ := last
      refine ⟨((s.withRecords (a ++ [i]) o).nowDirect).withRecords b o, ⟨fun x => absurd x d, ?_⟩, ?_⟩
      · rintro - a' i' b' eq ⟨h', e', hp'⟩ nb'
        obtain ⟨rfl, rfl, rfl⟩ := last_unique (P := fun j => ∃ h, s.entry j = some h ∧ h.status.isPulse = true) eq
          ⟨h, e, hp⟩ ⟨h', e', hp'⟩ (fun j hj ⟨x, hx, hxp⟩ => by rw [nb j hj x hx] at hxp; cases hxp)
          (fun j hj ⟨x, hx, hxp⟩ => by rw [nb' j hj x hx] at hxp; cases hxp)
        rfl
      · exact withdrawAll_drained nd occ hm ⟨h, e, hp⟩ nb all
    · exact ⟨s.withdrawAll l o, ⟨fun x => absurd x d, fun _ a i b e p nb => absurd ⟨a, i, b, e, p, nb⟩ last⟩, rfl⟩

/-- When the withdrawals take the last pulse in progress while DRAINING, the hub is in DIRECT after them (R89). -/
theorem withdrawAll_direct {f : Header → Prop} (mem : ∀ i, i ∈ l ↔ ∃ h, s.entry i = some h ∧ f h)
    (nd : l.Nodup) (d : ¬ s.drainsOn f) (ne : l ≠ []) :
    (s.withdrawAll l o).maint = { s.maint with mode := .direct, drainDeadline := none } := by
  have hm : s.maint.mode = .draining := by
    by_contra hm; exact d (fun x => absurd x hm)
  have all : ∀ j x, s.entry j = some x → x.status.isPulse = true → j ∈ l := by
    intro j x hx hp
    by_contra hj
    exact d (fun _ => ⟨j, x, hx, fun hf => hj ((mem j).mpr ⟨x, hx, hf⟩), hp⟩)
  have gen : ∀ (l : List SlotId) (s : State), l.Nodup → (∀ i ∈ l, ∃ h, s.entry i = some h) →
      s.maint.mode = .draining → (∀ j x, s.entry j = some x → x.status.isPulse = true → j ∈ l) → l ≠ [] →
      (s.withdrawAll l o).maint = { s.maint with mode := .direct, drainDeadline := none } := by
    intro l
    induction l with
    | nil => exact fun s _ _ _ _ h => absurd rfl h
    | cons i t ih =>
      intro s nd occ hm all _
      obtain ⟨h, e⟩ := occ i List.mem_cons_self
      obtain ⟨hi, nt⟩ := List.nodup_cons.mp nd
      have keep : ∀ j, j ≠ i → (s.withdraw i o).entry j = s.entry j := fun j hj => withdraw_other e hj.symm
      have rest : ∀ y ∈ t, ∃ h, (s.withdraw i o).entry y = some h := fun y hy => by
        rw [keep y (fun z => hi (z ▸ hy))]; exact occ y (List.mem_cons_of_mem _ hy)
      rw [withdrawAll_cons]
      by_cases c : ∃ j x, j ≠ i ∧ s.entry j = some x ∧ x.status.isPulse = true
      · obtain ⟨j, x, hj, hx, hp⟩ := c
        have jt : j ∈ t := (List.mem_cons.mp (all j x hx hp)).resolve_left hj
        have m : (s.withdraw i o).maint = s.maint := (withdrawAll_quiet (s := s) (s₀ := s) (l := [i]) (by simp)
          (by simpa using ⟨h, e⟩) (fun _ _ => rfl) (fun _ => ⟨j, x, by simpa using hj, hx, hp⟩)).1
        refine (ih (s.withdraw i o) nt rest (by rw [m]; exact hm) (fun y z hz hzp => ?_) (by rintro rfl; cases jt)).trans
          (by rw [m])
        have hyi : y ≠ i := by
          rintro rfl
          rw [show (s.withdraw y o).entry y = none from withdraw_entry ..] at hz; cases hz
        rw [keep y hyi] at hz
        exact (List.mem_cons.mp (all y z hz hzp)).resolve_left hyi
      · obtain ⟨m, -⟩ := withdraw_last e hm (fun j x hj hx => by
          by_contra y; exact c ⟨j, x, hj, hx, by simpa using y⟩)
        refine (withdrawAll_quiet (s₀ := s.withdraw i o) nt rest (fun _ _ => rfl) (fun x => ?_)).1.trans m
        rw [m] at x; cases x
  exact gen l s nd (fun i hi => ((mem i).mp hi).imp (fun _ x => x.1)) hm all ne

end Sys2Proof.Machine
end

