-- ==== Sys2Proof/Laws/Check.lean ====
section
/-! SUPPORT. The check of a slot in the words of the statements (R142 to R148). -/

namespace Sys2Proof.Machine

variable {s t u : State} {i : SlotId}

/-! ## Error counters and the first-error record -/

theorem setErrors_errors (s : State) (p q : PortId) (c : ErrorCounters) :
    (s.setErrors p c).errors q = if q = p then c else s.errors q := by
  unfold State.errors State.setErrors State.setInteg
  simp only [Vector.getElem_set]
  by_cases h : q = p
  · subst h; simp
  · rw [if_neg h, if_neg (fun e => h (Fin.ext e.symm))]

/-- The record is filled when it was empty, and kept otherwise (R148). -/
theorem noteError_first (s : State) (i : SlotId) (v : Severity) (o : Option PortId) :
    (s.noteError i v o).integ.firstError =
      match s.integ.firstError with
      | some g => some g
      | none => some ⟨i, v, o, BitVec.ofNat 32 s.elapsed⟩ := by
  show (s.integ.note i v o s.elapsed).firstError = _
  unfold Integrity.note
  cases h : s.integ.firstError with
  | none => rfl
  | some g => exact h

/-- An empty record is filled with this error. -/
theorem noteError_fills (h : s.integ.firstError = none) (i : SlotId) (v : Severity) (o : Option PortId) :
    (s.noteError i v o).integ.firstError = some ⟨i, v, o, BitVec.ofNat 32 s.elapsed⟩ := by rw [noteError_first, h]

theorem noteError_kept (s : State) (i : SlotId) (v : Severity) (o : Option PortId) :
    { s.noteError i v o with integ := s.integ } = s ∧
      { (s.noteError i v o).integ with firstError := s.integ.firstError } = s.integ := by
  refine ⟨rfl, ?_⟩
  show { s.integ.note i v o s.elapsed with firstError := s.integ.firstError } = s.integ
  unfold Integrity.note; split <;> rfl

theorem noteError_counters (s : State) (i : SlotId) (v : Severity) (o : Option PortId) :
    (s.noteError i v o).integ.counters = s.integ.counters := congrArg (fun g => g.counters) (noteError_kept s i v o).2

theorem noteError_errors (s : State) (i : SlotId) (v : Severity) (o : Option PortId) (p : PortId) :
    (s.noteError i v o).errors p = s.errors p := by unfold State.errors; rw [noteError_counters]

/-! ## What every check keeps -/

/-- All that a check of a slot leaves alone: other slots, and of pool integrity what is no counter and no first error. -/
structure Checked (s : State) (i : SlotId) (t : State) : Prop where
  same : { t with pool := s.pool, ports := s.ports, lines := s.lines, integ := s.integ, maint := s.maint,
                  free := s.free } = s
  slots : ∀ j, j ≠ i → t.slot j = s.slot j
  integ : { t.integ with counters := s.integ.counters, firstError := s.integ.firstError } = s.integ
  first : ∀ g, s.integ.firstError = some g → t.integ.firstError = some g

namespace Checked

theorem refl (s : State) (i : SlotId) : Checked s i s := ⟨rfl, fun _ _ => rfl, rfl, fun _ h => h⟩

theorem trans (a : Checked s i t) (b : Checked t i u) : Checked s i u where
  same := by
    have h := a.same
    rw [← b.same] at h
    exact h
  slots j hj := (b.slots j hj).trans (a.slots j hj)
  integ := by
    have h := a.integ
    rw [← b.integ] at h
    exact h
  first g h := b.first g (a.first g h)

theorem setSlot (s : State) (i : SlotId) (x : Slot) : Checked s i (s.setSlot i x) :=
  ⟨rfl, fun j hj => by rw [setSlot_slot, if_neg hj.symm], rfl, fun _ h => h⟩

theorem bumpFree (s : State) (i : SlotId) : Checked s i s.bumpFree := ⟨rfl, fun _ _ => rfl, rfl, fun _ h => h⟩

theorem offer (s : State) (i : SlotId) (p : PortId) (r : Record) : Checked s i (s.offer p r) :=
  ⟨rfl, fun _ _ => rfl, rfl, fun _ h => h⟩

theorem setErrors (s : State) (i : SlotId) (p : PortId) (c : ErrorCounters) : Checked s i (s.setErrors p c) :=
  ⟨rfl, fun _ _ => rfl, rfl, fun _ h => h⟩

theorem setScheduled (s : State) (i : SlotId) (n : LineId) (l : Level) : Checked s i (s.setScheduled n l) :=
  ⟨rfl, fun _ _ => rfl, rfl, fun _ h => h⟩

theorem noteError (s : State) (i : SlotId) (v : Severity) (o : Option PortId) : Checked s i (s.noteError i v o) where
  same := rfl
  slots _ _ := rfl
  integ := by
    have h := (noteError_kept s i v o).2
    rw [← h]
  first g h := by rw [noteError_first, h]

theorem reportDrain (s : State) (i : SlotId) : Checked s i s.reportDrain := by
  unfold State.reportDrain; split
  · exact ⟨rfl, fun _ _ => rfl, rfl, fun _ h => h⟩
  · exact refl s i

theorem cutPulse (s : State) (i : SlotId) (h : Header) : Checked s i (s.cutPulse h) := by
  unfold State.cutPulse; split
  · exact setScheduled ..
  · exact refl s i

theorem complete (s : State) (i : SlotId) (o : EntryOutcome) : Checked s i (s.complete i o) := by
  unfold State.complete; split
  · exact refl s i
  · exact ((setSlot s i _).trans (offer ..)).trans (reportDrain ..)

theorem withdraw (s : State) (i : SlotId) (o : EntryOutcome) : Checked s i (s.withdraw i o) := by
  unfold State.withdraw; split
  · exact refl s i
  · exact (cutPulse ..).trans (complete ..)

theorem chargeCorrected (s : State) (i : SlotId) (p : PortId) (j : SlotId) : Checked s i (s.chargeCorrected p j) := by
  unfold State.chargeCorrected; dsimp only; split
  · exact (offer ..).trans (setErrors ..)
  · exact setErrors ..

theorem correct (s : State) (i : SlotId) (b : Body) : Checked s i (s.correct i b) := by
  unfold State.correct; dsimp only; split
  · exact (setSlot s i _).trans (noteError ..)
  · exact ((setSlot s i _).trans (chargeCorrected ..)).trans (noteError ..)

theorem loseBody (s : State) (i : SlotId) : Checked s i (s.loseBody i) := by
  unfold State.loseBody; split
  · exact (setSlot s i _).trans (noteError ..)
  · exact (((withdraw ..).trans (setSlot _ i _)).trans (setErrors ..)).trans (noteError ..)

theorem checkSlot (s : State) (i : SlotId) : Checked s i (s.checkSlot i) := by
  unfold State.checkSlot; dsimp only; split
  · exact refl s i
  · split
    · exact (setSlot s i _).trans (bumpFree ..)
    · exact (correct ..).trans (bumpFree ..)
    · exact (loseBody ..).trans (bumpFree ..)

end Checked

/-! ## One and two changed bits -/

theorem checkSlot_one {bit : Nat} (h : (s.slot i).wrongBits = [bit]) :
    s.checkSlot i = (s.correct i (s.slot i).body).bumpFree := by
  unfold State.checkSlot bodyRead; dsimp only; rw [h]; rfl

theorem checkSlot_two {a b : Nat} (h : (s.slot i).wrongBits = [a, b]) : s.checkSlot i = (s.loseBody i).bumpFree := by
  unfold State.checkSlot; dsimp only; rw [h]; rfl

/-- A corrected body: its slot, and all that a correction does not reach. -/
theorem correct_kept (s : State) (i : SlotId) (b : Body) :
    (s.correct i b).slot i = { s.slot i with body := b, wrongBits := [] } ∧ (s.correct i b).lines = s.lines ∧
      (s.correct i b).maint = s.maint := by
  have h : ((s.setSlot i { s.slot i with body := b, wrongBits := [] }).slot i) =
      { s.slot i with body := b, wrongBits := [] } := by rw [setSlot_slot, if_pos rfl]
  unfold State.correct State.chargeCorrected; dsimp only; split
  · exact ⟨h, rfl, rfl⟩
  · split <;> exact ⟨h, rfl, rfl⟩

/-- The counter has just become equal to the threshold (R145). -/
theorem sat8_reaches (c d : Byte) : (sat8 c = d ∧ sat8 c ≠ c) ↔ (c ≠ 255 ∧ c + 1 = d) := by
  unfold sat8
  by_cases h : c = 255#8
  · subst h; simp
  · have ne : c + 1#8 ≠ c := fun e => by
      have := congrArg BitVec.toNat e
      rw [BitVec.toNat_add] at this
      have := c.isLt
      have : (1#8).toNat = 1 := rfl
      omega
    rw [if_neg h]
    exact ⟨fun x => ⟨h, x.1⟩, fun x => ⟨x.2, ne⟩⟩

theorem chargeCorrected_rest (s : State) (p : PortId) (i : SlotId) :
    (s.chargeCorrected p i).integ.firstError = s.integ.firstError ∧ (s.chargeCorrected p i).elapsed = s.elapsed := by
  unfold State.chargeCorrected; dsimp only; split <;> exact ⟨rfl, rfl⟩

/-- A correction charged to its owner, with the threshold notice (R144, R145). -/
theorem chargeCorrected_eq (s : State) (p : PortId) (i : SlotId) :
    let c := s.errors p
    let reaches := c.corrected ≠ 255 ∧ c.corrected + 1 = c.threshold ∧ c.mark = false
    (∀ q, (s.chargeCorrected p i).errors q = if q = p
      then { c with corrected := sat8 c.corrected, mark := if reaches then true else c.mark } else s.errors q) ∧
    (∀ q, (s.chargeCorrected p i).port q = if q = p ∧ reaches
      then (s.port q).enqueue (.integrity (sat8 c.corrected) i) else s.port q) := by
  intro c reaches
  have r : (sat8 c.corrected = c.threshold ∧ sat8 c.corrected ≠ c.corrected ∧ c.mark = false) ↔ reaches := by
    have := sat8_reaches c.corrected c.threshold
    exact ⟨fun x => ⟨(this.mp ⟨x.1, x.2.1⟩).1, (this.mp ⟨x.1, x.2.1⟩).2, x.2.2⟩,
      fun x => ⟨(this.mpr ⟨x.1, x.2.1⟩).1, (this.mpr ⟨x.1, x.2.1⟩).2, x.2.2⟩⟩
  unfold State.chargeCorrected; dsimp only
  by_cases h : reaches
  · rw [if_pos (r.mpr h)]
    refine ⟨fun q => ?_, fun q => ?_⟩
    · rw [setErrors_errors, if_pos h]; rfl
    · show (s.offer p _).port q = _
      rw [offer_port]
      by_cases hq : q = p
      · subst hq; rw [if_pos rfl, if_pos ⟨rfl, h⟩]
      · rw [if_neg (fun e => hq e.symm), if_neg (fun e => hq e.1)]
  · rw [if_neg (fun e => h (r.mp e))]
    refine ⟨fun q => ?_, fun q => ?_⟩
    · rw [setErrors_errors, if_neg h]
    · rw [if_neg (fun e => h e.2)]; rfl

/-- A pulse cut leaves its line at the opposite of the scheduled level, and all else as it was. -/
theorem cutPulse_line (s : State) (h : Header) (n : LineId) :
    (s.cutPulse h).line n = if n = h.line then { s.line h.line with
      scheduled := if h.status.isPulse = true then other (s.line h.line).scheduled else (s.line h.line).scheduled }
      else s.line n := by
  unfold State.cutPulse
  by_cases hp : h.status.isPulse = true
  · rw [if_pos hp, if_pos hp]
    unfold State.setScheduled
    rw [setLine_line, opposite_eq_other]
    by_cases hn : n = h.line
    · rw [if_pos hn, if_pos hn.symm]
    · rw [if_neg hn, if_neg (fun e => hn e.symm)]
  · rw [if_neg hp, if_neg hp]
    by_cases hn : n = h.line
    · subst hn; rw [if_pos rfl]
    · rw [if_neg hn]

theorem cutPulse_kept (s : State) (h : Header) : { s.cutPulse h with lines := s.lines } = s := by
  unfold State.cutPulse; split <;> rfl

/-- The withdrawal of an entry: what it keeps, its line, and, as the statements say it, the record its owner gets and the
end of DRAINING with the last pulse in progress (R89, R127). -/
theorem withdrawn_kept (s : State) (i : SlotId) (h : Header) (o : EntryOutcome) :
    let v := ((s.cutPulse h).entryEnded i h o).reportDrain
    let told := s.offer h.owner (.actionDone i h.tag h.line o h.countA h.countB)
    let beside := ∃ j k, j ≠ i ∧ s.entry j = some k ∧ k.status.isPulse = true
    v.integ = s.integ ∧ v.elapsed = s.elapsed ∧ (∀ n, v.line n = (s.cutPulse h).line n) ∧
    ((s.maint.mode ≠ .draining ∨ beside) → v.maint = s.maint ∧ v.ports = told.ports) ∧
    (s.maint.mode = .draining → ¬ beside → v.maint = told.nowDirect.maint ∧ v.ports = told.nowDirect.ports) := by
  have cut := cutPulse_kept s h
  generalize s.cutPulse h = u at cut
  intro v told beside
  have e : ∀ j, (u.entryEnded i h o).entry j = if i = j then none else s.entry j := fun j => by
    rw [entryEnded_entry, ← cut]; rfl
  have m : (u.entryEnded i h o).maint = s.maint := by rw [← cut]; rfl
  have p : (u.entryEnded i h o).ports = told.ports := by
    show (u.offer h.owner _).ports = _
    exact offer_ports_congr (by rw [← cut]) _ _
  have same := reportDrain_same (u.entryEnded i h o)
  have vi : v.integ = u.integ := by have z := congrArg State.integ same; exact z
  have ve : v.elapsed = u.elapsed := by have z := congrArg State.elapsed same; exact z
  have vl : v.lines = u.lines := by have z := congrArg State.lines same; exact z
  refine ⟨vi.trans (by rw [← cut]), ve.trans (by rw [← cut]), fun n => by unfold State.line; rw [vl], fun c => ?_,
    fun hm hb => ?_⟩
  · have quiet : v = u.entryEnded i h o := reportDrain_none (fun hd => by
      obtain ⟨j, k, hj, hk, hp⟩ := c.resolve_left (fun z => z (m ▸ hd))
      exact ⟨j, k, by rw [e, if_neg hj.symm]; exact hk, hp⟩)
    rw [quiet]; exact ⟨m, p⟩
  · have now : v = (u.entryEnded i h o).nowDirect := by
      refine reportDrain_now (by rw [m]; exact hm) ?_
      by_contra z
      obtain ⟨j, k, hk, hp⟩ := (pulseInProgress_iff _).mp (by simpa using z)
      rw [e] at hk
      split at hk
      · cases hk
      · exact hb ⟨j, k, Ne.symm ‹_›, hk, hp⟩
    rw [now]
    refine ⟨?_, ?_⟩
    · show ({ (u.entryEnded i h o).maint with mode := .direct, drainDeadline := none } : Maint) = _
      rw [m]; rfl
    · exact congrArg (Vector.map _) p

/-- What follows the withdrawal of a lost body changes no line. -/
theorem charged_line (s : State) (i : SlotId) (p : PortId) (n : LineId) :
    (((s.setSlot i Slot.free).chargeUncorrectable p).noteError i .uncorrectable (some p)).bumpFree.line n = s.line n := by
  have h : (((s.setSlot i Slot.free).chargeUncorrectable p).noteError i .uncorrectable (some p)).bumpFree.lines =
      s.lines := rfl
  unfold State.line
  rw [h]

/-- The withdrawal of a lost body: what it keeps, its line, and, outside DRAINING, the record its owner gets. -/
theorem lostEntry_kept (s : State) (i : SlotId) (h : Header) :
    let v := ((s.cutPulse h).entryEnded i h .integrity).reportDrain
    v.integ = s.integ ∧ v.elapsed = s.elapsed ∧ (∀ n, v.line n = (s.cutPulse h).line n) ∧
    (s.maint.mode ≠ .draining → v.maint = s.maint ∧ ∀ q, v.port q = if q = h.owner
      then (s.port q).enqueue (.actionDone i h.tag h.line .integrity h.countA h.countB) else s.port q) := by
  have cut : (s.cutPulse h).integ = s.integ ∧ (s.cutPulse h).elapsed = s.elapsed ∧
      (s.cutPulse h).maint = s.maint ∧ ∀ p, (s.cutPulse h).port p = s.port p := by
    unfold State.cutPulse; split <;> exact ⟨rfl, rfl, rfl, fun _ => rfl⟩
  obtain ⟨c1, c2, c3, c4⟩ := cut
  have drain : ∀ w : State, w.reportDrain.integ = w.integ ∧ w.reportDrain.elapsed = w.elapsed ∧
      w.reportDrain.lines = w.lines := fun w => by
    unfold State.reportDrain; split <;> exact ⟨rfl, rfl, rfl⟩
  obtain ⟨d1, d2, d3⟩ := drain ((s.cutPulse h).entryEnded i h .integrity)
  refine ⟨d1.trans c1, d2.trans c2, fun n => by unfold State.line; rw [d3]; rfl, fun hm => ?_⟩
  have quiet : ((s.cutPulse h).entryEnded i h .integrity).reportDrain =
      (s.cutPulse h).entryEnded i h .integrity :=
    reportDrain_none (fun hd => absurd ((congrArg Maint.mode c3).symm.trans hd) hm)
  rw [quiet]
  refine ⟨c3, fun q => ?_⟩
  unfold State.entryEnded
  rw [offer_port]
  by_cases hq : q = h.owner
  · subst hq; rw [if_pos rfl, if_pos rfl]; exact congrArg (fun x => Port.enqueue x _) (c4 _)
  · rw [if_neg hq, if_neg (fun e => hq e.symm)]; exact c4 q

/-- A check of a slot, in the words of the statements. -/
theorem checkSlot_checkedSlot (s : State) (i : SlotId) : s.checkedSlot i (s.checkSlot i) := by
  have k := Checked.checkSlot s i
  refine ⟨k.same, k.slots, k.integ, k.first, checkSlot_clean, fun bit hb => ?_, fun a b hb => ?_⟩
  · rw [checkSlot_one hb]
    obtain ⟨c1, c2, c3⟩ := correct_kept s i (s.slot i).body
    refine ⟨c1, c2, c3, fun hn => ?_, fun he => ?_, fun h he => ?_⟩
    · show (s.correct i (s.slot i).body).integ.firstError = _
      unfold State.correct; dsimp only
      cases he : s.entry i with
      | none => exact noteError_fills (by exact hn) ..
      | some h =>
        obtain ⟨f, e⟩ := chargeCorrected_rest (s.setSlot i { s.slot i with body := (s.slot i).body, wrongBits := [] })
          h.owner i
        refine (noteError_fills (f.trans hn) ..).trans ?_
        rw [e]; rfl
    · have : s.correct i (s.slot i).body =
          (s.setSlot i { s.slot i with body := (s.slot i).body, wrongBits := [] }).noteError i .corrected none := by
        unfold State.correct; dsimp only; rw [he]
      rw [this]
      exact ⟨noteError_counters .., rfl⟩
    · have : s.correct i (s.slot i).body =
          ((s.setSlot i { s.slot i with body := (s.slot i).body, wrongBits := [] }).chargeCorrected h.owner i).noteError
            i .corrected (some h.owner) := by
        unfold State.correct; dsimp only; rw [he]
      rw [this]
      obtain ⟨e1, e2⟩ := chargeCorrected_eq
        (s.setSlot i { s.slot i with body := (s.slot i).body, wrongBits := [] }) h.owner i
      refine ⟨?_, fun q hq => ?_, fun q => e2 q⟩
      · exact (noteError_errors ..).trans ((e1 h.owner).trans (if_pos rfl))
      · exact (noteError_errors ..).trans ((e1 q).trans (if_neg hq))
  · rw [checkSlot_two hb]
    cases he : s.entry i with
    | none =>
      have : s.loseBody i = (s.setSlot i Slot.free).noteError i .uncorrectable none := by
        unfold State.loseBody; rw [he]
      rw [this]
      refine ⟨?_, fun hn => ?_, fun _ => ⟨noteError_counters .., rfl, rfl⟩, fun h hh => (by cases hh)⟩
      · show (s.setSlot i Slot.free).slot i = _
        rw [setSlot_slot, if_pos rfl]; rfl
      · exact noteError_fills (by exact hn) ..
    | some h =>
      have : s.loseBody i = ((((s.cutPulse h).entryEnded i h .integrity).reportDrain.setSlot i
          Slot.free).chargeUncorrectable h.owner).noteError i .uncorrectable (some h.owner) := by
        unfold State.loseBody; rw [he]; dsimp only; rw [withdraw_eq he]
      rw [this]
      obtain ⟨vi, ve, vl, vm, vd⟩ := withdrawn_kept s i h .integrity
      generalize ((s.cutPulse h).entryEnded i h .integrity).reportDrain = v at vi ve vl vm vd ⊢
      have er : ∀ q, v.errors q = s.errors q := fun q => by unfold State.errors; rw [vi]
      refine ⟨?_, fun hn => ?_, (fun k => by cases k), fun h' hh => ?_⟩
      · show (v.setSlot i Slot.free).slot i = _
        rw [setSlot_slot, if_pos rfl]; rfl
      · refine (noteError_fills (by show v.integ.firstError = none; rw [vi]; exact hn) ..).trans ?_
        show some (⟨i, _, _, BitVec.ofNat 32 v.elapsed⟩ : FirstError) = _
        rw [ve]; rfl
      · cases hh
        refine ⟨?_, fun q hq => ?_, ?_, fun n hn => ?_, vm, vd⟩
        · refine (noteError_errors ..).trans ((setErrors_errors ..).trans ?_)
          rw [if_pos rfl]
          show { v.errors h.owner with uncorrectable := sat8 (v.errors h.owner).uncorrectable } = _
          rw [er]
        · refine (noteError_errors ..).trans ((setErrors_errors ..).trans ?_)
          rw [if_neg hq]
          exact er q
        · rw [charged_line, vl, cutPulse_line, if_pos rfl]
        · rw [charged_line, vl, cutPulse_line, if_neg hn]

end Sys2Proof.Machine
end

