-- ==== Sys2Proof/Laws/Drain.lean ====
section
/-! SUPPORT. The drain limit: every pulse in progress is cut, in post order (R92, R128). -/

namespace Sys2Proof.Machine

variable {s s₀ : State} {i : SlotId} {h : Header}

/-! ## One pulse cut -/

theorem reportDrain_line (u : State) (n : LineId) : u.reportDrain.line n = u.line n := by
  unfold State.line; rw [congrArg State.lines (reportDrain_same u).symm]

theorem reportDrain_slot (u : State) (i : SlotId) : u.reportDrain.slot i = u.slot i := by
  unfold State.slot; rw [congrArg State.pool (reportDrain_same u).symm]

/-- What the cut of a pulse makes of a slot: a PULSE is gone, a TRAIN is SUSPENDED, any other stays (R92). -/
def cutSlot (sl : Slot) : Slot :=
  match sl.entry with
  | none => sl
  | some h => match h.status with
    | .active r => if r.phase = .betweenPulses then sl else
        match r.train with
        | none => ⟨Body.free, [], none⟩
        | some _ => { sl with entry := some { h with status := .suspended { r with phase := .betweenPulses } } }
    | _ => sl

/-- Is a pulse of a PULSE in progress in a slot, which completes CUT? -/
def State.endsCut (s : State) (i : SlotId) : Bool :=
  (s.entry i).any (fun h => match h.status with
    | .active r => r.phase.isPulse && r.train.isNone
    | _ => false)

theorem isPulse_shape (hp : h.status.isPulse = true) : ∃ r e, h.status = .active r ∧ r.phase = .inPulse e := by
  unfold EntryStatus.isPulse EntryStatus.activeRun at hp
  cases hs : h.status with
  | active r =>
    rw [hs] at hp
    cases hq : r.phase with
    | inPulse e => exact ⟨r, e, rfl, hq⟩
    | betweenPulses => simp [hq, RunPhase.isPulse] at hp
  | _ => rw [hs] at hp; simp at hp

theorem cutSlot_pulse {sl : Slot} {r : Run} {e : Nat} (he : sl.entry = some h) (hs : h.status = .active r)
    (hq : r.phase = .inPulse e) : cutSlot sl = match r.train with
      | none => ⟨Body.free, [], none⟩
      | some _ => { sl with entry := some { h with status := .suspended { r with phase := .betweenPulses } } } := by
  unfold cutSlot; rw [he]; dsimp only; rw [hs]; dsimp only; rw [if_neg (by rw [hq]; simp)]

/-- A slot without a pulse in progress is left as it is. -/
theorem cutSlot_quiet {sl : Slot} (q : ∀ h, sl.entry = some h → h.status.isPulse = false) : cutSlot sl = sl := by
  cases e : sl.entry with
  | none => unfold cutSlot; rw [e]
  | some h =>
    have q := q h e
    unfold cutSlot; rw [e]; dsimp only
    cases hs : h.status with
    | active r =>
      dsimp only
      cases hp : r.phase with
      | betweenPulses => rw [if_pos rfl]
      | inPulse x => simp [EntryStatus.isPulse, EntryStatus.activeRun, hs, hp, RunPhase.isPulse] at q
    | _ => rfl

/-- A pulse cut, before the report of R89: its line is inactive, and its entry has completed CUT or is SUSPENDED. -/
theorem drainCut_step (e : s.entry i = some h) (hp : h.status.isPulse = true) :
    ∃ v : State, s.drainCut i = v.reportDrain ∧
      { v with pool := s.pool, lines := s.lines, ports := s.ports } = s ∧
      v.ports = (([i].filter s.endsCut).foldl (s.withRecord .cut) s).ports ∧
      (∀ j, v.slot j = if i = j then cutSlot (s.slot i) else s.slot j) ∧
      ∀ n, v.line n = if h.line = n then { s.line n with scheduled := other (s.line n).scheduled } else s.line n := by
  obtain ⟨r, t, hs, hq⟩ := isPulse_shape hp
  have step : s.drainCut i = match r.train with
      | none => s.withdraw i .cut
      | some _ =>
        ((s.cutPulse h).setStatus i h (.suspended { r with phase := .betweenPulses })).reportDrain := by
    unfold State.drainCut; rw [e]; dsimp only; rw [hs]; dsimp only [EntryStatus.activeRun]; rw [hq]
    refine (if_pos (by rfl)).trans ?_
    cases r.train <;> rfl
  have cut : s.cutPulse h = s.setScheduled h.line (other (s.line h.line).scheduled) := by
    unfold State.cutPulse; rw [if_pos hp, opposite_eq_other]
  have line : ∀ n, (s.setScheduled h.line (other (s.line h.line).scheduled)).line n =
      if h.line = n then { s.line n with scheduled := other (s.line n).scheduled } else s.line n := fun n => by
    unfold State.setScheduled
    rw [setLine_line]; split
    · rename_i hn; rw [hn]
    · rfl
  have gone := cutSlot_pulse (sl := s.slot i) e hs hq
  rw [step]
  cases ht : r.train with
  | none =>
    rw [ht] at gone
    refine ⟨(s.cutPulse h).entryEnded i h .cut, withdraw_eq e, ?_, ?_, fun j => ?_, fun n => ?_⟩
    · rw [cut]; rfl
    · have ends : s.endsCut i = true := by unfold State.endsCut; rw [e]; simp [hs, hq, ht, RunPhase.isPulse]
      simp only [List.filter, ends, List.foldl]
      unfold State.withRecord; rw [e, cut]; rfl
    · rw [cut, gone]; exact setSlot_slot ..
    · rw [cut]; exact line n
  | some x =>
    rw [ht] at gone
    refine ⟨_, rfl, ?_, ?_, fun j => ?_, fun n => ?_⟩
    · rw [cut]; rfl
    · have ends : s.endsCut i = false := by unfold State.endsCut; rw [e]; simp [hs, ht]
      simp only [List.filter, ends, List.foldl]
      rw [cut]; rfl
    · rw [cut, gone]; exact setSlot_slot ..
    · rw [cut]; exact line n

/-- A cut pulse is no longer in progress. -/
theorem cutSlot_ends {k : Header} {sl : Slot} (hk : (cutSlot sl).entry = some k) : k.status.isPulse = false := by
  cases e : sl.entry with
  | none => unfold cutSlot at hk; rw [e] at hk; dsimp only at hk; rw [e] at hk; cases hk
  | some a =>
    by_cases hp : a.status.isPulse = true
    · obtain ⟨r, x, hs, hq⟩ := isPulse_shape hp
      rw [cutSlot_pulse e hs hq] at hk
      cases hr : r.train <;> rw [hr] at hk <;> cases hk
      rfl
    · rw [cutSlot_quiet (fun y hy => by rw [e] at hy; cases hy; simpa using hp), e] at hk
      cases hk; simpa using hp

/-! ## Every pulse cut -/

/-- The pulses of a list that holds every pulse in progress are cut, one after another: the slots, the levels, the
records, and the report of R89 with the last. -/
theorem drainCuts (l : List SlotId) (s : State) (nd : l.Nodup) (same : ∀ i ∈ l, s.slot i = s₀.slot i)
    (occ : ∀ i ∈ l, ∃ h, s₀.entry i = some h ∧ h.status.isPulse = true) (m : s.maint.mode = .draining)
    (all : ∀ j x, s.entry j = some x → x.status.isPulse = true → j ∈ l) (ne : l ≠ []) :
    let t := l.foldl (fun s i => s.drainCut i) s
    { t with maint := s.maint, pool := s.pool, lines := s.lines, ports := s.ports } = s ∧
    t.maint = { s.maint with mode := .direct, drainDeadline := none } ∧
    t.ports = (((l.filter s₀.endsCut).foldl (s₀.withRecord .cut) s).offerAll .directEntered).ports ∧
    (∀ j, t.slot j = if j ∈ l then cutSlot (s₀.slot j) else s.slot j) ∧
    ∀ n, { t.line n with scheduled := (s.line n).scheduled } = s.line n ∧
      ((∀ i ∈ l, ∀ h, s₀.entry i = some h → h.line ≠ n) → t.line n = s.line n) ∧
      ∀ i ∈ l, ∀ h, s₀.entry i = some h → h.line = n →
        (∀ j ∈ l, ∀ k, s₀.entry j = some k → k.line = n → j = i) → (t.line n).scheduled = other (s.line n).scheduled := by
  induction l generalizing s with
  | nil => exact absurd rfl ne
  | cons i t ih =>
    obtain ⟨hi, nt⟩ := List.nodup_cons.mp nd
    obtain ⟨h, e₀, hp⟩ := occ i List.mem_cons_self
    have sl := same i List.mem_cons_self
    have en : s.entry i = s₀.entry i := congrArg Slot.entry sl
    have e : s.entry i = some h := en.trans e₀
    obtain ⟨v, hv, vs, vp, vo, vl⟩ := drainCut_step e hp
    rw [sl] at vo
    have vm : v.maint = s.maint := by have z := congrArg State.maint vs; exact z
    have ends : s.endsCut i = s₀.endsCut i := by unfold State.endsCut; rw [en]
    have wr : ∀ u, s.withRecord .cut u i = s₀.withRecord .cut u i := fun u => by unfold State.withRecord; rw [en]
    have vp' : v.ports = (([i].filter s₀.endsCut).foldl (s₀.withRecord .cut) s).ports := by
      rw [vp]; simp only [List.filter, ends]
      cases s₀.endsCut i <;> simp [wr]
    have one : (i :: t).filter s₀.endsCut = [i].filter s₀.endsCut ++ t.filter s₀.endsCut := by
      rw [← List.filter_append]; rfl
    have left : ∀ j x, v.entry j = some x → x.status.isPulse = true → j ∈ t := fun j x hj xp => by
      have hj' : (v.slot j).entry = some x := hj
      rw [vo] at hj'
      split at hj'
      · rw [cutSlot_ends hj'] at xp; cases xp
      · exact (List.mem_cons.mp (all j x hj' xp)).resolve_left (fun z => by exact ‹¬ i = j› z.symm)
    dsimp only
    rw [List.foldl_cons, one, List.foldl_append]
    by_cases hx : t = []
    · subst hx
      have np : v.pulseInProgress = false := by
        by_contra z
        obtain ⟨j, x, hj, xp⟩ := (pulseInProgress_iff v).mp (by simpa using z)
        exact absurd (left j x hj xp) (by simp)
      rw [List.foldl_nil, hv, reportDrain_now (by rw [vm]; exact m) np]
      refine ⟨?_, ?_, ?_, fun j => ?_, fun n => ⟨?_, fun hn => ?_, fun j hj k hk hn _ => ?_⟩⟩
      · exact congrArg (fun x : State => { x with maint := s.maint }) vs
      · show ({ v.maint with mode := .direct, drainDeadline := none } : Maint) = _; rw [vm]
      · exact congrArg (Vector.map _) vp'
      · refine (vo j).trans ?_
        by_cases hj : i = j
        · subst hj; simp
        · rw [if_neg hj, if_neg (by simpa using Ne.symm hj)]
      · show { v.line n with scheduled := (s.line n).scheduled } = s.line n
        rw [vl]; split <;> rfl
      · exact (vl n).trans (if_neg (hn i List.mem_cons_self h e₀))
      · have hji : j = i := by simpa using hj
        subst hji
        rw [e₀] at hk; cases hk
        exact congrArg LineRec.scheduled ((vl n).trans (if_pos hn))
    · obtain ⟨y, hy⟩ := List.exists_mem_of_ne_nil t hx
      have quiet : s.drainCut i = v := by
        rw [hv]; refine reportDrain_none (fun _ => ?_)
        obtain ⟨k, hk, kp⟩ := occ y (List.mem_cons_of_mem _ hy)
        refine ⟨y, k, ?_, kp⟩
        unfold State.entry
        rw [vo, if_neg (fun z : i = y => hi (z ▸ hy)), same y (List.mem_cons_of_mem _ hy)]; exact hk
      rw [quiet]
      have away : ∀ j ∈ t, i ≠ j := fun j hj z => hi (z ▸ hj)
      obtain ⟨a1, a2, a3, a4, a5⟩ := ih v nt
        (fun j hj => by rw [vo, if_neg (away j hj)]; exact same j (List.mem_cons_of_mem _ hj))
        (fun j hj => occ j (List.mem_cons_of_mem _ hj)) (by rw [vm]; exact m) left hx
      generalize t.foldl (fun s i => s.drainCut i) v = w at a1 a2 a3 a4 a5
      refine ⟨?_, ?_, ?_, fun j => ?_, fun n => ?_⟩
      · exact (congrArg (fun x : State => { x with
          maint := s.maint, pool := s.pool, lines := s.lines, ports := s.ports }) a1).trans
          (congrArg (fun x : State => { x with maint := s.maint }) vs)
      · rw [a2, vm]
      · exact a3.trans (congrArg (Vector.map _) (withRecords_congr s₀ .cut (t.filter s₀.endsCut) vp'))
      · rw [a4, vo]
        by_cases hj : i = j
        · subst hj; simp [hi]
        · simp [hj, Ne.symm hj]
      · obtain ⟨b1, b2, b3⟩ := a5 n
        refine ⟨?_, fun hn => ?_, fun j hj k hk hn hu => ?_⟩
        · refine (congrArg (fun x : LineRec => { x with scheduled := (s.line n).scheduled }) b1).trans ?_
          rw [vl]; split <;> rfl
        · rw [b2 (fun j hj => hn j (List.mem_cons_of_mem _ hj)), vl, if_neg (hn i List.mem_cons_self h e₀)]
        · rcases List.mem_cons.mp hj with rfl | hjt
          · rw [e₀] at hk; cases hk
            rw [b2 (fun x hx y hy hz => away x hx (hu x (List.mem_cons_of_mem _ hx) y hy hz).symm), vl, if_pos hn]
          · rw [b3 j hjt k hk hn (fun x hx => hu x (List.mem_cons_of_mem _ hx)), vl,
              if_neg (fun hn' => hi (hu i List.mem_cons_self h e₀ hn' ▸ hjt))]

/-- The PULSEs among the pulses in progress, in post order, are those that complete CUT. -/
theorem endsCut_list (s : State) (l : List SlotId)
    (hl : s.postOrdered (fun h => ∃ r e, h.status = .active r ∧ r.phase = .inPulse e ∧ r.train = none) l) :
    (s.entriesWhere (fun h => h.status.isPulse)).filter s.endsCut = l := by
  have ends : ∀ i, s.endsCut i = true ↔
      ∃ h, s.entry i = some h ∧ ∃ r e, h.status = .active r ∧ r.phase = .inPulse e ∧ r.train = none := by
    intro i
    unfold State.endsCut
    rw [Option.any_eq_true]
    refine exists_congr (fun h => and_congr_right (fun _ => ?_))
    cases hs : h.status with
    | active r => cases hp : r.phase <;> cases ht : r.train <;> simp [RunPhase.isPulse, hp, ht]
    | _ => simp
  obtain ⟨strict, mem⟩ := hl
  have nd : ((s.entriesWhere (fun h => h.status.isPulse)).filter s.endsCut).Nodup := (entriesWhere_nodup s _).filter _
  have same : ∀ i, i ∈ (s.entriesWhere (fun h => h.status.isPulse)).filter s.endsCut ↔ i ∈ l := by
    intro i
    rw [List.mem_filter, ends, mem i, mem_entriesWhere]
    refine ⟨fun x => x.2, fun x => ⟨?_, x⟩⟩
    obtain ⟨h, e, r, y, hs, hq, -⟩ := x
    rw [e]; simp [EntryStatus.isPulse, EntryStatus.activeRun, hs, hq, RunPhase.isPulse]
  have dl : l.Nodup := strict.imp (fun x e => absurd (e ▸ x) (lt_irrefl _))
  refine ((List.perm_ext_iff_of_nodup nd dl).mpr same).eq_of_pairwise
    (le := fun i j => s.orderOf i ≤ s.orderOf j) (fun a b ha hb x y => ?_)
    ((entriesWhere_pairwise s _).sublist List.filter_sublist) (strict.imp (fun x => le_of_lt x))
  by_contra ne
  obtain ⟨m, hm, rfl⟩ := List.getElem_of_mem ((same a).mp ha)
  obtain ⟨n, hn, rfl⟩ := List.getElem_of_mem hb
  rcases Nat.lt_trichotomy m n with o | o | o
  · have := List.pairwise_iff_getElem.mp strict m n hm hn o; omega
  · subst o; exact ne rfl
  · have := List.pairwise_iff_getElem.mp strict n m hn hm o; omega

/-- The drain limit, in the words of the statements. -/
theorem drainExpire_drained (s : State) (m : s.maint.mode = .draining) : s.drained s.drainExpire := by
  have occ : ∀ i ∈ s.entriesWhere (fun h => h.status.isPulse), ∃ h, s.entry i = some h ∧ h.status.isPulse = true :=
    fun i hi => by rw [mem_entriesWhere, Option.any_eq_true] at hi; exact hi
  have all : ∀ i h, s.entry i = some h → h.status.isPulse = true → i ∈ s.entriesWhere (fun h => h.status.isPulse) :=
    fun i h e p => by rw [mem_entriesWhere, Option.any_eq_true]; exact ⟨h, e, p⟩
  have slot : ∀ i, (match s.entry i with
      | none => s.slot i
      | some h => match h.status with
        | .active r => if r.phase = .betweenPulses then s.slot i else
            match r.train with
            | none => ⟨Body.free, [], none⟩
            | some _ => { s.slot i with entry := some { h with
                status := .suspended { r with phase := .betweenPulses } } }
        | _ => s.slot i) = cutSlot (s.slot i) := fun i => by
    unfold cutSlot State.entry
    cases he : (s.slot i).entry with
    | none => rfl
    | some h => rfl
  have cuts := drainCuts (s₀ := s) (s.entriesWhere (fun h => h.status.isPulse)) s (entriesWhere_nodup s _)
    (fun _ _ => rfl) occ m all
  have list := endsCut_list s
  unfold State.drainExpire
  generalize s.entriesWhere (fun h => h.status.isPulse) = L at occ all cuts list
  by_cases hL : L = []
  · subst hL
    have quiet : ∀ j x, s.entry j = some x → x.status.isPulse = false := fun j x hj => by
      by_contra z; exact absurd (all j x hj (by simpa using z)) (by simp)
    have np : s.pulseInProgress = false := by
      by_contra z
      obtain ⟨j, x, hj, hx⟩ := (pulseInProgress_iff s).mp (by simpa using z)
      rw [quiet j x hj] at hx; cases hx
    rw [List.foldl_nil, reportDrain_now m np]
    refine ⟨rfl, rfl, fun i => ?_, fun n => ⟨rfl, fun _ => rfl, fun i h c => ?_⟩, fun l hl => ?_⟩
    · exact (cutSlot_quiet (fun h e => quiet i h e)).symm.trans (slot i).symm
    · obtain ⟨e, p, -, -⟩ := c; rw [quiet i h e] at p; cases p
    · rw [← list l hl]; rfl
  · obtain ⟨c1, c2, c3, c4, c5⟩ := cuts hL
    have done : (L.foldl (fun s i => s.drainCut i) s).reportDrain = L.foldl (fun s i => s.drainCut i) s :=
      reportDrain_none (fun z => by rw [c2] at z; cases z)
    rw [done]
    refine ⟨c1, c2, fun i => ?_, fun n => ⟨(c5 n).1, fun c => ?_, fun i h c u => ?_⟩, fun l hl => ?_⟩
    · rw [c4]
      refine Eq.trans ?_ (slot i).symm
      by_cases hi : i ∈ L
      · rw [if_pos hi]
      · rw [if_neg hi, cutSlot_quiet]
        intro h e
        by_contra z; exact hi (all i h e (by simpa using z))
    · rw [(c5 n).2.1 (fun i hi h e hn => ?_)]
      obtain ⟨k, ek, kp⟩ := occ i hi
      rw [e] at ek; cases ek
      exact c i h ⟨e, kp, hn, kp⟩
    · obtain ⟨e, p, hn, -⟩ := c
      refine (c5 n).2.2 i (all i h e p) h e hn (fun j hj k ek kn => ?_)
      obtain ⟨x, ex, xp⟩ := occ j hj
      rw [ek] at ex; cases ex
      exact u j k ⟨ek, xp, kn, xp⟩
    · rw [← list l hl]; exact c3

end Sys2Proof.Machine
end

