-- ==== Sys2Proof/Laws/Take.lean ====
section
/-! SUPPORT. How a command is taken: every way `take` can answer, and what answering changes. -/

namespace Sys2Proof.Machine

/-- A command taken by a READY hub. -/
theorem take_ready {s : State} {p : PortId} {code : Byte} {params : List Byte} {body : State → State × Reply}
    (h : s.takes p code params = true) (r : s.phase = .ready) :
    s.take p code params body = (body s).1.respond p (body s).2 := by
  simp [State.take, h, r]

/-- A command taken while LOADING is answered NOT_READY (R172). -/
theorem take_notReady {s : State} {p : PortId} {code : Byte} {params : List Byte} {body : State → State × Reply}
    (h : s.takes p code params = true) (r : s.phase ≠ .ready) :
    s.take p code params body = s.respond p (reply .notReady) := by
  simp [State.take, h, r]

/-- A command that is not taken. -/
theorem take_not {s : State} {p : PortId} {code : Byte} {params : List Byte} {body : State → State × Reply}
    (h : s.takes p code params = false) : s.take p code params body = s := by
  simp [State.take, h]

/-- A property that the command's body keeps in a READY hub, and that answering keeps, is kept by the command. -/
theorem take_keeps {P : State → Prop} {s : State} {p : PortId} {code : Byte} {params : List Byte}
    {body : State → State × Reply} (hs : P s) (hr : ∀ t r, P t → P (t.respond p r))
    (hb : s.phase = .ready → P (body s).1) : P (s.take p code params body) := by
  unfold State.take; split
  · split
    · rename_i r; exact hr _ _ (hb r)
    · exact hr _ _ hs
  · exact hs

/-- Answering writes the frame of the port and nothing else. -/
theorem respond_port (s : State) (p q : PortId) (r : Reply) :
    (s.respond p r).port q =
      if p = q then { s.port p with frame := .response (r.code.code :: r.data) r.records } else s.port q := by
  simp [State.respond]

theorem respond_queue (s : State) (p q : PortId) (r : Reply) : ((s.respond p r).port q).queue = (s.port q).queue := by
  rw [respond_port]; split
  · rename_i h; rw [h]
  · rfl

section
variable (s : State) (p : PortId) (r : Reply)
@[simp] theorem respond_pending : (s.respond p r).pending = s.pending := rfl
@[simp] theorem respond_phase : (s.respond p r).phase = s.phase := rfl
@[simp] theorem respond_elapsed : (s.respond p r).elapsed = s.elapsed := rfl
@[simp] theorem respond_claim (c : ResourceId) : (s.respond p r).claim c = s.claim c := rfl
@[simp] theorem respond_holds (q : PortId) (c : ResourceId) : (s.respond p r).holds q c = s.holds q c := rfl
@[simp] theorem respond_line (n : LineId) : (s.respond p r).line n = s.line n := rfl
@[simp] theorem respond_filter (n : LineId) : (s.respond p r).filter n = s.filter n := rfl
@[simp] theorem respond_slot (i : SlotId) : (s.respond p r).slot i = s.slot i := rfl
@[simp] theorem respond_entry (i : SlotId) : (s.respond p r).entry i = s.entry i := rfl
@[simp] theorem respond_tb : (s.respond p r).tb = s.tb := rfl
@[simp] theorem respond_maint : (s.respond p r).maint = s.maint := rfl
@[simp] theorem respond_integ : (s.respond p r).integ = s.integ := rfl
@[simp] theorem respond_link : (s.respond p r).link = s.link := rfl
@[simp] theorem respond_subs : (s.respond p r).subs = s.subs := rfl
@[simp] theorem respond_loaded : (s.respond p r).loaded = s.loaded := rfl
@[simp] theorem respond_store : (s.respond p r).store = s.store := rfl
@[simp] theorem respond_storeBusy : (s.respond p r).storeBusy = s.storeBusy := rfl
end

end Sys2Proof.Machine
end

