-- ==== Sys2Proof/Laws/Frames.lean ====
section
/-! SUPPORT. What it means for a command to be awaited: it is taken, and answered at once; and what data out sends. -/

namespace Sys2Proof.Machine

/-- A command that the frame awaits is taken, unless RESETn is low. -/
theorem takes_of_awaits {s : State} {p : PortId} {code : Byte} {params : List Byte} (h : s.awaits p code params)
    (r : s.phase ≠ .pinReset) : s.takes p code params = true := by
  unfold State.takes
  rcases h with ⟨rfl, b, hb⟩ | ⟨hp, hf⟩
  · rw [hb]; cases hq : s.phase <;> simp_all
  · rw [hf]; cases hq : s.phase <;> simp_all

/-- A command taken by a READY hub, as its body answers it. -/
theorem take_of_readyFor {s : State} {p : PortId} {code : Byte} {params : List Byte} {body : State → State × Reply}
    (h : s.readyFor p code params) : s.take p code params body = (body s).1.respond p (body s).2 :=
  take_ready (takes_of_awaits h.2 (by rw [h.1]; simp)) h.1

/-- A command taken by a hub that is LOADING. -/
theorem take_of_loadingFor {s : State} {p : PortId} {code : Byte} {params : List Byte} {body : State → State × Reply}
    (h : s.loadingFor p code params) : s.take p code params body = s.respond p (reply .notReady) := by
  obtain ⟨⟨k, hk⟩, ha⟩ := h
  exact take_notReady (takes_of_awaits ha (by rw [hk]; simp)) (by rw [hk]; simp)

/-- A reply without records is an answer. -/
theorem respond_data (s : State) (p : PortId) (c : ResultCode) (d : List Byte) :
    s.respond p ⟨c, d, 0⟩ = s.answered p (c.code :: d) := rfl

/-- A reply of a result code alone. -/
theorem respond_reply (s : State) (p : PortId) (c : ResultCode) : s.respond p (reply c) = s.answered p [c.code] := rfl

/-! ## Data out -/

/-- Every record is 12 bytes (13_frame_and_record_layouts.md, Notice records). -/
theorem record_length (r : Record) : r.bytes.length = 12 := by
  cases r with
  | checkDone x => cases h : x.failure <;> simp [Record.bytes, Record.payload, padTo, bytesOf, bytesOfNat, h]
  | _ => simp [Record.bytes, Record.payload, padTo, bytesOf, bytesOfNat]

/-- Byte `m` of record `j` in a list of records sent one after another. -/
theorem records_at (l : List Record) (j m : Nat) (h : m < 12) :
    (l.flatMap Record.bytes)[12 * j + m]? = (l[j]?).bind (fun r => r.bytes[m]?) := by
  induction l generalizing j with
  | nil => simp
  | cons r t ih =>
    rw [List.flatMap_cons]
    cases j with
    | zero => rw [List.getElem?_append_left (by rw [record_length]; omega)]; simp
    | succ j =>
      rw [List.getElem?_append_right (by rw [record_length]; omega), record_length,
        show 12 * (j + 1) + m - 12 = 12 * j + m by omega, ih]
      simp

theorem records_length (l : List Record) : (l.flatMap Record.bytes).length = 12 * l.length := by
  induction l with
  | nil => rfl
  | cons r t ih => rw [List.flatMap_cons, List.length_append, record_length, ih, List.length_cons]; omega

/-- Data out in RESPONSE: what has been put there, then the records at the head of the queue, then 0x00. -/
theorem dataOut_response {s : State} {p : PortId} {sent : List Byte} {left : Nat} (r : s.phase ≠ .pinReset)
    (h : (s.port p).frame = .response sent left) (k : Nat) : s.dataOut p k =
      some (byteAt (sent ++ ((s.port p).queue.take left).flatMap Record.bytes) k) := by
  unfold State.dataOut Port.dataOut
  rw [if_neg r, h]

end Sys2Proof.Machine
end

