-- ==== Sys2Proof/Laws/Memory.lean ====
section
/-! SUPPORT. The profile store as a memory: reading after writing, and the canonical form kept by every operation. -/

namespace Sys2Proof.Machine

/-- Every listed address of a written memory was listed before, or is the one written. -/
theorem Memory.mem_write {m : Memory} {a : Nat} {v : Byte} {c : Host.Cell} (h : c ∈ Memory.write m a v) :
    c ∈ m ∨ c = (a, v) := by
  induction m with
  | nil =>
    simp [Memory.write] at h
    exact Or.inr h.2
  | cons d t ih =>
    obtain ⟨k, w⟩ := d
    simp only [Memory.write] at h
    split at h
    · split at h
      · exact Or.inl h
      · rcases List.mem_cons.1 h with h | h
        · exact Or.inr h
        · exact Or.inl h
    · split at h
      · split at h
        · exact Or.inl (List.mem_cons_of_mem _ h)
        · rcases List.mem_cons.1 h with h | h
          · exact Or.inr h
          · exact Or.inl (List.mem_cons_of_mem _ h)
      · rcases List.mem_cons.1 h with h | h
        · exact Or.inl (h ▸ List.mem_cons_self)
        · rcases ih h with h | h
          · exact Or.inl (List.mem_cons_of_mem _ h)
          · exact Or.inr h

/-- No entry of a written memory holds 0x00. -/
theorem Memory.write_nonzero {m : Memory} (hm : ∀ c ∈ m, c.2 ≠ 0) (a : Nat) (v : Byte) :
    ∀ c ∈ Memory.write m a v, c.2 ≠ 0 := by
  by_cases hv : v = 0
  · subst hv
    induction m with
    | nil => simp [Memory.write]
    | cons d t ih =>
      obtain ⟨k, w⟩ := d
      have ih' := ih (fun c hc => hm c (List.mem_cons_of_mem _ hc))
      simp only [Memory.write]
      intro c hc
      split at hc
      · exact hm c (by simpa using hc)
      · split at hc
        · exact hm c (List.mem_cons_of_mem _ (by simpa using hc))
        · rcases List.mem_cons.1 hc with hc | hc
          · exact hm c (hc ▸ List.mem_cons_self)
          · exact ih' c hc
  · intro c hc
    rcases Memory.mem_write hc with h | h
    · exact hm c h
    · exact h ▸ hv

/-- Writing keeps the canonical form. -/
theorem Memory.write_wf {m : Memory} (hm : Memory.wf m) (a : Nat) (v : Byte) : Memory.wf (Memory.write m a v) := by
  refine ⟨?_, Memory.write_nonzero hm.2 a v⟩
  have hp := hm.1
  clear hm
  induction m with
  | nil =>
    simp only [Memory.write]
    split
    · exact List.Pairwise.nil
    · exact List.pairwise_singleton _ _
  | cons d t ih =>
    obtain ⟨k, w⟩ := d
    obtain ⟨hk, ht⟩ := List.pairwise_cons.1 hp
    simp only [Memory.write]
    split
    · split
      · exact hp
      · rename_i hlt _
        refine List.pairwise_cons.2 ⟨fun c hc => ?_, hp⟩
        rcases List.mem_cons.1 hc with hc | hc
        · subst hc; exact hlt
        · exact Nat.lt_trans hlt (hk c hc)
    · split
      · rename_i heq
        split
        · exact ht
        · exact List.pairwise_cons.2 ⟨fun c hc => heq ▸ hk c hc, ht⟩
      · rename_i hlt heq
        refine List.pairwise_cons.2 ⟨fun c hc => ?_, ih ht⟩
        rcases Memory.mem_write hc with hc | hc
        · exact hk c hc
        · subst hc; show k < a; omega

/-- A byte below every listed address reads 0x00. -/
theorem Memory.read_of_lt {m : Memory} {a : Nat} (h : ∀ c ∈ m, a < c.1) : Memory.read m a = 0 := by
  induction m with
  | nil => rfl
  | cons d t ih =>
    obtain ⟨k, w⟩ := d
    have hk : a < k := h (k, w) List.mem_cons_self
    simp only [Memory.read]
    rw [if_neg (by omega)]
    exact ih (fun c hc => h c (List.mem_cons_of_mem _ hc))

/-- What a written memory reads. -/
theorem Memory.read_write {m : Memory} (hm : m.Pairwise (fun a b => a.1 < b.1)) (a : Nat) (v : Byte) (b : Nat) :
    Memory.read (Memory.write m a v) b = if b = a then v else Memory.read m b := by
  induction m with
  | nil =>
    by_cases hv : v = 0
    · subst hv; simp [Memory.write, Memory.read]
    · simp only [Memory.write, if_neg hv, Memory.read, eq_comm (a := a)]
  | cons d t ih =>
    obtain ⟨k, w⟩ := d
    obtain ⟨hk, ht⟩ := List.pairwise_cons.1 hm
    simp only [Memory.write]
    split
    · rename_i hlt
      split
      · rename_i hv
        subst hv
        by_cases hb : b = a
        · subst hb
          rw [if_pos rfl]
          refine Memory.read_of_lt (fun c hc => ?_)
          rcases List.mem_cons.1 hc with hc | hc
          · subst hc; exact hlt
          · exact Nat.lt_trans hlt (hk c hc)
        · rw [if_neg hb]
      · simp only [Memory.read, eq_comm (a := a)]
    · split
      · rename_i heq
        subst heq
        split
        · rename_i hv
          subst hv
          by_cases hb : b = a
          · subst hb
            rw [if_pos rfl]; exact Memory.read_of_lt hk
          · simp only [Memory.read, if_neg hb, if_neg (Ne.symm hb)]
        · simp only [Memory.read, eq_comm (a := a)]
          by_cases hb : b = a <;> simp [hb]
      · rename_i hlt heq
        simp only [Memory.read, ih ht]
        by_cases hb : k = b
        · subst hb; simp [Ne.symm heq]
        · simp [hb]

/-- ORing bits keeps the canonical form. -/
theorem Memory.orAll_wf {m : Memory} (hm : Memory.wf m) (bits : List Host.Cell) : Memory.wf (Memory.orAll m bits) := by
  induction bits generalizing m with
  | nil => exact hm
  | cons c t ih => exact ih (Memory.write_wf hm c.1 _)

/-- A byte whose address is among those of no operation keeps its value. -/
theorem Memory.read_orAll_of_not_mem {m : Memory} (hm : Memory.wf m) (bits : List Host.Cell) (a : Nat)
    (h : ∀ c ∈ bits, c.1 ≠ a) : Memory.read (Memory.orAll m bits) a = Memory.read m a := by
  induction bits generalizing m with
  | nil => rfl
  | cons c t ih =>
    obtain ⟨k, b⟩ := c
    have hk : k ≠ a := h (k, b) List.mem_cons_self
    simp only [Memory.orAll]
    rw [ih (Memory.write_wf hm k _) (fun c hc => h c (List.mem_cons_of_mem _ hc)), Memory.read_write hm.1,
      if_neg (Ne.symm hk)]

/-- A store operation keeps the canonical form. -/
theorem programStore_wf {s : State} (h : Memory.wf s.store) (bits : List Host.Cell) :
    Memory.wf (s.programStore bits).store := Memory.orAll_wf h bits

/-- A store operation changes nothing but the store and its busy state. -/
theorem programStore_eq (s : State) (bits : List Host.Cell) :
    s.programStore bits =
      { s with store := (s.programStore bits).store, storeBusy := (s.programStore bits).storeBusy } := rfl

/-- An operation of one byte: the OR of the old value and the bits, every other byte as it was (R185). -/
theorem programStore_read (s : State) (h : Memory.wf s.store) (a : Nat) (v : Byte) (b : Nat) :
    Memory.read (s.programStore [(a, v)]).store b =
      if b = a then Memory.read s.store a ||| v else Memory.read s.store b := by
  simp only [State.programStore, Memory.orAll]
  exact Memory.read_write h.1 ..

/-- Pin reset keeps the canonical form. -/
theorem unfinished_wf {m : Memory} (h : Memory.wf m) (b : StoreBusy) (free : Nat) : Memory.wf (unfinished m b free) := by
  unfold unfinished
  generalize b.old.zipIdx = l
  induction l generalizing m with
  | nil => exact h
  | cons c t ih => exact ih (Memory.write_wf h ..)

theorem pinReset_store_wf {s : State} (h : Memory.wf s.store) : Memory.wf s.pinReset.store := by
  simp only [State.pinReset]
  split
  · exact h
  · exact unfinished_wf h ..

end Sys2Proof.Machine
end

