-- ==== Sys2Proof/Laws/Reads.lean ====
section
/-! SUPPORT. An event that reads a slot checks it first and goes on with what the check leaves (R96, R142); and a walk over
slots, each of which an operation treats in its turn. -/

namespace Sys2Proof.Machine

variable {s t u v : State} {i j : SlotId} {h : Header} {out : State}

/-! ## What a check leaves in its slot -/

/-- A check leaves a clean slot. -/
theorem checkSlot_wrong (s : State) (i : SlotId) : ((s.checkSlot i).slot i).wrongBits = [] := by
  unfold State.checkSlot; dsimp only; split
  · assumption
  · split
    · show ((s.setSlot i _).slot i).wrongBits = []
      rw [setSlot_slot, if_pos rfl]
    · exact congrArg Slot.wrongBits (correct_kept s i _).1
    · show ((s.loseBody i).slot i).wrongBits = []
      unfold State.loseBody; split
      · show ((s.setSlot i Slot.free).slot i).wrongBits = []
        rw [setSlot_slot, if_pos rfl]; rfl
      · show (((s.withdraw i .integrity).setSlot i Slot.free).slot i).wrongBits = []
        rw [setSlot_slot, if_pos rfl]; rfl

/-- A check leaves the entry of its slot with its header, and the maintenance unit alone, or it leaves no entry. -/
theorem checkSlot_header (s : State) (i : SlotId) :
    (s.checkSlot i).entry i = none ∨ (s.checkSlot i).entry i = s.entry i ∧ (s.checkSlot i).maint = s.maint := by
  unfold State.checkSlot; dsimp only; split
  · exact .inr ⟨rfl, rfl⟩
  · split
    · exact .inr ⟨by show (s.setSlot i _).entry i = _; rw [setSlot_entry, if_pos rfl]; rfl, rfl⟩
    · obtain ⟨a, -, c⟩ := correct_kept s i (bodyRead (s.slot i) s.free)
      exact .inr ⟨(congrArg Slot.entry a :), c⟩
    · refine .inl ?_
      show (s.loseBody i).entry i = none
      unfold State.loseBody; split
      · show (s.setSlot i Slot.free).entry i = none
        rw [setSlot_entry, if_pos rfl]; rfl
      · show ((s.withdraw i .integrity).setSlot i Slot.free).entry i = none
        rw [setSlot_entry, if_pos rfl]; rfl

/-- An entry that a check has left. -/
theorem checkSlot_some (e : (s.checkSlot i).entry i = some h) : s.entry i = some h ∧ (s.checkSlot i).maint = s.maint := by
  rcases checkSlot_header s i with k | ⟨k, m⟩
  · rw [k] at e; cases e
  · exact ⟨k.symm.trans e, m⟩

theorem checkSlot_again (s : State) (i : SlotId) : (s.checkSlot i).checkSlot i = s.checkSlot i :=
  checkSlot_clean (checkSlot_wrong s i)

/-! ## The other slots -/

/-- Every other slot stands. -/
structure OnlySlot (i : SlotId) (s t : State) : Prop where
  slots : ∀ j, j ≠ i → t.slot j = s.slot j

namespace OnlySlot

theorem refl (s : State) : OnlySlot i s s := ⟨fun _ _ => rfl⟩

theorem trans (a : OnlySlot i s t) (b : OnlySlot i t u) : OnlySlot i s u :=
  ⟨fun j hj => (b.slots j hj).trans (a.slots j hj)⟩

theorem setSlot (s : State) (x : Slot) : OnlySlot i s (s.setSlot i x) :=
  ⟨fun j hj => by rw [setSlot_slot, if_neg hj.symm]⟩

theorem entry (a : OnlySlot i s t) (hj : j ≠ i) : t.entry j = s.entry j := congrArg Slot.entry (a.slots j hj)

theorem checkSlot (s : State) : OnlySlot i s (s.checkSlot i) := ⟨(Checked.checkSlot s i).slots⟩

theorem complete (s : State) (o : EntryOutcome) : OnlySlot i s (s.complete i o) := ⟨(Checked.complete s i o).slots⟩

theorem finish (s : State) (k : Header) (y : Timeliness) : OnlySlot i s (s.finish i k y) := by
  unfold State.finish; split
  · exact setSlot ..
  · exact complete ..

theorem beginTrainPulse (s : State) (k : Header) (r : Run) (x : TrainRun) (b : Nat) :
    OnlySlot i s (s.beginTrainPulse i k r x b) := ⟨(setSlot (s.setScheduled k.line _) _).slots⟩

theorem applyEntry (s : State) (k : Header) (y : Timeliness) : OnlySlot i s (s.applyEntry i k y) := by
  unfold State.applyEntry; split
  · exact ⟨(finish (s.setScheduled k.line _) ..).slots⟩
  · exact ⟨(finish (s.setScheduled k.line _) ..).slots⟩
  · exact ⟨(finish (s.setScheduled k.line _) ..).slots⟩
  · exact ⟨(setSlot ..).slots⟩
  · exact beginTrainPulse ..

theorem arrive (s : State) (y : Timeliness) : OnlySlot i s (s.arrive i y) := by
  unfold State.arrive; dsimp only; split
  · exact checkSlot s
  · refine (checkSlot s).trans ?_
    split
    · exact setSlot ..
    · split
      · unfold State.collide; split
        · exact setSlot ..
        · exact complete ..
      · exact applyEntry ..

theorem handleLate (s : State) : OnlySlot i s (s.handleLate i) := by
  unfold State.handleLate; dsimp only; split
  · exact checkSlot s
  · refine (checkSlot s).trans ?_
    split
    · exact arrive ..
    · split
      · exact setSlot ..
      · exact complete ..

theorem treatPending (s : State) : OnlySlot i s (s.treatPending i) := by
  unfold State.treatPending; split
  · exact refl s
  · split
    · exact refl s
    · exact arrive ..
    · exact handleLate ..

theorem armEntry (s : State) (stamp : Count) : OnlySlot i s (s.armEntry i stamp) := by
  unfold State.armEntry; dsimp only; split
  · exact checkSlot s
  · exact ((checkSlot s).trans (setSlot ..)).trans (treatPending ..)

theorem resumeTrain (s : State) : OnlySlot i s (s.resumeTrain i) := by
  unfold State.resumeTrain; dsimp only; split
  · exact checkSlot s
  · refine (checkSlot s).trans ?_
    split
    · exact refl _
    · split
      · exact refl _
      · split
        · split
          · exact beginTrainPulse ..
          · exact setSlot ..
        · exact refl _

theorem finishTrain (s : State) : OnlySlot i s (s.finishTrain i) := by
  unfold State.finishTrain; dsimp only; split
  · exact checkSlot s
  · refine (checkSlot s).trans ?_
    split
    · exact refl _
    · split
      · exact refl _
      · split
        · exact refl _
        · exact finish ..

end OnlySlot

/-! ## While DRAINING, a pulse at another entry -/

/-- While DRAINING, a pulse is in progress at another entry. -/
def State.pulseBeside (s : State) (i : SlotId) : Prop :=
  s.maint.mode = .draining → ∃ j k, j ≠ i ∧ s.entry j = some k ∧ k.status.isPulse = true

theorem pulseBeside_of (d : s.drainsOn (fun _ => False)) (e : s.entry i = some h) (np : h.status.isPulse = false) :
    s.pulseBeside i := fun m => by
  obtain ⟨j, k, hk, -, hp⟩ := d m
  refine ⟨j, k, ?_, hk, hp⟩
  rintro rfl
  rw [e] at hk; cases hk; rw [np] at hp; cases hp

theorem pulseBeside_checkSlot (d : s.pulseBeside i) : (s.checkSlot i).pulseBeside i := fun m => by
  have ms : s.maint.mode = .draining := by
    rcases (checkSlot_scheduled s i).mode with a | ⟨-, a⟩
    · exact a.symm.trans m
    · rw [a] at m; cases m
  obtain ⟨j, k, hj, hk, hp⟩ := d ms
  exact ⟨j, k, hj, ((OnlySlot.checkSlot s).entry hj).trans hk, hp⟩

/-- An operation of the schedule on an entry whose pulse is not in progress leaves the pulses in progress alone. -/
theorem drainsOn_keeps (k : Scheduled s t) (o : OnlySlot i s t) (b : s.pulseBeside i) :
    t.drainsOn (fun _ => False) := fun m => by
  have ms : s.maint.mode = .draining := by
    rcases k.mode with a | ⟨-, a⟩
    · exact a.symm.trans m
    · rw [a] at m; cases m
  obtain ⟨j, x, hj, hx, hp⟩ := b ms
  exact ⟨j, x, (o.entry hj).trans hx, id, hp⟩

/-! ## Operations that read a slot -/

/-- A read, from what the check of the slot leaves. -/
theorem reads_of {becomes : State → Header → State → Prop} (lost : (s.checkSlot i).entry i = none → out = s.checkSlot i)
    (on : ∀ k, (s.checkSlot i).entry i = some k → becomes (s.checkSlot i) k out) : s.reads i becomes out :=
  ⟨s.checkSlot i, checkSlot_checkedSlot s i, lost, on⟩

theorem arrive_lost (e : (s.checkSlot i).entry i = none) (y : Timeliness) : s.arrive i y = s.checkSlot i := by
  unfold State.arrive; dsimp only; rw [e]

theorem arrive_read (s : State) (i : SlotId) (y : Timeliness) : (s.checkSlot i).arrive i y = s.arrive i y := by
  unfold State.arrive; rw [checkSlot_again]

/-- An entry with a current due arrives (R77, R96). -/
theorem arrive_reads {due : Count} (e : s.entry i = some h) (hd : h.status.due = some due) (y : Timeliness) :
    s.reads i (fun v k x => v.arrivesAs i k due y x) (s.arrive i y) :=
  reads_of (fun e => arrive_lost e y) (fun k ek => by
    have eh := (checkSlot_some ek).1
    rw [e] at eh; cases eh
    rw [← arrive_read]
    exact arrive_arrivesAs (st := h.status) y ek hd (checkSlot_wrong s i))

theorem handleLate_lost (e : (s.checkSlot i).entry i = none) : s.handleLate i = s.checkSlot i := by
  unfold State.handleLate; dsimp only; rw [e]

theorem handleLate_read (s : State) (i : SlotId) : (s.checkSlot i).handleLate i = s.handleLate i := by
  unfold State.handleLate; rw [checkSlot_again]

/-- An entry with a current due is handled late (R66, R96). -/
theorem handleLate_reads {due : Count} (e : s.entry i = some h) (hd : h.status.due = some due) (b : s.pulseBeside i) :
    s.reads i (fun v k x => v.latesTo i k due x) (s.handleLate i) :=
  reads_of handleLate_lost (fun k ek => by
    have eh := (checkSlot_some ek).1
    rw [e] at eh; cases eh
    rw [← handleLate_read]
    exact handleLate_latesTo (st := h.status) ek hd (checkSlot_wrong s i) (pulseBeside_checkSlot b))

/-- An ARMED entry is armed by an edge (R86, R87, R96). -/
theorem armEntry_reads (stamp : Count) (e : s.entry i = some h) (ha : h.status = .armed) (b : s.pulseBeside i) :
    State.edgeArms stamp s i (s.armEntry i stamp) := by
  refine ⟨h, e, ha, reads_of (fun e => ?_) (fun k ek => ?_)⟩
  · unfold State.armEntry; dsimp only; rw [e]
  · have eh := (checkSlot_some ek).1
    rw [e] at eh; cases eh
    have : s.armEntry i stamp = (s.checkSlot i).armEntry i stamp := by unfold State.armEntry; rw [checkSlot_again]
    rw [this]
    refine armEntry_armsTo stamp ek ha (checkSlot_wrong s i) (fun m => ?_)
    obtain ⟨j, k, -, hk, hp⟩ := pulseBeside_checkSlot b m
    exact ⟨j, k, hk, hp⟩

theorem endPulse_lost (e : (s.checkSlot i).entry i = none) : s.endPulse i = s.checkSlot i := by
  unfold State.endPulse; dsimp only; rw [e]

theorem endPulse_read (s : State) (i : SlotId) : (s.checkSlot i).endPulse i = s.endPulse i := by
  unfold State.endPulse; rw [checkSlot_again]

theorem trainAt_lost (e : (s.checkSlot i).entry i = none) (b : Nat) : s.trainAt i b = s.checkSlot i := by
  unfold State.trainAt; dsimp only; rw [e]

theorem trainAt_read (s : State) (i : SlotId) (b : Nat) : (s.checkSlot i).trainAt i b = s.trainAt i b := by
  unfold State.trainAt; rw [checkSlot_again]

/-! ## Walks -/

/-- A walk in which each step makes of its slot what a relation says, and keeps the later slots ready for theirs. -/
theorem each_foldl {becomes : State → SlotId → State → Prop} {f : State → SlotId → State}
    {ready : State → SlotId → Prop} (step : ∀ u i, ready u i → becomes u i (f u i))
    (keep : ∀ u i j, i ≠ j → ready u i → ready u j → ready (f u i) j) (l : List SlotId) (nd : l.Nodup) (u : State)
    (r : ∀ i ∈ l, ready u i) : eachBecomes becomes l u (l.foldl f u) := by
  induction l generalizing u with
  | nil => rfl
  | cons a t ih =>
    obtain ⟨ha, nt⟩ := List.nodup_cons.mp nd
    have ra := r a List.mem_cons_self
    exact ⟨f u a, step u a ra, ih nt (f u a) (fun j hj =>
      keep u a j (fun e => ha (e ▸ hj)) ra (r j (List.mem_cons_of_mem _ hj)))⟩

/-- What a walk leaves in a slot of its list: what the step at that slot made of it. -/
theorem foldl_slot {f : State → SlotId → State} (only : ∀ u i, OnlySlot i u (f u i)) {ready : State → SlotId → Prop}
    (keep : ∀ u i j, i ≠ j → ready u i → ready u j → ready (f u i) j) (l : List SlotId) (nd : l.Nodup) (u : State)
    (r : ∀ i ∈ l, ready u i) :
    (∀ i ∈ l, ∃ v, ready v i ∧ v.slot i = u.slot i ∧ (l.foldl f u).slot i = (f v i).slot i) ∧
      ∀ i, i ∉ l → (l.foldl f u).slot i = u.slot i := by
  induction l generalizing u with
  | nil => exact ⟨fun _ h => (List.not_mem_nil h).elim, fun _ _ => rfl⟩
  | cons a t ih =>
    obtain ⟨ha, nt⟩ := List.nodup_cons.mp nd
    have ra := r a List.mem_cons_self
    obtain ⟨m, o⟩ := ih nt (f u a) (fun j hj =>
      keep u a j (fun e => ha (e ▸ hj)) ra (r j (List.mem_cons_of_mem _ hj)))
    refine ⟨fun i hi => ?_, fun i hi => ?_⟩
    · rcases List.mem_cons.mp hi with rfl | hi
      · exact ⟨u, ra, rfl, o i ha⟩
      · obtain ⟨v, rv, sv, e⟩ := m i hi
        exact ⟨v, rv, sv.trans ((only u a).slots i (fun e => ha (e ▸ hi))), e⟩
    · obtain ⟨ia, it⟩ := not_or.mp (fun z => hi (List.mem_cons.mpr z))
      exact (o i it).trans ((only u a).slots i ia)

end Sys2Proof.Machine
end

