-- ==== Sys2Proof/Laws/Pending.lean ====
section
/-! SUPPORT. PENDING entries that arrive or are judged anew one after another, in due-list order (R64, R67, R77), and
ARMED entries that an edge arms one after another, in post order (R86). -/

namespace Sys2Proof.Machine

variable {s u : State} {i : SlotId}

/-! ## The due list -/

theorem aheadOf_eq (s : State) (i : SlotId) : s.aheadOf i = (s.pendingDue i).map (fun d => distance d s.tb.count) := by
  unfold State.aheadOf State.pendingDue
  cases s.entry i with
  | none => rfl
  | some h =>
    dsimp only [Option.bind_some]
    cases hs : h.status <;> simp [EntryStatus.pendingDue, distance_eq]

theorem distanceOf_eq (s : State) (i : SlotId) : s.distanceOf i = (s.aheadOf i).getD 0 := by rw [aheadOf_eq]; rfl

/-- A list that stands in an order is put into another so that equal elements keep theirs. -/
theorem sortBy_stable {α : Type} {le : α → α → Bool} {r : α → α → Prop}
    (total : ∀ a b, le a b = true ∨ le b a = true)
    (trans : ∀ a b c, le a b = true → le b c = true → le a c = true) (l : List α) (h : l.Pairwise r) :
    (sortBy le l).Pairwise (fun a b => le a b = true ∧ (le b a = true → r a b)) := by
  have ins : ∀ (a : α) (l : List α), (∀ b ∈ l, r a b) →
      l.Pairwise (fun a b => le a b = true ∧ (le b a = true → r a b)) →
      (insertBy le a l).Pairwise (fun a b => le a b = true ∧ (le b a = true → r a b)) := by
    intro a l ha hl
    induction l with
    | nil => exact List.pairwise_singleton ..
    | cons b t ih =>
      obtain ⟨h1, h2⟩ := List.pairwise_cons.mp hl
      simp only [insertBy]; split
      · rename_i hab
        refine List.pairwise_cons.mpr ⟨fun c hc => ⟨?_, fun _ => ha c hc⟩, hl⟩
        exact (List.mem_cons.mp hc).elim (fun e => e ▸ hab) (fun hc => trans a b c hab (h1 c hc).1)
      · rename_i hab
        refine List.pairwise_cons.mpr ⟨fun c hc => ?_, ih (fun c hc => ha c (List.mem_cons_of_mem _ hc)) h2⟩
        rcases (mem_insertBy le a c t).mp hc with rfl | hc
        · exact ⟨(total c b).resolve_left hab, fun x => absurd x hab⟩
        · exact h1 c hc
  induction l with
  | nil => exact List.Pairwise.nil
  | cons a t ih =>
    obtain ⟨h1, h2⟩ := List.pairwise_cons.mp h
    exact ins a _ (fun b hb => h1 b ((mem_sortBy le b t).mp hb)) (ih h2)

/-- The PENDING entries at distances with a property stand in the due list in the order that the statements give. -/
theorem dueList_filter {f : Nat → Prop} {g : SlotId → Bool} {l : List SlotId} (h : s.dueOrdered f l)
    (hg : ∀ i d, s.aheadOf i = some d → (g i = true ↔ f d)) : s.dueList.filter g = l := by
  obtain ⟨strict, mem⟩ := h
  have is : ∀ i, i ∈ s.dueList ↔ ∃ d, s.aheadOf i = some d := fun i => by
    rw [mem_dueList, aheadOf_eq]; simp
  have same : ∀ i, i ∈ s.dueList.filter g ↔ i ∈ l := fun i => by
    rw [List.mem_filter, is, mem]
    exact ⟨fun ⟨⟨d, hd⟩, x⟩ => ⟨d, hd, (hg i d hd).mp x⟩, fun ⟨d, hd, x⟩ => ⟨⟨d, hd⟩, (hg i d hd).mpr x⟩⟩
  have dl : l.Nodup := strict.imp (fun {a b} x e => by
    subst e; rcases x with x | ⟨-, x⟩ <;> exact absurd x (lt_irrefl _))
  have perm := (List.perm_ext_iff_of_nodup ((dueList_nodup s).filter g) dl).mpr same
  have sorted : s.dueList.Pairwise (fun a b => s.distanceOf a < s.distanceOf b ∨
      s.distanceOf a = s.distanceOf b ∧ s.orderOf a ≤ s.orderOf b) :=
    (sortBy_stable (le := fun i j => decide (s.distanceOf i ≤ s.distanceOf j))
      (fun a b => by simpa using le_total (s.distanceOf a) (s.distanceOf b))
      (fun a b c x y => by simp at x y ⊢; omega) _ (entriesWhere_pairwise s _)).imp (fun {a b} x => by
        obtain ⟨x, y⟩ := x
        have x := of_decide_eq_true x
        rcases Nat.lt_or_ge (s.distanceOf a) (s.distanceOf b) with o | o
        · exact .inl o
        · exact .inr ⟨le_antisymm x o, y (decide_eq_true o)⟩)
  have strict' : l.Pairwise (fun a b => s.distanceOf a < s.distanceOf b ∨
      s.distanceOf a = s.distanceOf b ∧ s.orderOf a < s.orderOf b) :=
    strict.imp (fun {a b} x => by
      rw [distanceOf_eq, distanceOf_eq]
      exact x.imp id (fun y => ⟨by rw [y.1], y.2⟩))
  refine perm.eq_of_pairwise (le := fun a b => s.distanceOf a < s.distanceOf b ∨
    s.distanceOf a = s.distanceOf b ∧ s.orderOf a ≤ s.orderOf b) (fun a b ha hb x y => ?_)
    (sorted.sublist List.filter_sublist) (strict'.imp (fun x => x.imp id (fun y => ⟨y.1, le_of_lt y.2⟩)))
  by_contra ne
  obtain ⟨m, hm, rfl⟩ := List.getElem_of_mem ((same a).mp ha)
  obtain ⟨n, hn, rfl⟩ := List.getElem_of_mem hb
  have st := List.pairwise_iff_getElem.mp strict'
  rcases Nat.lt_trichotomy m n with o | o | o
  · have := st m n hm hn o; omega
  · subst o; exact ne rfl
  · have := st n m hn hm o; omega

theorem dueList_ordered {l : List SlotId} (h : s.dueOrdered (fun _ => True) l) : s.dueList = l := by
  have e := dueList_filter (g := fun _ => true) h (fun _ _ _ => by simp)
  rwa [List.filter_eq_self.mpr (fun _ _ => rfl)] at e

theorem arriving_ordered {f : Nat → Prop} {k : Nat} {l : List SlotId} (h : s.dueOrdered f l)
    (hf : ∀ d, f d ↔ 1 ≤ d ∧ d ≤ k) : s.arriving k = l :=
  dueList_filter h (fun i d e => by rw [decide_eq_true_eq, distanceOf_eq, e]; exact (hf d).symm)

/-! ## One after another -/

/-- The entry of a slot is PENDING. -/
def State.pendingIn (s : State) (i : SlotId) : Prop := ∃ h due, s.entry i = some h ∧ h.status = .pending due

theorem pendingIn_ordered {f : Nat → Prop} {l : List SlotId} (o : s.dueOrdered f l) :
    (∀ i ∈ l, s.pendingIn i) ∧ l.Nodup := by
  refine ⟨fun i hi => ?_, o.1.imp (fun {a b} x e => by
    subst e; rcases x with x | ⟨-, x⟩ <;> exact absurd x (lt_irrefl _))⟩
  obtain ⟨d, e, -⟩ := (o.2 i).mp hi
  rw [aheadOf_eq] at e
  obtain ⟨x, hx, -⟩ := Option.map_eq_some_iff.mp e
  obtain ⟨k, hk, hs⟩ := Option.bind_eq_some_iff.mp hx
  exact ⟨k, x, hk, (pendingDue_eq _ _).mp hs⟩

theorem pendingIn_keeps {i j : SlotId} (o : OnlySlot i s u) (hj : i ≠ j) (p : s.pendingIn j) : u.pendingIn j := by
  obtain ⟨h, d, e, k⟩ := p
  exact ⟨h, d, (o.entry hj.symm).trans e, k⟩

/-- Entries that arrive one after another (R77). -/
theorem arriveAll_each (l : List SlotId) (u : State) (nd : l.Nodup) (p : ∀ i ∈ l, u.pendingIn i) :
    eachBecomes State.comesDue l u (u.arriveAll l) := by
  have run : ∀ (u : State) (i : SlotId), u.pendingIn i →
      (if (u.pendingDue i).isSome then u.arrive i .onTime else u) = u.arrive i .onTime := fun u i ⟨h, d, e, k⟩ => by
    unfold State.pendingDue; rw [e]; simp [k, EntryStatus.pendingDue]
  refine each_foldl (ready := State.pendingIn) (fun u i r => ?_) (fun u i j hj r q => ?_) l nd u p
  · rw [run u i r]
    obtain ⟨h, d, e, k⟩ := r
    exact ⟨h, d, e, k, arrive_reads e (by rw [k]; rfl) .onTime⟩
  · rw [run u i r]
    exact pendingIn_keeps (OnlySlot.arrive ..) hj q

/-- A PENDING entry is judged anew (R62, R66, R67). -/
theorem treatPending_rejudges (p : u.pendingIn i) (b : u.pulseBeside i) : u.rejudgesTo i (u.treatPending i) := by
  obtain ⟨h, due, e, hs⟩ := p
  have tp := treatPending_eq e hs
  have hd := (distance_eq due u.tb.count).symm
  refine ⟨h, due, e, hs, ?_⟩
  dsimp only
  rw [hd, tp]
  refine ⟨fun h1 h2 => ?_, fun h0 => ?_, fun h1 => ?_⟩ <;> unfold judge
  · rw [if_neg (by omega), if_pos (by omega)]
  · rw [if_pos (by omega)]; exact arrive_reads e (by rw [hs]; rfl) .onTime
  · rw [if_neg (by omega), if_neg (by omega)]; exact handleLate_reads e (by rw [hs]; rfl) b

/-- Entries that are judged anew one after another; while DRAINING, some pulse is in progress (R67). -/
theorem reexamine_each (l : List SlotId) (u : State) (nd : l.Nodup) (p : ∀ i ∈ l, u.pendingIn i)
    (d : u.drainsOn (fun _ => False)) : eachBecomes State.rejudgesTo l u (u.reexamine l) := by
  have beside : ∀ (u : State) (i : SlotId), u.pendingIn i → u.drainsOn (fun _ => False) → u.pulseBeside i :=
    fun u i ⟨h, x, e, k⟩ d => pulseBeside_of d e (by rw [k]; rfl)
  exact each_foldl (ready := fun u i => u.pendingIn i ∧ u.drainsOn (fun _ => False))
    (fun u i r => treatPending_rejudges r.1 (beside u i r.1 r.2))
    (fun u i j hj r q => ⟨pendingIn_keeps (OnlySlot.treatPending u) hj q.1,
      drainsOn_keeps (treatPending_scheduled u i) (OnlySlot.treatPending u) (beside u i r.1 r.2)⟩)
    l nd u (fun i hi => ⟨p i hi, d⟩)

/-- Entries that an edge arms one after another; while DRAINING, some pulse is in progress (R86). -/
theorem armAll_each (stamp : Count) (l : List SlotId) (u : State) (nd : l.Nodup)
    (p : ∀ i ∈ l, ∃ h, u.entry i = some h ∧ h.status = .armed) (d : u.drainsOn (fun _ => False)) :
    eachBecomes (State.edgeArms stamp) l u (l.foldl (fun s i => s.armEntry i stamp) u) := by
  have beside : ∀ (u : State) (i : SlotId), (∃ h, u.entry i = some h ∧ h.status = .armed) →
      u.drainsOn (fun _ => False) → u.pulseBeside i := fun u i ⟨h, e, k⟩ d => pulseBeside_of d e (by rw [k]; rfl)
  exact each_foldl (ready := fun u i => (∃ h, u.entry i = some h ∧ h.status = .armed) ∧ u.drainsOn (fun _ => False))
    (fun u i r => by
      have b := beside u i r.1 r.2
      obtain ⟨⟨h, e, k⟩, -⟩ := r
      exact armEntry_reads stamp e k b)
    (fun u i j hj r q => ⟨by
        obtain ⟨h, e, k⟩ := q.1
        exact ⟨h, ((OnlySlot.armEntry u stamp).entry hj.symm).trans e, k⟩,
      drainsOn_keeps (armEntry_scheduled u i stamp) (OnlySlot.armEntry u stamp) (beside u i r.1 r.2)⟩)
    l nd u (fun i hi => ⟨p i hi, d⟩)

/-- An edge that is reported arms the entries that it matches, in post order (R86). -/
theorem reportEdge_each {line : AnyLine} {e : Edge} {l : List SlotId} (stamp : Count)
    (o : u.postOrdered (fun h => h.awaits line e = true) l) (d : u.drainsOn (fun _ => False)) :
    eachBecomes (State.edgeArms stamp) l u (u.reportEdge line e stamp) := by
  unfold State.reportEdge
  rw [postOrdered_entriesWhere (g := fun h => h.awaits line e) (fun _ => Iff.rfl) o]
  refine armAll_each stamp l u (postOrdered_nodup o) (fun i hi => ?_) d
  obtain ⟨h, e', k⟩ := (o.2 i).mp hi
  refine ⟨h, e', ?_⟩
  unfold Header.awaits at k
  cases hs : h.status <;> simp [hs, EntryStatus.isArmed] at k ⊢

/-- A change of the count, announced and then handed on to the PENDING entries (R44, R52, R67). -/
theorem changeCount_each (s : State) (e : TimeEvent) (count : Count) (epoch : Byte) (run : RunState) {l : List SlotId}
    (o : s.dueOrdered (fun _ => True) l) (d : s.drainsOn (fun _ => False)) :
    let u : State := { s with
      tb := { s.tb with count := count, epoch := epoch, run := run, slew := none }
      filters := s.steppedFilters
      link := { s.link with query := none } }
    let v := u.offerAll (.timebase e epoch count)
    eachBecomes State.rejudgesTo l (if run = s.tb.run then v else v.offerAll (.timebase run.event epoch count))
      (s.changeCount e count epoch run) := by
  intro u v
  obtain ⟨p, nd⟩ := pendingIn_ordered o
  unfold State.changeCount; dsimp only
  rw [dueList_ordered o]
  split
  · exact reexamine_each l v nd p d
  · exact reexamine_each l (v.offerAll (.timebase run.event epoch count)) nd p d

end Sys2Proof.Machine
end

