-- ==== Sys2Proof/Laws/PerInstr.lean ====
section
/-! SUPPORT. One lemma per constructor of `Instr`: a command that a port sends has as many parameter bytes as its code
has in the tables of R175 and R176, and its code is one of the 37. -/

namespace Sys2Proof.Laws.ParameterBytes

open Sys2Proof Sys2Proof.Machine

/-- The code of a port command is known, and its parameter bytes are as many as the code has. -/
def Statement (i : Instr) : Prop :=
  ∀ p code params, i.onPort = some (p, code, params) → paramCount code = some params.length

/-- The bytes of a field are as many as it has. -/
theorem length_bytesOf {w : Nat} (k : Nat) (x : BitVec w) : (bytesOf k x).length = k := by
  have h : ∀ k n, (bytesOfNat k n).length = k := by
    intro k
    induction k with
    | zero => intro n; rfl
    | succ k ih => intro n; simp [bytesOfNat, ih]
  exact h k x.toNat

/-- The parameter bytes of POST. -/
theorem length_postBytes (b : PostBlock) : (postBytes b).length = 26 := by
  simp [postBytes, length_bytesOf]

/-- A row that no port sends has nothing to show. -/
theorem of_none {i : Instr} (h : i.onPort = none) : Statement i := by
  intro p code params h'
  rw [h] at h'
  exact absurd h' (by simp)

/-- A row with its port, code and parameter bytes. -/
theorem of_some {i : Instr} {p : PortId} {code : Byte} {params : List Byte} (h : i.onPort = some (p, code, params))
    (hn : paramCount code = some params.length) : Statement i := by
  intro p' code' params' h'
  rw [h] at h'
  obtain ⟨rfl, rfl, rfl⟩ := h'
  exact hn

theorem pinReset : Statement .pinReset := of_none rfl
theorem loading (last : Nat) : Statement (.loading last) := of_none rfl
theorem frameStart (p : PortId) : Statement (.frameStart p) := of_none rfl
theorem frameEnd (p : PortId) (clocked : Bool) : Statement (.frameEnd p clocked) := of_none rfl
theorem unknownCommand (p : PortId) (code : Byte) : Statement (.unknownCommand p code) := of_none rfl
theorem claim (p : PortId) (resource : Byte) (waitMs leaseMs : BitVec 16) : Statement (.claim p resource waitMs leaseMs) :=
  of_some rfl (by simp [length_bytesOf]; rfl)
theorem release (p : PortId) (resource : Byte) : Statement (.release p resource) := of_some rfl rfl
theorem renew (p : PortId) (resource : Byte) : Statement (.renew p resource) := of_some rfl rfl
theorem queryClaim (p : PortId) (resource : Byte) : Statement (.queryClaim p resource) := of_some rfl rfl
theorem leaseExpiry (r : ResourceId) : Statement (.leaseExpiry r) := of_none rfl
theorem waitDeadline (r : ResourceId) : Statement (.waitDeadline r) := of_none rfl
theorem lineConfig (p : PortId) (line mode level filter : Byte) : Statement (.lineConfig p line mode level filter) :=
  of_some rfl rfl
theorem lineRead (p : PortId) : Statement (.lineRead p) := of_some rfl rfl
theorem subscribe (p : PortId) (line sel : Byte) : Statement (.subscribe p line sel) := of_some rfl rfl
theorem post (p : PortId) (b : PostBlock) : Statement (.post p b) := of_some rfl (by rw [length_postBytes]; rfl)
theorem cancel (p : PortId) (id : Byte) : Statement (.cancel p id) := of_some rfl rfl
theorem cancelLine (p : PortId) (line : Byte) : Statement (.cancelLine p line) := of_some rfl rfl
theorem queryEntry (p : PortId) (id : Byte) : Statement (.queryEntry p id) := of_some rfl rfl
theorem readTime (p : PortId) : Statement (.readTime p) := of_some rfl rfl
theorem setTime (p : PortId) (count : Count) : Statement (.setTime p count) :=
  of_some rfl (by simp [length_bytesOf]; rfl)
theorem stepTime (p : PortId) (offset : BitVec 40) : Statement (.stepTime p offset) :=
  of_some rfl (by simp [length_bytesOf]; rfl)
theorem halt (p : PortId) : Statement (.halt p) := of_some rfl rfl
theorem resume (p : PortId) : Statement (.resume p) := of_some rfl rfl
theorem countAdvance : Statement .countAdvance := of_none rfl
theorem pulseEnd (i : SlotId) : Statement (.pulseEnd i) := of_none rfl
theorem trainBoundary (i : SlotId) : Statement (.trainBoundary i) := of_none rfl
theorem lineSample (held level : LineSet) : Statement (.lineSample held level) := of_none rfl
theorem edgeAccepted (n : LineId) : Statement (.edgeAccepted n) := of_none rfl
theorem takeNotices (p : PortId) (max : Byte) : Statement (.takeNotices p max) := of_some rfl rfl
theorem noticeRecordRemoved (p : PortId) : Statement (.noticeRecordRemoved p) := of_none rfl
theorem peekNotice (p : PortId) : Statement (.peekNotice p) := of_some rfl rfl
theorem setAttnMask (p : PortId) (mask : Byte) : Statement (.setAttnMask p mask) := of_some rfl rfl
theorem snapshot (p : PortId) : Statement (.snapshot p) := of_some rfl rfl
theorem enterDirect (p : PortId) : Statement (.enterDirect p) := of_some rfl rfl
theorem drainLimitExpiry : Statement .drainLimitExpiry := of_none rfl
theorem exitDirect (p : PortId) : Statement (.exitDirect p) := of_some rfl rfl
theorem directDrive (p : PortId) (line drive : Byte) : Statement (.directDrive p line drive) := of_some rfl rfl
theorem lineCheck (p : PortId) (tested : LineSet) : Statement (.lineCheck p tested) :=
  of_some rfl (by simp [length_bytesOf]; rfl)
theorem checkWindowEnd : Statement .checkWindowEnd := of_none rfl
theorem abortCheck (p : PortId) : Statement (.abortCheck p) := of_some rfl rfl
theorem checkResult (p : PortId) : Statement (.checkResult p) := of_some rfl rfl
theorem scrubVisit : Statement .scrubVisit := of_none rfl
theorem integrityRead (p : PortId) : Statement (.integrityRead p) := of_some rfl rfl
theorem integrityClear (p : PortId) : Statement (.integrityClear p) := of_some rfl rfl
theorem softReset (p : PortId) : Statement (.softReset p) := of_some rfl rfl
theorem portReset (p : PortId) : Statement (.portReset p) := of_some rfl rfl
theorem ident (p : PortId) : Statement (.ident p) := of_some rfl rfl
theorem linkStatus (p : PortId) : Statement (.linkStatus p) := of_some rfl rfl
theorem linkRetrain (p : PortId) : Statement (.linkRetrain p) := of_some rfl rfl
theorem retrainDownEnd : Statement .retrainDownEnd := of_none rfl
theorem wordSlot : Statement .wordSlot := of_none rfl
theorem finalAbilitySent : Statement .finalAbilitySent := of_none rfl
theorem abilityReceived (w : WireWord) : Statement (.abilityReceived w) := of_none rfl
theorem aligningDeadline : Statement .aligningDeadline := of_none rfl
theorem timeQueryReceived (w : WireWord) : Statement (.timeQueryReceived w) := of_none rfl
theorem timeReplyReceived (w : WireWord) : Statement (.timeReplyReceived w) := of_none rfl
theorem captureWordReceived (w : WireWord) : Statement (.captureWordReceived w) := of_none rfl
theorem idleWordReceived (w : WireWord) : Statement (.idleWordReceived w) := of_none rfl
theorem queryDue : Statement .queryDue := of_none rfl
theorem replyDeadline : Statement .replyDeadline := of_none rfl
theorem followerSilenceDeadline : Statement .followerSilenceDeadline := of_none rfl
theorem holdoffEnd : Statement .holdoffEnd := of_none rfl
theorem profileRead (p : PortId) (slot offset length : Byte) : Statement (.profileRead p slot offset length) :=
  of_some rfl rfl
theorem profileWrite (p : PortId) (slot offset byte : Byte) : Statement (.profileWrite p slot offset byte) :=
  of_some rfl rfl
theorem profileSeal (p : PortId) (slot : Byte) : Statement (.profileSeal p slot) := of_some rfl rfl
theorem profileRetire (p : PortId) (slot : Byte) : Statement (.profileRetire p slot) := of_some rfl rfl
theorem profileBusyEnd : Statement .profileBusyEnd := of_none rfl
theorem storedBitError (i : SlotId) (bit : Nat) : Statement (.storedBitError i bit) := of_none rfl
theorem parameterByteGathered (p : PortId) (byte : Byte) : Statement (.parameterByteGathered p byte) := of_none rfl

end Sys2Proof.Laws.ParameterBytes
end

