-- ==== Sys2Proof/Laws/PortReset.lean ====
section
/-! SUPPORT. What the claim ends of a port reset do, said once: the end of the claim on one line, and of the claims on a
list of lines one after another (R27, R29, R30, R34, R89). -/

namespace Sys2Proof.Machine

/-! ## Records at one port -/

theorem offer_port_congr {a b : State} {q : PortId} (h : a.port q = b.port q) (p : PortId) (r : Record) :
    (a.offer p r).port q = (b.offer p r).port q := by
  rw [offer_port, offer_port]; split
  · rename_i e; subst e; rw [h]
  · exact h

theorem greet_port_congr {a b : State} {q : PortId} (h : a.port q = b.port q) (r : ResourceId) (l : List Waiter) :
    (a.greet r l).port q = (b.greet r l).port q := by
  unfold State.greet; split
  · exact h
  · exact offer_port_congr h _ _
  · exact offer_port_congr (offer_port_congr h _ _) _ _

theorem nowDirect_port_congr {a b : State} {q : PortId} (h : a.port q = b.port q) :
    a.nowDirect.port q = b.nowDirect.port q := by
  unfold State.nowDirect; rw [offerAll_port, offerAll_port]
  exact congrArg (fun x : Port => x.enqueue .directEntered) h

theorem greet_same (s : State) (r : ResourceId) (l : List Waiter) : { s.greet r l with ports := s.ports } = s := by
  unfold State.greet; split <;> rfl

/-- Passing on: the claim record goes to the head waiter, who is greeted. -/
theorem passOn_greet (s : State) (r : ResourceId) :
    s.passOn r = (s.setClaim r ((s.claim r).next s.elapsed)).greet r (s.claim r).waiters := by
  unfold State.passOn ClaimRec.next State.greet
  cases (s.claim r).waiters with
  | nil => rfl
  | cons w rest => cases rest <;> rfl

/-- Records that all go to one port are seen by no other. -/
theorem withRecords_port {s t : State} {l : List SlotId} {p q : PortId} {o : EntryOutcome} (hq : q ≠ p)
    (own : ∀ i ∈ l, ∀ h, s.entry i = some h → h.owner = p) : (l.foldl (s.withRecord o) t).port q = t.port q := by
  induction l generalizing t with
  | nil => rfl
  | cons i r ih =>
    refine (ih (t := s.withRecord o t i) (fun j hj => own j (List.mem_cons_of_mem _ hj))).trans ?_
    unfold State.withRecord; split
    · rename_i h e
      rw [offer_port, if_neg (fun x => hq (x.symm.trans (own i List.mem_cons_self h e)))]
    · rfl

/-! ## The end of one claim on a line -/

/-- What the end of the claim of a port on a line does in a port reset (R27, R29, R30, R34): everything but the claim
record that passes on. -/
structure LineEnded (p : PortId) (n : LineId) (x y : State) : Prop where
  frame : { y with claims := x.claims, pool := x.pool, lines := x.lines, filters := x.filters, maint := x.maint,
                   ports := x.ports, free := x.free } = x
  freed : ∀ i h, x.entry i = some h → h.owner = p → h.line = n → y.slot i = ⟨Body.free, [], none⟩
  kept : ∀ i, (∀ h, x.entry i = some h → ¬ (h.owner = p ∧ h.line = n)) → y.slot i = x.slot i
  line : ∃ level, y.line n = { x.line n with
      mode := (x.line n).park.mode, override := none, saved := none, scheduled := level } ∧
    x.levelCut (fun h => h.owner = p ∧ h.line = n) n level
  filter : x.filterParked n ((x.line n).mode = .off) (y.filter n)
  untested : (∀ c, ¬ (x.maint.check = .running c ∧ c.tested.getLsbD n.val = true)) →
    y.maint.check = x.maint.check ∧ ∀ m, m ≠ n → y.line m = x.line m ∧ y.filter m = x.filter m
  tested : ∀ c, x.maint.check = .running c → c.tested.getLsbD n.val = true →
    y.maint.check = .finished ⟨.aborted, c.passed, c.completed, c.failure⟩ ∧
      ∀ m, m ≠ n → x.lineRestored c.requester m y
  quiet : (x.drainsOn (fun h => h.owner = p ∧ h.line = n) ∨ ∀ i h, x.entry i = some h → ¬ (h.owner = p ∧ h.line = n)) →
    { y.maint with check := x.maint.check } = x.maint ∧
      ∀ q, q ≠ p → y.port q = (x.greet (lineRes n) (x.claim (lineRes n)).waiters).port q
  direct : ¬ x.drainsOn (fun h => h.owner = p ∧ h.line = n) → (∃ i h, x.entry i = some h ∧ h.owner = p ∧ h.line = n) →
    { y.maint with check := x.maint.check } = { x.maint with mode := .direct, drainDeadline := none } ∧
      ((∃ i h, x.entry i = some h ∧ (h.owner = p ∧ h.line = n) ∧ h.status.isPulse = true) → ∀ q, q ≠ p →
        y.port q = (x.nowDirect.greet (lineRes n) (x.claim (lineRes n)).waiters).port q)

/-- The line unit's and the maintenance unit's part of it (R27 steps 2 and 3, R29). -/
structure LineLeft (n : LineId) (x y : State) : Prop where
  frame : { y with lines := x.lines, filters := x.filters, maint := x.maint, free := x.free } = x
  line : y.line n = { x.line n with mode := (x.line n).park.mode, override := none, saved := none }
  filter : x.filterParked n ((x.line n).mode = .off) (y.filter n)
  mode : { y.maint with check := x.maint.check } = x.maint
  untested : (∀ c, ¬ (x.maint.check = .running c ∧ c.tested.getLsbD n.val = true)) →
    y.maint.check = x.maint.check ∧ ∀ m, m ≠ n → y.line m = x.line m ∧ y.filter m = x.filter m
  tested : ∀ c, x.maint.check = .running c → c.tested.getLsbD n.val = true →
    y.maint.check = .finished ⟨.aborted, c.passed, c.completed, c.failure⟩ ∧
      ∀ m, m ≠ n → x.lineRestored c.requester m y

theorem testing_iff (x : State) (n : LineId) :
    x.testing n = true ↔ ∃ c, x.maint.check = .running c ∧ c.tested.getLsbD n.val = true := by
  unfold State.testing
  cases x.maint.check with
  | running c => exact ⟨fun h => ⟨c, rfl, h⟩, fun ⟨_, h, k⟩ => by cases h; exact k⟩
  | idle => exact ⟨fun h => (Bool.false_ne_true h).elim, fun ⟨_, h, _⟩ => by cases h⟩
  | finished r => exact ⟨fun h => (Bool.false_ne_true h).elim, fun ⟨_, h, _⟩ => by cases h⟩

/-- The end of a check of which no one is told. -/
theorem endCheck_silent (s : State) (p : PortId) (r : CheckResult) :
    { s.endCheck p r false with lines := s.lines, filters := s.filters, maint := s.maint } = s ∧
    (s.endCheck p r false).maint = { s.maint with check := .finished r } ∧
      ∀ n, s.lineRestored p n (s.endCheck p r false) := by
  have same := restoreLines_same s p
  have hm := unlined_maint (restoreLines_unlined s p)
  have each := fun n => restoreLines_restored s p n
  unfold State.endCheck
  rw [if_neg (by decide)]
  generalize s.restoreLines p = u at same hm each
  refine ⟨?_, congrArg (fun m : Maint => { m with check := .finished r }) hm, each⟩
  exact congrArg (fun u : State => { u with maint := s.maint }) same

theorem parkMode_ne_test (k : ParkMode) : k.mode ≠ .test := by cases k <;> decide

/-- A line is parked at a claim end, and a check that tests it is aborted, of which no one is told. -/
theorem lineLeft (x : State) (n : LineId) :
    LineLeft n x (if (x.park n).testing n then (x.park n).abortCheck false else x.park n) := by
  have un := park_unlined x n
  have ln := park_line x n
  have fl : ∀ m, n ≠ m → (x.park n).filter m = x.filter m := fun m h => changeLine_filter_ne _ _ _ _ h
  have pf := park_filter x n
  have mt := unlined_maint un
  have cl := unlined_claims un
  have fr : { x.park n with lines := x.lines, filters := x.filters, free := x.free } = x := by
    simp only [State.unlined, Prod.mk.injEq] at un
    obtain ⟨e1, e2, e3, e4, e5, e6, e7, e8, e9, e10, e11, e12, e13, e14, e15, e16, e17, e18, e19⟩ := un
    generalize x.park n = t at *
    cases t; cases x; simp_all
  generalize x.park n = t at un ln fl pf mt cl fr
  have other : ∀ m, m ≠ n → t.line m = x.line m ∧ t.filter m = x.filter m := fun m hm =>
    ⟨by rw [ln, if_neg hm.symm], fl m hm.symm⟩
  have mine : t.line n = { x.line n with mode := (x.line n).park.mode, override := none, saved := none } := by
    rw [ln, if_pos rfl]
  have iff := testing_iff t n
  rw [mt] at iff
  by_cases k : ∃ c, x.maint.check = .running c ∧ c.tested.getLsbD n.val = true
  · rw [if_pos (iff.mpr k)]
    obtain ⟨c, hc, hn⟩ := k
    have ab : t.abortCheck false = t.endCheck c.requester ⟨.aborted, c.passed, c.completed, c.failure⟩ false := by
      unfold State.abortCheck; rw [mt, hc]
    rw [ab]
    obtain ⟨f, m', r⟩ := endCheck_silent t c.requester ⟨.aborted, c.passed, c.completed, c.failure⟩
    generalize t.endCheck c.requester ⟨.aborted, c.passed, c.completed, c.failure⟩ false = y at f m' r
    have own := (r n).1 (by rw [mine]; exact parkMode_ne_test _)
    refine ⟨?_, by rw [own.1, mine], by rw [own.2]; exact pf, by rw [m', mt], fun h => absurd ⟨hc, hn⟩ (h c), fun d hd _ => ?_⟩
    · have h := (congrArg (fun u : State => { u with lines := x.lines, filters := x.filters, free := x.free }) f).trans fr
      exact congrArg (fun u : State => { u with maint := x.maint }) h
    · rw [hc] at hd; cases hd
      refine ⟨by rw [m'], fun m hm => ?_⟩
      have q := r m
      unfold State.lineRestored State.claim at q ⊢
      rw [(other m hm).1, (other m hm).2, cl] at q
      exact q
  · rw [if_neg (fun h => k (iff.mp h))]
    refine ⟨?_, mine, pf, by rw [mt], fun _ => ⟨by rw [mt], other⟩, fun c hc hn => absurd ⟨c, hc, hn⟩ k⟩
    exact (congrArg (fun u : State => { u with maint := x.maint }) fr)

/-- The last of the members of a list with a property. -/
theorem exists_last {α : Type} {P : α → Prop} {l : List α} {x : α} (hx : x ∈ l) (px : P x) :
    ∃ a i b, l = a ++ i :: b ∧ P i ∧ ∀ j ∈ b, ¬ P j := by
  induction l generalizing x with
  | nil => cases hx
  | cons c t ih =>
    by_cases h : ∃ j ∈ t, P j
    · obtain ⟨j, hj, pj⟩ := h
      obtain ⟨a, i, b, rfl, pi, nb⟩ := ih hj pj
      exact ⟨c :: a, i, b, rfl, pi, nb⟩
    · have no : ∀ j ∈ t, ¬ P j := fun j hj pj => h ⟨j, hj, pj⟩
      rcases List.mem_cons.mp hx with rfl | hx
      · exact ⟨[], x, t, rfl, px, no⟩
      · exact absurd px (no x hx)

/-- The end of the claim on a line in a port reset. -/
theorem lineEnded {x : State} {p : PortId} {n : LineId} (hh : (x.claim (lineRes n)).holder = some p) :
    LineEnded p n x (x.endClaim (lineRes n) .portReset) := by
  let g (h : Header) : Prop := h.owner = p ∧ h.line = n
  obtain ⟨l, hl⟩ : ∃ l, x.entriesWhere (fun h => h.owner == p && h.line == n) = l := ⟨_, rfl⟩
  have mem : ∀ i, i ∈ l ↔ ∃ h, x.entry i = some h ∧ g h := by
    intro i
    rw [← hl, mem_entriesWhere, Option.any_eq_true]
    exact exists_congr (fun h => and_congr_right (fun _ => by simp [g]))
  have nd : l.Nodup := hl ▸ entriesWhere_nodup x _
  have occ : ∀ i ∈ l, ∃ h, x.entry i = some h := fun i hi => ((mem i).mp hi).imp (fun _ k => k.1)
  have same := withdrawAll_same x l (o := .cancelled)
  have line := withdrawAll_line occ nd (o := .cancelled)
  have slot := withdrawAll_slot occ nd (o := .cancelled)
  have cut := withdrawAll_levelCut mem nd (o := .cancelled) n
  have rc := withdrawAll_recorded mem nd (o := .cancelled)
  have drt := withdrawAll_direct mem nd (o := .cancelled)
  have chk := (withdrawAll_scheduled x l .cancelled).check
  have nil : l = [] → x.withdrawAll l .cancelled = x := by rintro rfl; rfl
  have away : ∀ m, m ≠ n → (x.withdrawAll l .cancelled).line m = x.line m := fun m hm => by
    refine (line m).2.1 (fun i hi k ek hk => ?_)
    obtain ⟨z, ez, fz⟩ := (mem i).mp hi
    rw [ek] at ez; cases ez
    exact absurd (hk.symm.trans fz.2) hm
  have own : ∀ i ∈ l, ∀ h, x.entry i = some h → h.owner = p := fun i hi h e => by
    obtain ⟨z, ez, fz⟩ := (mem i).mp hi
    rw [e] at ez; cases ez; exact fz.1
  have left := lineLeft (x.withdrawAll l .cancelled) n
  have run : x.clearFor (lineRes n) p .portReset =
      (if ((x.withdrawAll l .cancelled).park n).testing n then ((x.withdrawAll l .cancelled).park n).abortCheck false
        else (x.withdrawAll l .cancelled).park n) := by
    unfold State.clearFor; dsimp only
    rw [dif_pos (show (lineRes n).val < 16 from n.isLt), if_neg (by decide)]
    unfold State.clearLine; dsimp only
    rw [show (⟨(lineRes n).val, n.isLt⟩ : LineId) = n from rfl, hl]; rfl
  rw [endClaim_held hh, passOn_greet, (clearFor_cleared x _ p _).claim, run]
  generalize (if ((x.withdrawAll l .cancelled).park n).testing n then
    ((x.withdrawAll l .cancelled).park n).abortCheck false else (x.withdrawAll l .cancelled).park n) = v at left
  generalize x.withdrawAll l .cancelled = u at *
  have gy := congrArg (fun t : State => { t with claims := v.claims })
    (greet_same (v.setClaim (lineRes n) ((x.claim (lineRes n)).next v.elapsed)) (lineRes n) (x.claim (lineRes n)).waiters)
  have gp : ∀ q, (State.greet (v.setClaim (lineRes n) ((x.claim (lineRes n)).next v.elapsed)) (lineRes n)
      (x.claim (lineRes n)).waiters).port q = (v.greet (lineRes n) (x.claim (lineRes n)).waiters).port q :=
    fun q => greet_port_congr (a := v.setClaim (lineRes n) ((x.claim (lineRes n)).next v.elapsed)) (b := v) rfl _ _
  generalize (v.setClaim (lineRes n) ((x.claim (lineRes n)).next v.elapsed)).greet (lineRes n)
    (x.claim (lineRes n)).waiters = y at gy gp
  replace gy : { y with claims := v.claims, ports := v.ports } = v := gy
  have vu : { v with lines := u.lines, filters := u.filters, maint := u.maint, free := u.free } = u := left.frame
  have yl : ∀ m, y.line m = v.line m := fun m => (congrArg (fun t : State => t.line m) gy :)
  have yf : ∀ m, y.filter m = v.filter m := fun m => (congrArg (fun t : State => t.filter m) gy :)
  have ym : y.maint = v.maint := (congrArg State.maint gy :)
  have ys : ∀ i, y.slot i = u.slot i := fun i =>
    (congrArg (fun t : State => t.slot i) gy :).trans (congrArg (fun t : State => t.slot i) vu :)
  have uf : ∀ m, u.filter m = x.filter m := fun m => (congrArg (fun t : State => t.filter m) same :)
  have uc : u.claims = x.claims := (congrArg State.claims same :)
  have vp : v.ports = u.ports := (congrArg State.ports vu :)
  have port : ∀ {a : State} (q), u.port q = a.port q →
      y.port q = (a.greet (lineRes n) (x.claim (lineRes n)).waiters).port q := fun {a} q h => by
    rw [gp]; exact greet_port_congr (Eq.trans (by unfold State.port; rw [vp]) h) _ _
  have mt : { y.maint with check := x.maint.check } = { u.maint with check := x.maint.check } := by
    rw [ym]; exact congrArg (fun k : Maint => { k with check := x.maint.check }) left.mode
  have ul : u.line n = { x.line n with scheduled := (u.line n).scheduled } := by
    have h := (line n).1
    exact (congrArg (fun k : LineRec => { k with scheduled := (u.line n).scheduled }) h)
  refine ⟨?_, fun i h e ho hn => ?_, fun i no => ?_, ⟨(u.line n).scheduled, ?_, cut⟩, ?_, fun no => ?_, fun c hc hn => ?_,
    fun d => ?_, fun d some_ => ?_⟩
  · let f (t : State) : State := { t with
      claims := x.claims, pool := x.pool, lines := x.lines, filters := x.filters, maint := x.maint, ports := x.ports
      free := x.free }
    have fy : f y = f v := (congrArg f gy :)
    have fv : f v = f u := (congrArg f vu :)
    exact fy.trans (fv.trans (congrArg f same :))
  · rw [ys, slot, if_pos ((mem i).mpr ⟨h, e, ho, hn⟩)]
  · rw [ys, slot, if_neg (fun hi => by obtain ⟨h, e, k⟩ := (mem i).mp hi; exact no h e k)]
  · rw [yl, left.line, ul]
  · have lf := left.filter
    have mo : (u.line n).mode = (x.line n).mode := (congrArg LineRec.mode ul :)
    rw [mo, ← yf n] at lf
    have uh : u.held = x.held := (congrArg State.held same :)
    have uv : u.level = x.level := (congrArg State.level same :)
    have up : (u.line n).park = (x.line n).park := (congrArg LineRec.park ul :)
    exact filterParked_congr uh uv up (uf n) lf
  · rw [ym]
    obtain ⟨a, b⟩ := left.untested (by rw [chk]; exact no)
    exact ⟨a.trans chk, fun m hm => ⟨by rw [yl, (b m hm).1, away m hm], by rw [yf, (b m hm).2, uf]⟩⟩
  · rw [ym]
    obtain ⟨a, b⟩ := left.tested c (chk.trans hc) hn
    refine ⟨a, fun m hm => lineRestored_congr (t := v) (by unfold State.lineAndFilter; rw [yl, yf]) ?_⟩
    have q := b m hm
    unfold State.lineRestored State.claim at q ⊢
    rw [away m hm, uf, uc] at q
    exact q
  · rw [mt]
    rcases d with d | d
    · refine ⟨by rw [rc.1 d], fun q hq => port q ?_⟩
      obtain ⟨w, hw, pw⟩ := rc.2
      rw [hw.1 d] at pw
      exact (show u.port q = _ from by unfold State.port; rw [pw]; rfl).trans (withRecords_port (s := x) (t := x) hq own)
    · have : l = [] := List.eq_nil_iff_forall_not_mem.mpr (fun i hi => by
        obtain ⟨h, e, k⟩ := (mem i).mp hi; exact d i h e k)
      rw [nil this]
      exact ⟨rfl, fun q _ => port q (by rw [nil this])⟩
  · obtain ⟨i, h, e, k⟩ := some_
    rw [mt]
    refine ⟨congrArg (fun k : Maint => { k with check := x.maint.check })
      (drt d (List.ne_nil_of_mem ((mem i).mpr ⟨h, e, k⟩))), fun pulse q hq => port q ?_⟩
    obtain ⟨j, k, ej, kj, pj⟩ := pulse
    obtain ⟨a, i, b, rfl, pi, nb⟩ := exists_last (P := fun i => ∃ h, x.entry i = some h ∧ h.status.isPulse = true)
      ((mem j).mpr ⟨k, ej, kj⟩) ⟨k, ej, pj⟩
    obtain ⟨w, hw, pw⟩ := rc.2
    rw [hw.2 d a i b rfl pi (fun j hj h e => by
      by_contra z; exact nb j hj ⟨h, e, by simpa using z⟩)] at pw
    have pool : (x.withRecords (a ++ [i]) .cancelled).pool = x.pool := withRecords_pool ..
    have e1 : (x.withRecords (a ++ [i]) .cancelled).port q = x.port q :=
      withRecords_port (s := x) (t := x) hq (fun k hk => own k (by simp at hk ⊢; tauto))
    have e2 := nowDirect_port_congr e1
    refine (show u.port q = _ from by unfold State.port; rw [pw]; rfl).trans (Eq.trans (withRecords_port
      (s := (x.withRecords (a ++ [i]) .cancelled).nowDirect) hq (fun k hk h e => own k (by simp [hk]) h ?_)) e2)
    rw [← e]
    show _ = (x.withRecords (a ++ [i]) .cancelled).entry k
    unfold State.entry State.slot; rw [pool]

/-! ## One line after another -/

/-- The new holders of the lines of a list are greeted, one after another (R30). -/
def State.greets (s : State) (l : List LineId) (x : State) : State :=
  l.foldl (fun x n => x.greet (lineRes n) (s.claim (lineRes n)).waiters) x

theorem greets_port_congr {a b : State} {q : PortId} (h : a.port q = b.port q) (s : State) (l : List LineId) :
    (s.greets l a).port q = (s.greets l b).port q := by
  induction l generalizing a b with
  | nil => exact h
  | cons n t ih => exact ih (greet_port_congr h _ _)

theorem greets_append (s : State) (l r : List LineId) (x : State) : s.greets (l ++ r) x = s.greets r (s.greets l x) :=
  List.foldl_append ..

/-- A line in TEST that an earlier claim end has restored to OFF: the check of the port tests a line of a list (R12). -/
def State.restoredOff (s : State) (p : PortId) (a : List LineId) (n : LineId) : Prop :=
  (s.line n).mode = .test ∧ (∃ level, (s.line n).saved = some (.off, level)) ∧
    ∃ c, s.maint.check = .running c ∧ c.requester = p ∧ ∃ m ∈ a, c.tested.getLsbD m.val = true

/-- What the ends of the claims of a port on a list of lines, one after another, do in a port reset. -/
structure LinesEnded (p : PortId) (l : List LineId) (s x : State) : Prop where
  frame : { x with claims := s.claims, pool := s.pool, lines := s.lines, filters := s.filters, maint := s.maint,
                   ports := s.ports, free := s.free } = s
  claim : ∀ r, x.claim r = if r ∈ l.map lineRes then (s.claim r).next s.elapsed else s.claim r
  freed : ∀ i h, s.entry i = some h → h.owner = p → h.line ∈ l → x.slot i = ⟨Body.free, [], none⟩
  kept : ∀ i, (∀ h, s.entry i = some h → ¬ (h.owner = p ∧ h.line ∈ l)) → x.slot i = s.slot i
  parked : ∀ n ∈ l, (x.line n).mode = (s.line n).park.mode ∧ (x.line n).override = none ∧ (x.line n).saved = none ∧
    (x.line n).park = (s.line n).park ∧ (x.line n).filterLen = (s.line n).filterLen
  filter : ∀ a n b, l = a ++ n :: b → s.filterParked n ((s.line n).mode = .off ∨ s.restoredOff p a n) (x.filter n)
  cut : ∀ n ∈ l, (s.line n).mode ≠ .test → s.levelCut (fun h => h.owner = p ∧ h.line = n) n (x.line n).scheduled
  untested : (∀ c, ¬ (s.maint.check = .running c ∧ ∃ n ∈ l, c.tested.getLsbD n.val = true)) →
    x.maint.check = s.maint.check ∧ ∀ m, m ∉ l → x.line m = s.line m ∧ x.filter m = s.filter m
  tested : ∀ c, s.maint.check = .running c → (∃ n ∈ l, c.tested.getLsbD n.val = true) →
    x.maint.check = .finished ⟨.aborted, c.passed, c.completed, c.failure⟩ ∧
      ∀ m, m ∉ l → s.lineRestored c.requester m x
  quiet : (s.drainsOn (fun h => h.owner = p ∧ h.line ∈ l) ∨ ∀ i h, s.entry i = some h → ¬ (h.owner = p ∧ h.line ∈ l)) →
    { x.maint with check := s.maint.check } = s.maint ∧ ∀ q, q ≠ p → x.port q = (s.greets l s).port q
  direct : ¬ s.drainsOn (fun h => h.owner = p ∧ h.line ∈ l) → (∃ i h, s.entry i = some h ∧ h.owner = p ∧ h.line ∈ l) →
    { x.maint with check := s.maint.check } = { s.maint with mode := .direct, drainDeadline := none }
  told : ¬ s.drainsOn (fun h => h.owner = p ∧ h.line ∈ l) → ∀ a n b, l = a ++ n :: b →
    (∃ i h, s.entry i = some h ∧ (h.owner = p ∧ h.line = n) ∧ h.status.isPulse = true) →
    (∀ i h, s.entry i = some h → h.owner = p → h.line ∈ b → h.status.isPulse = false) →
    ∀ q, q ≠ p → x.port q = (s.greets (n :: b) ((s.greets a s).nowDirect)).port q

theorem LinesEnded.nil (p : PortId) (s : State) : LinesEnded p [] s s := by
  have no {n : LineId} (h : n ∈ ([] : List LineId)) {c : Prop} : c := (List.not_mem_nil h).elim
  refine ⟨rfl, fun r => by simp, fun i h _ _ hn => no hn, fun i _ => rfl, fun n hn => no hn,
    fun a n b e => by simp at e, fun n hn => no hn,
    fun _ => ⟨rfl, fun m _ => ⟨rfl, rfl⟩⟩, fun c _ ⟨_, hn, _⟩ => no hn, fun _ => ⟨rfl, fun q _ => rfl⟩,
    fun _ ⟨_, _, _, _, hn⟩ => no hn, fun _ a n b e => ?_⟩
  simp at e

namespace LinesEnded

variable {p : PortId} {l : List LineId} {s x : State} {n : LineId} (e : LinesEnded p l s x)
include e

theorem entry_iff (i : SlotId) (h : Header) :
    x.entry i = some h ↔ s.entry i = some h ∧ ¬ (h.owner = p ∧ h.line ∈ l) := by
  by_cases k : ∃ h, s.entry i = some h ∧ h.owner = p ∧ h.line ∈ l
  · obtain ⟨y, hy, ho, hl⟩ := k
    have : x.entry i = none := congrArg Slot.entry (e.freed i y hy ho hl)
    rw [this, hy]
    exact ⟨fun h => (by cases h), fun ⟨h, no⟩ => by cases h; exact absurd ⟨ho, hl⟩ no⟩
  · have : x.entry i = s.entry i := congrArg Slot.entry (e.kept i (fun h hh c => k ⟨h, hh, c.1, c.2⟩))
    rw [this]
    exact ⟨fun h' => ⟨h', fun c => k ⟨h, h', c.1, c.2⟩⟩, fun h => h.1⟩

/-- A line still to come is as it was, or as the end of a check leaves it. -/
theorem line_eq (hn : n ∉ l) (ht : (s.line n).mode ≠ .test) : x.line n = s.line n ∧ x.filter n = s.filter n := by
  by_cases k : ∃ c, s.maint.check = .running c ∧ ∃ m ∈ l, c.tested.getLsbD m.val = true
  · obtain ⟨c, hc, hm⟩ := k
    exact ((e.tested c hc hm).2 n hn).1 ht
  · exact (e.untested (fun c h => k ⟨c, h⟩)).2 n hn

/-- A line still to come keeps its park mode and filter length. -/
theorem line_kept (hn : n ∉ l) :
    (x.line n).park = (s.line n).park ∧ (x.line n).filterLen = (s.line n).filterLen := by
  by_cases ht : (s.line n).mode = .test
  · by_cases k : ∃ c, s.maint.check = .running c ∧ ∃ m ∈ l, c.tested.getLsbD m.val = true
    · obtain ⟨c, hc, hm⟩ := k
      obtain ⟨r1, r2, -⟩ := ((e.tested c hc hm).2 n hn).2 ht
      cases hs : (s.line n).saved with
      | none => rw [r2 (.inl hs)]; exact ⟨rfl, rfl⟩
      | some y =>
        by_cases hr : (s.claim (lineRes n)).holder = some c.requester
        · rw [r1 y.1 y.2 hs hr]; exact ⟨rfl, rfl⟩
        · rw [r2 (.inr hr)]; exact ⟨rfl, rfl⟩
    · rw [((e.untested (fun c h => k ⟨c, h⟩)).2 n hn).1]; exact ⟨rfl, rfl⟩
  · rw [(e.line_eq hn ht).1]; exact ⟨rfl, rfl⟩

/-- The filter of a line whose claim ends after those of a list. -/
theorem filter_last {f : Filter} (hn : n ∉ l) (hh : (s.claim (lineRes n)).holder = some p)
    (k : x.filterParked n ((x.line n).mode = .off) f) :
    s.filterParked n ((s.line n).mode = .off ∨ s.restoredOff p l n) f := by
  have he : x.held = s.held := (congrArg State.held e.frame :)
  have hv : x.level = s.level := (congrArg State.level e.frame :)
  have pk := (e.line_kept hn).1
  obtain ⟨k1, k2, k3⟩ := k
  have same : x.filter n = s.filter n → ((x.line n).mode = .off ↔ (s.line n).mode = .off ∨ s.restoredOff p l n) →
      s.filterParked n ((s.line n).mode = .off ∨ s.restoredOff p l n) f := fun hf iff =>
    filterParked_congr he hv pk hf ⟨k1, fun a b => k2 a (fun z => b (iff.mp z)), fun a b => k3 a (iff.mpr b)⟩
  by_cases ht : (s.line n).mode = .test
  · have off : ¬ (s.line n).mode = .off := by rw [ht]; decide
    by_cases t : ∃ c, s.maint.check = .running c ∧ ∃ m ∈ l, c.tested.getLsbD m.val = true
    · obtain ⟨c, hc, hm⟩ := t
      obtain ⟨r1, r2, r3, r4⟩ := ((e.tested c hc hm).2 n hn).2 ht
      by_cases own : c.requester = p ∧ ∃ m level, (s.line n).saved = some (m, level)
      · obtain ⟨rq, m, level, sv⟩ := own
        have xm : (x.line n).mode = m := by rw [r1 m level sv (by rw [rq]; exact hh)]
        by_cases mo : m = .off
        · subst mo
          have ro : s.restoredOff p l n := ⟨ht, ⟨level, sv⟩, c, hc, rq, hm⟩
          refine ⟨fun a => k1 (pk.trans a), fun _ b => absurd (.inr ro) b, fun a _ => ?_⟩
          have := k3 (fun z => a (pk.symm.trans z)) xm
          unfold State.restartedUnder at this ⊢
          rw [he, hv, pk] at this
          exact this
        · refine same (r3 (by rw [xm]; exact mo)) ⟨fun z => absurd (xm.symm.trans z) mo, fun z => ?_⟩
          rcases z with z | ⟨-, ⟨v, sv'⟩, -⟩
          · exact absurd z off
          · rw [sv] at sv'; cases sv'; exact absurd rfl mo
      · have xl := r2 (by
          by_contra z
          obtain ⟨z1, z2⟩ := not_or.mp z
          obtain ⟨⟨m, v⟩, sv⟩ := Option.ne_none_iff_exists'.mp z1
          refine own ⟨?_, m, v, sv⟩
          have := (not_not.mp z2).symm.trans hh
          exact Option.some.inj this)
        have xm : (x.line n).mode = (s.line n).park.mode := by rw [xl]
        have no : ¬ s.restoredOff p l n := fun ⟨_, ⟨v, sv⟩, d, hd, rq, _⟩ => by
          rw [hc] at hd; cases hd; exact own ⟨rq, _, v, sv⟩
        refine ⟨fun a => k1 (pk.trans a), fun a _ => ?_, fun _ b => absurd b (not_or.mpr ⟨off, no⟩)⟩
        have xo : (x.line n).mode ≠ .off := by rw [xm]; exact fun z => a (parkMode_off.mp z)
        rw [k2 (fun z => a (pk.symm.trans z)) xo]
        exact r3 xo
    · have q := (e.untested (fun c h => t ⟨c, h⟩)).2 n hn
      refine same q.2 ?_
      rw [q.1]
      exact ⟨.inl, fun z => z.resolve_right (fun ⟨_, _, c, hc, _, hm⟩ => t ⟨c, hc, hm⟩)⟩
  · have q := e.line_eq hn ht
    refine same q.2 ?_
    rw [q.1]
    exact ⟨.inl, fun z => z.resolve_right (fun w => ht w.1)⟩

omit e in
theorem mode_quiet (h : { x.maint with check := s.maint.check } = s.maint) : x.maint.mode = s.maint.mode :=
  (congrArg Maint.mode h :)

/-- The last pulse in progress goes with this line: nothing keeps the hub DRAINING. -/
theorem not_drainsOn (hm : x.maint.mode = s.maint.mode)
    (d : ¬ s.drainsOn (fun h => h.owner = p ∧ h.line ∈ l ++ [n])) :
    ¬ x.drainsOn (fun h => h.owner = p ∧ h.line = n) := by
  intro k
  refine d (fun m => ?_)
  obtain ⟨j, y, ey, no, py⟩ := k (hm.trans m)
  obtain ⟨ey, nl⟩ := (e.entry_iff j y).mp ey
  refine ⟨j, y, ey, fun ⟨ho, hl⟩ => ?_, py⟩
  rcases List.mem_append.mp hl with c | c
  · exact nl ⟨ho, c⟩
  · exact no ⟨ho, List.mem_singleton.mp c⟩

/-- The end of the claim on one more line. -/
theorem snoc (hn : n ∉ l) (hh : (s.claim (lineRes n)).holder = some p) :
    LinesEnded p (l ++ [n]) s (x.endClaim (lineRes n) .portReset) := by
  have inj : ∀ {m}, lineRes m ∈ l.map lineRes → m ∈ l := fun {m} h => by
    obtain ⟨k, hk, ek⟩ := List.mem_map.mp h
    have : k = m := Fin.ext (congrArg Fin.val ek :)
    exact this ▸ hk
  have cl : ∀ m, m ∉ l → x.claim (lineRes m) = s.claim (lineRes m) := fun m hm => by
    rw [e.claim, if_neg (fun h => hm (inj h))]
  have hx : (x.claim (lineRes n)).holder = some p := by rw [cl n hn]; exact hh
  have el : x.elapsed = s.elapsed := (congrArg State.elapsed e.frame :)
  have claim := endClaim_claim hx .portReset
  have y := lineEnded hx
  generalize x.endClaim (lineRes n) .portReset = t at y claim
  have yline : ∀ m, m ≠ n → (x.line m).mode ≠ .test → t.line m = x.line m ∧ t.filter m = x.filter m := fun m hm ht => by
    by_cases k : ∃ c, x.maint.check = .running c ∧ c.tested.getLsbD n.val = true
    · obtain ⟨c, hc, ct⟩ := k
      exact ((y.tested c hc ct).2 m hm).1 ht
    · exact (y.untested (fun c h => k ⟨c, h⟩)).2 m hm
  have mem : ∀ {m}, m ∈ l ++ [n] ↔ m ∈ l ∨ m = n := fun {m} => by simp
  have ports := fun q (a : State) (h : x.port q = a.port q) => greet_port_congr h (lineRes n) (x.claim (lineRes n)).waiters
  obtain ⟨level, yl, yc⟩ := y.line
  have quiet : { x.maint with check := s.maint.check } = s.maint → { t.maint with check := x.maint.check } = x.maint →
      { t.maint with check := s.maint.check } = s.maint := fun a b =>
    (congrArg (fun k : Maint => { k with check := s.maint.check }) b).trans a
  refine ⟨?_, fun r => ?_, fun i h ei ho hl => ?_, fun i no => ?_, fun m hm => ?_, fun a m b eq => ?_, fun m hm ht => ?_, fun no => ?_,
    fun c hc ht => ?_, fun d => ?_, fun d some_ => ?_, fun d a m b eq pm nb q hq => ?_⟩
  · let f (u : State) : State := { u with
      claims := s.claims, pool := s.pool, lines := s.lines, filters := s.filters, maint := s.maint, ports := s.ports
      free := s.free }
    have ft : f t = f x := (congrArg f y.frame :)
    exact ft.trans (congrArg f e.frame :)
  · rw [claim, List.map_append, List.map_singleton]
    by_cases k : lineRes n = r
    · subst k
      rw [if_pos rfl, if_pos (by simp), cl n hn, el]; rfl
    · rw [if_neg k, e.claim]
      by_cases c : r ∈ l.map lineRes
      · rw [if_pos c, if_pos (List.mem_append_left _ c)]
      · rw [if_neg c, if_neg]
        intro h
        rcases List.mem_append.mp h with h | h
        · exact c h
        · exact k (List.mem_singleton.mp h).symm
  · rcases mem.mp hl with hl | hl
    · have none_ : ∀ y, x.entry i ≠ some y := fun y h' => by
        obtain ⟨a, b⟩ := (e.entry_iff i y).mp h'
        rw [ei] at a; cases a; exact b ⟨ho, hl⟩
      rw [y.kept i (fun z hz => absurd hz (none_ z)), e.freed i h ei ho hl]
    · exact y.freed i h ((e.entry_iff i h).mpr ⟨ei, fun c => hn (hl ▸ c.2)⟩) ho hl
  · rw [y.kept i (fun h hx c => no h ((e.entry_iff i h).mp hx).1 ⟨c.1, mem.mpr (.inr c.2)⟩),
      e.kept i (fun h hs c => no h hs ⟨c.1, mem.mpr (.inl c.2)⟩)]
  · rcases mem.mp hm with hm | rfl
    · obtain ⟨a, b⟩ := e.parked m hm
      rw [(yline m (fun z => hn (z ▸ hm)) (by rw [a]; exact parkMode_ne_test _)).1]
      exact ⟨a, b⟩
    · obtain ⟨a, b⟩ := e.line_kept hn
      rw [yl]
      exact ⟨congrArg ParkMode.mode a, rfl, rfl, a, b⟩
  · rcases List.eq_nil_or_concat b with rfl | ⟨b, z, rfl⟩
    · obtain ⟨rfl, ez⟩ := List.append_inj' eq rfl
      obtain rfl : n = m := by simpa using ez
      exact e.filter_last hn hh y.filter
    · have eq' : l ++ [n] = (a ++ m :: b) ++ [z] := by rw [eq]; simp
      obtain ⟨rfl, ez⟩ := List.append_inj' eq' rfl
      have hm : m ∈ a ++ m :: b := by simp
      rw [(yline m (fun z => hn (z ▸ hm)) (by rw [(e.parked m hm).1]; exact parkMode_ne_test _)).2]
      exact e.filter a m b rfl
  · rcases mem.mp hm with hm | rfl
    · have ne : m ≠ n := fun z => hn (z ▸ hm)
      rw [(yline m ne (by rw [(e.parked m hm).1]; exact parkMode_ne_test _)).1]
      exact e.cut m hm ht
    · rw [yl]
      have xl := (e.line_eq hn ht).1
      refine ⟨fun no => ?_, fun i h c u => ?_⟩
      · exact (yc.1 (fun i h c => no i h ⟨((e.entry_iff i h).mp c.1).1, c.2⟩)).trans (by rw [xl])
      · have away : ¬ (h.owner = p ∧ h.line ∈ l) := fun z => hn (c.2.2.1 ▸ z.2)
        exact (yc.2 i h ⟨(e.entry_iff i h).mpr ⟨c.1, away⟩, c.2⟩
          (fun j k z => u j k ⟨((e.entry_iff j k).mp z.1).1, z.2⟩)).trans (by rw [xl])
  · obtain ⟨a, b⟩ := e.untested (fun c ⟨hc, m, hm, ct⟩ => no c ⟨hc, m, mem.mpr (.inl hm), ct⟩)
    obtain ⟨a', b'⟩ := y.untested (fun c ⟨hc, ct⟩ => no c ⟨a ▸ hc, n, mem.mpr (.inr rfl), ct⟩)
    refine ⟨a'.trans a, fun m hm => ?_⟩
    obtain ⟨ml, mn⟩ := not_or.mp (fun z => hm (mem.mpr z))
    exact ⟨((b' m mn).1).trans (b m ml).1, ((b' m mn).2).trans (b m ml).2⟩
  · by_cases k : ∃ m ∈ l, c.tested.getLsbD m.val = true
    · obtain ⟨a, b⟩ := e.tested c hc k
      obtain ⟨a', b'⟩ := y.untested (fun d ⟨hd, _⟩ => by rw [a] at hd; cases hd)
      refine ⟨a'.trans a, fun m hm => ?_⟩
      obtain ⟨ml, mn⟩ := not_or.mp (fun z => hm (mem.mpr z))
      exact lineRestored_congr (by unfold State.lineAndFilter; rw [(b' m mn).1, (b' m mn).2]) (b m ml)
    · obtain ⟨m, hm, ct⟩ := ht
      obtain rfl : m = n := (mem.mp hm).resolve_left (fun z => k ⟨m, z, ct⟩)
      obtain ⟨a, b⟩ := e.untested (fun d ⟨hd, hk⟩ => by rw [hc] at hd; cases hd; exact k hk)
      obtain ⟨a', b'⟩ := y.tested c (a.trans hc) ct
      refine ⟨a', fun r hr => ?_⟩
      obtain ⟨rl, rn⟩ := not_or.mp (fun z => hr (mem.mpr z))
      have q := b' r rn
      unfold State.lineRestored at q ⊢
      rw [(b r rl).1, (b r rl).2, cl r rl] at q
      exact q
  · have dl : s.drainsOn (fun h => h.owner = p ∧ h.line ∈ l) ∨ ∀ i h, s.entry i = some h → ¬ (h.owner = p ∧ h.line ∈ l) :=
      d.imp (fun d m => by
          obtain ⟨j, k, ek, no, pk⟩ := d m
          exact ⟨j, k, ek, fun c => no ⟨c.1, mem.mpr (.inl c.2)⟩, pk⟩)
        (fun d i h ei c => d i h ei ⟨c.1, mem.mpr (.inl c.2)⟩)
    obtain ⟨a, b⟩ := e.quiet dl
    have dn : x.drainsOn (fun h => h.owner = p ∧ h.line = n) ∨
        ∀ i h, x.entry i = some h → ¬ (h.owner = p ∧ h.line = n) :=
      d.imp (fun d m => by
          obtain ⟨j, k, ek, no, pk⟩ := d ((mode_quiet a).symm.trans m)
          exact ⟨j, k, (e.entry_iff j k).mpr ⟨ek, fun c => no ⟨c.1, mem.mpr (.inl c.2)⟩⟩,
            fun c => no ⟨c.1, mem.mpr (.inr c.2)⟩, pk⟩)
        (fun d i h ei c => d i h ((e.entry_iff i h).mp ei).1 ⟨c.1, mem.mpr (.inr c.2)⟩)
    obtain ⟨a', b'⟩ := y.quiet dn
    refine ⟨quiet a a', fun q hq => ?_⟩
    rw [b' q hq, ports q _ (b q hq), cl n hn, greets_append]; rfl
  · have hm : s.maint.mode = .draining := by by_contra h; exact d (fun m => absurd m h)
    by_cases k : ¬ s.drainsOn (fun h => h.owner = p ∧ h.line ∈ l) ∧ ∃ i h, s.entry i = some h ∧ h.owner = p ∧ h.line ∈ l
    · have a := e.direct k.1 k.2
      have md : x.maint.mode = .direct := (congrArg Maint.mode a :)
      exact (congrArg (fun k : Maint => { k with check := s.maint.check })
        (y.quiet (.inl (fun m => by rw [md] at m; cases m))).1).trans a
    · have q : s.drainsOn (fun h => h.owner = p ∧ h.line ∈ l) ∨
          ∀ i h, s.entry i = some h → ¬ (h.owner = p ∧ h.line ∈ l) := by
        rcases not_and_or.mp k with k | k
        · exact .inl (not_not.mp k)
        · exact .inr (fun i h ei c => k ⟨i, h, ei, c⟩)
      have a := (e.quiet q).1
      have xd := e.not_drainsOn (mode_quiet a) d
      have here : ∃ i h, x.entry i = some h ∧ h.owner = p ∧ h.line = n := by
        rcases q with q | q
        · obtain ⟨j, z, ej, no, pz⟩ := q hm
          by_cases c : z.owner = p ∧ z.line ∈ l ++ [n]
          · exact ⟨j, z, (e.entry_iff j z).mpr ⟨ej, no⟩, c.1, (mem.mp c.2).resolve_left (fun w => no ⟨c.1, w⟩)⟩
          · exact absurd (fun _ => ⟨j, z, ej, c, pz⟩) d
        · obtain ⟨j, z, ej, ho, hl⟩ := some_
          exact ⟨j, z, (e.entry_iff j z).mpr ⟨ej, q j z ej⟩, ho, (mem.mp hl).resolve_left (fun w => q j z ej ⟨ho, w⟩)⟩
      have b := (y.direct xd here).1
      refine (congrArg (fun k : Maint => { k with check := s.maint.check }) b).trans ?_
      exact (congrArg (fun k : Maint => { k with mode := .direct, drainDeadline := none }) a)
  · have hm : s.maint.mode = .draining := by by_contra h; exact d (fun m => absurd m h)
    obtain ⟨i, h, ei, ⟨ho, hl⟩, ph⟩ := pm
    rcases List.eq_nil_or_concat b with rfl | ⟨b, z, rfl⟩
    · obtain ⟨rfl, ez⟩ := List.append_inj' eq rfl
      obtain rfl : n = m := by simpa using ez
      have no : ¬ (h.owner = p ∧ h.line ∈ l) := fun c => hn (hl ▸ c.2)
      obtain ⟨a, bq⟩ := e.quiet (.inl (fun _ => ⟨i, h, ei, no, ph⟩))
      have xe := (e.entry_iff i h).mpr ⟨ei, no⟩
      rw [(y.direct (e.not_drainsOn (mode_quiet a) d) ⟨i, h, xe, ho, hl⟩).2 ⟨i, h, xe, ⟨ho, hl⟩, ph⟩ q hq, cl n hn]
      exact greet_port_congr (nowDirect_port_congr (bq q hq)) _ _
    · have eq' : l ++ [n] = (a ++ m :: b) ++ [z] := by rw [eq]; simp
      obtain ⟨rfl, ez⟩ := List.append_inj' eq' rfl
      obtain rfl : n = z := by simpa using ez
      have ml : h.line ∈ a ++ m :: b := by rw [hl]; simp
      have ds : ¬ s.drainsOn (fun h => h.owner = p ∧ h.line ∈ a ++ m :: b) := fun k => by
        obtain ⟨j, w, ej, no, pw⟩ := k hm
        by_cases c : w.owner = p ∧ w.line ∈ (a ++ m :: b) ++ [n]
        · have : w.line = n := (mem.mp c.2).resolve_left (fun v => no ⟨c.1, v⟩)
          rw [nb j w ej c.1 (by simp [this])] at pw; cases pw
        · exact d (fun _ => ⟨j, w, ej, c, pw⟩)
      have tl := e.told ds a m b rfl ⟨i, h, ei, ⟨ho, hl⟩, ph⟩
        (fun j w ej hw lw => nb j w ej hw (by simp [lw])) q hq
      have md : x.maint.mode = .direct := (congrArg Maint.mode (e.direct ds ⟨i, h, ei, ho, ml⟩) :)
      rw [(y.quiet (.inl (fun m => by rw [md] at m; cases m))).2 q hq, ports q _ tl, cl n hn]
      rw [show m :: b.concat n = (m :: b) ++ [n] from by simp, greets_append]; rfl

end LinesEnded

/-- The lines of a list that a port holds, in the list's order. -/
def State.heldOf (s : State) (p : PortId) (m : List LineId) : List LineId :=
  m.filter (fun n => (s.claim (lineRes n)).holder == some p)

theorem LinesEnded.walk {p : PortId} {s : State} (m : List LineId) {l : List LineId} {x : State}
    (e : LinesEnded p l s x) (nd : m.Nodup) (fresh : ∀ n ∈ m, n ∉ l) :
    LinesEnded p (l ++ s.heldOf p m) s
      (m.foldl (fun x n => if x.holds p (lineRes n) then x.endClaim (lineRes n) .portReset else x) x) := by
  induction m generalizing l x with
  | nil => simpa [State.heldOf] using e
  | cons n t ih =>
    obtain ⟨nt, nd⟩ := List.nodup_cons.mp nd
    have hn : n ∉ l := fresh n List.mem_cons_self
    have cl : x.claim (lineRes n) = s.claim (lineRes n) := by
      rw [e.claim, if_neg]
      intro h
      obtain ⟨k, hk, ek⟩ := List.mem_map.mp h
      have : k = n := Fin.ext (congrArg Fin.val ek :)
      exact hn (this ▸ hk)
    rw [List.foldl_cons]
    by_cases hh : (s.claim (lineRes n)).holder = some p
    · rw [if_pos (by rw [holds_iff, cl]; exact hh)]
      have k := ih (e.snoc hn hh) nd (fun j hj hl => by
        rcases List.mem_append.mp hl with c | c
        · exact fresh j (List.mem_cons_of_mem _ hj) c
        · exact nt (List.mem_singleton.mp c ▸ hj))
      have : s.heldOf p (n :: t) = n :: s.heldOf p t := by simp [State.heldOf, hh]
      rw [this]; simpa using k
    · rw [if_neg (by rw [holds_iff, cl]; exact hh)]
      have : s.heldOf p (n :: t) = s.heldOf p t := by simp [State.heldOf, hh]
      rw [this]
      exact ih e nd (fun j hj => fresh j (List.mem_cons_of_mem _ hj))

/-- The claim table's part of a port reset: the lines of the port first, in ascending order, then TB and MX (R34). -/
theorem dropClaims_lines (s : State) (p : PortId) :
    ∃ x, LinesEnded p ((s.dropWaits p).heldOf p allLines) (s.dropWaits p) x ∧
      s.dropClaims p = [resTB, resMX].foldl (fun x r => if x.holds p r then x.endClaim r .portReset else x) x := by
  refine ⟨_, LinesEnded.walk allLines (.nil p (s.dropWaits p)) (List.nodup_finRange 16) (fun n _ h => List.not_mem_nil h), ?_⟩
  have order : allResources = allLines.map lineRes ++ [resTB, resMX] := by decide
  unfold State.dropClaims
  rw [order, List.foldl_append, List.foldl_map]

end Sys2Proof.Machine
end

