-- ==== Sys2Proof/Laws/Return.lean ====
section
/-! SUPPORT. The return to RUN in the words of the statements (R93, R131). -/

namespace Sys2Proof.Machine

variable {u : State} {i : SlotId}

/-! ## What the catch-up leaves alone -/

/-- An operation of the schedule changes the pool, levels, ports, counters, the hub mode and free values alone. -/
theorem Scheduled.same {s t : State} (k : Scheduled s t) :
    { t with maint := s.maint, lines := s.lines, ports := s.ports, pool := s.pool, integ := s.integ,
             free := s.free } = s := by
  have e := k.fixed
  simp only [State.fixed, Prod.mk.injEq] at e
  obtain ⟨e1, e2, e3, e4, e5, e6, e7, e8, e9, e10, e11, e12, e13, e14, e15, -, -, e18⟩ := e
  rw [e1, e2, e3, e4, e5, e6, e7, e8, e9, e10, e11, e12, e13, e14, e15, e18]

/-- The state in which the catch-up begins: RUN, no override, and every port told (R131). -/
theorem returnToRun_eq (s : State) (reason : ExitReason) :
    s.returnToRun reason = State.catchUp { s with
      maint := { s.maint with mode := .run, drainDeadline := none }
      lines := s.lines.map (fun l => { l with override := none })
      ports := s.ports.map (fun q => q.enqueue (.directExited reason)) } := rfl

/-! ## The lists that the catch-up walks through -/

/-- The deferral order is the one list of the DEFERRED entries in which the place rises (R90). -/
theorem deferralOrder_ordered {l : List SlotId} (o : u.deferralOrdered l) : u.deferralOrder = l := by
  refine sortBy_eq ((List.nodup_finRange 128).filter _) o.1 (fun i => ?_)
  rw [List.mem_filter, o.2 i]
  dsimp only
  cases u.entry i <;> simp [allSlots, Option.isSome_iff_ne_none]

theorem deferralOrdered_nodup {l : List SlotId} (o : u.deferralOrdered l) : l.Nodup :=
  o.1.imp (fun x e => absurd (e ▸ x) (lt_irrefl _))

theorem place_deferred {x : EntryStatus} (k : x.place ≠ none) : ∃ d q, x = .deferred d q := by
  cases x <;> simp [EntryStatus.place] at k ⊢

theorem run_suspended {x : EntryStatus} : x.suspendedRun ≠ none ↔ ∃ r, x = .suspended r := by
  cases x <;> simp [EntryStatus.suspendedRun]

/-- The walk of a step over the SUSPENDED trains. -/
theorem suspended_ordered {l : List SlotId} (o : u.postOrdered (fun h => h.status.suspendedRun ≠ none) l) :
    u.entriesWhere (fun h => h.status.suspendedRun.isSome) = l :=
  postOrdered_entriesWhere (fun _ => Option.isSome_iff_ne_none) o

/-! ## Step 1: DEFERRED entries (R93) -/

/-- In RUN, the entry of a slot is DEFERRED. -/
def State.deferredIn (s : State) (i : SlotId) : Prop :=
  s.maint.mode = .run ∧ ∃ h d q, s.entry i = some h ∧ h.status = .deferred d q

theorem runs_keeps {s t : State} (k : Scheduled s t) (m : s.maint.mode = .run) : t.maint.mode = .run := by
  rcases k.mode with a | ⟨a, -⟩
  · exact a.trans m
  · rw [m] at a; cases a

theorem pulseBeside_run {s : State} (m : s.maint.mode = .run) : s.pulseBeside i := fun d => by rw [m] at d; cases d

theorem deferredIn_keeps (u : State) (i j : SlotId) (hj : i ≠ j) (r : u.deferredIn i) (q : u.deferredIn j) :
    (u.handleLate i).deferredIn j := by
  obtain ⟨-, h, d, p, e, k⟩ := q
  exact ⟨runs_keeps (handleLate_scheduled u i) r.1, h, d, p, ((OnlySlot.handleLate u).entry hj.symm).trans e, k⟩

theorem deferredLate_each (l : List SlotId) (nd : l.Nodup) (r : ∀ i ∈ l, u.deferredIn i) :
    eachBecomes State.deferredLate l u (l.foldl (fun s i => s.handleLate i) u) :=
  each_foldl (ready := State.deferredIn) (fun u i ⟨m, h, d, q, e, k⟩ =>
    ⟨h, d, q, e, k, handleLate_reads e (by rw [k]; rfl) (pulseBeside_run m)⟩) deferredIn_keeps l nd u r

theorem setSlot_own {s : State} {x : Slot} {k : Header} (e : (s.setSlot i x).entry i = some k) : x.entry = some k := by
  rwa [setSlot_entry, if_pos rfl] at e

/-- What is left of an entry that finished, or was dropped, is not SUSPENDED. -/
theorem finish_runs {s : State} {h k : Header} {y : Timeliness} (e : (s.finish i h y).entry i = some k) :
    k.status.suspendedRun = none := by
  unfold State.finish at e; split at e
  · cases setSlot_own e; rfl
  · rw [complete_entry] at e; cases e

/-- What an arrival in RUN makes of its entry is not SUSPENDED. -/
theorem arrive_runs {s : State} {y : Timeliness} {k : Header} (m : s.maint.mode = .run)
    (e : (s.arrive i y).entry i = some k) : k.status.suspendedRun = none := by
  have mr := runs_keeps (checkSlot_scheduled s i) m
  unfold State.arrive at e; dsimp only at e; split at e
  · rename_i n; rw [n] at e; cases e
  · rw [if_neg (by simp [mr])] at e; split at e
    · unfold State.collide at e; split at e
      · cases setSlot_own e; rfl
      · rw [complete_entry] at e; cases e
    · unfold State.applyEntry at e; split at e
      · exact finish_runs (s := (s.checkSlot i).setScheduled _ _) e
      · exact finish_runs (s := (s.checkSlot i).setScheduled _ _) e
      · exact finish_runs (s := (s.checkSlot i).setScheduled _ _) e
      · cases setSlot_own (s := s.checkSlot i) e; rfl
      · cases setSlot_own (s := (s.checkSlot i).setScheduled _ _) e; rfl

/-- What late handling in RUN makes of its entry is not SUSPENDED. -/
theorem handleLate_runs {s : State} {k : Header} (m : s.maint.mode = .run) (e : (s.handleLate i).entry i = some k) :
    k.status.suspendedRun = none := by
  have mr := runs_keeps (checkSlot_scheduled s i) m
  unfold State.handleLate at e; dsimp only at e; split at e
  · rename_i n; rw [n] at e; cases e
  · split at e
    · exact arrive_runs mr e
    · split at e
      · cases setSlot_own e; rfl
      · rw [complete_entry] at e; cases e

/-! ## Steps 2 and 3: SUSPENDED trains (R93) -/

/-- The first boundary of a grid at or after a time is the only one that is less than a period after it, or the next
boundary itself (R93). -/
theorem firstBoundary_eq {next period now k : Nat} (le : now ≤ next + k * period)
    (first : k = 0 ∨ next + k * period < now + period) : firstBoundary next period now = next + k * period := by
  unfold firstBoundary
  split
  · rcases first with rfl | lt
    · simp
    · have : k = 0 := by
        rcases Nat.eq_zero_or_pos k with z | z
        · exact z
        · have := Nat.le_mul_of_pos_left period z; omega
      subst this; simp
  · rename_i hn
    rcases first with rfl | lt
    · omega
    · have pp : 0 < period := by
        rcases Nat.eq_zero_or_pos period with z | z
        · subst z; omega
        · exact z
      congr 2
      rw [Nat.div_eq_iff pp]
      have := Nat.mul_comm k period
      constructor
      · rw [Nat.mul_comm] at *; omega
      · omega

/-- In RUN, the entry of a slot is SUSPENDED. -/
def State.suspendedIn (s : State) (i : SlotId) : Prop :=
  s.maint.mode = .run ∧ ∃ h r, s.entry i = some h ∧ h.status = .suspended r

theorem suspendedIn_keeps {f : State → SlotId → State} (sc : ∀ u i, Scheduled u (f u i))
    (only : ∀ u i, OnlySlot i u (f u i)) (u : State) (i j : SlotId) (hj : i ≠ j) (r : u.suspendedIn i)
    (q : u.suspendedIn j) : (f u i).suspendedIn j := by
  obtain ⟨-, h, x, e, k⟩ := q
  exact ⟨runs_keeps (sc u i) r.1, h, x, ((only u i).entry hj.symm).trans e, k⟩

theorem resumeTrain_read (s : State) (i : SlotId) : (s.checkSlot i).resumeTrain i = s.resumeTrain i := by
  unfold State.resumeTrain; rw [checkSlot_again]

theorem finishTrain_read (s : State) (i : SlotId) : (s.checkSlot i).finishTrain i = s.finishTrain i := by
  unfold State.finishTrain; rw [checkSlot_again]

theorem pulsesLeft_iff {a : Action} {x : TrainRun} {act : Level} {w q : BitVec 24} {c : BitVec 16}
    (ha : a = .train act w q c) : pulsesLeft a x = true ↔ c = 0 ∨ x.begun.toNat + x.skipped.toNat < c.toNat := by
  rw [ha]; simp [pulsesLeft]

/-- A SUSPENDED train resumes, or waits for step 3. -/
theorem resumeTrain_resumes (r : u.suspendedIn i) : u.trainResumes i (u.resumeTrain i) := by
  obtain ⟨-, h, r, e, k⟩ := r
  refine ⟨h, r, e, k, reads_of (fun n => ?_) (fun h' e' => ?_)⟩
  · unfold State.resumeTrain; dsimp only; rw [n]
  have eh := (checkSlot_some e').1
  rw [e] at eh; cases eh
  rw [← resumeTrain_read]
  have clean := checkSlot_wrong u i
  generalize u.checkSlot i = v at e' clean
  intro x act w q c hx ab every
  have run : v.resumeTrain i = if pulsesLeft (v.body i).action x then
      let b := firstBoundary (x.nextBoundary.getD v.elapsed) (period (v.body i).action) v.elapsed
      if b = v.elapsed then v.beginTrainPulse i h r x b else v.setStatus i h
          (.active { r with phase := .betweenPulses, train := some { x with nextBoundary := some b } })
      else v := by
    unfold State.resumeTrain
    rw [checkSlot_clean clean]; dsimp only
    rw [e']; dsimp only
    rw [k]; dsimp only [EntryStatus.suspendedRun]
    rw [hx]
  rw [run]
  refine ⟨?_, fun c0 full => ?_⟩
  · intro b₀ n left hb b hle hk
    have fb : firstBoundary (x.nextBoundary.getD v.elapsed) (period (v.body i).action) v.elapsed = b := by
      rw [hb, ab]
      exact firstBoundary_eq hle hk
    rw [if_pos ((pulsesLeft_iff ab).mpr left)]; dsimp only; rw [fb]
    refine ⟨fun lt => if_neg (by omega), fun eq a a1 a2 => ?_⟩
    rw [if_pos eq.symm, beginTrainPulse_eq ab]
    by_cases hv : v.isEvery i = true
    · rw [if_pos hv, a1 ((isEvery_iff v i).mp hv)]
    · rw [if_neg hv, a2 (fun z => hv ((isEvery_iff v i).mpr z))]
  · refine if_neg (fun z => ?_)
    rcases (pulsesLeft_iff ab).mp z with z | z
    · exact c0 z
    · omega

/-- A train that has no pulses left finishes. -/
theorem finishTrain_finishes (r : u.suspendedIn i) : u.trainFinishes i (u.finishTrain i) := by
  obtain ⟨m, h, r, e, k⟩ := r
  refine ⟨h, r, e, k, reads_of (fun n => ?_) (fun h' e' => ?_)⟩
  · unfold State.finishTrain; dsimp only; rw [n]
  obtain ⟨eh, mv⟩ := checkSlot_some e'
  rw [e] at eh; cases eh
  rw [← finishTrain_read]
  have clean := checkSlot_wrong u i
  rw [← mv] at m
  generalize u.checkSlot i = v at e' clean m
  intro x act w q c hx ab c0 full every
  have run : v.finishTrain i = v.finish i h r.timeliness := by
    unfold State.finishTrain
    rw [checkSlot_clean clean]; dsimp only
    rw [e']; dsimp only
    rw [k]; dsimp only [EntryStatus.suspendedRun]
    rw [hx]; dsimp only
    refine if_neg (fun z => ?_)
    rcases (pulsesLeft_iff ab).mp z with z | z
    · exact c0 z
    · omega
  rw [run, finish_eq (h := h) e' r.timeliness ⟨rfl, rfl, rfl, rfl, rfl⟩ (pulseBeside_run m)]
  exact ⟨fun hv => if_neg (fun z => hv ((isEvery_iff v i).mp z)), fun hv => if_pos ((isEvery_iff v i).mpr hv)⟩

/-- A train that resumes keeps its post order. -/
theorem resumeTrain_order {s : State} {h k : Header} (e : s.entry i = some h) (e' : (s.resumeTrain i).entry i = some k) :
    k.postOrder = h.postOrder := by
  unfold State.resumeTrain at e'; dsimp only at e'; split at e'
  · rename_i n; rw [n] at e'; cases e'
  · rename_i x n
    have eh := (checkSlot_some n).1
    rw [e] at eh; cases eh
    have stay : ∀ {y : Header}, some h = some y → y.postOrder = h.postOrder := fun z => by cases z; rfl
    split at e'
    · rw [n] at e'; exact stay e'
    · split at e'
      · rw [n] at e'; exact stay e'
      · split at e'
        · split at e'
          · unfold State.beginTrainPulse at e'; dsimp only at e'
            have z := setSlot_own (s := (s.checkSlot i).setScheduled _ _) e'
            cases z; split <;> rfl
          · cases setSlot_own e'; rfl
        · rw [n] at e'; exact stay e'

/-! ## The three steps -/

/-- Step 1 leaves the SUSPENDED trains as they were, and makes none. -/
theorem deferred_suspended {l₁ l₂ : List SlotId} (r : ∀ i ∈ l₁, u.deferredIn i) (nd : l₁.Nodup)
    (o : u.postOrdered (fun h => h.status.suspendedRun ≠ none) l₂) :
    (l₁.foldl (fun s i => s.handleLate i) u).postOrdered (fun h => h.status.suspendedRun ≠ none) l₂ := by
  obtain ⟨on, off⟩ := foldl_slot (ready := State.deferredIn) (fun u _ => OnlySlot.handleLate u) deferredIn_keeps l₁ nd u r
  generalize l₁.foldl (fun s i => s.handleLate i) u = v at on off
  have apart : ∀ i ∈ l₂, i ∉ l₁ := fun i hi hl => by
    obtain ⟨h, e, k⟩ := (o.2 i).mp hi
    obtain ⟨-, h', d, q, e', k'⟩ := r i hl
    rw [e] at e'; cases e'
    rw [k'] at k; exact k rfl
  have same : ∀ i ∈ l₂, v.entry i = u.entry i := fun i hi => congrArg Slot.entry (off i (apart i hi))
  refine ⟨o.1.imp_of_mem (fun ha hb x => ?_), fun i => ⟨fun hi => ?_, fun ⟨h, e, k⟩ => ?_⟩⟩
  · unfold State.orderOf at x ⊢; rw [same _ ha, same _ hb]; exact x
  · rw [same i hi]; exact (o.2 i).mp hi
  · by_cases hl : i ∈ l₁
    · obtain ⟨w, here, -, sl⟩ := on i hl
      refine absurd (handleLate_runs (i := i) here.1 (k := h) ?_) k
      exact (congrArg Slot.entry sl).symm.trans e
    · exact (o.2 i).mpr ⟨h, (congrArg Slot.entry (off i hl)).symm.trans e, k⟩

/-- The trains that step 2 leaves SUSPENDED stand in post order. -/
theorem resumed_suspended {l : List SlotId} (r : ∀ i ∈ l, u.suspendedIn i)
    (o : u.postOrdered (fun h => h.status.suspendedRun ≠ none) l) :
    ∃ l', (l.foldl (fun s i => s.resumeTrain i) u).postOrdered (fun h => h.status.suspendedRun ≠ none) l' := by
  obtain ⟨on, off⟩ := foldl_slot (ready := State.suspendedIn) (fun u _ => OnlySlot.resumeTrain u)
    (suspendedIn_keeps resumeTrain_scheduled (fun u _ => OnlySlot.resumeTrain u)) l (postOrdered_nodup o) u r
  generalize l.foldl (fun s i => s.resumeTrain i) u = v at on off
  have still : ∀ i h, v.entry i = some h → h.status.suspendedRun ≠ none → i ∈ l := fun i h e k => by
    by_contra hl
    exact hl ((o.2 i).mpr ⟨h, (congrArg Slot.entry (off i hl)).symm.trans e, k⟩)
  have order : ∀ i ∈ l, ∀ h, v.entry i = some h → v.orderOf i = u.orderOf i := fun i hi h e => by
    obtain ⟨w, -, sw, sl⟩ := on i hi
    obtain ⟨-, h₀, r₀, e₀, -⟩ := r i hi
    have ew : w.entry i = some h₀ := (congrArg Slot.entry sw).trans e₀
    unfold State.orderOf
    rw [e, e₀]
    exact resumeTrain_order ew ((congrArg Slot.entry sl).symm.trans e)
  refine ⟨l.filter (fun i => (v.entry i).any (fun h => h.status.suspendedRun.isSome)), ?_, fun i => ?_⟩
  · refine (o.1.sublist List.filter_sublist).imp_of_mem (fun {a b} ha hb x => ?_)
    obtain ⟨ha, a'⟩ := List.mem_filter.mp ha
    obtain ⟨hb, b'⟩ := List.mem_filter.mp hb
    obtain ⟨h, e, -⟩ := Option.any_eq_true .. |>.mp a'
    obtain ⟨h', e', -⟩ := Option.any_eq_true .. |>.mp b'
    rw [order a ha h e, order b hb h' e']; exact x
  · rw [List.mem_filter, Option.any_eq_true]
    simp only [Option.isSome_iff_ne_none]
    exact ⟨fun x => x.2, fun x => ⟨by obtain ⟨h, e, k⟩ := x; exact still i h e k, x⟩⟩

theorem suspendedIn_ordered {l : List SlotId} (m : u.maint.mode = .run)
    (o : u.postOrdered (fun h => h.status.suspendedRun ≠ none) l) : ∀ i ∈ l, u.suspendedIn i := fun i hi => by
  obtain ⟨h, e, k⟩ := (o.2 i).mp hi
  obtain ⟨r, k⟩ := run_suspended.mp k
  exact ⟨m, h, r, e, k⟩

/-- The schedule catches up, in the words of the statements. -/
theorem catchUp_each {l₁ l₂ : List SlotId} (m : u.maint.mode = .run) (o₁ : u.deferralOrdered l₁)
    (o₂ : u.postOrdered (fun h => h.status.suspendedRun ≠ none) l₂) :
    ∃ (v₁ v₂ : State) (l₃ : List SlotId), eachBecomes State.deferredLate l₁ u v₁ ∧
      eachBecomes State.trainResumes l₂ v₁ v₂ ∧ v₂.postOrdered (fun h => h.status.suspendedRun ≠ none) l₃ ∧
      eachBecomes State.trainFinishes l₃ v₂ u.catchUp := by
  have n₁ := deferralOrdered_nodup o₁
  have r₁ : ∀ i ∈ l₁, u.deferredIn i := fun i hi => by
    obtain ⟨k, hk⟩ := Option.ne_none_iff_exists'.mp ((o₁.2 i).mp hi)
    obtain ⟨h, e, p⟩ := Option.bind_eq_some_iff.mp hk
    obtain ⟨d, q, s⟩ := place_deferred (x := h.status) (by rw [p]; simp)
    exact ⟨m, h, d, q, e, s⟩
  have e₁ := deferredLate_each l₁ n₁ r₁
  have p₂ := deferred_suspended r₁ n₁ o₂
  have m₁ := runs_keeps (Scheduled.foldl (fun s i => handleLate_scheduled s i) l₁ u) m
  have cu : u.catchUp = ((l₂.foldl (fun s i => s.resumeTrain i)
      (l₁.foldl (fun s i => s.handleLate i) u)).entriesWhere (fun h => h.status.suspendedRun.isSome)).foldl
        (fun s i => s.finishTrain i) (l₂.foldl (fun s i => s.resumeTrain i) (l₁.foldl (fun s i => s.handleLate i) u)) := by
    unfold State.catchUp; dsimp only
    rw [deferralOrder_ordered o₁, suspended_ordered p₂]
  rw [cu]
  generalize l₁.foldl (fun s i => s.handleLate i) u = v₁ at e₁ p₂ m₁
  have r₂ := suspendedIn_ordered m₁ p₂
  have e₂ := each_foldl (becomes := State.trainResumes) (f := fun s i => s.resumeTrain i) (ready := State.suspendedIn)
    (fun _ _ r => resumeTrain_resumes r)
    (suspendedIn_keeps resumeTrain_scheduled (fun u _ => OnlySlot.resumeTrain u)) l₂ (postOrdered_nodup p₂) v₁ r₂
  obtain ⟨l₃, p₃⟩ := resumed_suspended r₂ p₂
  have m₂ := runs_keeps (Scheduled.foldl (fun s i => resumeTrain_scheduled s i) l₂ v₁) m₁
  generalize l₂.foldl (fun s i => s.resumeTrain i) v₁ = v₂ at e₂ p₃ m₂
  refine ⟨v₁, v₂, l₃, e₁, e₂, p₃, ?_⟩
  rw [suspended_ordered p₃]
  exact each_foldl (becomes := State.trainFinishes) (f := fun s i => s.finishTrain i) (ready := State.suspendedIn)
    (fun _ _ r => finishTrain_finishes r)
    (suspendedIn_keeps finishTrain_scheduled (fun u _ => OnlySlot.finishTrain u)) l₃ (postOrdered_nodup p₃) v₂
    (suspendedIn_ordered m₂ p₃)

/-- The return to RUN, in the words of the statements. -/
theorem returnToRun_returned (s : State) (reason : ExitReason) : s.returned reason (s.returnToRun reason) := by
  let u : State := { s with
    maint := { s.maint with mode := .run, drainDeadline := none }
    lines := s.lines.map (fun l => { l with override := none })
    ports := s.ports.map (fun q => q.enqueue (.directExited reason)) }
  have ru : s.returnToRun reason = u.catchUp := returnToRun_eq s reason
  have sc : Scheduled u u.catchUp := catchUp_scheduled u
  rw [ru]
  refine ⟨?_, ?_, fun n => ?_, fun l₁ l₂ o₁ o₂ _ => catchUp_each (u := u) rfl o₁ o₂⟩
  · have := sc.same
    exact congrArg (fun x : State => { x with
      maint := s.maint, lines := s.lines, ports := s.ports, pool := s.pool, integ := s.integ, free := s.free }) this
  · rcases sc.maint with a | ⟨a, -⟩
    · exact a
    · cases a
  · obtain ⟨l, hl⟩ := sc.lines n
    rw [hl]

end Sys2Proof.Machine
end

