-- ==== Sys2Proof/Laws/Tick.lean ====
section
/-! SUPPORT. The tick: what the queue of a tick holds and in which order, whatever order the free values pick. -/

namespace Sys2Proof.Machine

/-! ## Weaving -/

section
variable {α : Type}

theorem insert_perm (k : Nat) : ∀ l : List α, ∀ h : k < l.length, l.Perm (l[k] :: l.eraseIdx k) := by
  intro l h
  have := List.getElem_cons_eraseIdx_perm (l := l) (n := k) h
  exact this.symm

/-- A shuffle holds the elements of the list. -/
theorem shuffle_perm : ∀ (ks : List Nat) (l : List α), (shuffle ks l).Perm l := by
  intro ks
  induction ks with
  | nil => intro l; cases l <;> simp [shuffle]
  | cons k ks ih =>
    intro l
    cases l with
    | nil => simp [shuffle]
    | cons a t =>
      have hk : k % (t.length + 1) < (a :: t).length := by
        simpa using Nat.mod_lt k (Nat.succ_pos t.length)
      simp only [shuffle]
      rw [List.getD_eq_getElem _ _ hk]
      exact ((ih _).cons _).trans (insert_perm _ _ hk).symm

theorem flatten_set_perm : ∀ (l : List (List α)) (k : Nat) (a : α) (t : List α), l[k]? = some (a :: t) →
    l.flatten.Perm (a :: (l.set k t).flatten) := by
  intro l
  induction l with
  | nil => intro k a t h; simp at h
  | cons x l ih =>
    intro k a t h
    cases k with
    | zero => simp at h; subst h; simp
    | succ k =>
      simp at h
      have := ih k a t h
      simp only [List.flatten_cons, List.set_cons_succ]
      exact (this.append_left x).trans List.perm_middle

theorem flatten_filter : ∀ l : List (List α), (l.filter (fun x => !x.isEmpty)).flatten = l.flatten := by
  intro l
  induction l with
  | nil => rfl
  | cons x l ih => cases x <;> simp [ih]

theorem flatten_length (l : List (List α)) : (l.map List.length).sum = l.flatten.length := by simp

/-- The pick that a weave makes: some element of one of its sequences. -/
theorem weave_pick {l : List (List α)} {picks : List Nat} {n : Nat} (h : l.flatten.length = n + 1) :
    ∃ k a t, (l.filter (fun x => !x.isEmpty))[k]? = some (a :: t) ∧
      weave (n + 1) picks l = a :: weave n picks.tail ((l.filter (fun x => !x.isEmpty)).set k t) := by
  have hne : (l.filter (fun x => !x.isEmpty)) ≠ [] := by
    intro e
    have := flatten_filter l
    rw [e] at this
    rw [← this] at h
    simp at h
  have hlen : 0 < (l.filter (fun x => !x.isEmpty)).length := List.length_pos_of_ne_nil hne
  have hk := Nat.mod_lt (picks.headD 0) hlen
  have hget := List.getElem?_eq_getElem hk
  have hmem := List.getElem_mem hk
  obtain ⟨_, hm⟩ := List.mem_filter.mp hmem
  cases hx : (l.filter (fun x => !x.isEmpty))[picks.headD 0 % (l.filter (fun x => !x.isEmpty)).length]'hk with
  | nil => rw [hx] at hm; simp at hm
  | cons a t =>
    refine ⟨_, a, t, by rw [hget, hx], ?_⟩
    simp only [weave]
    rw [hget, hx]

/-- A weave holds the elements of its sequences. -/
theorem weave_perm : ∀ (n : Nat) (picks : List Nat) (l : List (List α)), l.flatten.length = n →
    (weave n picks l).Perm l.flatten := by
  intro n
  induction n with
  | zero => intro picks l h; rw [List.length_eq_zero_iff.mp h]; simp [weave]
  | succ n ih =>
    intro picks l h
    obtain ⟨k, a, t, hk, hw⟩ := weave_pick (picks := picks) h
    have hp := flatten_set_perm _ _ _ _ hk
    rw [flatten_filter] at hp
    rw [hw]
    have hl := hp.length_eq
    exact ((ih _ _ (by simp only [List.length_cons] at hl; omega)).cons _).trans hp.symm

/-- A weave keeps every sequence in its own order. -/
theorem sublist_weave : ∀ (n : Nat) (picks : List Nat) (l : List (List α)) (x : List α), l.flatten.length = n →
    x ∈ l → x.Sublist (weave n picks l) := by
  intro n
  induction n with
  | zero =>
    intro picks l x h hx
    have : x = [] := by
      have h0 := List.length_eq_zero_iff.mp h
      exact List.flatten_eq_nil_iff.mp h0 x hx
    simp [this]
  | succ n ih =>
    intro picks l x h hx
    obtain ⟨k, a, t, hk, hw⟩ := weave_pick (picks := picks) h
    have hp := flatten_set_perm _ _ _ _ hk
    rw [flatten_filter] at hp
    have hl := hp.length_eq
    simp only [List.length_cons] at hl
    have hn : ((l.filter (fun x => !x.isEmpty)).set k t).flatten.length = n := by omega
    rw [hw]
    cases x with
    | nil => simp
    | cons b u =>
      have hm : (b :: u) ∈ l.filter (fun x => !x.isEmpty) := List.mem_filter.mpr ⟨hx, by simp⟩
      obtain ⟨j, hj⟩ := List.mem_iff_getElem?.mp hm
      by_cases e : j = k
      · subst e
        rw [hk] at hj
        simp at hj
        obtain ⟨rfl, rfl⟩ := hj
        have hlt : j < (l.filter (fun x => !x.isEmpty)).length := by
          by_contra hc
          rw [List.getElem?_eq_none (by omega)] at hk
          simp at hk
        exact (ih _ _ _ hn (List.mem_iff_getElem?.mpr ⟨j, by simp [hlt]⟩)).cons_cons _
      · refine (ih _ _ _ hn (List.mem_iff_getElem?.mpr ⟨j, ?_⟩)).cons _
        rw [List.getElem?_set_ne (Ne.symm e)]
        exact hj
end

/-! ## The queue of a tick -/

/-- The rows that the timers bring at a tick, block by block. -/
def State.timerRows (s : State) : List (List Instr) := s.claimRows ++ s.runRows ++ s.unitRows ++ s.linkRows

theorem mem_dueRow {b : Bool} {l x : List Instr} : x ∈ dueRow b l ↔ b = true ∧ x = l := by
  cases b <;> simp [dueRow]

/-- The rows of a tick, whatever their order: the advance, the sample with its acceptances, and what the timers bring. -/
theorem tickQueue_perm (s : State) : s.tickQueue.Perm (.countAdvance :: (s.sampleBlock ++ s.timerRows.flatten)) := by
  have hp : (weave (s.tickRows.map List.length).sum (Config.tickOrder s.free) s.tickRows).Perm s.tickRows.flatten :=
    weave_perm _ _ _ (flatten_length _).symm
  have each : ∀ l : List (List Instr), ((l.map (fun x => x.map (fun i => [i]))).flatten).flatten = l.flatten := by
    intro l
    induction l with
    | nil => rfl
    | cons x t ih =>
      rw [List.map_cons, List.flatten_cons, List.flatten_append, ih, List.flatten_cons]
      congr 1
      induction x with
      | nil => rfl
      | cons i u ih => simp [ih]
  refine hp.flatten.trans (.of_eq ?_)
  rw [State.tickRows, List.flatten_cons, List.flatten_append, each]
  simp [State.timerRows]

/-- A row is in the queue of a tick when a timer brings it, or it is of the advance or of the sample. -/
theorem mem_tickQueue (s : State) (c : Instr) :
    c ∈ s.tickQueue ↔ c = .countAdvance ∨ c ∈ s.sampleBlock ∨ ∃ l ∈ s.timerRows, c ∈ l := by
  rw [(tickQueue_perm s).mem_iff, List.mem_cons, List.mem_append, List.mem_flatten]

/-- Is a row one that a tick brings once, beside its timers: the advance, the sample or an acceptance? -/
def isTickRow : Instr → Bool
  | .countAdvance => true
  | .lineSample _ _ => true
  | .edgeAccepted _ => true
  | _ => false

/-- No timer brings the advance, the sample or an acceptance. -/
theorem timerRows_other (s : State) (l : List Instr) (h : l ∈ s.timerRows) : ∀ c ∈ l, isTickRow c = false := by
  simp only [State.timerRows, State.claimRows, State.runRows, State.unitRows, State.linkRows, State.slotRows,
    List.mem_append, List.mem_flatMap, mem_dueRow] at h
  aesop (add norm simp [isTickRow, dueRow])

/-- In the queue of a tick the advance comes before the sample, the acceptances follow the sample at once, and each of
these rows stands there once. -/
theorem tickQueue_order (s : State) : ∃ a b c held level order, (order : List LineId).Perm (List.finRange 16) ∧
    s.tickQueue = a ++ Instr.countAdvance :: (b ++ Instr.lineSample held level :: (order.map Instr.edgeAccepted ++ c)) ∧
    ∀ x ∈ a ++ b ++ c, isTickRow x = false := by
  have hs : [[Instr.countAdvance], s.sampleBlock].Sublist
      (weave (s.tickRows.map List.length).sum (Config.tickOrder s.free) s.tickRows) :=
    sublist_weave _ _ _ _ (flatten_length _).symm (by simp [State.tickRows])
  obtain ⟨r₁, r₂, hw, h1, h2⟩ := List.cons_sublist_iff.mp hs
  obtain ⟨x, y, rfl⟩ := List.append_of_mem h1
  obtain ⟨z, w, rfl⟩ := List.append_of_mem (List.singleton_sublist.mp h2)
  have eq : s.tickQueue = x.flatten ++ Instr.countAdvance :: ((y.flatten ++ z.flatten) ++
      Instr.lineSample (Config.outsideHeld s.free) (Config.outsideLevel s.free) ::
        ((shuffle (Config.edgeOrder s.free) allLines).map (fun n => Instr.edgeAccepted n) ++ w.flatten)) := by
    unfold State.tickQueue
    rw [hw]
    simp [State.sampleBlock]
  refine ⟨x.flatten, y.flatten ++ z.flatten, w.flatten, Config.outsideHeld s.free, Config.outsideLevel s.free,
    shuffle (Config.edgeOrder s.free) allLines, shuffle_perm _ _, eq, ?_⟩
  have perm := tickQueue_perm s
  rw [eq] at perm
  have rest : (x.flatten ++ ((y.flatten ++ z.flatten) ++ w.flatten)).Perm s.timerRows.flatten := by
    refine List.perm_iff_count.mpr (fun i => ?_)
    have n := perm.count_eq i
    simp only [State.sampleBlock, List.count_append, List.count_cons] at n ⊢
    omega
  intro i hi
  have hm : i ∈ s.timerRows.flatten := rest.mem_iff.mp (by simpa [or_assoc] using hi)
  obtain ⟨l, hl, hil⟩ := List.mem_flatten.mp hm
  exact timerRows_other s l hl i hil

/-- Is a row a word slot, or one that makes a query due? -/
def isSlotRow : Instr → Bool
  | .queryDue => true
  | .replyDeadline => true
  | .wordSlot => true
  | _ => false

/-- Where the link brings no other word slot, those rows of a tick stand in the order of `slotRows`: a query falls due
before the slot in which it leaves (R157, R160). -/
theorem tickQueue_slot (s : State) (down : s.linkDeadline .down = false) (hold : s.linkDeadline .holdoff = false)
    (final : s.link.finalEnd = none) : s.tickQueue.filter isSlotRow = s.slotRows := by
  have sub : s.slotRows.Sublist s.tickQueue := by
    have h : (s.slotRows.map (fun i => [i])).Sublist
        (weave (s.tickRows.map List.length).sum (Config.tickOrder s.free) s.tickRows) :=
      sublist_weave _ _ _ _ (flatten_length _).symm
        (by simp [State.tickRows, State.linkRows, dueRow])
    have h' := h.flatten
    rwa [← List.flatMap_def, List.flatMap_singleton'] at h'
  have all : ∀ c ∈ s.slotRows, isSlotRow c = true := by
    intro c hc
    simp only [State.slotRows, List.mem_flatten, List.mem_append, mem_dueRow] at hc
    aesop (add norm simp isSlotRow)
  have only : s.timerRows.flatten.filter isSlotRow = s.slotRows := by
    have none_ : ∀ l : List (List Instr), (∀ x ∈ l, ∀ c ∈ x, isSlotRow c = false) → l.flatten.filter isSlotRow = [] := by
      intro l h
      rw [List.filter_eq_nil_iff]
      intro c hc
      obtain ⟨x, hx, hcx⟩ := List.mem_flatten.mp hc
      rw [h x hx c hcx]; simp
    have e1 := none_ s.claimRows (by
      simp only [State.claimRows, List.mem_append, List.mem_flatMap, mem_dueRow]; aesop (add norm simp isSlotRow))
    have e2 := none_ s.runRows (by
      simp only [State.runRows, List.mem_append, List.mem_flatMap, mem_dueRow]; aesop (add norm simp isSlotRow))
    have e3 := none_ s.unitRows (by
      simp only [State.unitRows, List.mem_append, mem_dueRow]; aesop (add norm simp isSlotRow))
    have e4 : s.linkRows.flatten.filter isSlotRow = s.slotRows := by
      have f : reached s.elapsed s.link.finalEnd = false := by rw [final]; rfl
      unfold State.linkRows
      rw [down, hold, f]
      have k : s.slotRows.filter isSlotRow = s.slotRows := List.filter_eq_self.mpr all
      simp only [List.flatten_append, List.filter_append]
      cases s.linkDeadline .aligning <;> cases reached s.elapsed s.link.silence <;> simp [dueRow, k, isSlotRow]
    simp only [State.timerRows, List.flatten_append, List.filter_append, e1, e2, e3, e4, List.nil_append]
  have count : (s.tickQueue.filter isSlotRow).Perm s.slotRows := by
    have h := (tickQueue_perm s).filter isSlotRow
    have b : s.sampleBlock.filter isSlotRow = [] := by
      rw [List.filter_eq_nil_iff]
      intro c hc
      simp only [State.sampleBlock, List.mem_cons, List.mem_map] at hc
      rcases hc with rfl | ⟨n, -, rfl⟩ <;> simp [isSlotRow]
    rwa [List.filter_cons_of_neg (by simp [isSlotRow]), List.filter_append, b, List.nil_append, only] at h
  have kept : s.slotRows.Sublist (s.tickQueue.filter isSlotRow) := by
    have := sub.filter isSlotRow
    rwa [List.filter_eq_self.mpr all] at this
  exact (kept.eq_of_length count.length_eq.symm).symm

/-- A step on an empty queue. -/
theorem step_idle {s : State} (h : s.pending = []) : step s = .next s.tick := by simp [step, h]

theorem tick_held {s : State} (h : s.phase = .pinReset) : s.tick = s := by simp [State.tick, h]

theorem tick_runs {s : State} (h : s.phase ≠ .pinReset) :
    s.tick = { s.clock with pending := s.clock.tickQueue } := by simp [State.tick, h]

/-- A step on a queue that is not empty. -/
theorem step_command {s : State} {c : Instr} {rest : List Instr} (h : s.pending = c :: rest) :
    step s = exec c { s with pending := rest } := by simp [step, h, State.withPending]

end Sys2Proof.Machine
end

