-- ==== Sys2Proof/Tests/Slice0.lean ====
section
/-! SUPPORT. Tests: the well-formedness checks, the spec's own examples, a step of each kind of command on a small
state, and for every statement with hypotheses a state and operands that meet them. -/

namespace Sys2Proof.Tests

open Sys2Proof Sys2Proof.Machine

-- One declaration at a time: each `decide +kernel` below would otherwise hold a thread of its own.
set_option Elab.async false

/-! ## Small states -/

/-- A hub that is READY, with every other value as at reset; the clock stands at 100. -/
def hub : State := { State.reset with phase := .ready, elapsed := 100, tb := ⟨0, .running, 0, .localTime, none⟩ }

/-- The same hub during LOADING. -/
def loadingHub : State := { hub with phase := .loading 1 }

/-- The frame of a command's port has got as far as the command needs, so that it is taken next. -/
def sending (c : Instr) (s : State) : State :=
  match c.onPort with
  | some (p, code, params) =>
    s.setPort p { s.port p with frame := if params = [] then .code 0 else .parameters code params.dropLast }
  | none => s

theorem awaits_sending {c : Instr} {p : PortId} {code : Byte} {params : List Byte}
    (h : c.onPort = some (p, code, params)) (s : State) : (sending c s).awaits p code params := by
  have hf : ((sending c s).port p).frame = if params = [] then .code 0 else .parameters code params.dropLast := by
    simp [sending, h, State.port, State.setPort]
  by_cases e : params = []
  · exact Or.inl ⟨e, 0, by rw [hf, if_pos e]⟩
  · exact Or.inr ⟨e, by rw [hf, if_neg e]⟩

theorem phase_sending (c : Instr) (s : State) : (sending c s).phase = s.phase := by
  unfold sending; split <;> rfl

/-- A READY hub takes the command. -/
theorem ready_sending {c : Instr} {p : PortId} {code : Byte} {params : List Byte} {s : State}
    (h : c.onPort = some (p, code, params)) (r : s.phase = .ready) : (sending c s).readyFor p code params :=
  ⟨by rw [phase_sending, r], awaits_sending h s⟩

/-- A hub that is LOADING takes it. -/
theorem loading_sending {c : Instr} {p : PortId} {code : Byte} {params : List Byte} {s : State} {k : Nat}
    (h : c.onPort = some (p, code, params)) (r : s.phase = .loading k) : (sending c s).loadingFor p code params :=
  ⟨⟨k, by rw [phase_sending, r]⟩, awaits_sending h s⟩

/-- The response that a command is answered with. -/
def answer (c : Instr) (s : State) : Option (List Byte) :=
  match exec c (sending c s), c.onPort with
  | .next t, some (p, _, _) => match (t.port p).frame with
    | .response bytes _ => some bytes
    | _ => none
  | _, _ => none

/-- The state after a command, and the state itself where there is none. -/
def after (c : Instr) (s : State) : State :=
  match exec c s with
  | .next t => t
  | _ => s

/-- A port holds a resource, without a lease. -/
def held (p : PortId) (r : ResourceId) (s : State) : State := s.setClaim r ⟨some p, 0, none, []⟩

/-- A line is in a mode. -/
def inMode (m : LineMode) (n : LineId) (s : State) : State := s.setLine n { s.line n with mode := m }

/-- P0 holds L0, which is in OUTPUT. -/
def driven : State := inMode .output 0 (held 0 0 hub)

/-- An entry of P0 on L0 with tag 7. -/
def header (st : EntryStatus) : Header := ⟨0, 0, 7, 0, none, 0, 0, st⟩

/-- A body with an action, due at count 1, under FIRE_LATE. -/
def body (a : Action) : Body := ⟨a, .absolute 1, .fireLate⟩

/-- The entry stands in slot `i`. -/
def put (i : SlotId) (b : Body) (h : Header) (s : State) : State := s.setSlot i ⟨b, [], some h⟩

/-- A run of a PULSE whose pulse end is at a tick. -/
def pulseTo (e : Nat) : EntryStatus := .active ⟨90, .inPulse e, .onTime, none⟩

/-- A run of a TRAIN between pulses, with so many pulses begun and its next boundary. -/
def trainRun (begun : BitVec 16) (b : Nat) : Run := ⟨90, .betweenPulses, .onTime, some ⟨begun, 0, some b⟩⟩

/-- Another hub mode. -/
def inHubMode (m : HubMode) (s : State) : State := { s with maint := { s.maint with mode := m } }

/-- A word that arrives whole at 5 Mbit/s. -/
def wire (w : Word) : WireWord := ⟨.r5, w.bytes⟩

/-- A slot image, byte by byte from offset 0x00: PORTS, LINES, HUB and TIE enabled, sealed. -/
def image : List Byte :=
  let content : List Byte := [0xA5, 32, 32, 32, 32, 0xFF, 0xFF, 0xFF, 0x80, 1, 2, 3, 255] ++
    (0xA5 :: [0, 1, 2, 3] ++ List.replicate 12 1 ++ [15, 0] ++ List.replicate 14 2) ++
    [0xA5, 0, 0x27, 0x10, 9] ++ [0xA5, 1, 2, 7, 0x80, 0x01] ++ [0, 0, 0]
  content ++ bytesOf 2 (crc content) ++ [0x5A, 0]

/-- A store whose slot `i` holds an image. -/
def stored (i : Nat) (l : List Byte) : Memory :=
  (l.zipIdx.map (fun c => (storeAddr i c.2, c.1))).filter (fun c => c.2 != 0)

/-- A hub with the image in slot 1. -/
def profiled : State := { hub with store := stored 1 image }

/-- P1 holds MX and P2 waits for it with a deadline at 200. -/
def waited : State := hub.setClaim 17 ⟨some 1, 0, none, [⟨2, 200, 5⟩]⟩

/-- L0 in OUTPUT under P0, with a PENDING entry and a lease that ends now. -/
def leased : State :=
  put 0 (body .toggle) (header (.pending 9)) (driven.setClaim 0 ⟨some 0, 1, some 100, [⟨1, 200, 0⟩]⟩)

/-- L0 in OFF under P0, with a park mode and a lease that ends now. -/
def parkable (k : ParkMode) : State :=
  let s := hub.setClaim 0 ⟨some 0, 1, some 100, []⟩
  s.setLine 0 { s.line 0 with park := k }

/-- A pulse in progress on L0, which it has set HIGH. -/
def pulsing : State := put 3 (body (.pulse .high 5)) (header (pulseTo 120)) (driven.setScheduled 0 .high)

/-- P0 holds MX, L0 is its own and in OUTPUT. -/
def maintaining : State := held 0 17 driven

/-- A check of L0 and L2 by P0 with its window at an end. -/
def progress (current : LineId) (w : Window) (rise fall : Verdict) (e : Nat) : Progress :=
  ⟨0, 5, current, w, e, rise, fall, 0, 0, none⟩

/-- The check runs, with L0 and L2 in TEST. -/
def checking (c : Progress) : State :=
  let s := held 0 2 maintaining
  let t := (s.setLine 0 { s.line 0 with mode := .test, saved := some (.output, .low) }).setLine 2
    { s.line 2 with mode := .test, saved := some (.off, .low) }
  { t with maint := { t.maint with check := .running c } }

/-- A check of L0 in its first window. -/
def checkingNow : State := checking (progress 0 .w1 .undecided .undecided 101)

/-- The pulse is in progress while the hub drains. -/
def draining (e : Nat) (deadline : Nat) : State :=
  let s := held 0 17 (put 3 (body (.pulse .high 5)) (header (pulseTo e)) (driven.setScheduled 0 .high))
  { s with maint := { s.maint with mode := .draining, drainDeadline := some deadline } }

/-- The state after a port command. -/
def done (c : Instr) (s : State) : State := after c (sending c s)

/-- A CAPTURE record and a record of another kind. -/
def capture : Record := .capture 0 .rise 0 0 false false false 0

/-- P0's queue holds `n` records. -/
def queued (n : Nat) : State := hub.setPort 0 { hub.port 0 with queue := List.replicate n (.reset .power) }

/-- The link in a state. -/
def linked (st : LinkState) (role : Option Role) (s : State) : State :=
  { s with link := { s.link with state := st, role := role, rate := some .r5 } }

/-- Another link record. -/
def withLink (f : Link → Link) (s : State) : State := { s with link := f s.link }

/-- The body of a slot has changed bits. -/
def spoilt (i : SlotId) (bits : List Nat) (s : State) : State := s.setSlot i { s.slot i with wrongBits := bits }

/-- Slot 0 is to be visited now, and its body has changed bits. -/
def scrubbing (bits : List Nat) (s : State) : State :=
  let t := spoilt 0 bits s
  { t with integ := { t.integ with scrubDue := some 100 } }

/-- A second pulse, of P1 on L1, is in progress in slot 4. -/
def beside (s : State) : State := put 4 (body (.pulse .high 5)) { header (pulseTo 120) with owner := 1, line := 1 } s

/-! ## What a small state's entries are -/

/-- No entry is busy where none is ACTIVE or SUSPENDED. -/
theorem not_busy {s : State} (n : LineId) (c : ∀ i, ∀ h ∈ s.entry i, h.status.isBusy = false) : ¬ s.busy n := by
  rintro ⟨i, h, hi, -, hb⟩
  rw [c i h hi] at hb
  exact absurd hb (by simp)

/-- The slots of a list are those of a kind, in post order. -/
theorem postOrdered_of {s : State} {f : Header → Prop} {l : List SlotId} (g : Header → Bool)
    (hg : ∀ h, g h = true ↔ f h) (a : l.Pairwise (fun i j => s.orderOf i < s.orderOf j))
    (b : ∀ i, i ∈ l ↔ (s.entry i).any g = true) : s.postOrdered f l := by
  refine ⟨a, fun i => (b i).trans ?_⟩
  rw [Option.any_eq_true]
  exact exists_congr (fun h => and_congr_right (fun _ => hg h))

/-- The slots of a list are those PENDING at distances of a kind, in due-list order. -/
theorem dueOrdered_of {s : State} {f : Nat → Prop} {l : List SlotId} (g : Nat → Bool) (hg : ∀ d, g d = true ↔ f d)
    (a : l.Pairwise (fun i j => (s.aheadOf i).getD 0 < (s.aheadOf j).getD 0 ∨
      s.aheadOf i = s.aheadOf j ∧ s.orderOf i < s.orderOf j))
    (b : ∀ i, i ∈ l ↔ (s.aheadOf i).any g = true) : s.dueOrdered f l := by
  refine ⟨a, fun i => (b i).trans ?_⟩
  rw [Option.any_eq_true]
  exact exists_congr (fun d => and_congr_right (fun _ => hg d))

/-- The slots of a list are those with a deferral place, in the order of the places. -/
theorem deferralOrdered_of {s : State} {l : List SlotId}
    (a : l.Pairwise (fun i j => ((s.entry i).bind (fun h => h.status.place)).getD 0 <
      ((s.entry j).bind (fun h => h.status.place)).getD 0))
    (b : ∀ i, i ∈ l ↔ ((s.entry i).bind (fun h => h.status.place)).isSome = true) : s.deferralOrdered l :=
  ⟨a, fun i => (b i).trans Option.isSome_iff_ne_none⟩

/-- Every entry of `leased` belongs to the holder of its line, which is in OUTPUT. -/
theorem leased_lawful : leased.entriesLawful := by
  refine ⟨fun i h hi => ?_, fun h => absurd rfl h⟩
  exact (by decide +kernel : ∀ i, ∀ h ∈ leased.entry i, leased.holds h.owner (lineRes h.line) = true ∧
    (leased.line h.line).mode = .output) i h hi

/-! ## Well-formed commands -/

theorem test_wf_accepts : (Instr.loading 1).wf = true ∧ (Instr.loading 7).wf = true ∧
    (Instr.unknownCommand 0 0xFF).wf = true ∧ (Instr.idleWordReceived (wire .idle)).wf = true := by decide +kernel
theorem test_wf_loading_rejects_0_and_8 : (Instr.loading 0).wf = false ∧ (Instr.loading 8).wf = false := by decide
theorem test_wf_unknown_rejects_claim : (Instr.unknownCommand 0 0x10).wf = false := by decide
theorem test_wf_rejects_words_of_21_bytes : ∀ w : WireWord, w = ⟨.r5, List.replicate 21 0⟩ →
    (Instr.abilityReceived w).wf = false ∧ (Instr.timeQueryReceived w).wf = false ∧
      (Instr.timeReplyReceived w).wf = false ∧ (Instr.captureWordReceived w).wf = false ∧
      (Instr.idleWordReceived w).wf = false := by rintro w rfl; decide

/-! ## Values that the manual gives -/

/-- The check code of the nine bytes "123456789" is 0x29B1 (R188). -/
theorem test_check_code : crc [0x31, 0x32, 0x33, 0x34, 0x35, 0x36, 0x37, 0x38, 0x39] = 0x29B1 := by decide +kernel

/-- The boundaries of the judgement (R40). -/
theorem test_judge_boundaries : judge 5 5 = .due ∧ judge 6 5 = .ahead ∧
    judge (5 + BitVec.ofNat 40 (2 ^ 39)) 5 = .ahead ∧ judge (6 + BitVec.ofNat 40 (2 ^ 39)) 5 = .behind ∧
    judge 4 5 = .behind := by decide +kernel

theorem test_word_slots_at_reset : decodeTableWord 8 0 = none := rfl

/-! ## What the statements suppose is met: the block, reset, frames -/

theorem test_hyp_StepTakesFrontCommand :
    State.pending { hub with pending := [.countAdvance] } = .countAdvance :: [] := rfl

theorem test_hyp_EmptyQueueTick : State.reset.pending = [] ∧ State.reset.phase = .pinReset ∧ hub.pending = [] ∧
    hub.phase ≠ .pinReset := by decide +kernel

/-- A deadline at the next tick falls due; one a tick later does not. -/
theorem test_hyp_TickBringsDueTimers : hub.pending = [] ∧ hub.phase ≠ .pinReset ∧
    [Instr.leaseExpiry 3] ∈ State.claimRows { hub.setClaim 3 ⟨some 0, 1, some 101, []⟩ with elapsed := 101 } ∧
    [Instr.leaseExpiry 3] ∉ State.claimRows { hub.setClaim 3 ⟨some 0, 1, some 102, []⟩ with elapsed := 101 } ∧
    (linked .aligning none hub).link.finalEnd = none ∧
    (withLink (fun l => { l with nextQuery := some 100, query := some ⟨0, 100⟩, nextSlot := some 100 })
      (linked .locked none hub)).slotRows = [.queryDue, .replyDeadline, .wordSlot] := by decide +kernel

theorem test_hyp_EveryCommandAnswersNext : Instr.countAdvance ≠ .pinReset := by decide

/-- A hub whose profile store is setting bit 0 of its byte 5. -/
def programming : State := { hub with store := [(5, 1)], storeBusy := some ⟨2100, [(5, 0)]⟩ }

theorem test_hyp_PinResetAnswers : hub.storeLawful ∧ hub.storeBusy = none ∧ programming.storeLawful ∧
    programming.storeBusy = some ⟨2100, [(5, 0)]⟩ ∧ (5, (0 : Byte)) ∈ [((5 : Nat), (0 : Byte))] := by
  refine ⟨⟨by decide +kernel, fun b h => absurd (h.symm.trans (show hub.storeBusy = none from rfl)) (by simp)⟩,
    rfl, ⟨by decide +kernel, fun b h => ?_⟩, rfl, by decide⟩
  obtain rfl : b = ⟨2100, [(5, 0)]⟩ := (Option.some.inj h).symm
  decide +kernel

/-- LOADING on a store with a profile and on a blank one, by what each line's clause asks for. -/
theorem test_hyp_LoadingWholeRow :
    (let t := after (.loading 7) { State.reset with store := stored 1 image, held := 8 };
      t.inForce = some 1 ∧ (t.line 0).park = .off ∧ (t.line 1).park = .input ∧ (t.line 2).park = .parkLow ∧
        (t.line 3).park = .parkHigh ∧ t.loaded.tieEnable = true ∧ t.loaded.filter[0] = 15 ∧ t.loaded.filter[1] = 0 ∧
        t.held.getLsbD 3 = true ∧ t.held.getLsbD 2 = false) ∧
    (let t := after (.loading 7) State.reset; t.inForce = none ∧ t.loaded.tieEnable = false) := by decide +kernel

theorem test_hyp_InForceSlot : State.reset.phase = .pinReset ∧ profiled.mayBeInForce 1 ∧ ¬ profiled.mayBeInForce 0 ∧
    (after (.loading 1) (after .pinReset profiled)).inForce = some 1 := by
  unfold State.mayBeInForce; decide +kernel

/-- A hub at the second step, with slot 1 in force. -/
def loadingProfile (l : List Byte) : State := { loadingHub with store := stored 1 l, inForce := some 1 }

theorem test_hyp_GroupsAllOrDefault : (loadingProfile image).phase = .loading 1 ∧
    (loadingProfile image).inForce = some 1 ∧
    (loadingProfile image).portsApply 1 ∧ (loadingProfile image).linesApply 1 ∧
    (loadingProfile image).storeByte 1 0x2E = 0xA5 ∧ (loadingProfile image).tieApply 1 ∧
    ¬ (loadingProfile (image.set 1 33)).portsApply 1 ∧ ¬ (loadingProfile (image.set 0x0E 4)).linesApply 1 ∧
    ¬ (loadingProfile (image.set 0x1E 16)).linesApply 1 ∧
      (loadingProfile (image.set 0x2E 0)).storeByte 1 0x2E ≠ 0xA5 ∧
    ¬ (loadingProfile (image.set 0x35 4)).tieApply 1 ∧ loadingHub.inForce = none := by
  unfold State.portsApply State.linesApply State.tieApply; decide +kernel

theorem test_hyp_FrameEvents : State.reset.phase = .pinReset ∧ hub.phase ≠ .pinReset ∧ (hub.port 0).selected = false ∧
    (State.reset.port 0).selected = false ∧ ((after (.frameStart 0) State.reset).port 0).selected = true ∧
    (after (.frameStart 0) State.reset).phase = .pinReset ∧
    (hub.port 0).queue.length ≤ 40 ∧ (hub.port 0).frame = .idle ∧
    (let s := hub.setPort 1 { hub.port 1 with selected := true, frame := .code 0x80 };
      (s.port 1).frame = .code 0x80 ∧ paramCount 0x11 = some 1 ∧ paramCount 0xFF = none ∧
        (s.port 1).selected = true) ∧
    (let s := hub.setPort 1 { hub.port 1 with frame := .parameters 0x10 [1, 2, 3] };
      (s.port 1).frame = .parameters 0x10 [1, 2, 3] ∧ paramCount 0x10 = some 5 ∧ [1, 2, 3].length + 1 < 5) ∧
    (let s := (queued 1).setPort 0 { (queued 1).port 0 with frame := .response [1, 1] 1 };
      (s.port 0).frame = .response [1, 1] 1 ∧ (s.port 0).queue[0]? = some (.reset .power) ∧
        (Record.reset .power).bytes[0]? = some 8 ∧ [1, (1 : Byte)].length + 12 * min 1 (s.port 0).queue.length ≤ 14) ∧
    (let s := hub.setPort 0 { hub.port 0 with frame := .ignore }; (s.port 0).frame = .ignore) := by
  decide +kernel

/-- Data out of a TAKE_NOTICES response: its two bytes, the twelve of the record, then 0x00, and nothing but 0x00 once a
soft reset has cleared the queue; UNKNOWN_COMMAND and then 0x00; the status byte; 0x00 while parameters are gathered. -/
theorem test_run_dataOut :
    (let s := done (.takeNotices 0 1) (held 0 17 (queued 1));
      ((List.range 15).map (s.dataOut 0) = ([1, 1, 8, 1] ++ List.replicate 11 0).map some) ∧
      (List.range 4).map ((done (.softReset 1) (held 1 17 s)).dataOut 0) = [1, 1, 0, 0].map some) ∧
    (let s := after (.unknownCommand 0 0xFF) (after (.frameStart 0) hub);
      (List.range 3).map (s.dataOut 0) = [0x0E, 0, 0].map some) ∧
    (after (.frameStart 0) hub).dataOut 0 0 = some 0x80 ∧ hub.dataOut 0 0 = none ∧
    (after (.parameterByteGathered 0 0x12) (after (.frameStart 0) hub)).dataOut 0 0 = some 0 ∧
    (after .pinReset (after (.frameStart 0) hub)).dataOut 0 0 = none := by decide +kernel

theorem test_hyp_NotReadyWhileLoading : (Instr.ident 2).onPort = some (2, 0x91, []) ∧
    (sending (.ident 2) loadingHub).loadingFor 2 0x91 [] := ⟨rfl, loading_sending rfl rfl⟩

theorem test_hyp_OneResultCode : (Instr.ident 2).onPort = some (2, 0x91, []) ∧
    (sending (.ident 2) hub).readyFor 2 0x91 [] ∧ ¬ hub.awaits 2 0x91 [] := by
  refine ⟨rfl, ready_sending rfl rfl, ?_⟩
  rintro (⟨-, b, h⟩ | ⟨h, -⟩)
  · exact absurd h (by intro h; exact absurd (congrArg (fun f => decide (f = Frame.idle)) h) (by
      rw [show (hub.port 2).frame = .idle from by decide +kernel]; simp))
  · exact h rfl

theorem test_hyp_Admission : capture = .capture 0 .rise 0 0 false false false 0 ∧
    ((queued 31).port 0).queue.length < 32 ∧ 32 ≤ ((queued 32).port 0).queue.length ∧
    (Record.reset .soft).kind ≠ .capture ∧ ((queued 39).port 0).queue.length < 40 ∧
    40 ≤ ((queued 40).port 0).queue.length := by decide +kernel

/-! ## Claims -/

theorem test_hyp_ClaimOutcomes :
    (sending (.claim 0 17 0 0) loadingHub).loadingFor 0 0x10 ([17] ++ bytesOf 2 (0 : BitVec 16) ++
      bytesOf 2 (0 : BitVec 16)) ∧
    (sending (.claim 0 17 0 0) hub).readyFor 0 0x10 ([17] ++ bytesOf 2 (0 : BitVec 16) ++
      bytesOf 2 (0 : BitVec 16)) ∧
    (hub.claim 17).holder = none ∧ ((held 0 17 hub).claim 17).holder = some 0 ∧
    (waited.claim 17).holder = some 1 ∧ (waited.claim 17).waiters.map (fun w => w.port) = [2] ∧
    ((held 1 17 hub).claim 17).waiters = [] := ⟨loading_sending rfl rfl, ready_sending rfl rfl, by decide +kernel⟩

/-- Each case of CLAIM by its result code, at the last resource and beyond it. -/
theorem test_run_claim : answer (.claim 0 18 0 0) hub = some [8] ∧ answer (.claim 0 17 0 0) hub = some [1] ∧
    answer (.claim 1 17 0 0) waited = some [3] ∧ answer (.claim 2 17 9 0) waited = some [3] ∧
    answer (.claim 0 17 0 0) waited = some [4] ∧ answer (.claim 0 17 1 0) waited = some [2] ∧
    answer (.claim 0 17 1 0) (held 1 17 hub) = some [2] ∧ answer (.claim 0 17 0 0) loadingHub = some [0x0D] := by
  decide +kernel

theorem test_hyp_ClaimEndsElsewhere : (sending (.release 1 17) waited).readyFor 1 0x11 [17] ∧
    (∃ w ∈ (waited.claim 17).waiters, w.port = 2) ∧ waited.modeLawful ∧ (inHubMode .direct waited).modeLawful ∧
    checkingNow.modeLawful ∧ (checkingNow.claim resMX).holder = some 0 ∧
    (∀ w ∈ (waited.claim 17).waiters, w.port ≠ 0) ∧ (waited.claim 17).holder ≠ some 2 ∧
    (waited.claim 17).holder = some 1 ∧ waited.maint.mode = .run ∧ waited.maint.check.isRunning = false ∧
    ((held 1 16 hub).claim resTB).holder = some 1 ∧
    ((hub.setClaim 16 ⟨some 1, 5, some 100, []⟩).claim 16).expiry = some hub.elapsed ∧
    ((hub.setClaim 16 ⟨some 1, 5, some 101, []⟩).claim 16).expiry = some (hub.elapsed + 1) := by
  refine ⟨ready_sending rfl rfl, ⟨⟨2, 200, 5⟩, by decide +kernel, rfl⟩, ?_⟩
  unfold State.modeLawful
  decide +kernel

/-- The MX claim of a hub in DIRECT, or with a check running, ends: MX_LOST, or the check is ABORTED. -/
theorem test_run_mx_ends :
    (let t := done (.release 1 17) (inHubMode .direct waited);
      t.maint.mode = .run ∧ (t.claim 17).holder = some 2 ∧ (t.port 3).queue = [.directExited .mxLost] ∧
        (t.port 2).queue = [.directExited .mxLost, .claim 17 .granted]) ∧
    (let t := done (.release 0 17) checkingNow;
      t.maint.check = .finished ⟨.aborted, 0, 0, none⟩ ∧ (t.line 0).mode = .output ∧
        (t.port 0).queue = [.checkDone ⟨.aborted, 0, 0, none⟩]) := by decide +kernel

/-- RELEASE at 17 and 18, of a wait, and by a port with neither; the lease's end at its tick and before it. -/
theorem test_run_release : answer (.release 1 18) waited = some [8] ∧ answer (.release 1 17) waited = some [1] ∧
    answer (.release 2 17) waited = some [1] ∧ answer (.release 0 17) waited = some [5] ∧
    ((after (.leaseExpiry 16) (hub.setClaim 16 ⟨some 1, 5, some 100, []⟩)).claim 16).holder = none ∧
    ((after (.leaseExpiry 16) (hub.setClaim 16 ⟨some 1, 5, some 101, []⟩)).claim 16).holder = some 1 := by
  decide +kernel

theorem test_hyp_LineClaimEnds : (sending (.release 0 (lineByte 0)) leased).readyFor 0 0x11 [lineByte 0] ∧
    leased.postOrdered (fun h => h.owner = 0 ∧ h.line = 0) [0] ∧ leased.drainsOn (fun h => h.owner = 0 ∧ h.line = 0) ∧
    (beside (inHubMode .draining leased)).drainsOn (fun h => h.owner = 0 ∧ h.line = 0) ∧
    (leased.claim (lineRes 0)).holder = some 0 ∧ leased.maint.check.isRunning = false ∧
    (leased.claim (lineRes 0)).expiry = some 100 ∧ 100 ≤ leased.elapsed ∧ leased.entry 0 = some (header (.pending 9)) ∧
    (checkingNow.claim (lineRes 0)).holder = some 0 ∧ (checkingNow.line 2).mode = .test ∧
    ((parkable .parkHigh).line 0).mode = .off ∧ ((parkable .parkHigh).line 0).park = .parkHigh ∧
    checkingNow.maint.check = .running (progress 0 .w1 .undecided .undecided 101) ∧
    (progress 0 .w1 .undecided .undecided 101).tested.getLsbD 0 = true :=
  ⟨ready_sending rfl rfl,
    postOrdered_of (fun h => h.owner == 0 && h.line == 0) (by simp) (by simp) (by decide +kernel),
    fun h => absurd h (by decide +kernel), fun _ => ⟨4, { header (pulseTo 120) with owner := 1, line := 1 },
      by decide +kernel⟩, by decide +kernel⟩

/-- The claim on a tested line ends: the check is ABORTED, and the other tested line is restored. -/
theorem test_run_tested_line_ends :
    (let t := done (.release 0 0) checkingNow;
      (t.line 0).mode = .input ∧ t.filter 0 = checkingNow.filter 0 ∧ (t.line 2).mode = .off ∧
        t.maint.check = .finished ⟨.aborted, 0, 0, none⟩ ∧
        (t.port 0).queue = [.checkDone ⟨.aborted, 0, 0, none⟩]) := by decide +kernel

theorem test_run_leaseExpiry_on_line : (after (.leaseExpiry 0) leased).entry 0 = none ∧
    ((after (.leaseExpiry 0) leased).line 0).mode = .input ∧
    ((after (.leaseExpiry 0) (parkable .parkHigh)).filter 0).filtered = .high ∧
    ((after (.leaseExpiry 0) (inMode .input 0 (parkable .parkHigh))).filter 0).filtered = .low ∧
    ((after (.leaseExpiry 0) leased).claim 0).holder = some 1 ∧
    ((after (.leaseExpiry 0) leased).port 0).queue = [.actionDone 0 7 0 .revoked 0 0, .claim 0 .revoked] := by
  decide +kernel

theorem test_hyp_RenewOutcomes : (sending (.renew 1 0xFF) loadingHub).loadingFor 1 0x12 [0xFF] ∧
    (sending (.renew 1 0xFF) waited).readyFor 1 0x12 [0xFF] ∧ (waited.claim 17).holder = some 1 ∧
    (waited.claim 16).holder ≠ some 1 :=
  ⟨loading_sending rfl rfl, ready_sending rfl rfl, by decide +kernel, by decide +kernel⟩

theorem test_run_renew : answer (.renew 1 17) waited = some [1] ∧ answer (.renew 1 18) waited = some [8] ∧
    answer (.renew 1 0xFE) waited = some [8] ∧ answer (.renew 1 0xFF) waited = some [1] ∧
    answer (.renew 1 16) waited = some [5] := by decide +kernel

theorem test_hyp_QueryClaimReports : (sending (.queryClaim 1 17) loadingHub).loadingFor 1 0x13 [17] ∧
    (sending (.queryClaim 1 17) waited).readyFor 1 0x13 [17] ∧ (waited.claim 17).lawful ∧
    (waited.claim 17).expiry = none ∧ ((hub.setClaim 16 ⟨some 1, 5, some 100,
      []⟩).claim 16).expiry = some hub.elapsed ∧
    100 ≤ hub.elapsed + 655350000 := by
  refine ⟨loading_sending rfl rfl, ready_sending rfl rfl, ?_, by decide +kernel, by decide +kernel, by decide⟩
  unfold ClaimRec.lawful; decide +kernel

/-- The remaining lease is rounded up: 1 tick is 1 ms, 10,001 ticks are 2 ms. -/
theorem test_run_queryClaim : answer (.queryClaim 3 17) waited = some [1, 1, 0, 0, 1, 2, 0xFF, 0xFF] ∧
    answer (.queryClaim 3 18) waited = some [8] ∧
    answer (.queryClaim 3 16) (hub.setClaim 16 ⟨some 0, 5, some 101, []⟩) = some [1, 0, 0, 1, 0, 0xFF, 0xFF, 0xFF] ∧
    answer (.queryClaim 3 16) (hub.setClaim 16 ⟨some 0, 5, some 10101, []⟩) =
      some [1, 0, 0, 2, 0, 0xFF, 0xFF, 0xFF] := by decide +kernel

theorem test_hyp_WaitTimesOut : (∀ w ∈ (waited.claim 17).waiters, waited.elapsed < w.deadline) ∧
    (let s := hub.setClaim 17 ⟨some 1, 0, none, [⟨2, 101, 5⟩, ⟨3, 100, 5⟩]⟩;
      (s.claim 17).waiters = [⟨2, 101, 5⟩] ++ ⟨3, 100, 5⟩ :: [] ∧
        (∀ v ∈ [(⟨2, 101, 5⟩ : Waiter)], s.elapsed < v.deadline) ∧ 100 ≤ s.elapsed) := by decide +kernel

/-! ## Lines and capture -/

theorem test_hyp_LineConfigOutcomes : (sending (.lineConfig 0 0 2 1 15) driven).readyFor 0 0x20 [0, 2, 1, 15] ∧
    leased.occupied 0 ∧ ¬ driven.occupied 0 ∧
    (driven.claim (lineRes 0)).holder = some 0 ∧ ((driven.claim (lineRes 1)).holder ≠ some 0) ∧
    ((inMode .test 0 driven).line 0).mode = .test ∧ (driven.line 0).mode ≠ .test ∧
    (driven.line 0).filterLen = 2 ∧ (driven.line 0).mode ≠ .off ∧ ((held 0 1 hub).line 1).mode = .off ∧
    ({ driven with held := 1 } : State).held.getLsbD 0 = true ∧ driven.held.getLsbD 0 = false ∧
    driven.drive 0 = some .low := by
  refine ⟨ready_sending rfl rfl, ⟨0, header (.pending 9), by decide +kernel, rfl⟩, ?_, by decide +kernel⟩
  rintro ⟨i, h, hi, hl⟩
  exact (by decide +kernel : ∀ i, ∀ h ∈ driven.entry i, h.line ≠ 0) i h hi hl

/-- LINE_CONFIG at and beyond the last line, mode, level and filter length; without the claim, in TEST, occupied. -/
theorem test_run_lineConfig : answer (.lineConfig 0 16 0 0 0) driven = some [8] ∧
    answer (.lineConfig 0 0 3 0 0) driven = some [8] ∧ answer (.lineConfig 0 0 0 2 0) driven = some [8] ∧
    answer (.lineConfig 0 0 0 0 16) driven = some [8] ∧ answer (.lineConfig 0 0 2 1 15) driven = some [1] ∧
    answer (.lineConfig 1 0 2 1 15) driven = some [5] ∧
    answer (.lineConfig 0 0 2 1 15) (inMode .test 0 driven) = some [0x0B] ∧
    answer (.lineConfig 0 0 0 0 0) leased = some [0x0B] ∧ answer (.lineConfig 0 0 2 0 0) leased = some [1] ∧
    answer (.lineConfig 0 15 0 0 0) (held 0 15 hub) = some [1] := by decide +kernel

/-- L0 in PARKED with a park mode. -/
def parked (k : ParkMode) : State := hub.setLine 0 { hub.line 0 with mode := .parked, park := k }

theorem test_hyp_ReadingCommands : (sending (.lineRead 0) hub).readyFor 0 0x21 [] ∧
    (sending (.readTime 0) hub).readyFor 0 0x40 [] ∧ (sending (.ident 0) hub).readyFor 0 0x91 [] ∧
    (sending (.queryEntry 0 127) leased).readyFor 0 0x33 [127] ∧ (leased.slot 127).wrongBits = [] ∧
    (hub.line 0).mode = .off ∧ ((inMode .input 0 hub).line 0).mode = .input ∧ (driven.line 0).mode = .output ∧
    ((parked .parkLow).line 0).mode = .parked ∧ ((parked .parkLow).line 0).park = .parkLow ∧
    ((parked .parkHigh).line 0).park = .parkHigh ∧
    leased.entry 127 = none ∧ (leased.slot 0).wrongBits = [] ∧ leased.entry 0 = some (header (.pending 9)) ∧
    ((scrubbing [7] leased).slot 0).wrongBits.length ≤ 2 ∧ ((scrubbing [7, 8] leased).slot 0).wrongBits.length ≤ 2 :=
  ⟨ready_sending rfl rfl, ready_sending rfl rfl, ready_sending rfl rfl, ready_sending rfl rfl, by decide +kernel⟩

theorem test_run_reading : answer (.lineRead 0) driven = some (1 :: 2 :: List.replicate 15 0) ∧
    (hub.drive 0 = none ∧ driven.drive 0 = some .low ∧ (parked .parkHigh).drive 0 = some .high ∧
      ((parked .parkHigh).setLine 0 { (parked .parkHigh).line 0 with override := some .low }).drive 0 = some .low) ∧
    answer (.readTime 0) hub = some [1, 0, 0, 0, 0, 0, 0, 0, 0] ∧
    answer (.ident 3) hub = some [1, 0x4A, 0x16, 1, 0, 3, 16, 128] ∧
    answer (.queryEntry 0 128) leased = some [8] ∧
    answer (.queryEntry 0 127) leased = some (1 :: List.replicate 16 0) ∧
    answer (.queryEntry 0 0) leased = some [1, 1, 0, 0, 0, 7, 2, 1, 0, 0, 0, 0, 9, 0, 0, 0, 0] ∧
    answer (.queryEntry 0 0) (scrubbing [7] leased) = answer (.queryEntry 0 0) leased ∧
    answer (.queryEntry 0 0) (scrubbing [7, 8] leased) = some (1 :: List.replicate 16 0) := by decide +kernel

theorem test_hyp_SubscribeOutcomes :
    (sending (.subscribe 0 31 3) hub).readyFor 0 0x22 [31, 3] := ready_sending rfl rfl

theorem test_run_subscribe : answer (.subscribe 0 32 0) hub = some [8] ∧ answer (.subscribe 0 0 4) hub = some [8] ∧
    answer (.subscribe 0 31 3) hub = some [1] ∧
    (after (.subscribe 2 31 3) (sending (.subscribe 2 31 3) hub)).cell 2 31 = .both := by decide +kernel

/-- L0 in INPUT with a run of so many samples. -/
def sampled (len : Nat) : State := (inMode .input 0 hub).setFilter 0 ⟨.low, some ⟨len, 50, false⟩, .high⟩

theorem test_hyp_SampleOfATick : (hub.line 0).mode = .off ∧ (driven.line 0).mode ≠ .off ∧
    driven.driveForSample 0 = some .low ∧ driven.tickPins = none ∧
    (driven.filter 0).run = none ∧ ((sampled 2).filter 0).run = some ⟨2, 50, false⟩ ∧
    ((sampled 2).line 0).filterLen = 2 ∧ ((sampled 3).filter 0).run = some ⟨3, 50, false⟩ ∧
    (let s : State := { driven with tickPins := some (Vector.replicate 16 none) };
      s.driveForSample 0 = none ∧ (s.line 0).mode ≠ .off) := by decide +kernel

/-- A run begins, grows, ends and stands at F + 1 samples. -/
theorem test_run_sample : ((after (.lineSample 1 1) driven).filter 0).run = some ⟨1, 0, false⟩ ∧
    ((after (.lineSample 1 0) driven).filter 0).run = none ∧
    ((after (.lineSample 1 1) (sampled 2)).filter 0).run = some ⟨3, 50, false⟩ ∧
    ((after (.lineSample 1 0) (sampled 2)).filter 0).run = none ∧
    ((after (.lineSample 1 0) (sampled 3)).filter 0).run = some ⟨3, 50, false⟩ ∧
    ((after (.lineSample 0 0) { driven with tickPins := some (Vector.replicate 16 (some .high)) }).filter 0).sampled =
      .high := by decide +kernel

/-- A line that keeps its mode keeps the level of its last sample when its filter length changes; out of OFF there is no
sample, and the level is that of the pin. -/
theorem test_run_keeps_sample :
    ((done (.lineConfig 0 0 1 0 9) (held 0 0 (sampled 2))).filter 0).sampled = ((sampled 2).filter 0).sampled ∧
    ((done (.lineConfig 0 1 1 0 9) { held 0 1 hub with held := 2, level := 2 }).filter 1).sampled = .high := by
  decide +kernel

theorem test_hyp_EdgeAcceptedDelivers : (sampled 3).noneAwaits 0 .rise ∧
    ((sampled 2).filter 0).run = some ⟨2, 50, false⟩ ∧ ((sampled 2).line 0).filterLen.toNat = 2 ∧
    ((sampled 3).filter 0).run = some ⟨3, 50, false⟩ ∧ ((sampled 3).line 0).mode = .input ∧
    ((inMode .test 0 (sampled 3)).line 0).mode = .test :=
  ⟨fun i h hi => (by decide +kernel : ∀ i, ∀ h ∈ (sampled 3).entry i, h.awaits 0 .rise = false) i h hi,
    by decide +kernel⟩

/-- An ARMED entry on L0 anchored to a rise of L0, with a delay of 4. -/
def anchored (rep : Repeat) (late : LatePolicy) : State :=
  put 5 ⟨.toggle, .anchored 4 rep, late⟩ { header .armed with anchor := some ⟨0, .rise⟩ } (sampled 3)

/-- With it a second one, of an earlier slot and a later post, whose body has changed bits. -/
def anchoredBoth (bits : List Nat) : State :=
  put 2 ⟨.setHigh, .anchored 9 .once, .dropLate⟩ { header .armed with anchor := some ⟨0, .both⟩, postOrder := 1 }
    (anchored .once .dropLate) |> spoilt 2 bits

theorem test_hyp_EdgeArmsEntry : (anchored .once .dropLate).drainsOn (fun _ => False) ∧
    (beside (inHubMode .draining (anchored .once .dropLate))).drainsOn (fun _ => False) ∧
    (anchored .once .dropLate).postOrdered (fun h => h.awaits 0 .rise = true) [5] ∧
    (anchoredBoth [7]).postOrdered (fun h => h.awaits 0 .rise = true) [5, 2] ∧
    (anchoredBoth [7, 8]).readableAt [5, 2] ∧ (anchoredBoth [7]).readableAt [5, 2] ∧
    ((anchoredBoth [7]).filter 0).run = some ⟨3, 50, false⟩ ∧ ((anchoredBoth [7]).line 0).filterLen.toNat = 2 ∧
    ((anchoredBoth [7]).line 0).mode = .input ∧ (anchoredBoth [7]).maint.mode ≠ .draining := by
  refine ⟨fun h => absurd h (by decide +kernel),
    fun _ => ⟨4, { header (pulseTo 120) with owner := 1, line := 1 }, by decide +kernel⟩,
    postOrdered_of (fun h => h.awaits 0 .rise) (by simp) (by simp) (by decide +kernel),
    postOrdered_of (fun h => h.awaits 0 .rise) (by simp) (by decide +kernel) (by decide +kernel), ?_⟩
  unfold State.readableAt
  decide +kernel

/-- Both entries are armed; one whose body is lost is withdrawn instead. -/
theorem test_run_edge_both :
    (let t := after (.edgeAccepted 0) (anchoredBoth [7]);
      t.entry 5 = some { header (.pending 54) with anchor := some ⟨0, .rise⟩ } ∧
      t.entry 2 = some { header (.pending 59) with anchor := some ⟨0, .both⟩, postOrder := 1 } ∧
      (t.errors 0).corrected = 1) ∧
    (let t := after (.edgeAccepted 0) (anchoredBoth [7, 8]);
      t.entry 5 = some { header (.pending 54) with anchor := some ⟨0, .rise⟩ } ∧ t.entry 2 = none ∧
      (t.port 0).queue = [.actionDone 2 7 0 .integrity 0 0]) := by decide +kernel

/-- Ahead, the entry is PENDING at stamp plus delay; due it is applied; behind it is dropped, applied late or armed
again. -/
theorem test_run_edge : (after (.edgeAccepted 0) (anchored .once .dropLate)).entry 5 =
      some { header (.pending 54) with anchor := some ⟨0, .rise⟩ } ∧
    (let at_ (k : Count) (s : State) : State := after (.edgeAccepted 0) { s with tb := { s.tb with count := k } };
      (at_ 54 (anchored .once .dropLate)).entry 5 = none ∧
      ((at_ 54 (anchored .once .dropLate)).port 0).queue = [.actionDone 5 7 0 .applied 0 0] ∧
      ((at_ 54 (anchored .once .dropLate)).line 0).scheduled = .high ∧
      ((at_ 55 (anchored .once .dropLate)).port 0).queue = [.actionDone 5 7 0 .droppedLate 0 0] ∧
      ((at_ 55 (anchored .once .fireLate)).port 0).queue = [.actionDone 5 7 0 .lateApplied 0 0] ∧
      (at_ 55 (anchored .every .dropLate)).entry 5 =
        some { header .armed with anchor := some ⟨0, .rise⟩, countB := 1 }) ∧
    ((after (.edgeAccepted 0) (sampled 2)).filter 0).filtered = .low ∧
    ((after (.edgeAccepted 0) (sampled 3)).filter 0).filtered = .high := by decide +kernel

/-! ## The action schedule -/

/-- A SET_HIGH on L0, due at 9. -/
def block : PostBlock := ⟨0, 7, 0, 0, 0, 0, 0, 0, 9, 0, 0, 0, 0, 0⟩

/-- A hub whose P0 has a quota of one slot. -/
def quotaOne : State := { leased with loaded := { leased.loaded with quota := leased.loaded.quota.set 0 1 } }

theorem block_range : postInRange block ∧ ¬ postInRange { block with line := 16 } ∧
    postInRange { block with line := 15 } := by
  unfold postInRange
  refine ⟨?_, ?_, ?_⟩ <;> decide +kernel

theorem test_hyp_PostChecks : (sending (.post 0 block) loadingHub).loadingFor 0 0x30 (postBytes block) ∧
    (sending (.post 0 block) driven).readyFor 0 0x30 (postBytes block) ∧ postInRange block ∧
    ¬ postInRange { block with line := 16 } ∧ postInRange { block with line := 15 } ∧
    (driven.claim (lineRes 0)).holder = some 0 ∧ (driven.claim (lineRes 1)).holder ≠ some 0 ∧
    ((inMode .input 0 driven).line 0).mode ≠ .output ∧ (driven.line 0).mode = .output ∧
    (quotaOne.loaded.quota[0]).toNat ≤ quotaOne.slotsInUse 0 ∧
    ¬ (driven.loaded.quota[0]).toNat ≤ driven.slotsInUse 0 ∧
    judge (BitVec.ofNat 40 (2 ^ 39 + 1)) driven.tb.count = .behind ∧ (∀ i, driven.entry i = none) :=
  ⟨loading_sending rfl rfl, ready_sending rfl rfl, block_range.1, block_range.2.1, block_range.2.2, by decide +kernel⟩

/-- The four quotas' sum may be below 128 and a port's own quota above it: all slots occupied, and the quota not used
up. -/
theorem test_hyp_PostChecks_full :
    (let s : State := { driven with pool := Vector.replicate 128 ⟨body .toggle, [],
      some { header .armed with owner := 1 }⟩ };
      (∀ i, s.entry i ≠ none) ∧ ¬ (s.loaded.quota[0]).toNat ≤ s.slotsInUse 0) := by decide +kernel

/-- POST's range check at each boundary, its refusals and its acceptance. -/
theorem test_run_post : answer (.post 0 block) driven = some [1, 0] ∧
    answer (.post 0 { block with line := 16 }) driven = some [8] ∧
    answer (.post 0 { block with action := 5 }) driven = some [8] ∧
    answer (.post 0 { block with action := 3 }) driven = some [8] ∧
    answer (.post 0 { block with action := 4, width := 5, period := 5 }) driven = some [8] ∧
    answer (.post 0 { block with action := 4, width := 5, period := 6 }) driven = some [1, 0] ∧
    answer (.post 0 { block with timing := 1 }) driven = some [8] ∧
    answer (.post 0 { block with timing := 1, anchorLine := 31, anchorEdge := 3, rep := 1 }) driven = some [1, 0] ∧
    answer (.post 1 block) driven = some [5] ∧ answer (.post 0 block) (inMode .input 0 driven) = some [0x0B] ∧
    answer (.post 0 block) quotaOne = some [9] ∧ answer (.post 0 block) leased = some [1, 1] ∧
    answer (.post 0 { block with late := 1, due := BitVec.ofNat 40 (2 ^ 39 + 1) }) driven = some [0x0A] := by
  decide +kernel

theorem test_hyp_PostPlacesEntry : (sending (.post 0 block) driven).readyFor 0 0x30 (postBytes block) ∧
    postInRange block ∧ ¬ driven.busy 0 ∧ pulsing.busy 0 ∧ (0 : LineId).val = block.line.toNat ∧
    (driven.claim (lineRes 0)).holder = some 0 ∧ (driven.line 0).mode = .output ∧
    driven.slotsInUse 0 < (driven.loaded.quota[0]).toNat ∧ driven.entry 0 = none ∧
    ¬ (block.timing = 0 ∧ block.late = 1 ∧ judge block.due driven.tb.count = .behind) ∧
    judge 9 driven.tb.count = .ahead ∧ judge 0 driven.tb.count = .due ∧
    (inHubMode .direct driven).maint.mode ≠ .run ∧ driven.maint.mode = .run :=
  ⟨ready_sending rfl rfl, block_range.1, not_busy 0 (by decide +kernel),
    ⟨3, header (pulseTo 120), by decide +kernel, rfl, rfl⟩, by decide +kernel⟩

/-- What becomes of a POST: pending, armed, applied, deferred, collided, begun. -/
theorem test_run_placed : (done (.post 0 block) driven).entry 0 = some (header (.pending 9)) ∧
    (done (.post 0 { block with timing := 1, anchorEdge := 1 }) driven).entry 0 =
      some { header .armed with anchor := some ⟨0, .rise⟩ } ∧
    (done (.post 0 { block with due := 0 }) driven).entry 0 = none ∧
    ((done (.post 0 { block with due := 0 }) driven).line 0).scheduled = .high ∧
    ((done (.post 0 { block with due := 0 }) driven).port 0).queue = [.actionDone 0 7 0 .applied 0 0] ∧
    ((done (.post 0 { block with due := 0 }) (inHubMode .direct driven)).entry 0).isSome = true ∧
    ((done (.post 0 { block with due := 0 }) (put 3 (body (.pulse .high 5)) (header (pulseTo 120))
      driven)).port 0).queue =
      [.actionDone 0 7 0 .collided 0 0] ∧
    (done (.post 0 { block with due := 0, action := 3, active := 1, width := 5 }) driven).entry 0 =
      some (header (.active ⟨100, .inPulse 105, .onTime, none⟩)) := by decide +kernel

theorem test_hyp_CancelOutcomes : (sending (.cancel 0 3) pulsing).readyFor 0 0x31 [3] ∧
    (¬ ∃ j k, j ≠ (3 : SlotId) ∧ pulsing.entry j = some k ∧ k.status.isPulse = true) ∧
    (∃ j k, j ≠ (3 : SlotId) ∧ (beside pulsing).entry j = some k ∧ k.status.isPulse = true) ∧
    pulsing.entry 127 = none ∧ pulsing.entry 3 = some (header (pulseTo 120)) ∧ (header (pulseTo 120)).owner = 0 ∧
    (header (pulseTo 120)).status.isPulse = true ∧ (pulsing.body 3).action = .pulse .high 5 ∧
    pulsing.maint.mode ≠ .draining ∧ (inHubMode .draining pulsing).maint.mode = .draining ∧
    (header (.pending 9)).status.isPulse = false := by
  refine ⟨ready_sending rfl rfl, ?_, ⟨4, { header (pulseTo 120) with owner := 1, line := 1 }, by decide +kernel⟩,
    by decide +kernel⟩
  rintro ⟨j, k, hj, hk, hp⟩
  exact (by decide +kernel : ∀ j, ∀ k ∈ pulsing.entry j, j ≠ 3 → k.status.isPulse ≠ true) j k hk hj hp

theorem test_run_cancel : answer (.cancel 0 128) pulsing = some [8] ∧ answer (.cancel 0 127) pulsing = some [7] ∧
    answer (.cancel 1 3) pulsing = some [6] ∧ answer (.cancel 0 3) pulsing = some [1] ∧
    (done (.cancel 0 3) pulsing).entry 3 = none ∧
    (done (.cancel 0 3) (inHubMode .draining pulsing)).maint.mode = .direct := by decide +kernel

theorem test_hyp_CancelLineOutcomes : (sending (.cancelLine 0 0) leased).readyFor 0 0x32 [0] ∧
    leased.drainsOn (fun h => h.owner = 0 ∧ h.line = 0) ∧
    leased.postOrdered (fun h => h.owner = 0 ∧ h.line = 0) [0] ∧
    ¬ (draining 120 200).drainsOn (fun h => h.owner = 0 ∧ h.line = 0) ∧
    (∃ i h, (draining 120 200).entry i = some h ∧ h.owner = 0 ∧ h.line = 0) := by
  refine ⟨ready_sending rfl rfl, fun h => absurd h (by decide +kernel),
    postOrdered_of (fun h => h.owner == 0 && h.line == 0) (by simp) (by simp) (by decide +kernel), fun h => ?_,
    ⟨3, header (pulseTo 120), by decide +kernel⟩⟩
  obtain ⟨j, k, hk, hn, -⟩ := h (by decide +kernel)
  exact hn ((by decide +kernel : ∀ j, ∀ k ∈ (draining 120 200).entry j, k.owner = 0 ∧ k.line = 0) j k hk)

theorem test_run_cancelLine :
    answer (.cancelLine 0 16) leased = some [8] ∧ answer (.cancelLine 0 15) leased = some [1, 0] ∧
    answer (.cancelLine 0 0) leased = some [1, 1] ∧ answer (.cancelLine 1 0) leased = some [1, 0] ∧
    ((done (.cancelLine 0 0) leased).port 0).queue = [.actionDone 0 7 0 .cancelled 0 0] ∧
    ((done (.cancelLine 0 0) (draining 120 200)).port 0).queue =
      [.actionDone 3 7 0 .cancelled 0 0, .directEntered] := by decide +kernel

/-- The timebase with a run state and a slew. -/
def slewed (run : RunState) (slew : Option Slew) (s : State) : State :=
  { s with tb := { s.tb with run := run, slew := slew } }

/-- A SET_HIGH entry due at count 1. -/
def dueNext : State := put 2 (body .setHigh) (header (.pending 1)) driven

/-- With it a TOGGLE entry of a later post, due at a count. -/
def dueBoth (d : Count) : State := put 4 (body .toggle) { header (.pending d) with postOrder := 1 } dueNext

/-- One advance of one count meets the entry due at it, or two of them in post order; a double tick meets those of the
first count before those of the second; a body may have one changed bit or two. -/
theorem test_hyp_CountAdvances : hub.noneDue 1 ∧ hub.noneDue 2 ∧
    (spoilt 2 [7] (dueBoth 1)).dueOrdered (fun d => d = 1) [2, 4] ∧ (spoilt 2 [7] (dueBoth 1)).readableAt [2, 4] ∧
    (slewed .running (some .double) (spoilt 4 [7, 8] (dueBoth 2))).dueOrdered (fun d => d = 1 ∨ d = 2) [2, 4] ∧
    (slewed .running (some .double) (spoilt 4 [7, 8] (dueBoth 2))).readableAt [2, 4] ∧
    (spoilt 2 [7] (dueBoth 1)).tb.slew = none ∧ (spoilt 2 [7] (dueBoth 1)).tb.run = .running ∧
    (slewed .halted none hub).tb.run = .halted ∧ (slewed .running (some .held) hub).tb.slew = some .held := by
  refine ⟨?_, ?_, dueOrdered_of (· == 1) (by simp) (by decide +kernel) (by decide +kernel), ?_,
    dueOrdered_of (fun d => d == 1 || d == 2) (by simp) (by decide +kernel) (by decide +kernel), ?_, by decide +kernel⟩
  · exact fun i h hi => (by decide +kernel : ∀ i, ∀ h ∈ hub.entry i, h.status ≠ .pending 1) i h hi
  · exact fun i h hi => (by decide +kernel : ∀ i, ∀ h ∈ hub.entry i, h.status ≠ .pending 2) i h hi
  all_goals unfold State.readableAt; decide +kernel

theorem test_run_countAdvance : (after .countAdvance hub).tb.count = 1 ∧
    (after .countAdvance (slewed .halted none hub)).tb.count = 0 ∧
    (after .countAdvance (slewed .running (some .held) hub)).tb.count = 0 ∧
    (after .countAdvance (slewed .running (some .double) hub)).tb.count = 2 ∧
    ((after .countAdvance dueNext).line 0).scheduled = .high ∧ (after .countAdvance dueNext).entry 2 = none ∧
    ((after .countAdvance (dueBoth 1)).port 0).queue =
      [.actionDone 2 7 0 .applied 0 0, .actionDone 4 7 0 .applied 0 0] ∧
    (after .countAdvance (dueBoth 2)).entry 4 = (dueBoth 2).entry 4 ∧
    ((after .countAdvance (spoilt 2 [7, 8] (dueBoth 1))).port 0).queue =
      [.actionDone 2 7 0 .integrity 0 0, .actionDone 4 7 0 .applied 0 0] ∧
    (after .countAdvance (spoilt 2 [7] (dueBoth 1))).entry 2 = none ∧
    (let t := after .countAdvance (slewed .running (some .double) (dueBoth 2));
      (t.line 0).scheduled = .low ∧ (t.port 0).queue.length = 2) := by decide +kernel

/-- A train of three pulses on L0, each 5 wide with a period of 9. -/
def train (st : EntryStatus) : State := put 3 (body (.train .high 5 9 3)) (header st) driven

theorem test_hyp_PulseEnds :
    (¬ ∃ j k, j ≠ (3 : SlotId) ∧ (draining 100 200).entry j = some k ∧ k.status.isPulse = true) ∧
    (∃ j k, j ≠ (3 : SlotId) ∧ (beside (draining 100 200)).entry j = some k ∧ k.status.isPulse = true) ∧
    pulsing.entry 3 = some (header (pulseTo 120)) ∧ pulsing.elapsed < 120 ∧
    (draining 100 200).entry 3 = some (header (pulseTo 100)) ∧ (draining 100 200).maint.mode = .draining ∧
    100 ≤ (draining 100 200).elapsed ∧ (draining 100 200).readableAt [3] ∧
    (spoilt 3 [7] (draining 100 200)).readableAt [3] ∧ (spoilt 3 [7, 8] (draining 100 200)).readableAt [3] ∧
    driven.maint.mode ≠ .draining ∧
    (pulsing.body 3).action = .pulse .high 5 ∧ ((train .armed).body 3).action = .train .high 5 9 3 ∧
    ((3 : BitVec 16) ≠ 0 ∧ (3 : BitVec 16).toNat ≤ (3 : BitVec 16).toNat + (0 : BitVec 16).toNat) ∧
    (2 : BitVec 16).toNat + (0 : BitVec 16).toNat < (3 : BitVec 16).toNat := by
  unfold State.readableAt
  refine ⟨?_, ⟨4, { header (pulseTo 120) with owner := 1, line := 1 }, by decide +kernel⟩, by decide +kernel⟩
  rintro ⟨j, k, hj, hk, hp⟩
  exact (by decide +kernel : ∀ j, ∀ k ∈ (draining 100 200).entry j, j ≠ 3 → k.status.isPulse ≠ true) j k hk hj hp

/-- A body with one changed bit is corrected and the pulse ends; with two the check withdraws the entry and cuts its
pulse. -/
theorem test_run_pulseEnd_spoilt :
    (let t := after (.pulseEnd 3) (spoilt 3 [7] (draining 100 200));
      (t.port 0).queue = [.actionDone 3 7 0 .applied 0 0, .directEntered] ∧ (t.errors 0).corrected = 1) ∧
    (let t := after (.pulseEnd 3) (spoilt 3 [7, 8] (draining 100 200));
      (t.port 0).queue = [.actionDone 3 7 0 .integrity 0 0, .directEntered] ∧ (t.line 0).scheduled = .low) := by
  decide +kernel

theorem test_run_pulseEnd : (after (.pulseEnd 3) pulsing).entry 3 = some (header (pulseTo 120)) ∧
    (after (.pulseEnd 3) (put 3 (body (.pulse .high 5)) (header (pulseTo 100)) driven)).entry 3 = none ∧
    (after (.pulseEnd 3) (train (.active { trainRun 3 109 with phase := .inPulse 100 }))).entry 3 = none ∧
    (after (.pulseEnd 3) (train (.active { trainRun 2 109 with phase := .inPulse 100 }))).entry 3 =
      some (header (.active (trainRun 2 109))) ∧
    (let t := after (.pulseEnd 3) (inHubMode .draining (train (.active { trainRun 2 109 with phase := .inPulse 100 })));
      t.entry 3 = some (header (.suspended (trainRun 2 109))) ∧ t.maint.mode = .direct) ∧
    (after (.pulseEnd 3) (beside (draining 100 200))).maint.mode = .draining := by decide +kernel

theorem test_hyp_TrainBoundaries : (train (.active (trainRun 2 101))).elapsed < 101 ∧
    (train (.active (trainRun 2 100))).entry 3 = some (header (.active (trainRun 2 100))) ∧
    (trainRun 2 100).phase = .betweenPulses ∧ (train (.suspended (trainRun 2 100))).elapsed = 100 ∧
    (train (.active (trainRun 2 100))).readableAt [3] ∧
    (spoilt 3 [7] (train (.active (trainRun 2 100)))).readableAt [3] ∧
    (spoilt 3 [7, 8] (train (.active (trainRun 2 100)))).readableAt [3] ∧
    ((train (.active (trainRun 2 100))).body 3).action = .train .high 5 9 3 := by
  unfold State.readableAt
  decide +kernel

/-- The third pulse begins, and no boundary is to come; a second one does not end the grid. -/
theorem test_run_trainBoundary : (after (.trainBoundary 3) (train (.active (trainRun 2 101)))).entry 3 =
      some (header (.active (trainRun 2 101))) ∧
    (after (.trainBoundary 3) (train (.active (trainRun 2 100)))).entry 3 = some { header (.active
      ⟨90, .inPulse 105, .onTime, some ⟨3, 0, none⟩⟩) with countA := 1 } ∧
    (after (.trainBoundary 3) (train (.suspended (trainRun 1 100)))).entry 3 = some { header (.suspended
      ⟨90, .betweenPulses, .onTime, some ⟨1, 1, some 109⟩⟩) with countB := 1 } := by decide +kernel

/-! ## The timebase and notices -/

/-- P0 holds TB. -/
def timed : State := held 0 16 hub

/-- The timebase with a source. -/
def sourced (x : Source) (s : State) : State := { s with tb := { s.tb with source := x } }

theorem test_hyp_TimeCommandChecks : (Instr.setTime 0 5, (0x41 : Byte), bytesOf 5 (5 : Count)) ∈
      ([(.setTime 0 5, 0x41, bytesOf 5 (5 : Count)), (.halt 0, 0x43, [])] : List (Instr × Byte × List Byte)) ∧
    (sending (.setTime 0 5) loadingHub).loadingFor 0 0x41 (bytesOf 5 (5 : Count)) ∧
    (sending (.setTime 0 5) timed).readyFor 0 0x41 (bytesOf 5 (5 : Count)) ∧
    (sending (.stepTime 0 (BitVec.ofNat 40 (2 ^ 39))) timed).readyFor 0 0x42 (bytesOf 5 (BitVec.ofNat 40 (2 ^ 39))) ∧
    (timed.claim resTB).holder = some 0 ∧ (hub.claim resTB).holder ≠ some 0 ∧
    (sourced .follower timed).tb.source = .follower ∧ timed.tb.source ≠ .follower ∧ timed.tb.run = .running ∧
    (slewed .halted none timed).tb.run = .halted :=
  ⟨by simp, loading_sending rfl rfl, ready_sending rfl rfl, ready_sending rfl rfl, by decide +kernel⟩

theorem test_run_time_checks : answer (.stepTime 0 (BitVec.ofNat 40 (2 ^ 39))) hub = some [8] ∧
    answer (.stepTime 0 (BitVec.ofNat 40 (2 ^ 39 - 1))) timed = some [1] ∧ answer (.setTime 0 5) hub = some [5] ∧
    answer (.halt 0) (sourced .follower timed) = some [0x0C] ∧ answer (.halt 0) timed = some [1] ∧
    answer (.resume 0) timed = some [3] ∧ answer (.halt 0) (slewed .halted none timed) = some [3] ∧
    answer (.resume 0) (slewed .halted none timed) = some [1] := by decide +kernel

/-- P0 holds TB, and an entry is PENDING, due at 9. -/
def timedEntry (timing : Timing) (late : LatePolicy) : State :=
  put 2 ⟨.setHigh, timing, late⟩ (header (.pending 9)) (held 0 16 driven)

/-- The same with a second entry, due before it. -/
def timedBoth : State :=
  put 4 (body .toggle) { header (.pending 5) with postOrder := 1 } (timedEntry (.absolute 9) .dropLate)

theorem test_hyp_TimeCommandsTakeEffect : (sending (.stepTime 0 3) timed).readyFor 0 0x42 (bytesOf 5 (3 : Count)) ∧
    (sending (.setTime 0 5) timed).readyFor 0 0x41 (bytesOf 5 (5 : Count)) ∧ (3 : Count) ≠ BitVec.ofNat 40 (2 ^ 39) ∧
    (sending (.halt 0) timed).readyFor 0 0x43 [] ∧ (sending (.resume 0) timed).readyFor 0 0x44 [] ∧
    timed.nonePending ∧ timed.dueOrdered (fun _ => True) [] ∧ timedBoth.dueOrdered (fun _ => True) [4, 2] ∧
    timedBoth.readableAt [4, 2] ∧ (spoilt 4 [7, 8] timedBoth).readableAt [4, 2] ∧ timedBoth.drainsOn (fun _ => False) ∧
    (beside (inHubMode .draining timedBoth)).drainsOn (fun _ => False) ∧ (timedBoth.claim resTB).holder = some 0 ∧
    timedBoth.tb.source ≠ .follower ∧ timed.tb.run = .running ∧ (slewed .halted none timed).tb.run = .halted := by
  refine ⟨ready_sending rfl rfl, ready_sending rfl rfl, by decide +kernel, ready_sending rfl rfl, ready_sending rfl rfl,
    fun i h d hi => ?_, dueOrdered_of (fun _ => true) (by simp) (by simp) (by decide +kernel),
    dueOrdered_of (fun _ => true) (by simp) (by decide +kernel) (by decide +kernel), ?_, ?_,
    fun h => absurd h (by decide +kernel),
    fun _ => ⟨4, { header (pulseTo 120) with owner := 1, line := 1 }, by decide +kernel⟩, by decide +kernel⟩
  · exact absurd hi (by rw [(by decide +kernel : ∀ i, timed.entry i = none) i]; simp)
  all_goals unfold State.readableAt; decide +kernel

/-- The judgement of a PENDING entry after SET_TIME and STEP_TIME: ahead, due, behind in each case. -/
theorem test_run_time_effects :
    (let at_ (k : Count) (timing : Timing) (late : LatePolicy) : State := done (.setTime 0 k) (timedEntry timing late);
      (at_ 8 (.absolute 9) .dropLate).entry 2 = some (header (.pending 9)) ∧
      ((at_ 9 (.absolute 9) .dropLate).port 0).queue = [.timebase .set 1 9, .actionDone 2 7 0 .applied 0 0] ∧
      ((at_ 10 (.absolute 9) .dropLate).port 0).queue = [.timebase .set 1 10, .actionDone 2 7 0 .droppedLate 0 0] ∧
      ((at_ 10 (.absolute 9) .fireLate).port 0).queue = [.timebase .set 1 10, .actionDone 2 7 0 .lateApplied 0 0] ∧
      (at_ 10 (.anchored 4 .every) .dropLate).entry 2 = some { header .armed with countB := 1 } ∧
      (at_ 10 (.absolute 9) .dropLate).tb.epoch = 1) ∧
    ((done (.stepTime 0 9) timedBoth).port 0).queue =
      [.timebase .step 1 9, .actionDone 4 7 0 .lateApplied 0 0, .actionDone 2 7 0 .applied 0 0] ∧
    (done (.stepTime 0 3) timed).tb.count = 3 ∧ (done (.halt 0) timed).tb.run = .halted ∧
    ((done (.setTime 0 5) timed).port 3).queue = [.timebase .set 1 5] := by decide +kernel

theorem test_hyp_TakeNotices : (sending (.takeNotices 0 8) (queued 1)).readyFor 0 0x50 [8] ∧
    (let s := (queued 1).setPort 0 { (queued 1).port 0 with frame := .response [1, 1] 1 };
      (s.port 0).frame = .response [1, 1] (0 + 1) ∧ (s.port 0).queue = .reset .power :: []) ∧
    (hub.port 0).queue = [] := ⟨ready_sending rfl rfl, by decide +kernel, by decide +kernel⟩

theorem test_run_notices : answer (.takeNotices 0 0) (queued 1) = some [8] ∧
    answer (.takeNotices 0 9) (queued 1) = some [8] ∧ answer (.takeNotices 0 8) (queued 9) = some [1, 8] ∧
    answer (.takeNotices 0 1) (queued 0) = some [1, 0] ∧
    answer (.peekNotice 0) (queued 1) = some (1 :: 8 :: 1 :: List.replicate 10 0) ∧
    answer (.peekNotice 0) hub = some (1 :: List.replicate 12 0) ∧
    ((after (.noticeRecordRemoved 0) (done (.takeNotices 0 2) (queued 2))).port 0).queue.length = 1 := by
  decide +kernel

theorem test_hyp_NoticesReadAndMasked : (sending (.peekNotice 0) (queued 1)).readyFor 0 0x51 [] ∧
    (hub.port 0).queue = [] ∧ ((queued 1).port 0).queue = .reset .power :: [] ∧
    (sending (.setAttnMask 0 0x7F) hub).readyFor 0 0x52 [0x7F] ∧ (sending (.snapshot 0) hub).readyFor 0 0x53 [] :=
  ⟨ready_sending rfl rfl, by decide +kernel, by decide +kernel, ready_sending rfl rfl, ready_sending rfl rfl⟩

theorem test_run_snapshot : answer (.snapshot 0) leased =
      some [1, 0, 0, 0, 0, 0, 0, 0, 1, 1, 32, 0, 0, 0, 0, 0, 0x10] ∧
    ((queued 1).port 0).attn = true ∧
      ((done (.setAttnMask 0 0x7F) (queued 1)).port 0).attn = false := by decide +kernel

/-! ## Direct drive and the line check -/

/-- P0 holds MX, a pulse is in progress, and the drain limit is 0. -/
def undrained : State :=
  let s := held 0 17 pulsing
  { s with maint := { s.maint with drainLimit := 0 } }

theorem test_hyp_EnterDirect : (sending (.enterDirect 0) maintaining).readyFor 0 0x60 [] ∧
    (∃ c, checkingNow.maint.check = .running c) ∧ (¬ ∃ c, maintaining.maint.check = .running c) ∧
    (¬ ∃ i h, maintaining.entry i = some h ∧ h.status.isPulse = true) ∧
    (∃ i h, pulsing.entry i = some h ∧ h.status.isPulse = true) ∧
    (maintaining.claim resMX).holder = some 0 ∧ (driven.claim resMX).holder ≠ some 0 ∧
    maintaining.maint.mode = .run ∧ (inHubMode .direct maintaining).maint.mode ≠ .run ∧
    maintaining.maint.drainLimit ≠ 0 ∧ undrained.maint.drainLimit = 0 ∧ undrained.entry 3 = some (header (pulseTo 120)) := by
  refine ⟨ready_sending rfl rfl, ⟨_, rfl⟩, ?_, ?_, ⟨3, header (pulseTo 120), by decide +kernel⟩, by decide +kernel⟩
  · rintro ⟨c, hc⟩
    rw [show maintaining.maint.check = .idle from rfl] at hc
    exact absurd hc (by simp)
  · rintro ⟨i, h, hi, hp⟩
    exact (by decide +kernel : ∀ i, ∀ h ∈ maintaining.entry i, h.status.isPulse ≠ true) i h hi hp

theorem test_run_enterDirect :
    answer (.enterDirect 0) driven = some [5] ∧ answer (.enterDirect 0) checkingNow = some [0x0B] ∧
    answer (.enterDirect 0) (inHubMode .direct maintaining) = some [3] ∧
      answer (.enterDirect 0) maintaining = some [1] ∧
    answer (.enterDirect 0) (held 0 17 pulsing) = some [2] ∧
    (done (.enterDirect 0) (held 0 17 pulsing)).maint.drainDeadline = some 10100 ∧
    (let t := done (.enterDirect 0) undrained;
      t.maint.mode = .direct ∧ t.entry 3 = none ∧ (t.line 0).scheduled = .low ∧
        (t.port 0).queue = [.actionDone 3 7 0 .cut 0 0, .directEntered] ∧ (t.port 1).queue = [.directEntered]) := by
  decide +kernel

theorem test_hyp_DrainingEnds :
    (draining 120 100).postOrdered (fun h => ∃ r e, h.status = .active r ∧ r.phase = .inPulse e ∧ r.train = none) [3] ∧
    maintaining.maint.mode ≠ .draining ∧ (draining 120 101).maint.drainDeadline = some 101 ∧
    (draining 120 101).elapsed < 101 ∧ (draining 120 100).maint.mode = .draining ∧
    (draining 120 100).maint.drainDeadline = some 100 ∧ 100 ≤ (draining 120 100).elapsed ∧
    (draining 100 200).entry 3 = some (header (pulseTo 100)) ∧ (spoilt 3 [7] (draining 100 200)).readableAt [3] ∧
    ((draining 100 200).body 3).action = .pulse .high 5 ∧
    (∀ j, ∀ k ∈ (draining 100 200).entry j, j ≠ 3 → k.status.isPulse = false) := by
  unfold State.readableAt
  refine ⟨⟨by simp, fun i => ?_⟩, by decide +kernel⟩
  have only : ∀ i, ∀ h ∈ (draining 120 100).entry i, i = 3 := by decide +kernel
  rw [List.mem_singleton]
  refine ⟨?_, fun ⟨h, hi, _⟩ => only i h hi⟩
  rintro rfl
  exact ⟨header (pulseTo 120), by decide +kernel, _, 120, rfl, rfl, rfl⟩

theorem test_run_draining : (after .drainLimitExpiry (draining 120 101)).maint.mode = .draining ∧
    (let t := after .drainLimitExpiry (draining 120 100);
      t.maint.mode = .direct ∧ t.entry 3 = none ∧ (t.line 0).scheduled = .low ∧
        (t.port 0).queue = [.actionDone 3 7 0 .cut 0 0, .directEntered] ∧ (t.port 1).queue = [.directEntered]) ∧
    (after (.pulseEnd 3) (draining 100 200)).maint.mode = .direct ∧
    ((after (.pulseEnd 3) (draining 100 200)).port 0).queue = [.actionDone 3 7 0 .applied 0 0, .directEntered] := by
  decide +kernel

/-- DIRECT with a DEFERRED entry, or with a SUSPENDED train. -/
def deferred (late : LatePolicy) : State :=
  inHubMode .direct (put 2 ⟨.setHigh, .absolute 1, late⟩ (header (.deferred 1 0)) maintaining)

/-- DIRECT with two DEFERRED entries, the one deferred first in the later slot, and two SUSPENDED trains: one on the
same line that has a pulse left, and one of P1 on L1 that has none. -/
def heldBack (late : LatePolicy) : State :=
  put 6 ⟨.setLow, .absolute 1, .fireLate⟩ { header (.deferred 1 0) with tag := 8 }
    (put 2 ⟨.setHigh, .absolute 1, late⟩ (header (.deferred 1 1))
      (put 4 (body (.train .high 5 9 3))
        { header (.suspended (trainRun 3 109)) with owner := 1, line := 1, postOrder := 1 }
        (put 3 (body (.train .high 5 9 3)) (header (.suspended (trainRun 1 91))) (inHubMode .direct maintaining))))

theorem test_hyp_ExitDirect : (sending (.exitDirect 0) (heldBack .dropLate)).readyFor 0 0x61 [] ∧
    (heldBack .dropLate).deferralOrdered [6, 2] ∧
    (heldBack .dropLate).postOrdered (fun h => h.status.suspendedRun ≠ none) [3, 4] ∧
    (heldBack .dropLate).readableAt [6, 2, 3, 4] ∧ (spoilt 2 [7] (heldBack .dropLate)).readableAt [6, 2, 3, 4] ∧
    (spoilt 3 [7, 8] (heldBack .dropLate)).readableAt [6, 2, 3, 4] ∧
    ((heldBack .dropLate).claim resMX).holder = some 0 ∧ (driven.claim resMX).holder ≠ some 0 ∧
    (heldBack .dropLate).maint.mode ≠ .run ∧ maintaining.maint.mode = .run ∧
    ((deferred .dropLate).body 2).late = .dropLate ∧ ((deferred .fireLate).body 2).late = .fireLate ∧
    ((train (.suspended (trainRun 1 91))).body 3).action = .train .high 5 9 3 ∧
    (1 : BitVec 16).toNat + (0 : BitVec 16).toNat < (3 : BitVec 16).toNat ∧
    driven.elapsed = 91 + 1 * (9 : BitVec 24).toNat ∧
    driven.elapsed < 95 + 1 * (9 : BitVec 24).toNat ∧ 95 + 1 * (9 : BitVec 24).toNat < driven.elapsed + 9 ∧
    (3 : BitVec 16).toNat ≤ (3 : BitVec 16).toNat + (0 : BitVec 16).toNat := by
  unfold State.readableAt
  exact ⟨ready_sending rfl rfl, deferralOrdered_of (by decide +kernel) (by decide +kernel),
    postOrdered_of (fun h => h.status.suspendedRun.isSome) (by simp [Option.isSome_iff_ne_none]) (by decide +kernel)
      (by decide +kernel), by decide +kernel⟩

/-- A late DEFERRED entry collides with the SUSPENDED train of its line before the train goes on, and the train with no
pulses left ends last. A train whose body is lost still makes its line busy in step 1, and is withdrawn in step 2. -/
theorem test_run_heldBack :
    (let t := done (.exitDirect 0) (heldBack .dropLate);
      (t.port 0).queue = [.directExited .command, .actionDone 6 8 0 .collided 0 0, .actionDone 2 7 0 .droppedLate 0 0] ∧
      (t.port 1).queue = [.directExited .command, .actionDone 4 7 1 .applied 0 0] ∧
      t.entry 3 = some { header (.active ⟨90, .inPulse 105, .onTime, some ⟨2, 0, some 109⟩⟩) with countA := 1 }) ∧
    ((done (.exitDirect 0) (spoilt 3 [7, 8] (heldBack .fireLate))).port 0).queue = [.directExited .command,
      .actionDone 6 8 0 .collided 0 0, .actionDone 2 7 0 .collided 0 0, .actionDone 3 7 0 .integrity 0 0] := by
  decide +kernel

theorem test_run_exitDirect :
    answer (.exitDirect 0) driven = some [5] ∧ answer (.exitDirect 0) maintaining = some [0x0B] ∧
    answer (.exitDirect 0) (deferred .dropLate) = some [1] ∧
    ((done (.exitDirect 0) (deferred .dropLate)).port 0).queue =
      [.directExited .command, .actionDone 2 7 0 .droppedLate 0 0] ∧
    ((done (.exitDirect 0) (deferred .fireLate)).line 0).scheduled = .high ∧
    (let back (begun : BitVec 16) (b : Nat) : State :=
        done (.exitDirect 0) (inHubMode .direct (held 0 17 (train (.suspended (trainRun begun b)))));
      (back 1 101).entry 3 = some (header (.active (trainRun 1 101))) ∧
      (back 1 95).entry 3 = some (header (.active (trainRun 1 104))) ∧
      (back 1 91).entry 3 = some { header (.active ⟨90, .inPulse 105, .onTime, some ⟨2, 0, some 109⟩⟩) with
        countA := 1 } ∧
      ((back 3 109).port 0).queue = [.directExited .command, .actionDone 3 7 0 .applied 0 0]) := by decide +kernel

theorem test_hyp_DirectDrive : (sending (.directDrive 0 0 2) loadingHub).loadingFor 0 0x62 [0, 2] ∧
    (sending (.directDrive 0 0 2) maintaining).readyFor 0 0x62 [0, 2] ∧ (maintaining.claim resMX).holder = some 0 ∧
    (driven.claim resMX).holder ≠ some 0 ∧ maintaining.maint.mode ≠ .direct ∧
    (inHubMode .direct maintaining).maint.mode = .direct ∧ ((inHubMode .direct maintaining).line 0).mode = .output ∧
    ((inHubMode .direct maintaining).line 15).mode = .off :=
  ⟨loading_sending rfl rfl, ready_sending rfl rfl, by decide +kernel⟩

theorem test_run_directDrive : answer (.directDrive 0 16 0) maintaining = some [8] ∧
    answer (.directDrive 0 0 3) maintaining = some [8] ∧ answer (.directDrive 0 0 2) driven = some [5] ∧
    answer (.directDrive 0 0 2) maintaining = some [0x0B] ∧
    answer (.directDrive 0 15 0) (inHubMode .direct maintaining) = some [0x0B] ∧
    (done (.directDrive 0 0 1) (inHubMode .direct maintaining)).drive 0 = some .high ∧
    (done (.directDrive 0 0 0) (inHubMode .direct maintaining)).drive 0 = some .low := by decide +kernel

/-- P0 holds MX and L2, which is in INPUT and drives nothing. -/
def testable : State := inMode .input 2 (held 0 2 (held 0 17 hub))

theorem test_hyp_LineCheckStarts : (sending (.lineCheck 0 4) testable).readyFor 0 0x63 (bytesOf 2 (4 : LineSet)) ∧
    (∃ c, checkingNow.maint.check = .running c) ∧ leased.occupied 0 ∧ ¬ testable.occupied 2 ∧
    (4 : LineSet) ≠ 0 ∧ (testable.claim resMX).holder = some 0 ∧ (hub.claim resMX).holder ≠ some 0 ∧
    testable.maint.mode = .run ∧ (inHubMode .direct testable).maint.mode ≠ .run ∧
    (∀ n : LineId, (4 : LineSet).getLsbD n.val = true → (testable.claim (lineRes n)).holder = some 0) ∧
    (¬ ∀ n : LineId, (8 : LineSet).getLsbD n.val = true → (testable.claim (lineRes n)).holder = some 0) ∧
    (∀ m : LineId, m < 2 → (4 : LineSet).getLsbD m.val = false) ∧ ((inMode .off 2 testable).line 2).mode = .off := by
  refine ⟨ready_sending rfl rfl, ⟨_, rfl⟩, ⟨0, header (.pending 9), by decide +kernel⟩, ?_, by decide +kernel⟩
  rintro ⟨i, h, hi, -⟩
  exact absurd hi (by rw [(by decide +kernel : ∀ i, testable.entry i = none) i]; simp)

theorem test_run_lineCheck : answer (.lineCheck 0 0) testable = some [8] ∧ answer (.lineCheck 0 4) hub = some [5] ∧
    answer (.lineCheck 0 5) checkingNow = some [4] ∧
      answer (.lineCheck 0 4) (inHubMode .direct testable) = some [0x0B] ∧
    answer (.lineCheck 0 8) testable = some [5] ∧ answer (.lineCheck 0 1) (held 0 17 leased) = some [0x0B] ∧
    answer (.lineCheck 0 4) testable = some [2] ∧
    (done (.lineCheck 0 4) testable).maint.check = .running ⟨0, 4, 2, .w1, 118, .undecided, .undecided, 0, 0, none⟩ ∧
    (done (.lineCheck 0 4) testable).drive 2 = some .low ∧
    ((done (.lineCheck 0 4) { inMode .off 2 testable with held := 4, level := 4 }).filter 2).filtered = .high ∧
    ((done (.lineCheck 0 4) { inMode .off 2 testable with level := 4 }).filter 2).filtered = .low := by decide +kernel

/-- L0 in TEST with a run of three samples above LOW. -/
def rising (c : Progress) : State := (checking c).setFilter 0 ⟨.low, some ⟨3, 50, false⟩, .high⟩

theorem test_hyp_CheckWindows : checkingNow.maint.check = .running (progress 0 .w1 .undecided .undecided 101) ∧
    checkingNow.elapsed = 100 ∧ (∀ n : LineId, 2 < n → (5 : LineSet).getLsbD n.val = false) ∧
    (5 : LineSet).getLsbD 2 = true ∧ (∀ m : LineId, 0 < m → m < 2 → (5 : LineSet).getLsbD m.val = false) ∧
    (checkingNow.line 0).mode = .test ∧ (checkingNow.line 0).saved = some (.output, .low) ∧
    (checkingNow.claim (lineRes 0)).holder = some 0 ∧
    ((rising (progress 0 .w2 .undecided .undecided 200)).filter 0).run = some ⟨3, 50, false⟩ ∧
    ((rising (progress 0 .w2 .met .undecided 200)).line 0).filterLen.toNat < 3 := by decide +kernel

/-- The windows of the first and of the last line, and the edges that decide them. -/
theorem test_run_windows : (after .checkWindowEnd checkingNow).maint.check =
      .running (progress 0 .w1 .undecided .undecided 101) ∧
    (after .checkWindowEnd (checking (progress 0 .w1 .undecided .undecided 100))).maint.check =
      .running (progress 0 .w2 .undecided .undecided 118) ∧
    (after .checkWindowEnd (checking (progress 0 .w2 .undecided .undecided 100))).maint.check =
      .running { progress 0 .w3 .failed .undecided 118 with failure := some ⟨0, .rise, .nothing⟩ } ∧
    (after .checkWindowEnd (checking (progress 0 .w3 .met .met 100))).maint.check =
      .running { progress 2 .w1 .undecided .undecided 118 with passed := 1, completed := 1 } ∧
    (after .checkWindowEnd (checking { progress 2 .w3 .met .met 100 with passed := 1, completed := 1 })).maint.check =
      .finished ⟨.passed, 5, 5, none⟩ ∧
    (after (.edgeAccepted 0) (rising (progress 0 .w2 .undecided .undecided 200))).maint.check =
      .running (progress 0 .w2 .met .undecided 200) ∧
    (after (.edgeAccepted 0) (rising (progress 0 .w2 .failed .undecided 200))).maint.check =
      .running (progress 0 .w2 .failed .undecided 200) ∧
    (after (.edgeAccepted 0) (rising (progress 0 .w3 .met .undecided 200))).maint.check =
      .running { progress 0 .w3 .met .failed 200 with failure := some ⟨0, .fall, .wrongEdge⟩ } ∧
    (checking (progress 0 .w2 .undecided .undecided 200)).drive 0 = some .high ∧
    (checking (progress 0 .w2 .undecided .undecided 200)).drive 2 = some .low := by decide +kernel

theorem test_hyp_CheckAbortsAndReports : (sending (.abortCheck 0) checkingNow).readyFor 0 0x64 [] ∧
    (sending (.checkResult 0) checkingNow).readyFor 0 0x65 [] ∧ (checkingNow.claim resMX).holder = some 0 ∧
    (driven.claim resMX).holder ≠ some 0 ∧ maintaining.maint.check = .idle ∧
    checkingNow.maint.check = .running (progress 0 .w1 .undecided .undecided 101) :=
  ⟨ready_sending rfl rfl, ready_sending rfl rfl, by decide +kernel⟩

theorem test_run_abortCheck :
    answer (.abortCheck 0) driven = some [5] ∧ answer (.abortCheck 0) maintaining = some [0x0B] ∧
    answer (.abortCheck 0) checkingNow = some [1] ∧
    (done (.abortCheck 0) checkingNow).maint.check = .finished ⟨.aborted, 0, 0, none⟩ ∧
    ((done (.abortCheck 0) checkingNow).line 0).mode = .output ∧
    ((done (.abortCheck 0) checkingNow).line 2).mode = .off ∧
    answer (.checkResult 3) (checking { progress 0 .w3 .failed .undecided 200 with
      failure := some ⟨0, .rise, .nothing⟩ }) = some [1, 1, 4, 0, 0, 0, 0, 1, 0, 1, 1] := by decide +kernel

/-! ## Pool integrity and resets -/

/-- While DRAINING, the body of the one pulse in progress is lost. -/
def scrubDrains : State :=
  scrubbing [7, 8] (inHubMode .draining (put 0 (body (.pulse .high 5)) (header (pulseTo 120))
    (driven.setScheduled 0 .high)))

theorem test_hyp_ScrubChecksSlot : State.reset.phase = .pinReset ∧ leased.phase ≠ .pinReset ∧
    (7 : Nat) ∉ (leased.slot 0).wrongBits ∧
    (7 : Nat) ∈ ((scrubbing [7] leased).slot 0).wrongBits ∧ hub.integ.scrubDue = none ∧
    (scrubbing [] leased).integ.scrubDue = some 100 ∧ 100 ≤ (scrubbing [] leased).elapsed ∧
    (scrubbing [] leased).integ.scrubPos = 0 ∧ ((scrubbing [7] leased).slot 0).wrongBits = [7] ∧
    ((scrubbing [7, 8] leased).slot 0).wrongBits = [7, 8] ∧ (scrubbing [7] hub).entry 0 = none ∧
    (scrubbing [7] leased).entry 0 = some (header (.pending 9)) ∧ leased.maint.mode ≠ .draining ∧
    leased.integ.firstError = none ∧ scrubDrains.maint.mode = .draining ∧ (scrubDrains.slot 0).wrongBits = [7, 8] ∧
    scrubDrains.entry 0 = some (header (pulseTo 120)) ∧ (∀ j, ∀ k ∈ scrubDrains.entry j, j ≠ 0 → k.status.isPulse = false) ∧
    (∃ k ∈ (beside scrubDrains).entry 4, k.status.isPulse = true) := by decide +kernel

theorem test_run_scrub : ((after (.storedBitError 0 7) leased).slot 0).wrongBits = [7] ∧
    ((after (.storedBitError 0 7) State.reset).slot 0).wrongBits = [] ∧
    (after .scrubVisit (scrubbing [] leased)).integ.scrubPos = 1 ∧
    (after .scrubVisit (scrubbing [] leased)).integ.scrubDue = some 164 ∧
    ((after .scrubVisit (scrubbing [7] leased)).errors 0).corrected = 1 ∧
    ((after .scrubVisit (scrubbing [7] leased)).slot 0).wrongBits = [] ∧
    (after .scrubVisit (scrubbing [7, 8] leased)).entry 0 = none ∧
    ((after .scrubVisit (scrubbing [7, 8] leased)).port 0).queue = [.actionDone 0 7 0 .integrity 0 0] ∧
    (after .scrubVisit (scrubbing [7] hub)).integ.firstError = some ⟨0, .corrected, none, 100⟩ ∧
    (let t := after .scrubVisit scrubDrains;
      t.maint.mode = .direct ∧ (t.line 0).scheduled = .low ∧
        (t.port 0).queue = [.actionDone 0 7 0 .integrity 0 0, .directEntered] ∧ (t.port 1).queue = [.directEntered]) ∧
    (after .scrubVisit (beside scrubDrains)).maint.mode = .draining := by decide +kernel

theorem test_hyp_IntegrityReadAndClear : (sending (.integrityRead 0) hub).readyFor 0 0x66 [] ∧
    (sending (.integrityClear 0) loadingHub).loadingFor 0 0x67 [] ∧
    (sending (.integrityClear 0) hub).readyFor 0 0x67 [] ∧ hub.integ.firstError = none ∧
    (after .scrubVisit (scrubbing [7] hub)).integ.firstError = some ⟨0, .corrected, none, 100⟩ ∧
    (hub.claim resMX).holder ≠ some 0 ∧ (maintaining.claim resMX).holder = some 0 :=
  ⟨ready_sending rfl rfl, loading_sending rfl rfl, ready_sending rfl rfl, by decide +kernel⟩

theorem test_run_integrity :
    answer (.integrityClear 0) hub = some [5] ∧ answer (.integrityClear 0) maintaining = some [1] ∧
    (answer (.integrityRead 0) (after .scrubVisit (scrubbing [7] hub))) =
      some [1, 0, 0, 16, 0, 0, 0, 16, 0, 0, 0, 16, 0, 0, 0, 16, 0, 1, 1, 0, 1, 0xFF, 0, 0, 0,
        100] := by decide +kernel

theorem test_hyp_SoftReset : (sending (.softReset 0) maintaining).readyFor 0 0x68 [] ∧
    (hub.claim resMX).holder ≠ some 0 ∧ (maintaining.claim resMX).holder = some 0 ∧ (profiled.line 0).park = .input ∧
    ((after (.loading 7) (after .pinReset profiled)).line 0).park = .off ∧ (maintaining.line 0).mode ≠ .off ∧
    (maintaining.line 0).filterLen = maintaining.loaded.filter[0] ∧ (maintaining.line 1).mode = .off ∧
    (maintaining.setLine 0 { maintaining.line 0 with filterLen := 9 }).loaded.filter[0] ≠ 9 ∧
    maintaining.held.getLsbD 1 = false ∧ ({ maintaining with held := 2 } : State).held.getLsbD 1 = true ∧
    ((done (.takeNotices 0 1) (queued 1)).port 0).frame = .response [1, 1] 1 ∧
    ((after (.frameStart 1) maintaining).port 1).frame = .code 0x80 :=
  ⟨ready_sending rfl rfl, by decide +kernel⟩

theorem test_run_softReset :
    answer (.softReset 0) hub = some [5] ∧ answer (.softReset 0) (held 0 17 leased) = some [1] ∧
    (done (.softReset 0) (held 0 17 leased)).entry 0 = none ∧
    ((done (.softReset 0) (held 0 17 leased)).line 0).mode = .input ∧
    ((done (.softReset 0) (held 0 17 leased)).port 3).queue = [.reset .soft] ∧
    ((after (.softReset 0) (after (.frameStart 1) (sending (.softReset 0) maintaining))).port 1).frame = .code 0x80 ∧
    ((after (.softReset 0) (after (.frameStart 1) (sending (.softReset 0) maintaining))).port 1).selected = true := by
  decide +kernel

/-- With MX held in RUN and while DRAINING, with a check of the port running, with the last pulse in progress among the
port's own and with another beside it, and with nothing held. -/
theorem test_hyp_PortReset : (sending (.portReset 0) leased).readyFor 0 0x90 [] ∧ leased.entriesLawful ∧
    (beside (draining 120 200)).drainsOn
      (fun h => h.owner = 0 ∧ ((draining 120 200).claim (lineRes h.line)).holder = some 0) ∧
    ¬ (draining 120 200).drainsOn
      (fun h => h.owner = 0 ∧ ((draining 120 200).claim (lineRes h.line)).holder = some 0) ∧
    leased.modeLawful ∧ maintaining.modeLawful ∧ checkingNow.modeLawful ∧ (draining 120 200).modeLawful ∧
    leased.maint.mode = .run ∧ (leased.claim (lineRes 0)).holder = some 0 ∧ (leased.claim (lineRes 1)).holder ≠ some 0 ∧
    (leased.line 0).mode ≠ .test ∧ (∀ r, (hub.claim r).holder ≠ some 0) ∧ (leased.claim resMX).holder ≠ some 0 ∧
    (maintaining.claim resMX).holder = some 0 ∧ maintaining.maint.mode = .run ∧ maintaining.maint.check = .idle ∧
    ((draining 120 200).claim resMX).holder = some 0 ∧ (draining 120 200).maint.mode ≠ .run ∧
    checkingNow.maint.check = .running (progress 0 .w1 .undecided .undecided 101) ∧
    (checkingNow.claim resMX).holder = some 0 ∧ (checkingNow.claim (lineRes 1)).holder ≠ some 0 ∧
    (checkingNow.claim (lineRes 2)).holder = some 0 ∧ (checkingNow.line 2).saved = some (.off, .low) ∧
    (∀ q, q ≠ (17 : ResourceId) → ((draining 120 200).claim q).holder = some 0 → q = lineRes 0) ∧
    (draining 120 200).entry 3 = some (header (pulseTo 120)) := by
  unfold State.modeLawful
  refine ⟨ready_sending rfl rfl, leased_lawful,
    fun _ => ⟨4, { header (pulseTo 120) with owner := 1, line := 1 }, by decide +kernel⟩, fun h => ?_,
    by decide +kernel⟩
  obtain ⟨j, k, hk, hn, -⟩ := h (by decide +kernel)
  exact hn ((by decide +kernel : ∀ j, ∀ k ∈ (draining 120 200).entry j,
    k.owner = 0 ∧ ((draining 120 200).claim (lineRes k.line)).holder = some 0) j k hk)

theorem test_run_portReset : answer (.portReset 0) leased = some [1] ∧ (done (.portReset 0) leased).entry 0 = none ∧
    ((done (.portReset 0) leased).line 0).mode = .input ∧
    ((done (.portReset 0) leased).claim 0).holder = some 1 ∧
    ((done (.portReset 0) leased).port 0).queue = [.reset .port] ∧
    ((done (.portReset 0) leased).port 1).queue = [.claim 0 .granted] ∧
    ((done (.portReset 2) waited).claim 17).waiters = [] ∧
    (let t := done (.portReset 0) checkingNow;
      t.maint.check = .finished ⟨.aborted, 0, 0, none⟩ ∧ (t.line 2).mode = .input ∧ (t.port 0).queue = [.reset .port]) ∧
    ((done (.portReset 0) { checkingNow with held := 4, level := 4 }).filter 2).filtered = .high ∧
    (let t := done (.portReset 0) (draining 120 200);
      t.maint.mode = .run ∧ (t.line 0).scheduled = .low ∧ (t.port 1).queue = [.directEntered, .directExited .mxLost] ∧
        (t.port 0).queue = [.reset .port]) := by decide +kernel

/-! ## The tie link -/

/-- P0 holds TB and the link is LOCKED as leader. -/
def leading : State := linked .locked (some .leader) timed

/-- The link is LOCKED as follower. -/
def following : State := linked .locked (some .follower) (sourced .follower hub)

theorem test_hyp_LinkStatusAndRetrain : (sending (.linkStatus 0) leading).readyFor 0 0x70 [] ∧
    (sending (.linkRetrain 0) leading).readyFor 0 0x71 [] ∧ (leading.claim resTB).holder = some 0 ∧
    (hub.claim resTB).holder ≠ some 0 ∧ (linked .off none timed).link.state = .off ∧ leading.link.state = .locked :=
  ⟨ready_sending rfl rfl, ready_sending rfl rfl, by decide +kernel⟩

theorem test_run_link : answer (.linkStatus 0) leading = some [1, 4, 1, 5, 0, 0, 0, 0, 0, 0, 0, 0, 0] ∧
    answer (.linkRetrain 0) hub = some [5] ∧ answer (.linkRetrain 0) (linked .off none timed) = some [0x0B] ∧
    answer (.linkRetrain 0) leading = some [1] ∧ (done (.linkRetrain 0) leading).link.deadline = some 100100 ∧
    ((done (.linkRetrain 0) leading).port 2).queue = [.link .down] := by decide +kernel

/-- The link in a state with its deadline at a tick. -/
def dueAt (st : LinkState) (d : Nat) : State := withLink (fun l => { l with deadline := some d }) (linked st none hub)

theorem test_hyp_LinkTimers : (dueAt .down 100).link.state = .down ∧ (dueAt .down 100).link.deadline = some 100 ∧
    100 ≤ (dueAt .down 100).elapsed ∧ (dueAt .holdoff 101).elapsed < 101 ∧
    (withLink (fun l => { l with silence := some 100 }) leading).link.silence = some 100 ∧
    (withLink (fun l => { l with query := some ⟨0, 100⟩, missed := 2 }) following).link.query = some ⟨0, 100⟩ ∧
    following.link.state = .locked ∧ following.link.missed < 2 ∧ hub.link.query = none ∧ following.isRole .follower ∧
    (withLink (fun l => { l with nextQuery := some 100 }) following).link.nextQuery = some 100 ∧
    ¬ leading.isRole .follower := by
  unfold State.isRole; decide +kernel

theorem test_run_link_timers : (after .retrainDownEnd (dueAt .down 101)).link.state = .down ∧
    (after .retrainDownEnd (dueAt .down 100)).link.state = .probing ∧
    (after .holdoffEnd (dueAt .holdoff 100)).link.state = .probing ∧
    (after .aligningDeadline (dueAt .aligning 100)).link.deadline = some 100100 ∧
    (after .followerSilenceDeadline (withLink (fun l => { l with silence := some 100 }) leading)).link.state =
      .holdoff ∧
    (after .replyDeadline (withLink (fun l => { l with query := some ⟨0, 100⟩ }) following)).link.missed = 1 ∧
    (after .replyDeadline (withLink (fun l => { l with query := some ⟨0, 100⟩, missed := 2 }) following)).tb.source =
      .freeRun ∧
    (after .queryDue (withLink (fun l => { l with nextQuery := some 100 }) following)).link.queryDue = true := by
  decide +kernel

/-- A word slot begins now. -/
def atSlot (s : State) : State := withLink (fun l => { l with nextSlot := some 100 }) s

/-- A record that waits to be forwarded. -/
def waiting : Forward := ⟨3, .rise, 50, 0, false, false⟩

theorem test_hyp_WordSlots : hub.link.nextSlot = none ∧ (atSlot hub).link.nextSlot = some 100 ∧
    100 ≤ (atSlot hub).elapsed ∧ (linked .probing none hub).link.resolved = none ∧
    (withLink (fun l => { l with nextAbility := some 100 }) (linked .probing none hub)).link.nextAbility = some 100 ∧
    (linked .conflict none hub).link.state = .conflict ∧
    (withLink (fun l => { l with resolved := some (.leader,
      .r20) }) (linked .probing none hub)).link.resolved ≠ none ∧
    (withLink (fun l => { l with owed := some ⟨1, 2⟩ }) leading).link.owed = some ⟨1, 2⟩ ∧
    leading.link.state = .locked ∧ (linked .aligning (some .leader) hub).link.state = .aligning ∧
    (withLink (fun l => { l with queryDue := true }) following).link.queryDue = true ∧ following.link.owed = none ∧
    (withLink (fun l => { l with forward := [waiting] }) leading).link.forward = waiting :: [] := by decide +kernel

theorem test_run_word_slot : (after .wordSlot (atSlot leading)).link.wire = some .idle ∧
    (after .wordSlot (atSlot leading)).link.nextSlot = some 420 ∧
    (after .wordSlot (withLink (fun l => { l with rate := some .r20 }) (atSlot leading))).link.nextSlot = some 180 ∧
    (after .wordSlot (withLink (fun l => { l with owed := some ⟨1, 2⟩ }) (atSlot leading))).link.wire =
      some (.timeReply 1 2 0 0 false) ∧
    (after .wordSlot (withLink (fun l => { l with queryDue := true }) (atSlot following))).link.query =
      some ⟨0, 10100⟩ ∧
    (after .wordSlot (withLink (fun l => { l with forward := [waiting] }) (atSlot leading))).link.wire =
      some (.capture waiting) ∧
    (after .wordSlot (withLink (fun l => { l with nextAbility := some 100 }) (atSlot (linked .probing none
      hub)))).link.nextAbility =
      some 1100 ∧
    (after .finalAbilitySent (withLink (fun l => { l with resolved := some (.follower, .r20), finalEnd := some 100 })
      (linked .probing none hub))).link.rate = some .r20 := by decide +kernel

/-- The words that the peer sends: ABILITY with its role preference, TIME_QUERY, TIME_REPLY and CAPTURE. -/
def ability (pref : RolePref) (unit : Byte) (ack : Bool) : WireWord := wire (.ability pref unit 7 ack)

theorem test_hyp_AbilityReceived : (linked .probing none hub).hears (ability .leader 1 true) 0x11 ∧
    ¬ (linked .holdoff none hub).hears (ability .leader 1 true) 0x11 ∧
    (linked .probing none hub).loaded.rolePref = .either ∧ (linked .probing none hub).link.resolved = none ∧
    following.hears (ability .leader 1 true) 0x11 ∧ (linked .aligning none hub).hears (ability .leader 1 true) 0x11 ∧
    ((ability .leader 1 true).bytes.getD 4 0).getLsbD 0 = true ∧
    ((ability .leader 1 false).bytes.getD 4 0).getLsbD 0 = false := by
  unfold State.hears validAt; decide +kernel

/-- The resolution table, and what the word does in the other states. -/
theorem test_run_ability : (after (.abilityReceived (ability .leader 1 false)) (linked .probing none hub)).link.ack =
      true ∧
    (after (.abilityReceived (ability .leader 1 true)) (linked .probing none hub)).link.resolved =
      some (.follower, .r5) ∧
    (after (.abilityReceived (ability .either 1 true)) (linked .probing none hub)).link.resolved =
      some (.follower, .r5) ∧
    (after (.abilityReceived (ability .either 0 true)) (linked .probing none hub)).link.state = .conflict ∧
    (after (.abilityReceived (ability .either 1 false)) (linked .aligning none hub)).link.state = .holdoff ∧
    (after (.abilityReceived (ability .either 1 true)) following).link.state = .holdoff ∧
    (after (.abilityReceived ⟨.r10, (ability .either 1 true).bytes⟩) following).link.state = .locked := by
  decide +kernel

/-- An ARMED entry waits for a rise of the remote line 19. -/
def remoteArmed : State :=
  put 5 ⟨.toggle, .anchored 4 .once, .dropLate⟩ { header .armed with anchor := some ⟨19, .rise⟩ } leading

/-- With it a second one, of an earlier slot and a later post. -/
def remoteBoth : State :=
  put 2 ⟨.setHigh, .anchored 9 .once, .dropLate⟩ { header .armed with anchor := some ⟨19, .both⟩, postOrder := 1 }
    remoteArmed

theorem test_words_heard : leading.hears (wire (.timeQuery 5)) 0x12 ∧ following.hears (wire (.timeQuery 5)) 0x12 ∧
    leading.hears (wire .idle) 0x15 ∧ leading.hears (wire (.capture waiting)) 0x14 ∧
    (linked .probing none hub).hears (wire (.capture waiting)) 0x14 := by
  unfold State.hears validAt
  decide +kernel

theorem test_words_unheard : ¬ hub.hears (wire (.timeQuery 5)) 0x12 ∧ ¬ hub.hears (wire .idle) 0x15 ∧
    ¬ hub.hears (wire (.capture waiting)) 0x14 ∧ leading.isRole .leader ∧ ¬ following.isRole .leader := by
  unfold State.hears State.isRole validAt
  decide +kernel

theorem test_hyp_QueryCaptureIdleReceived : leading.hears (wire (.timeQuery 5)) 0x12 ∧ leading.isRole .leader ∧
    following.hears (wire (.timeQuery 5)) 0x12 ∧ ¬ following.isRole .leader ∧ ¬ hub.hears (wire (.timeQuery 5)) 0x12 ∧
    leading.hears (wire .idle) 0x15 ∧ ¬ hub.hears (wire .idle) 0x15 ∧ remoteArmed.hears (wire (.capture waiting)) 0x14 ∧
    ¬ hub.hears (wire (.capture waiting)) 0x14 ∧ (linked .probing none hub).hears (wire (.capture waiting)) 0x14 ∧
    ((wire (.capture waiting)).bytes.getD 1 0).toNat = 3 ∧ (wire (.capture waiting)).bytes.getD 2 0 = 1 ∧
    (∀ i, leading.entry i = none) ∧ remoteBoth.postOrdered (fun h => h.awaits 19 .rise = true) [5, 2] ∧
    remoteBoth.readableAt [5, 2] ∧ (spoilt 5 [7, 8] remoteBoth).readableAt [5, 2] ∧
    remoteBoth.drainsOn (fun _ => False) ∧ remoteBoth.hears (wire (.capture waiting)) 0x14 := by
  obtain ⟨query, other, idle, capture, early⟩ := test_words_heard
  obtain ⟨noQuery, noIdle, noCapture, leads, follows⟩ := test_words_unheard
  refine ⟨query, leads, other, follows, noQuery, idle, noIdle, capture, noCapture, early, by decide +kernel,
    by decide +kernel, by decide +kernel,
    postOrdered_of (fun h => h.awaits 19 .rise) (by simp) (by decide +kernel) (by decide +kernel), ?_, ?_,
    fun h => absurd h (by decide +kernel), capture⟩
  all_goals unfold State.readableAt; decide +kernel

theorem test_run_received : (after (.timeQueryReceived (wire (.timeQuery 5))) leading).link.owed = some ⟨5, 0⟩ ∧
    (after (.timeQueryReceived (wire (.timeQuery 5))) leading).link.silence = some 30100 ∧
    (after (.idleWordReceived (wire .idle)) leading).link.silence = some 30100 ∧
    ((after (.captureWordReceived (wire (.capture waiting)))
      { leading with subs := leading.subs.set 1 (Vector.replicate 32 .both) }).port 1).queue =
      [.capture 19 .rise 50 0 false false true 0] ∧
    (after (.captureWordReceived (wire (.capture waiting))) remoteArmed).entry 5 =
      some { header (.pending 54) with anchor := some ⟨19, .rise⟩ } ∧
    (after (.captureWordReceived (wire (.capture waiting))) remoteBoth).entry 2 =
      some { header (.pending 59) with anchor := some ⟨19, .both⟩, postOrder := 1 } := by decide +kernel

/-- The follower has asked at count 0, and the leader's reply says L1 = L2 = `l`. -/
def asked (st : LinkState) : State :=
  withLink (fun l => { l with query := some ⟨0, 10000⟩ }) (linked st (some .follower) hub)

/-- A TIME_REPLY to the query of count `c1`. -/
def timeReply (c1 l : Count) (epoch : Byte) (halted : Bool) : WireWord := wire (.timeReply c1 l l epoch halted)

/-- The same with an entry PENDING, due at 9. -/
def askedDue (st : LinkState) : State := put 2 (body .setHigh) (header (.pending 9)) (asked st)

theorem test_hyp_TimeReplyReceived :
    (asked .locked).hears (timeReply 0 8 0 false) 0x13 ∧ (asked .locked).isRole .follower ∧
    (asked .locked).link.query = some ⟨0, 10000⟩ ∧ ¬ hub.hears (timeReply 0 8 0 false) 0x13 ∧
    (asked .aligning).hears (timeReply 0 8 0 false) 0x13 ∧ (asked .aligning).link.state = .aligning ∧
    (asked .aligning).dueOrdered (fun _ => True) [] ∧ (askedDue .locked).dueOrdered (fun _ => True) [2] ∧
    (askedDue .locked).readableAt [2] ∧ (askedDue .locked).drainsOn (fun _ => False) ∧
    (askedDue .locked).hears (timeReply 0 9 0 false) 0x13 ∧ (askedDue .locked).isRole .follower ∧
    (askedDue .locked).link.query = some ⟨0, 10000⟩ := by
  refine ⟨?_, ?_, ?_, ?_, ?_, ?_, dueOrdered_of (fun _ => true) (by simp) (by simp) (by decide +kernel),
    dueOrdered_of (fun _ => true) (by simp) (by simp) (by decide +kernel), ?_, fun h => absurd h (by decide +kernel), ?_, ?_,
    ?_⟩
  all_goals first | decide +kernel | (unfold State.readableAt; decide +kernel) |
    (unfold State.hears validAt; decide +kernel) | (unfold State.isRole; decide +kernel)

/-- A distance of 8 asks for a slew, 9 or another epoch for a step; a reply to another query is not taken. -/
theorem test_run_timeReply : (after (.timeReplyReceived (timeReply 0 8 0 false)) (asked .locked)).tb =
      ⟨0, .running, 0, .localTime, some .double⟩ ∧
    (after (.timeReplyReceived (timeReply 0 9 0 false)) (asked .locked)).tb = ⟨9, .running, 0, .localTime, none⟩ ∧
    (after (.timeReplyReceived (timeReply 0 8 4 true)) (asked .locked)).tb = ⟨8, .halted, 4, .localTime, none⟩ ∧
    (after (.timeReplyReceived (timeReply 0 (BitVec.ofInt 40 (-8)) 0 false)) (asked .locked)).tb.slew = some .held ∧
    (after (.timeReplyReceived (timeReply 1 9 0 false)) (asked .locked)).tb.count = 0 ∧
    (after (.timeReplyReceived (timeReply 0 9 0 false)) (asked .aligning)).link.state = .locked ∧
    (after (.timeReplyReceived (timeReply 0 9 0 false)) (asked .aligning)).tb.source = .follower ∧
    ((after (.timeReplyReceived (timeReply 0 9 0 false)) (askedDue .locked)).port 0).queue =
      [.timebase .alignStep 0 9, .actionDone 2 7 0 .applied 0 0] ∧
    ((after (.timeReplyReceived (timeReply 0 9 0 false)) (askedDue .aligning)).port 0).queue =
      [.timebase .alignStep 0 9, .actionDone 2 7 0 .applied 0 0, .link .locked] := by decide +kernel

/-! ## The profile store -/

/-- P0 holds MX, and slot 1 holds the image. -/
def storing : State := held 0 17 profiled

/-- The store is busy. -/
def busyStore : State := { storing with storeBusy := some ⟨100, []⟩ }

theorem test_hyp_ProfileStoreCommands : storing.storeLawful ∧
    (sending (.profileRead 0 2 63 1) storing).readyFor 0 0x80 [2, 63, 1] ∧
    (sending (.profileWrite 0 2 0x3B 1) storing).readyFor 0 0x81 [2, 0x3B, 1] ∧
    (sending (.profileSeal 0 2) storing).readyFor 0 0x82 [2] ∧
    (sending (.profileRetire 0 2) storing).readyFor 0 0x83 [2] ∧ (storing.claim resMX).holder = some 0 ∧
    (profiled.claim resMX).holder ≠ some 0 ∧ storing.storeBusy = none ∧ busyStore.storeBusy ≠ none ∧
    storing.storeByte 1 0x3E = 0x5A ∧ storing.storeByte 0 0x3E ≠ 0x5A ∧ storing.storeByte 1 0x3F ≠ 0xC3 ∧
    busyStore.storeBusy = some ⟨100, []⟩ := by
  refine ⟨⟨by decide +kernel, fun b h => ?_⟩, ready_sending rfl rfl, ready_sending rfl rfl, ready_sending rfl rfl,
    ready_sending rfl rfl, by decide +kernel⟩
  rw [show storing.storeBusy = none from rfl] at h
  exact absurd h (by simp)

theorem test_run_profile : answer (.profileRead 0 3 0 1) storing = some [8] ∧
    answer (.profileRead 0 2 64 1) storing = some [8] ∧ answer (.profileRead 0 2 0 0) storing = some [8] ∧
    answer (.profileRead 0 2 0 17) storing = some [8] ∧ answer (.profileRead 0 2 63 2) storing = some [8] ∧
    answer (.profileRead 0 2 63 1) storing = some [1, 0] ∧ answer (.profileRead 0 1 0 1) storing = some [1, 0xA5] ∧
    answer (.profileRead 0 1 0 1) busyStore = some [4] ∧ answer (.profileWrite 0 0 0x3C 1) storing = some [8] ∧
    answer (.profileWrite 0 0 0x3B 1) profiled = some [5] ∧ answer (.profileWrite 0 0 0x3B 1) busyStore = some [4] ∧
    answer (.profileWrite 0 1 0x3B 1) storing = some [0x0B] ∧ answer (.profileWrite 0 0 0x3B 1) storing = some [1] ∧
    answer (.profileSeal 0 3) storing = some [8] ∧ answer (.profileSeal 0 1) storing = some [3] ∧
    answer (.profileSeal 0 2) storing = some [1] ∧ answer (.profileRetire 0 1) storing = some [1] ∧
    (done (.profileRetire 0 1) storing).storeByte 1 0x3F = 0xC3 ∧
    (after .profileBusyEnd busyStore).storeBusy = none ∧
    (after .profileBusyEnd { busyStore with elapsed := 99 }).storeBusy = some ⟨100, []⟩ := by decide +kernel

/-! ## Rows of the frame, by a step from the queue -/

/-- A frame that brings a RENEW: the select falls, the code and then the parameter come, and the select rises. -/
theorem test_run_frame : (after (.frameStart 0) hub).port 0 =
      { hub.port 0 with selected := true, frame := .code 0x80 } ∧
    ((after (.parameterByteGathered 0 0x12) (after (.frameStart 0) hub)).port 0).frame = .parameters 0x12 [] ∧
    ((after (.renew 0 17) (after (.parameterByteGathered 0 0x12) (after (.frameStart 0) hub))).port 0).frame =
      .response [5] 0 ∧
    ((after (.unknownCommand 0 0xFF) (after (.frameStart 0) hub)).port 0).frame = .ignore ∧
    ((after (.frameEnd 0 true) (after (.frameStart 0) hub)).port 0).frameLatch = true ∧
    ((after (.frameStart 0) State.reset).port 0).frame = .idle ∧
    (after (.frameEnd 0 true) (after (.frameStart 0) State.reset)).port 0 = State.reset.port 0 ∧
    ((after (.frameEnd 0 false) (after (.frameStart 0) hub)).port 0).frameLatch = false := by decide +kernel

/-- A wait ends at its deadline, and not before. -/
theorem test_run_waitDeadline :
    ((after (.waitDeadline 17) { waited with elapsed := 199 }).claim 17).waiters.length = 1 ∧
    ((after (.waitDeadline 17) { waited with elapsed := 200 }).claim 17).waiters = [] := by decide +kernel

/-! ## Invariants -/

theorem test_hyp_EveryStepKeepsQueueLaw : (queued 0).queuesLawful ∧ ∃ t, step (queued 0) = .next t := by
  refine ⟨?_, _, rfl⟩
  intro p
  unfold Port.lawful
  exact (by decide +kernel : ∀ p, ((queued 0).port p).queue.length ≤ 40 ∧
    (((queued 0).port p).queue.filter Record.isCapture).length ≤ 32) p

theorem test_hyp_EveryStepKeepsClaimLaw : waited.claimsLawful ∧ ∃ t, step waited = .next t := by
  refine ⟨?_, _, rfl⟩
  unfold State.claimsLawful ClaimRec.lawful; decide +kernel

theorem test_hyp_EveryStepKeepsModeLaw : (draining 120 200).modeLawful ∧ ∃ t, step (draining 120 200) = .next t := by
  refine ⟨?_, _, rfl⟩
  unfold State.modeLawful; decide +kernel

theorem test_hyp_EveryStepKeepsEntryLaw : leased.entriesLawful ∧ ∃ t, step leased = .next t :=
  ⟨leased_lawful, _, rfl⟩

theorem test_hyp_EveryStepKeepsStoreForm : storing.storeLawful ∧ ∃ t, step storing = .next t :=
  ⟨test_hyp_ProfileStoreCommands.1, _, rfl⟩

end Sys2Proof.Tests
end

section
/-! PROOFS. CLAIM and RENEW, case by case (R18, R19, R21): what a body answers in each of its cases, and from that what
the command leaves behind. -/

namespace Sys2Proof.Machine

/-! ## The resource byte and the lease -/

theorem readResource_none {b : Byte} (h : 17 < b.toNat) : readResource b = none := dif_neg (by omega)

theorem readResource_some {b : Byte} {r : ResourceId} (h : r.val = b.toNat) : readResource b = some r := by
  have hb : b.toNat < 18 := h ▸ r.isLt
  have hr : (⟨b.toNat, hb⟩ : ResourceId) = r := Fin.ext h.symm
  rw [readResource, dif_pos hb, hr]

/-- ALL is no resource number. -/
theorem ne_all_of_resource {b : Byte} {r : ResourceId} (h : r.val = b.toNat) : b ≠ 0xFF := by
  rintro rfl
  have : (0xFF : Byte).toNat = 255 := rfl
  omega

theorem leaseEnd_eq_leaseFrom (now : Nat) (ms : BitVec 16) : leaseEnd now ms = leaseFrom now ms := rfl

/-- A record whose lease restarts, by its length: without a lease it stands (R21). -/
theorem ClaimRec.renew_eq (c : ClaimRec) (now : Nat) :
    c.renew now = if c.leaseMs = 0 then c else { c with expiry := some (now + c.leaseMs.toNat * 10000) } := by
  unfold ClaimRec.renew
  split
  · rfl
  · rename_i h
    simp only [leaseEnd, if_neg h, msTicks]

/-! ## A body's answer as the command's answer -/

/-- A command of a READY hub whose body answers a result code alone. -/
theorem take_answers {s t : State} {p : PortId} {code : Byte} {params : List Byte} {body : State → State × Reply}
    {c : ResultCode} (h : s.readyFor p code params) (hb : body s = (t, reply c)) :
    s.take p code params body = t.answered p [c.code] := by
  rw [take_of_readyFor h, hb, respond_reply]

/-! ## CLAIM -/

section
variable {p h : PortId} {resource : Byte} {waitMs leaseMs : BitVec 16} {s : State} {r : ResourceId}

theorem claimBody_outOfRange (hr : readResource resource = none) :
    claimBody p resource waitMs leaseMs s = (s, reply .badParam) := by
  simp only [claimBody, hr]

theorem claimBody_free (hr : readResource resource = some r) (hh : (s.claim r).holder = none) :
    claimBody p resource waitMs leaseMs s =
      (s.setClaim r ⟨some p, leaseMs, leaseFrom s.elapsed leaseMs, (s.claim r).waiters⟩, reply .ok) := by
  simp only [claimBody, hr, hh, leaseEnd_eq_leaseFrom]

theorem claimBody_holder (hr : readResource resource = some r) (hh : (s.claim r).holder = some p) :
    claimBody p resource waitMs leaseMs s = (s, reply .already) := by
  simp only [claimBody, hr, hh, if_true]

variable (hr : readResource resource = some r) (hh : (s.claim r).holder = some h) (hp : h ≠ p)
include hr hh hp

theorem claimBody_waiter (hw : ∃ w ∈ (s.claim r).waiters, w.port = p) :
    claimBody p resource waitMs leaseMs s = (s, reply .already) := by
  have yes : (s.claim r).waiters.any (fun w => w.port == p) = true := by simpa using hw
  simp only [claimBody, hr, hh, if_neg hp, if_pos yes]

variable (hw : ∀ w ∈ (s.claim r).waiters, w.port ≠ p)
include hw

theorem claimBody_busy (h0 : waitMs = 0) : claimBody p resource waitMs leaseMs s = (s, reply .busy) := by
  have no : ¬ (s.claim r).waiters.any (fun w => w.port == p) = true := by simpa using hw
  simp only [claimBody, hr, hh, if_neg hp, if_neg no, if_pos h0]

/-- A port joins the waiters; the first to do so makes the holder be asked (R18, R19). -/
theorem claimBody_joins (h0 : waitMs ≠ 0) :
    claimBody p resource waitMs leaseMs s =
      (let t := s.setClaim r { s.claim r with
        waiters := (s.claim r).waiters ++ [⟨p, s.elapsed + waitMs.toNat * 10000, leaseMs⟩] }
      if (s.claim r).waiters = [] then t.offer h (.claim r .wanted) else t, reply .accepted) := by
  have no : ¬ (s.claim r).waiters.any (fun w => w.port == p) = true := by simpa using hw
  simp only [claimBody, hr, hh, if_neg hp, if_neg no, if_neg h0, List.isEmpty_iff, msTicks]

end

/-- Settles O14: the case split of R18, each case by its equation for the body. -/
theorem claimOutcomes : Obligations.ClaimOutcomes := by
  intro p resource waitMs leaseMs s params run
  refine ⟨fun hl => congrArg Host.Outcome.next (take_of_loadingFor hl), fun hs => ⟨fun hb => ?_, fun r hr => ?_⟩⟩
  · exact congrArg Host.Outcome.next (take_answers hs (claimBody_outOfRange (readResource_none hb)))
  have hr := readResource_some hr
  refine ⟨fun free => ?_, fun own => ?_, fun h hh hp => ⟨fun waits => ?_, fun new => ⟨fun h0 => ?_, fun h0 => ?_⟩⟩⟩
  · exact congrArg Host.Outcome.next (take_answers hs (claimBody_free hr free))
  · exact congrArg Host.Outcome.next (take_answers hs (claimBody_holder hr own))
  · exact congrArg Host.Outcome.next (take_answers hs (claimBody_waiter hr hh hp waits))
  · exact congrArg Host.Outcome.next (take_answers hs (claimBody_busy hr hh hp new h0))
  · have joins := claimBody_joins (leaseMs := leaseMs) hr hh hp new h0
    refine ⟨fun first => ?_, fun later => ?_⟩
    · exact congrArg Host.Outcome.next (take_answers hs (joins.trans (by rw [if_pos first])))
    · exact congrArg Host.Outcome.next (take_answers hs (joins.trans (by rw [if_neg later])))

/-! ## RENEW -/

section
variable {p : PortId} {resource : Byte} {s : State} {r : ResourceId}

theorem renewBody_all : renewBody p 0xFF s = (s.renewAll p, reply .ok) := if_pos rfl

theorem renewBody_outOfRange (ha : resource ≠ 0xFF) (hr : readResource resource = none) :
    renewBody p resource s = (s, reply .badParam) := by
  simp only [renewBody, if_neg ha, hr]

theorem renewBody_holder (ha : resource ≠ 0xFF) (hr : readResource resource = some r)
    (hh : (s.claim r).holder = some p) :
    renewBody p resource s = (s.setClaim r ((s.claim r).renew s.elapsed), reply .ok) := by
  simp only [renewBody, if_neg ha, hr, (holds_iff s p r).2 hh, if_true]

theorem renewBody_notHolder (ha : resource ≠ 0xFF) (hr : readResource resource = some r)
    (hh : (s.claim r).holder ≠ some p) : renewBody p resource s = (s, reply .notHolder) := by
  have no : ¬ s.holds p r = true := fun k => hh ((holds_iff s p r).1 k)
  simp only [renewBody, if_neg ha, hr, if_neg no]

end

/-- ALL renews exactly the records that the port holds (R21). -/
theorem renewAll_claim (s : State) (p : PortId) (r : ResourceId) :
    (s.renewAll p).claim r = if (s.claim r).holder = some p then (s.claim r).renew s.elapsed else s.claim r :=
  Vector.getElem_map ..

/-- Settles O17: one resource by the equations of the body, ALL record by record. -/
theorem renewOutcomes : Obligations.RenewOutcomes := by
  intro p resource s run renewed
  have renew_eq (c : ClaimRec) : c.renew s.elapsed = renewed c := c.renew_eq s.elapsed
  refine ⟨fun hl => congrArg Host.Outcome.next (take_of_loadingFor hl), fun hs => ⟨fun hb ha => ?_, fun r hr => ?_, ?_⟩⟩
  · exact congrArg Host.Outcome.next (take_answers hs (renewBody_outOfRange ha (readResource_none hb)))
  · have ha := ne_all_of_resource hr
    have hr := readResource_some hr
    refine ⟨fun own => ?_, fun no => ?_⟩
    · rw [← renew_eq]
      exact congrArg Host.Outcome.next (take_answers hs (renewBody_holder ha hr own))
    · exact congrArg Host.Outcome.next (take_answers hs (renewBody_notHolder ha hr no))
  · rintro rfl
    refine ⟨s.renewAll p, congrArg Host.Outcome.next (take_answers hs renewBody_all), rfl, fun r => ?_⟩
    rw [renewAll_claim, renew_eq]

end Sys2Proof.Machine
end

section
/-! PROOFS. The laws of the claim table as an invariant of every step (R16). First what keeps the law of one record, then
the operations of the claim table; every other command leaves the table as it is. -/

namespace Sys2Proof.Machine

/-! ## The law of one record -/

theorem ClaimRec.lawful_of_no_waiters {c : ClaimRec} (h : c.waiters = []) : c.lawful := by
  unfold ClaimRec.lawful
  simp [h]

/-- Waiters that leave, under the same holder, break no law. -/
theorem ClaimRec.lawful_of_sublist {c d : ClaimRec} (h : c.lawful) (hh : d.holder = c.holder)
    (hw : d.waiters.Sublist c.waiters) : d.lawful := by
  obtain ⟨distinct, notHolder, free⟩ := h
  refine ⟨distinct.sublist (hw.map _), fun w hm => ?_, fun hn => ?_⟩
  · rw [hh]
    exact notHolder w (hw.subset hm)
  · have none_wait := free (hh ▸ hn)
    rw [none_wait] at hw
    exact List.sublist_nil.1 hw

/-- A port that is neither the holder nor a waiter joins the waiters of a held resource. -/
theorem ClaimRec.lawful_join {c : ClaimRec} {h : PortId} {w : Waiter} (hc : c.lawful) (hh : c.holder = some h)
    (hp : h ≠ w.port) (new : ∀ v ∈ c.waiters, v.port ≠ w.port) :
    ({ c with waiters := c.waiters ++ [w] } : ClaimRec).lawful := by
  obtain ⟨distinct, notHolder, -⟩ := hc
  refine ⟨?_, fun v hv => ?_, fun hn => ?_⟩
  · simpa [List.nodup_append, distinct] using new
  · rcases List.mem_append.1 hv with old | last
    · exact notHolder v old
    · rw [List.mem_singleton.1 last]
      simpa [hh] using hp
  · simp [hh] at hn

/-- The head waiter becomes the holder, and is no longer among the waiters; with no waiter the record is free. -/
theorem ClaimRec.lawful_passed {c : ClaimRec} (hc : c.lawful) (now : Nat) : (c.passed now).lawful := by
  obtain ⟨distinct, -, -⟩ := hc
  unfold ClaimRec.passed
  cases hw : c.waiters with
  | nil => exact lawful_of_no_waiters rfl
  | cons w rest =>
    rw [hw, List.map_cons, List.nodup_cons] at distinct
    obtain ⟨head, tail⟩ := distinct
    refine ⟨tail, fun v hv e => head ?_, fun hn => nomatch hn⟩
    exact Option.some.inj e ▸ List.mem_map_of_mem hv

theorem ClaimRec.lawful_renew {c : ClaimRec} (hc : c.lawful) (now : Nat) : (c.renew now).lawful := by
  unfold ClaimRec.renew
  split
  · exact hc
  · exact lawful_of_sublist hc rfl (.refl _)

/-! ## The law of the table -/

theorem claimsLawful_congr {s t : State} (hs : s.claimsLawful) (h : t.claims = s.claims) : t.claimsLawful := by
  intro r
  unfold State.claim
  rw [h]
  exact hs r

theorem setClaim_claimsLawful {s : State} (hs : s.claimsLawful) (r : ResourceId) {x : ClaimRec} (hx : x.lawful) :
    (s.setClaim r x).claimsLawful := by
  intro q
  rw [setClaim_claim]
  split
  · exact hx
  · exact hs q

theorem offer_claimsLawful {s : State} (hs : s.claimsLawful) (p : PortId) (x : Record) :
    (s.offer p x).claimsLawful := claimsLawful_congr hs rfl

/-- A change of every record, each by the same rule. -/
theorem mapClaims_claimsLawful {s t : State} {f : ClaimRec → ClaimRec} (hs : s.claimsLawful)
    (ht : t.claims = s.claims.map f) (hf : ∀ c : ClaimRec, c.lawful → (f c).lawful) : t.claimsLawful := by
  intro r
  have : t.claim r = f (s.claim r) := by simp [State.claim, ht]
  rw [this]
  exact hf _ (hs r)

theorem freeClaims_claimsLawful {s : State} (h : s.claims = Vector.replicate 18 ClaimRec.free) : s.claimsLawful := by
  intro r
  have : s.claim r = ClaimRec.free := by simp [State.claim, h]
  rw [this]
  exact ClaimRec.lawful_of_no_waiters rfl

/-! ## The operations of the claim table -/

theorem endClaim_claimsLawful {s : State} (hs : s.claimsLawful) (r : ResourceId) (c : EndCause) :
    (s.endClaim r c).claimsLawful := by
  cases hh : (s.claim r).holder with
  | none => rwa [endClaim_free hh]
  | some p =>
    intro q
    rw [endClaim_claim hh]
    split
    · exact ClaimRec.lawful_passed (hs r) _
    · exact hs q

theorem claimBody_claimsLawful {s : State} (hs : s.claimsLawful) (p : PortId) (resource : Byte)
    (waitMs leaseMs : BitVec 16) : (claimBody p resource waitMs leaseMs s).1.claimsLawful := by
  cases hr : readResource resource with
  | none => rwa [claimBody_outOfRange hr]
  | some r =>
    cases hh : (s.claim r).holder with
    | none =>
      rw [claimBody_free hr hh]
      obtain ⟨-, -, free⟩ := hs r
      exact setClaim_claimsLawful hs r (ClaimRec.lawful_of_no_waiters (free hh))
    | some h =>
      by_cases hp : h = p
      · rwa [claimBody_holder hr (hp ▸ hh)]
      by_cases hw : ∃ w ∈ (s.claim r).waiters, w.port = p
      · rwa [claimBody_waiter hr hh hp hw]
      have new : ∀ w ∈ (s.claim r).waiters, w.port ≠ p := fun w hm e => hw ⟨w, hm, e⟩
      by_cases h0 : waitMs = 0
      · rwa [claimBody_busy hr hh hp new h0]
      rw [claimBody_joins hr hh hp new h0]
      have joined := setClaim_claimsLawful hs r
        (ClaimRec.lawful_join (w := ⟨p, s.elapsed + waitMs.toNat * 10000, leaseMs⟩) (hs r) hh hp new)
      dsimp only
      split
      · exact offer_claimsLawful joined _ _
      · exact joined

theorem releaseBody_claimsLawful {s : State} (hs : s.claimsLawful) (p : PortId) (resource : Byte) :
    (releaseBody p resource s).1.claimsLawful := by
  unfold releaseBody
  split
  · exact hs
  · dsimp only
    split
    · exact endClaim_claimsLawful hs _ _
    · split
      · exact setClaim_claimsLawful hs _ (ClaimRec.lawful_of_sublist (hs _) rfl List.filter_sublist)
      · exact hs

theorem renewBody_claimsLawful {s : State} (hs : s.claimsLawful) (p : PortId) (resource : Byte) :
    (renewBody p resource s).1.claimsLawful := by
  by_cases ha : resource = 0xFF
  · rw [ha, renewBody_all]
    refine mapClaims_claimsLawful hs rfl fun c hc => ?_
    split
    · exact ClaimRec.lawful_renew hc _
    · exact hc
  cases hr : readResource resource with
  | none => rwa [renewBody_outOfRange ha hr]
  | some r =>
    by_cases hh : (s.claim r).holder = some p
    · rw [renewBody_holder ha hr hh]
      exact setClaim_claimsLawful hs r (ClaimRec.lawful_renew (hs r) _)
    · rwa [renewBody_notHolder ha hr hh]

theorem expireLease_claimsLawful {s : State} (hs : s.claimsLawful) (r : ResourceId) :
    (s.expireLease r).claimsLawful := by
  unfold State.expireLease
  split
  · exact endClaim_claimsLawful hs _ _
  · exact hs

/-- Who is left when a wait has timed out stood in the list before, in the same order (R24). -/
theorem timeOut_sublist {now : Nat} {l rest : List Waiter} {w : Waiter} (h : timeOut now l = some (w, rest)) :
    rest.Sublist l := by
  induction l generalizing rest with
  | nil => cases h
  | cons v t ih =>
    unfold timeOut at h
    split at h
    · cases h
      exact List.sublist_cons_self _ _
    · obtain ⟨⟨u, left⟩, ht, e⟩ := Option.map_eq_some_iff.1 h
      cases e
      exact (ih ht).cons_cons v

theorem expireWait_claimsLawful {s : State} (hs : s.claimsLawful) (r : ResourceId) :
    (s.expireWait r).claimsLawful := by
  unfold State.expireWait
  split
  · exact hs
  · rename_i w rest h
    have left := ClaimRec.lawful_of_sublist (d := { s.claim r with waiters := rest }) (hs r) rfl (timeOut_sublist h)
    exact offer_claimsLawful (setClaim_claimsLawful hs r left) _ _

theorem dropWaits_claimsLawful {s : State} (hs : s.claimsLawful) (p : PortId) : (s.dropWaits p).claimsLawful :=
  mapClaims_claimsLawful hs rfl fun _ hc => ClaimRec.lawful_of_sublist hc rfl List.filter_sublist

theorem dropClaims_claimsLawful {s : State} (hs : s.claimsLawful) (p : PortId) : (s.dropClaims p).claimsLawful := by
  refine List.foldlRecOn allResources _ (dropWaits_claimsLawful hs p) fun t ht r _ => ?_
  split
  · exact endClaim_claimsLawful ht _ _
  · exact ht

theorem portResetBody_claimsLawful {s : State} (hs : s.claimsLawful) (p : PortId) :
    (portResetBody p s).1.claimsLawful := by
  have dropped := dropClaims_claimsLawful hs p
  unfold portResetBody
  generalize s.dropClaims p = t at dropped
  exact claimsLawful_congr dropped rfl

theorem softLines_claims (s : State) : s.softLines.claims = s.claims := by
  unfold State.softLines
  exact unlined_claims (foldl_unlined (fun _ _ => changeLine_unlined ..) _ s)

theorem softReset_claims (s : State) : s.softReset.claims = Vector.replicate 18 ClaimRec.free := by
  have swept : s.sweep.softLines.claims = Vector.replicate 18 ClaimRec.free := softLines_claims s.sweep
  unfold State.softReset
  generalize s.sweep.softLines = t at swept
  exact swept

theorem softResetBody_claimsLawful {s : State} (hs : s.claimsLawful) (p : PortId) :
    (softResetBody p s).1.claimsLawful := by
  unfold softResetBody
  split
  · exact hs
  · exact freeClaims_claimsLawful (softReset_claims s)

/-! ## Bodies that leave the claim table as it is -/

section
variable (p : PortId) (s : State)

theorem queryClaimBody_claims (resource : Byte) : (queryClaimBody resource s).1.claims = s.claims := by
  unfold queryClaimBody
  split <;> rfl

theorem lineConfigBody_claims (line mode level filter : Byte) :
    (lineConfigBody p line mode level filter s).1.claims = s.claims := by
  unfold lineConfigBody
  split
  · split; · rfl
    split; · rfl
    split; · rfl
    exact unlined_claims (changeLine_unlined ..)
  · rfl

theorem subscribeBody_claims (line sel : Byte) : (subscribeBody p line sel s).1.claims = s.claims := by
  unfold subscribeBody
  split <;> rfl

theorem postBody_claims (b : PostBlock) : (postBody p b s).1.claims = s.claims := by
  unfold postBody
  split; · rfl
  split; · rfl
  split; · rfl
  split; · rfl
  split; · rfl
  split; · rfl
  exact (treatPending_scheduled (s.writeEntry p _ _) _).claims

theorem cancelBody_claims (id : Byte) : (cancelBody p id s).1.claims = s.claims := by
  unfold cancelBody
  split; · rfl
  split; · rfl
  split
  · exact (withdraw_scheduled ..).claims
  · rfl

theorem cancelLineBody_claims (line : Byte) : (cancelLineBody p line s).1.claims = s.claims := by
  unfold cancelLineBody
  split; · rfl
  exact (withdrawAll_scheduled ..).claims

theorem queryEntryBody_claims (id : Byte) : (queryEntryBody id s).1.claims = s.claims := by
  unfold queryEntryBody
  split; · rfl
  exact (checkSlot_scheduled ..).claims

theorem setTimeBody_claims (count : Count) : (setTimeBody p count s).1.claims = s.claims := by
  unfold setTimeBody
  split; · rfl
  exact (changeCount_calm ..).claims

theorem stepTimeBody_claims (offset : BitVec 40) : (stepTimeBody p offset s).1.claims = s.claims := by
  unfold stepTimeBody
  split; · rfl
  split; · rfl
  exact (changeCount_calm ..).claims

theorem runBody_claims (run : RunState) : (runBody p run s).1.claims = s.claims := by
  unfold runBody
  split; · rfl
  split; · rfl
  exact (setRun_calm ..).claims

theorem takeNoticesBody_claims (max : Byte) : (takeNoticesBody p max s).1.claims = s.claims := by
  unfold takeNoticesBody
  split <;> rfl

theorem enterDirect_claims : s.enterDirect.1.claims = s.claims := by
  unfold State.enterDirect
  split
  · dsimp only
    split
    · exact ((suspendTrains_scheduled _).trans (drainExpire_scheduled _)).claims
    · rfl
  · rfl

theorem enterDirectBody_claims : (enterDirectBody p s).1.claims = s.claims := by
  unfold enterDirectBody
  split; · rfl
  split; · rfl
  split; · rfl
  exact enterDirect_claims s

theorem exitDirectBody_claims : (exitDirectBody p s).1.claims = s.claims := by
  unfold exitDirectBody
  split; · rfl
  split; · rfl
  exact (returnToRun_cleared (keep := fun _ => True) s .command).claims

theorem directDriveBody_claims (line drive : Byte) : (directDriveBody p line drive s).1.claims = s.claims := by
  unfold directDriveBody
  split
  · split; · rfl
    split; · rfl
    split <;> rfl
  · rfl

theorem startCheck_claims (tested : LineSet) : (s.startCheck p tested).claims = s.claims := by
  unfold State.startCheck
  split; · rfl
  exact (unlined_claims (foldl_unlined enterTest_unlined _ (s.setCheck _)) :)

theorem lineCheckBody_claims (tested : LineSet) : (lineCheckBody p tested s).1.claims = s.claims := by
  unfold lineCheckBody
  split; · rfl
  split; · rfl
  split; · rfl
  split; · rfl
  split; · rfl
  split; · rfl
  exact startCheck_claims ..

theorem abortCheckBody_claims : (abortCheckBody p s).1.claims = s.claims := by
  unfold abortCheckBody
  split; · rfl
  split; · rfl
  exact unchecked_claims (abortCheck_unchecked ..)

theorem integrityClearBody_claims : (integrityClearBody p s).1.claims = s.claims := by
  unfold integrityClearBody
  split <;> rfl

theorem linkRetrainBody_claims : (linkRetrainBody p s).1.claims = s.claims := by
  unfold linkRetrainBody
  split; · rfl
  split; · rfl
  exact (retrain_calm s).claims

theorem profileReadBody_claims (slot offset length : Byte) :
    (profileReadBody slot offset length s).1.claims = s.claims := by
  unfold profileReadBody
  split; · rfl
  split; · rfl
  split <;> rfl

theorem profileWriteBody_claims (slot offset byte : Byte) :
    (profileWriteBody p slot offset byte s).1.claims = s.claims := by
  unfold profileWriteBody
  split; · rfl
  split; · rfl
  split; · rfl
  split; · rfl
  split <;> rfl

theorem profileSealBody_claims (slot : Byte) : (profileSealBody p slot s).1.claims = s.claims := by
  unfold profileSealBody
  split; · rfl
  split; · rfl
  split; · rfl
  split <;> rfl

theorem profileRetireBody_claims (slot : Byte) : (profileRetireBody p slot s).1.claims = s.claims := by
  unfold profileRetireBody
  split; · rfl
  split; · rfl
  split; · rfl
  split <;> rfl

end

/-! ## Events that leave the claim table as it is -/

/-- An event that its condition holds back changes nothing (log 3). -/
theorem ite_calm {c : Prop} [Decidable c] {s t : State} (h : Calm s t) : Calm s (if c then t else s) := by
  split
  · exact h
  · exact .refl s

theorem startFrame_claims (s : State) (p : PortId) : (s.startFrame p).claims = s.claims := by
  unfold State.startFrame
  split <;> rfl

theorem endFrame_claims (s : State) (p : PortId) (clocked : Bool) : (s.endFrame p clocked).claims = s.claims := by
  unfold State.endFrame
  split <;> rfl

theorem windowEnds_claims (s : State) (c : Progress) : (s.windowEnds c).claims = s.claims := by
  unfold State.windowEnds
  dsimp only
  split
  · rfl
  · rfl
  · split
    · rfl
    · exact unchecked_claims (endCheck_unchecked ..)

theorem windowEvent_claims (s : State) : s.windowEvent.claims = s.claims := by
  unfold State.windowEvent
  split
  · split
    · exact windowEnds_claims ..
    · rfl
  · rfl
  · rfl

theorem busyEnd_claims (s : State) : s.busyEnd.claims = s.claims := by
  unfold State.busyEnd
  split <;> rfl

theorem startLink_calm (s : State) : Calm s s.startLink := by
  unfold State.startLink
  split
  · exact setLink_calm ..
  · exact setLink_calm ..

theorem leaveOff_claims (s : State) : s.leaveOff.claims = s.claims := by
  unfold State.leaveOff
  exact unlined_claims (foldl_unlined (fun _ _ => changeLine_unlined ..) _ s)

theorem loadStep_claims (s : State) (k : Nat) : (s.loadStep k).claims = s.claims := by
  unfold State.loadStep
  split
  · rfl
  · rfl
  · have left := leaveOff_claims s
    generalize s.leaveOff = t at left
    exact left
  · rfl
  · exact (startLink_calm s).claims
  · rfl
  · rfl
  · rfl

theorem load_claims (s : State) (last : Nat) : (s.load last).claims = s.claims :=
  List.foldlRecOn (motive := fun t => t.claims = s.claims) _ State.loadStep rfl
    fun t ht k _ => (loadStep_claims t k).trans ht

theorem tick_claims (s : State) : s.tick.claims = s.claims := by
  unfold State.tick
  split <;> rfl

/-! ## Every command -/

/-- The commands that may change the claim table: the claim commands, their two expiries, and the resets. -/
def touchesClaims : Instr → Bool
  | .claim .. | .release .. | .renew .. | .leaseExpiry _ | .waitDeadline _ | .pinReset | .softReset _ | .portReset _ =>
    true
  | _ => false

theorem take_claims {s : State} {p : PortId} {code : Byte} {params : List Byte} {body : State → State × Reply}
    (hb : (body s).1.claims = s.claims) : (s.take p code params body).claims = s.claims :=
  take_keeps (P := fun t => t.claims = s.claims) rfl (fun _ _ h => h) fun _ => hb

theorem take_claimsLawful {s : State} {p : PortId} {code : Byte} {params : List Byte} {body : State → State × Reply}
    (hs : s.claimsLawful) (hb : (body s).1.claimsLawful) : (s.take p code params body).claimsLawful :=
  take_keeps hs (fun _ _ h => claimsLawful_congr h rfl) fun _ => hb

/-- What holds of the state that is answered. -/
theorem of_next {P : State → Prop} {x t : State} (h : P x) (e : (.next x : Answer) = .next t) : P t := by
  cases e
  exact h

theorem claims_of_next {s x t : State} (h : x.claims = s.claims) (e : (.next x : Answer) = .next t) :
    t.claims = s.claims := of_next (P := fun u => u.claims = s.claims) h e

/-- Every other command leaves the claim table as it is. -/
theorem exec_claims {i : Instr} {s t : State} (hi : touchesClaims i = false) (e : exec i s = .next t) :
    t.claims = s.claims := by
  cases i with
  | claim | release | renew | leaseExpiry | waitDeadline | pinReset | softReset | portReset => cases hi
  | loading => exact claims_of_next (load_claims ..) e
  | frameStart => exact claims_of_next (startFrame_claims ..) e
  | frameEnd => exact claims_of_next (endFrame_claims ..) e
  | unknownCommand | parameterByteGathered | storedBitError => refine claims_of_next ?_ e; split <;> rfl
  | lineSample | noticeRecordRemoved => refine claims_of_next ?_ e; rfl
  | lineRead | readTime | peekNotice | setAttnMask | snapshot | checkResult | integrityRead | ident | linkStatus =>
    exact claims_of_next (take_claims rfl) e
  | queryClaim => exact claims_of_next (take_claims (queryClaimBody_claims ..)) e
  | lineConfig => exact claims_of_next (take_claims (lineConfigBody_claims ..)) e
  | subscribe => exact claims_of_next (take_claims (subscribeBody_claims ..)) e
  | post => exact claims_of_next (take_claims (postBody_claims ..)) e
  | cancel => exact claims_of_next (take_claims (cancelBody_claims ..)) e
  | cancelLine => exact claims_of_next (take_claims (cancelLineBody_claims ..)) e
  | queryEntry => exact claims_of_next (take_claims (queryEntryBody_claims ..)) e
  | setTime => exact claims_of_next (take_claims (setTimeBody_claims ..)) e
  | stepTime => exact claims_of_next (take_claims (stepTimeBody_claims ..)) e
  | halt | resume => exact claims_of_next (take_claims (runBody_claims ..)) e
  | takeNotices => exact claims_of_next (take_claims (takeNoticesBody_claims ..)) e
  | enterDirect => exact claims_of_next (take_claims (enterDirectBody_claims ..)) e
  | exitDirect => exact claims_of_next (take_claims (exitDirectBody_claims ..)) e
  | directDrive => exact claims_of_next (take_claims (directDriveBody_claims ..)) e
  | lineCheck => exact claims_of_next (take_claims (lineCheckBody_claims ..)) e
  | abortCheck => exact claims_of_next (take_claims (abortCheckBody_claims ..)) e
  | integrityClear => exact claims_of_next (take_claims (integrityClearBody_claims ..)) e
  | linkRetrain => exact claims_of_next (take_claims (linkRetrainBody_claims ..)) e
  | profileRead => exact claims_of_next (take_claims (profileReadBody_claims ..)) e
  | profileWrite => exact claims_of_next (take_claims (profileWriteBody_claims ..)) e
  | profileSeal => exact claims_of_next (take_claims (profileSealBody_claims ..)) e
  | profileRetire => exact claims_of_next (take_claims (profileRetireBody_claims ..)) e
  | countAdvance => exact claims_of_next (advance_calm s).claims e
  | pulseEnd => exact claims_of_next (pulseEndEvent_calm ..).claims e
  | trainBoundary => exact claims_of_next (boundaryEvent_calm ..).claims e
  | edgeAccepted => exact claims_of_next (acceptEdge_calm ..).claims e
  | drainLimitExpiry => exact claims_of_next (drainDeadlineEvent_calm s).claims e
  | checkWindowEnd => exact claims_of_next (windowEvent_claims s) e
  | scrubVisit => exact claims_of_next (scrubEvent_calm s).claims e
  | profileBusyEnd => exact claims_of_next (busyEnd_claims s) e
  | finalAbilitySent => exact claims_of_next (finalSent_calm s).claims e
  | queryDue => exact claims_of_next (queryFallsDue_calm s).claims e
  | replyDeadline => exact claims_of_next (replyMissed_calm s).claims e
  | retrainDownEnd | holdoffEnd | aligningDeadline => exact claims_of_next (ite_calm (setLink_calm ..)).claims e
  | wordSlot => exact claims_of_next (ite_calm (slotBegins_calm s)).claims e
  | followerSilenceDeadline => exact claims_of_next (ite_calm (loseLock_calm s)).claims e
  | abilityReceived =>
    refine claims_of_next ?_ e
    split
    · exact (takeAbility_calm ..).claims
    · rfl
  | timeQueryReceived =>
    refine claims_of_next ?_ e
    split
    · exact ((noteValid_calm s).trans (takeQuery_calm ..)).claims
    · rfl
  | timeReplyReceived =>
    refine claims_of_next ?_ e
    split
    · exact ((noteValid_calm s).trans (takeReply_calm ..)).claims
    · rfl
  | captureWordReceived =>
    refine claims_of_next ?_ e
    split
    · exact ((noteValid_calm s).trans (takeCapture_calm ..)).claims
    · exact (noteValid_calm s).claims
    · rfl
  | idleWordReceived =>
    refine claims_of_next ?_ e
    split
    · exact (noteValid_calm s).claims
    · rfl

/-- The claim commands, their expiries and the resets keep the law, each by its operation; the others by their frame. -/
theorem exec_claimsLawful {i : Instr} {s t : State} (hs : s.claimsLawful) (e : exec i s = .next t) :
    t.claimsLawful := by
  by_cases hi : touchesClaims i = false
  · exact claimsLawful_congr hs (exec_claims hi e)
  cases i with
  | claim => exact of_next (take_claimsLawful hs (claimBody_claimsLawful hs _ _ _ _)) e
  | release => exact of_next (take_claimsLawful hs (releaseBody_claimsLawful hs _ _)) e
  | renew => exact of_next (take_claimsLawful hs (renewBody_claimsLawful hs _ _)) e
  | leaseExpiry r => exact of_next (expireLease_claimsLawful hs r) e
  | waitDeadline r => exact of_next (expireWait_claimsLawful hs r) e
  | softReset => exact of_next (take_claimsLawful hs (softResetBody_claimsLawful hs _)) e
  | portReset => exact of_next (take_claimsLawful hs (portResetBody_claimsLawful hs _)) e
  | pinReset => exact of_next (freeClaims_claimsLawful (s := s.pinReset) rfl) e
  | _ => exact absurd rfl hi

/-- Settles O57: a step is one tick, which leaves the claim table, or one command. -/
theorem everyStepKeepsClaimLaw : Obligations.EveryStepKeepsClaimLaw := by
  intro s t hs e
  cases hq : s.pending with
  | nil =>
    rw [step_idle hq] at e
    exact of_next (claimsLawful_congr hs (tick_claims s)) e
  | cons c rest =>
    rw [step_command hq] at e
    exact exec_claimsLawful (s := { s with pending := rest }) (claimsLawful_congr hs rfl) e

end Sys2Proof.Machine
end

section
/-! PROOFS. The judgement of a time against the count (R40): what it is in each range of the distance, and that the three
ranges, which divide the cycle of the count, tell the judgements apart. -/

namespace Sys2Proof.Machine

section
variable {d c : Count}

theorem judge_due (h : distance d c = 0) : judge d c = .due := if_pos h

/-- Half a cycle away is still ahead. -/
theorem judge_ahead (hlo : 1 ≤ distance d c) (hhi : distance d c ≤ 2 ^ 39) : judge d c = .ahead := by
  rw [judge, if_neg (by omega), if_pos hhi]

theorem judge_behind (h : 2 ^ 39 + 1 ≤ distance d c) : judge d c = .behind := by
  rw [judge, if_neg (by omega), if_neg (by omega)]

end

/-- Settles O26: the distance lies in one of the three ranges of R40; its judgement is that range's, and the other two
judgements and ranges are both ruled out. -/
theorem judgeByDistance : Obligations.JudgeByDistance := by
  intro d c x
  have hx : distance d c = x := distance_eq d c
  have ranges : x = 0 ∨ (1 ≤ x ∧ x ≤ 2 ^ 39) ∨ 2 ^ 39 + 1 ≤ x := by omega
  obtain due | ⟨lo, hi⟩ | behind := ranges
  · have judged : judge d c = .due := judge_due (hx.trans due)
    simp only [judged, reduceCtorEq, true_iff, false_iff]
    omega
  · have judged : judge d c = .ahead := judge_ahead (hx ▸ lo) (hx ▸ hi)
    simp only [judged, reduceCtorEq, true_iff, false_iff]
    omega
  · have judged : judge d c = .behind := judge_behind (hx ▸ behind)
    simp only [judged, reduceCtorEq, true_iff, false_iff]
    omega

end Sys2Proof.Machine
end

section
/-! PROOFS. POST's checks (R59, R60, R61): the range check is passed exactly by a block whose fields are in range, and
then each check that fails, and the acceptance, is one equation for the body. -/

namespace Sys2Proof.Machine

/-! ## The readers of single bytes -/

section
variable {b : Byte}

theorem readLine_isSome : (readLine b).isSome ↔ b.toNat ≤ 15 := by
  unfold readLine
  split
  · simp only [Option.isSome_some, true_iff]; omega
  · simp only [Option.isSome_none, reduceCtorEq, false_iff]; omega

theorem readAnyLine_isSome : (readAnyLine b).isSome ↔ b.toNat ≤ 31 := by
  unfold readAnyLine
  split
  · simp only [Option.isSome_some, true_iff]; omega
  · simp only [Option.isSome_none, reduceCtorEq, false_iff]; omega

/-- The line that a byte names has the byte as its number. -/
theorem val_of_readLine {n : LineId} (h : readLine b = some n) : n.val = b.toNat := by
  unfold readLine at h
  split at h <;> cases h
  rfl

/-- A reader of two codes reads the bytes 0 and 1. -/
theorem twoCodes_isSome {α : Type} (x y : α) :
    (if b = 0 then some x else if b = 1 then some y else none).isSome ↔ b.toNat ≤ 1 := by
  split_ifs with zero one
  · simp [zero]
  · simp [one]
  · simp only [Option.isSome_none, Bool.false_eq_true, false_iff]
    bv_omega

theorem readLevel_isSome : (readLevel b).isSome ↔ b.toNat ≤ 1 := twoCodes_isSome ..
theorem readRepeat_isSome : (readRepeat b).isSome ↔ b.toNat ≤ 1 := twoCodes_isSome ..
theorem readLate_isSome : (readLate b).isSome ↔ b.toNat ≤ 1 := twoCodes_isSome ..

theorem readAnchorEdge_isSome : (readAnchorEdge b).isSome ↔ 1 ≤ b.toNat ∧ b.toNat ≤ 3 := by
  unfold readAnchorEdge
  split_ifs with rise fall both
  · simp [rise]
  · simp [fall]
  · simp [both]
  · simp only [Option.isSome_none, Bool.false_eq_true, false_iff]
    bv_omega

/-- DROP_LATE has the code 1. -/
theorem readLate_eq_dropLate : readLate b = some .dropLate ↔ b = 1 := by
  unfold readLate
  split_ifs with zero one
  · simp [zero]
  · simp [one]
  · simpa using one

end

/-! ## The readers of the POST block -/

section
variable {b : PostBlock}

/-- SET_HIGH, SET_LOW and TOGGLE have no parameters to judge. -/
theorem readAction_level (h : b.action.toNat ≤ 2) : (readAction b).isSome := by
  have codes : b.action = 0 ∨ b.action = 1 ∨ b.action = 2 := by bv_omega
  obtain h | h | h := codes <;> simp [readAction, h]

theorem readAction_pulse (h : b.action = 3) :
    (readAction b).isSome ↔ (readLevel b.active).isSome ∧ b.width ≠ 0 := by
  cases active : readLevel b.active <;> simp [readAction, h, active]

theorem readAction_train (h : b.action = 4) :
    (readAction b).isSome ↔ (readLevel b.active).isSome ∧ b.width ≠ 0 ∧ b.width.toNat < b.period.toNat := by
  cases active : readLevel b.active with
  | none => simp [readAction, h, active]
  | some a =>
    simp only [readAction, h, active, BitVec.ofNat_eq_ofNat, BitVec.reduceEq, if_false, if_true, Option.isSome_some,
      true_and]
    split_ifs with zero short
    · simp [zero]
    · simp [short]
    · simp [zero, Nat.lt_of_not_le short]

theorem readAction_outOfRange (h : 4 < b.action.toNat) : readAction b = none := by
  have no (k : Byte) (hk : k.toNat ≤ 4) : b.action ≠ k := by rintro rfl; omega
  simp [readAction, no]

theorem readAction_isSome : (readAction b).isSome ↔ b.action.toNat ≤ 4 ∧
    (3 ≤ b.action.toNat → b.active.toNat ≤ 1 ∧ b.width ≠ 0) ∧
    (b.action.toNat = 4 → b.width.toNat < b.period.toNat) := by
  have codes : b.action.toNat ≤ 2 ∨ b.action = 3 ∨ b.action = 4 ∨ 4 < b.action.toNat := by bv_omega
  obtain h | h | h | h := codes
  · simp only [readAction_level h, true_iff]
    omega
  · rw [readAction_pulse h, readLevel_isSome]
    simp [h]
  · rw [readAction_train h, readLevel_isSome]
    simp [h, and_assoc]
  · simp only [readAction_outOfRange h, Option.isSome_none, reduceCtorEq, false_iff]
    omega

theorem readTiming_absolute (h : b.timing = 0) : readTiming b = some (none, .absolute b.due) := if_pos h

theorem readTiming_anchored (h : b.timing = 1) : (readTiming b).isSome ↔
    (readAnyLine b.anchorLine).isSome ∧ (readAnchorEdge b.anchorEdge).isSome ∧ (readRepeat b.rep).isSome := by
  simp only [readTiming, h, BitVec.ofNat_eq_ofNat, BitVec.reduceEq, if_false, if_true]
  split
  · rename_i line edge rep
    simp [line, edge, rep]
  · rename_i unread
    simp only [Option.isSome_none, Bool.false_eq_true, false_iff, Option.isSome_iff_exists]
    rintro ⟨⟨l, line⟩, ⟨e, edge⟩, ⟨r, rep⟩⟩
    exact unread l e r line edge rep

theorem readTiming_outOfRange (h : 1 < b.timing.toNat) : readTiming b = none := by
  have no (k : Byte) (hk : k.toNat ≤ 1) : b.timing ≠ k := by rintro rfl; omega
  simp [readTiming, no]

theorem readTiming_isSome : (readTiming b).isSome ↔ b.timing.toNat ≤ 1 ∧ (b.timing.toNat = 1 →
    b.anchorLine.toNat ≤ 31 ∧ 1 ≤ b.anchorEdge.toNat ∧ b.anchorEdge.toNat ≤ 3 ∧ b.rep.toNat ≤ 1) := by
  have codes : b.timing = 0 ∨ b.timing = 1 ∨ 1 < b.timing.toNat := by bv_omega
  obtain h | h | h := codes
  · simp [readTiming_absolute h, h]
  · rw [readTiming_anchored h, readAnyLine_isSome, readAnchorEdge_isSome, readRepeat_isSome]
    simp [h, and_assoc]
  · simp only [readTiming_outOfRange h, Option.isSome_none, reduceCtorEq, false_iff]
    omega

/-- Only an ABSOLUTE block is read as ABSOLUTE, with its own due time. -/
theorem readTiming_eq_absolute {anchor : Option Anchor} {d : Count} (h : readTiming b = some (anchor, .absolute d)) :
    b.timing = 0 ∧ d = b.due := by
  unfold readTiming at h
  split at h
  · rename_i zero
    cases h
    exact ⟨zero, rfl⟩
  · split at h
    · split at h <;> cases h
    · cases h

/-- A block passes the range check when each of its four readers takes it. -/
theorem readPost_isSome : (readPost b).isSome ↔ (readLine b.line).isSome ∧ (readAction b).isSome ∧
    (readTiming b).isSome ∧ (readLate b.late).isSome := by
  unfold readPost
  split
  · rename_i line action timing late
    simp [line, action, timing, late]
  · rename_i unread
    simp only [Option.isSome_none, Bool.false_eq_true, false_iff, Option.isSome_iff_exists]
    rintro ⟨⟨n, line⟩, ⟨a, action⟩, ⟨⟨anchor, t⟩, timing⟩, ⟨l, late⟩⟩
    exact unread n a anchor t l line action timing late

/-- The range check is the one of R59. -/
theorem readPost_isSome_iff_inRange : (readPost b).isSome ↔ postInRange b := by
  rw [readPost_isSome, readLine_isSome, readAction_isSome, readTiming_isSome, readLate_isSome]
  unfold postInRange
  tauto

theorem readPost_outOfRange (h : ¬ postInRange b) : readPost b = none := by
  simpa using mt readPost_isSome_iff_inRange.1 h

/-- What a block in range asks for is what its readers read. -/
theorem fields_of_readPost {q : PostRequest} (h : readPost b = some q) : readLine b.line = some q.line ∧
    readTiming b = some (q.anchor, q.body.timing) ∧ readLate b.late = some q.body.late := by
  unfold readPost at h
  split at h
  · rename_i line _ timing late
    cases h
    exact ⟨line, timing, late⟩
  · cases h

theorem readPost_inRange {n : LineId} (h : postInRange b) (hn : n.val = b.line.toNat) :
    ∃ q, readPost b = some q ∧ q.line = n := by
  obtain ⟨q, hq⟩ := Option.isSome_iff_exists.1 (readPost_isSome_iff_inRange.2 h)
  obtain ⟨line, -, -⟩ := fields_of_readPost hq
  exact ⟨q, hq, Fin.ext ((val_of_readLine line).trans hn.symm)⟩

/-- Check 7 in the block's own fields (R60). -/
theorem tooLate_iff {q : PostRequest} {c : Count} (h : readPost b = some q) :
    tooLate q.body c = true ↔ b.timing = 0 ∧ b.late = 1 ∧ judge b.due c = .behind := by
  obtain ⟨-, timing, late⟩ := fields_of_readPost h
  have dropLate : q.body.late = .dropLate ↔ b.late = 1 := by
    rw [← readLate_eq_dropLate, late, Option.some_inj]
  cases ht : q.body.timing with
  | absolute d =>
    obtain ⟨zero, rfl⟩ := readTiming_eq_absolute (timing.trans (by rw [ht]))
    rw [← dropLate]
    cases hl : q.body.late <;> simp [tooLate, ht, hl, zero]
  | anchored d r =>
    have anchored : b.timing ≠ 0 := by
      intro zero
      simp [readTiming_absolute zero, ht] at timing
    simp only [tooLate, ht, anchored, Bool.false_eq_true, false_and]

end

/-! ## The lowest FREE slot -/

section
variable {s : State} {i : SlotId}

theorem firstFree_none (h : ∀ i, s.entry i ≠ none) : s.firstFree = none := by
  simpa [State.firstFree] using fun i _ => h i

theorem firstFree_some (free : s.entry i = none) (lowest : ∀ j, j < i → s.entry j ≠ none) : s.firstFree = some i := by
  unfold State.firstFree allSlots
  rw [← Fin.find?_eq_find?_finRange, Fin.find?_eq_some_iff]
  simpa [free, Option.isSome_iff_ne_none] using lowest

/-- With a FREE slot there is a lowest one. -/
theorem exists_firstFree (h : ∃ i, s.entry i = none) : ∃ i, s.firstFree = some i := by
  obtain ⟨i, free⟩ := h
  have found : s.firstFree.isSome := List.find?_isSome.2 ⟨i, List.mem_finRange i, by rw [free]; rfl⟩
  exact Option.isSome_iff_exists.1 found

end

/-! ## The checks one after another -/

section
variable {p : PortId} {b : PostBlock} {s : State}

theorem postBody_outOfRange (h : readPost b = none) : postBody p b s = (s, reply .badParam) := by
  simp only [postBody, h]

variable {q : PostRequest} (hq : readPost b = some q)
include hq

theorem postBody_notHolder (hh : (s.claim (lineRes q.line)).holder ≠ some p) :
    postBody p b s = (s, reply .notHolder) := by
  simp only [postBody, hq, if_pos ((holds_false_iff ..).2 hh)]

variable (hh : (s.claim (lineRes q.line)).holder = some p)
include hh

theorem postBody_wrongState (hm : (s.line q.line).mode ≠ .output) : postBody p b s = (s, reply .wrongState) := by
  have holds := (holds_iff ..).2 hh
  simp only [postBody, hq, holds, Bool.true_eq_false, if_false, if_pos hm]

variable (hm : (s.line q.line).mode = .output)
include hm

theorem postBody_quotaUsed (full : (s.loaded.quota[p.val]).toNat ≤ s.slotsInUse p) :
    postBody p b s = (s, reply .noSlot) := by
  have holds := (holds_iff ..).2 hh
  simp only [postBody, hq, holds, hm, Bool.true_eq_false, ne_eq, not_true_eq_false, if_false, if_pos full]

variable (room : ¬ (s.loaded.quota[p.val]).toNat ≤ s.slotsInUse p)
include room

theorem postBody_noFreeSlot (noFree : s.firstFree = none) : postBody p b s = (s, reply .noSlot) := by
  have holds := (holds_iff ..).2 hh
  simp only [postBody, hq, holds, hm, Bool.true_eq_false, ne_eq, not_true_eq_false, if_false, if_neg room, noFree]

variable {i : SlotId} (hi : s.firstFree = some i)
include hi

/-- The due time is judged last (R60). -/
theorem postBody_tooLate (late : tooLate q.body s.tb.count = true) : postBody p b s = (s, reply .tooLate) := by
  have holds := (holds_iff ..).2 hh
  simp only [postBody, hq, holds, hm, Bool.true_eq_false, ne_eq, not_true_eq_false, if_false, if_neg room, hi,
    if_pos late]

theorem postBody_accepted (inTime : ¬ tooLate q.body s.tb.count = true) :
    postBody p b s = ((s.writeEntry p i q).treatPending i, replyData [slotByte i]) := by
  have holds := (holds_iff ..).2 hh
  simp only [postBody, hq, holds, hm, Bool.true_eq_false, ne_eq, not_true_eq_false, if_false, if_neg room, hi,
    if_neg inTime]

end

/-- Settles O27: the checks of R60 in their order, each by its equation for the body. -/
theorem postChecks : Obligations.PostChecks := by
  intro p b s run
  refine ⟨fun hl => congrArg Host.Outcome.next (take_of_loadingFor hl),
    fun hs => ⟨fun out => ?_, fun inRange n hn => ?_⟩⟩
  · exact congrArg Host.Outcome.next (take_answers hs (postBody_outOfRange (readPost_outOfRange out)))
  obtain ⟨q, hq, rfl⟩ := readPost_inRange inRange hn
  refine ⟨fun hh => ?_, fun hh hm => ?_, fun hh hm => ⟨fun used => ?_, fun room taken => ?_,
    fun room free behind => ?_, fun i room inTime free lowest => ?_⟩⟩
  · exact congrArg Host.Outcome.next (take_answers hs (postBody_notHolder hq hh))
  · exact congrArg Host.Outcome.next (take_answers hs (postBody_wrongState hq hh hm))
  · exact congrArg Host.Outcome.next (take_answers hs (postBody_quotaUsed hq hh hm used))
  · exact congrArg Host.Outcome.next (take_answers hs (postBody_noFreeSlot hq hh hm room (firstFree_none taken)))
  · -- a late POST is turned away with any FREE slot there; which one is the lowest plays no part
    obtain ⟨i, hi⟩ := exists_firstFree free
    exact congrArg Host.Outcome.next (take_answers hs (postBody_tooLate hq hh hm room hi ((tooLate_iff hq).2 behind)))
  · have accepted := postBody_accepted hq hh hm room (firstFree_some free lowest) (mt (tooLate_iff hq).1 inTime)
    exact ⟨_, congrArg Host.Outcome.next ((take_of_readyFor hs).trans (by rw [accepted]; rfl))⟩

end Sys2Proof.Machine
end

section
/-! PROOFS. What every command keeps (R58, R76, R112, R125, R184): most commands are calm but for one port's frame, and
keep every law by that alone; the others are taken one by one. -/

namespace Sys2Proof.Machine

/-! ## A calm effect, and then ports whose queues lose records at most -/

/-- `t` is what a calm event makes of `s`, with ports changed in any way that adds no record to a queue: a frame moves
on, a record leaves, a latch is cleared. -/
def Mild (s t : State) : Prop :=
  ∃ u, Calm s u ∧ { t with ports := u.ports } = u ∧ ∀ p, (t.port p).queue.Sublist (u.port p).queue

theorem Calm.mild {s t : State} (h : Calm s t) : Mild s t := ⟨t, h, rfl, fun _ => .refl _⟩

theorem Mild.refl (s : State) : Mild s s := (Calm.refl s).mild

theorem Mild.setPort {s u : State} (h : Mild s u) {p : PortId} {q : Port} (hq : q.queue.Sublist (u.port p).queue) :
    Mild s (u.setPort p q) := by
  obtain ⟨v, hv, hp, hs⟩ := h
  refine ⟨v, hv, hp, fun r => ?_⟩
  rw [setPort_port]
  split
  · rename_i e
    subst e
    exact hq.trans (hs p)
  · exact hs r

theorem Mild.respond {s u : State} (h : Mild s u) (p : PortId) (r : Reply) : Mild s (u.respond p r) :=
  h.setPort (.refl _)

theorem take_mild {s : State} {p : PortId} {code : Byte} {params : List Byte} {body : State → State × Reply}
    (h : Mild s (body s).1) : Mild s (s.take p code params body) :=
  take_keeps (P := Mild s) (.refl s) (fun _ r k => k.respond p r) fun _ => h

section
variable {s t : State} (h : Mild s t)
include h

theorem Mild.base : t.base = s.base := by
  obtain ⟨u, hu, e, -⟩ := h
  exact (congrArg State.base e).trans hu.base

theorem Mild.entries {i : SlotId} {k : Header} (hk : t.entry i = some k) :
    ∃ h, s.entry i = some h ∧ k.owner = h.owner ∧ k.line = h.line := by
  obtain ⟨u, hu, e, -⟩ := h
  exact hu.entries i k ((congrArg (·.entry i) e).symm.trans hk)

theorem Mild.lineMode (n : LineId) : (t.line n).mode = (s.line n).mode := by
  obtain ⟨u, hu, e, -⟩ := h
  exact (congrArg (fun v : State => (v.line n).mode) e).trans (hu.lineMode n)

theorem Mild.mode : t.maint.mode = s.maint.mode ∨ (s.maint.mode = .draining ∧ t.maint.mode = .direct) := by
  obtain ⟨u, hu, e, -⟩ := h
  have same : u.maint = t.maint := by rw [← e]
  exact same ▸ hu.mode

theorem Mild.running : t.maint.check.isRunning = s.maint.check.isRunning := by
  obtain ⟨u, hu, e, -⟩ := h
  exact (congrArg (fun v : State => v.maint.check.isRunning) e).trans hu.check

theorem Mild.queues (hs : s.queuesLawful) : t.queuesLawful := by
  obtain ⟨u, hu, -, hq⟩ := h
  exact fun p => lawful_of_sublist (hq p) ((hu.ports p).lawful (hs p))

theorem Mild.pending : t.pending = s.pending := congrArg (·.1) h.base
theorem Mild.phase : t.phase = s.phase := congrArg (·.2.1) h.base
theorem Mild.elapsed : t.elapsed = s.elapsed := congrArg (·.2.2.1) h.base
theorem Mild.claims : t.claims = s.claims := congrArg (·.2.2.2.1) h.base
theorem Mild.store : t.store = s.store := congrArg (·.2.2.2.2.2.2.2.1) h.base
theorem Mild.storeBusy : t.storeBusy = s.storeBusy := congrArg (·.2.2.2.2.2.2.2.2.1) h.base

end

/-! ## The bodies that are mild -/

section
variable (s : State) (p : PortId)

theorem queryClaimBody_mild (resource : Byte) : Mild s (queryClaimBody resource s).1 := by
  unfold queryClaimBody
  split <;> exact .refl s

theorem cancelBody_mild (id : Byte) : Mild s (cancelBody p id s).1 := by
  unfold cancelBody
  split
  · exact .refl s
  · split
    · exact .refl s
    · split
      · exact (withdraw_scheduled ..).calm.mild
      · exact .refl s

theorem cancelLineBody_mild (line : Byte) : Mild s (cancelLineBody p line s).1 := by
  unfold cancelLineBody
  split
  · exact .refl s
  · exact (withdrawAll_scheduled ..).calm.mild

theorem queryEntryBody_mild (id : Byte) : Mild s (queryEntryBody id s).1 := by
  unfold queryEntryBody
  split
  · exact .refl s
  · exact (checkSlot_scheduled ..).calm.mild

theorem setTimeBody_mild (count : Count) : Mild s (setTimeBody p count s).1 := by
  unfold setTimeBody
  split
  · exact .refl s
  · exact (changeCount_calm ..).mild

theorem stepTimeBody_mild (offset : BitVec 40) : Mild s (stepTimeBody p offset s).1 := by
  unfold stepTimeBody
  split
  · exact .refl s
  · split
    · exact .refl s
    · exact (changeCount_calm ..).mild

theorem runBody_mild (run : RunState) : Mild s (runBody p run s).1 := by
  unfold runBody
  split
  · exact .refl s
  · split
    · exact .refl s
    · exact (setRun_calm ..).mild

theorem takeNoticesBody_mild (max : Byte) : Mild s (takeNoticesBody p max s).1 := by
  unfold takeNoticesBody
  split <;> exact .refl s

theorem integrityClearBody_mild : Mild s (integrityClearBody p s).1 := by
  unfold integrityClearBody
  split
  · exact .refl s
  · exact (setInteg_scheduled ..).calm.mild

theorem linkRetrainBody_mild : Mild s (linkRetrainBody p s).1 := by
  unfold linkRetrainBody
  split
  · exact .refl s
  · split
    · exact .refl s
    · exact (retrain_calm s).mild

theorem profileReadBody_mild (slot offset length : Byte) : Mild s (profileReadBody slot offset length s).1 := by
  unfold profileReadBody
  split
  · exact .refl s
  · split
    · exact .refl s
    · split <;> exact .refl s

/-! ## The events of a frame -/

theorem startFrame_mild : Mild s (s.startFrame p) := by
  unfold State.startFrame
  split
  · exact .refl s
  · exact (Mild.refl s).setPort (.refl _)

theorem endFrame_queue (q : Port) (clocked ready : Bool) : (q.endFrame clocked ready).queue = q.queue := by
  unfold Port.endFrame Port.frameFault
  split
  · split <;> rfl
  · rfl

theorem endFrame_mild (clocked : Bool) : Mild s (s.endFrame p clocked) := by
  unfold State.endFrame
  split
  · exact (Mild.refl s).setPort ((endFrame_queue ..).symm ▸ .refl _)
  · exact .refl s

theorem removeSent_queue (q : Port) : q.removeSent.queue.Sublist q.queue := by
  unfold Port.removeSent
  split
  · rename_i e
    rw [e]
    exact List.sublist_cons_self ..
  · exact .refl _

end

theorem flip_scheduled (s : State) (i : SlotId) (bit : Nat) : Scheduled s (s.setSlot i ((s.slot i).flip bit)) :=
  setSlot_scheduled s i _ fun k hk => ⟨k, hk, rfl, rfl⟩

/-! ## The mild commands -/

/-- The commands whose effect is more than mild: claims, lines that change their mode, subscriptions, new entries, the
hub mode, the line check, resets and the profile store. -/
def isMild : Instr → Bool
  | .pinReset | .loading _ | .claim .. | .release .. | .renew .. | .leaseExpiry _ | .waitDeadline _ | .lineConfig ..
  | .subscribe .. | .post .. | .enterDirect _ | .exitDirect _ | .directDrive .. | .lineCheck .. | .checkWindowEnd
  | .abortCheck _ | .softReset _ | .portReset _ | .profileWrite .. | .profileSeal .. | .profileRetire ..
  | .profileBusyEnd => false
  | _ => true

/-- Every other command has a mild effect. -/
theorem exec_mild {i : Instr} (hi : isMild i = true) (s : State) : ∃ t, exec i s = .next t ∧ Mild s t := by
  cases i with
  | pinReset | loading | claim | release | renew | leaseExpiry | waitDeadline | lineConfig | subscribe | post
  | enterDirect | exitDirect | directDrive | lineCheck | checkWindowEnd | abortCheck | softReset | portReset
  | profileWrite | profileSeal | profileRetire | profileBusyEnd => cases hi
  | frameStart p => exact ⟨_, rfl, startFrame_mild s p⟩
  | frameEnd p clocked => exact ⟨_, rfl, endFrame_mild s p clocked⟩
  | noticeRecordRemoved p => exact ⟨_, rfl, (Mild.refl s).setPort (removeSent_queue _)⟩
  | unknownCommand | parameterByteGathered =>
    refine ⟨_, rfl, ?_⟩
    split
    · exact .refl s
    · exact (Mild.refl s).setPort (.refl _)
  | storedBitError i bit =>
    refine ⟨_, rfl, ?_⟩
    split
    · exact .refl s
    · exact (flip_scheduled s i bit).calm.mild
  | lineRead | readTime | peekNotice | ident | linkStatus => exact ⟨_, rfl, take_mild (.refl s)⟩
  | setAttnMask | snapshot => exact ⟨_, rfl, take_mild ((Mild.refl s).setPort (.refl _))⟩
  | checkResult | integrityRead => exact ⟨_, rfl, take_mild (bumpFree_scheduled s).calm.mild⟩
  | queryClaim => exact ⟨_, rfl, take_mild (queryClaimBody_mild ..)⟩
  | cancel => exact ⟨_, rfl, take_mild (cancelBody_mild ..)⟩
  | cancelLine => exact ⟨_, rfl, take_mild (cancelLineBody_mild ..)⟩
  | queryEntry => exact ⟨_, rfl, take_mild (queryEntryBody_mild ..)⟩
  | setTime => exact ⟨_, rfl, take_mild (setTimeBody_mild ..)⟩
  | stepTime => exact ⟨_, rfl, take_mild (stepTimeBody_mild ..)⟩
  | halt | resume => exact ⟨_, rfl, take_mild (runBody_mild ..)⟩
  | takeNotices => exact ⟨_, rfl, take_mild (takeNoticesBody_mild ..)⟩
  | integrityClear => exact ⟨_, rfl, take_mild (integrityClearBody_mild ..)⟩
  | linkRetrain => exact ⟨_, rfl, take_mild (linkRetrainBody_mild ..)⟩
  | profileRead => exact ⟨_, rfl, take_mild (profileReadBody_mild ..)⟩
  | lineSample => exact ⟨_, rfl, (sampleAll_calm ..).mild⟩
  | countAdvance => exact ⟨_, rfl, (advance_calm s).mild⟩
  | pulseEnd => exact ⟨_, rfl, (pulseEndEvent_calm ..).mild⟩
  | trainBoundary => exact ⟨_, rfl, (boundaryEvent_calm ..).mild⟩
  | edgeAccepted => exact ⟨_, rfl, (acceptEdge_calm ..).mild⟩
  | drainLimitExpiry => exact ⟨_, rfl, (drainDeadlineEvent_calm s).mild⟩
  | scrubVisit => exact ⟨_, rfl, (scrubEvent_calm s).mild⟩
  | finalAbilitySent => exact ⟨_, rfl, (finalSent_calm s).mild⟩
  | queryDue => exact ⟨_, rfl, (queryFallsDue_calm s).mild⟩
  | replyDeadline => exact ⟨_, rfl, (replyMissed_calm s).mild⟩
  | retrainDownEnd | holdoffEnd | aligningDeadline => exact ⟨_, rfl, (ite_calm (setLink_calm ..)).mild⟩
  | wordSlot => exact ⟨_, rfl, (ite_calm (slotBegins_calm s)).mild⟩
  | followerSilenceDeadline => exact ⟨_, rfl, (ite_calm (loseLock_calm s)).mild⟩
  | abilityReceived =>
    refine ⟨_, rfl, ?_⟩
    split
    · exact (takeAbility_calm ..).mild
    · exact .refl s
  | timeQueryReceived =>
    refine ⟨_, rfl, ?_⟩
    split
    · exact ((noteValid_calm s).trans (takeQuery_calm ..)).mild
    · exact .refl s
  | timeReplyReceived =>
    refine ⟨_, rfl, ?_⟩
    split
    · exact ((noteValid_calm s).trans (takeReply_calm ..)).mild
    · exact .refl s
  | captureWordReceived =>
    refine ⟨_, rfl, ?_⟩
    split
    · exact ((noteValid_calm s).trans (takeCapture_calm ..)).mild
    · exact (noteValid_calm s).mild
    · exact .refl s
  | idleWordReceived =>
    refine ⟨_, rfl, ?_⟩
    split
    · exact (noteValid_calm s).mild
    · exact .refl s

end Sys2Proof.Machine
end

section
/-! PROOFS. The queue of commands, the clock, the law of the notice queues and the form of the store: kept by every command
(R112, R184). -/

namespace Sys2Proof.Machine

/-- What every command keeps but for PIN_RESET's clock. -/
structure Steady (s t : State) : Prop where
  pending : t.pending = s.pending
  elapsed : t.elapsed = s.elapsed
  queues : s.queuesLawful → t.queuesLawful
  store : s.storeLawful → t.storeLawful

theorem storeLawful_congr {s t : State} (hs : s.storeLawful) (h : t.store = s.store) (k : t.storeBusy = s.storeBusy) :
    t.storeLawful := by
  unfold State.storeLawful
  rw [h, k]
  exact hs

theorem queuesLawful_congr {s t : State} (hs : s.queuesLawful) (h : t.ports = s.ports) : t.queuesLawful := by
  intro p
  have same : t.port p = s.port p := by simp only [State.port, h]
  exact same ▸ hs p

namespace Steady
variable {s t u : State}

theorem refl (s : State) : Steady s s := ⟨rfl, rfl, id, id⟩

theorem trans (h : Steady s t) (k : Steady t u) : Steady s u :=
  ⟨k.pending.trans h.pending, k.elapsed.trans h.elapsed, k.queues ∘ h.queues, k.store ∘ h.store⟩

/-- An effect beside all four. -/
theorem of_fields (pending : t.pending = s.pending) (elapsed : t.elapsed = s.elapsed) (ports : t.ports = s.ports)
    (store : t.store = s.store) (busy : t.storeBusy = s.storeBusy) : Steady s t :=
  ⟨pending, elapsed, fun h => queuesLawful_congr h ports, fun h => storeLawful_congr h store busy⟩

theorem of_offered (pending : t.pending = s.pending) (elapsed : t.elapsed = s.elapsed)
    (ports : ∀ p, Offered (s.port p) (t.port p)) (store : t.store = s.store) (busy : t.storeBusy = s.storeBusy) :
    Steady s t :=
  ⟨pending, elapsed, fun h p => (ports p).lawful (h p), fun h => storeLawful_congr h store busy⟩

theorem foldl {α : Type} {f : State → α → State} (hf : ∀ s a, Steady s (f s a)) (l : List α) (s : State) :
    Steady s (l.foldl f s) :=
  List.foldlRecOn (motive := Steady s) l f (refl s) fun t ht a _ => ht.trans (hf t a)

theorem setPort {p : PortId} {q : Port} (h : (s.port p).lawful → q.lawful) : Steady s (s.setPort p q) where
  pending := rfl
  elapsed := rfl
  queues hs r := by
    rw [setPort_port]
    split
    · exact h (hs p)
    · exact hs r
  store hs := hs

end Steady

open Steady (of_fields of_offered)

theorem Mild.steady {s t : State} (h : Mild s t) : Steady s t :=
  ⟨h.pending, h.elapsed, h.queues, fun hs => storeLawful_congr hs h.store h.storeBusy⟩

theorem Calm.steady {s t : State} (h : Calm s t) : Steady s t := h.mild.steady

theorem Cleared.storeBusy {keep : LineId → Prop} {s t : State} (h : Cleared keep s t) : t.storeBusy = s.storeBusy :=
  congrArg (·.2.2.2.2.2.2.2.2.2.2.2.2.1) h.beside

theorem Cleared.steady {keep : LineId → Prop} {s t : State} (h : Cleared keep s t) : Steady s t :=
  of_offered h.pending h.elapsed h.ports h.store h.storeBusy

theorem unlined_steady {s t : State} (h : t.unlined = s.unlined) : Steady s t :=
  of_fields (unlined_pending h) (unlined_elapsed h) (unlined_ports h) (unlined_store h)
    (congrArg (·.2.2.2.2.2.2.2.2.2.2.2.2.2.2.2.2.2.1) h)

theorem take_steady {s : State} {p : PortId} {code : Byte} {params : List Byte} {body : State → State × Reply}
    (h : Steady s (body s).1) : Steady s (s.take p code params body) :=
  take_keeps (P := Steady s) (.refl s) (fun _ _ k => k.trans (.setPort id)) fun _ => h

/-! ## Claims -/

theorem passOn_steady (s : State) (r : ResourceId) : Steady s (s.passOn r) :=
  have h := passOn_unclaimed s r
  of_offered (unclaimed_pending h) (unclaimed_elapsed h) (passOn_offered s r) (unclaimed_store h)
    (congrArg (·.2.2.2.2.2.2.2.2.2.2.2.2.2.2.2.2.2.2.1) h)

theorem endClaim_steady (s : State) (r : ResourceId) (c : EndCause) : Steady s (s.endClaim r c) := by
  cases hh : (s.claim r).holder with
  | none =>
    rw [endClaim_free hh]
    exact .refl s
  | some p =>
    rw [endClaim_held hh]
    exact (clearFor_cleared s r p c).steady.trans (passOn_steady ..)

theorem setClaim_steady (s : State) (r : ResourceId) (x : ClaimRec) : Steady s (s.setClaim r x) :=
  of_fields rfl rfl rfl rfl rfl

theorem claimBody_steady (s : State) (p : PortId) (resource : Byte) (waitMs leaseMs : BitVec 16) :
    Steady s (claimBody p resource waitMs leaseMs s).1 := by
  unfold claimBody
  split
  · exact .refl s
  · dsimp only
    split
    · exact setClaim_steady ..
    · split
      · exact .refl s
      · split
        · exact .refl s
        · split
          · exact .refl s
          · dsimp only
            split
            · exact (setClaim_steady ..).trans (offer_calm ..).steady
            · exact setClaim_steady ..

theorem releaseBody_steady (s : State) (p : PortId) (resource : Byte) : Steady s (releaseBody p resource s).1 := by
  unfold releaseBody
  split
  · exact .refl s
  · dsimp only
    split
    · exact endClaim_steady ..
    · split
      · exact setClaim_steady ..
      · exact .refl s

theorem renewBody_steady (s : State) (p : PortId) (resource : Byte) : Steady s (renewBody p resource s).1 := by
  unfold renewBody
  split
  · exact of_fields rfl rfl rfl rfl rfl
  · split
    · exact .refl s
    · split
      · exact setClaim_steady ..
      · exact .refl s

theorem expireLease_steady (s : State) (r : ResourceId) : Steady s (s.expireLease r) := by
  unfold State.expireLease
  split
  · exact endClaim_steady ..
  · exact .refl s

theorem expireWait_steady (s : State) (r : ResourceId) : Steady s (s.expireWait r) := by
  unfold State.expireWait
  split
  · exact .refl s
  · exact (setClaim_steady ..).trans (offer_calm ..).steady

theorem dropClaims_steady (s : State) (p : PortId) : Steady s (s.dropClaims p) := by
  refine Steady.trans (t := s.dropWaits p) (of_fields rfl rfl rfl rfl rfl) (.foldl (fun t r => ?_) ..)
  split
  · exact endClaim_steady ..
  · exact .refl t

/-! ## Lines, capture, schedule and maintenance -/

theorem lineConfigBody_steady (s : State) (p : PortId) (line mode level filter : Byte) :
    Steady s (lineConfigBody p line mode level filter s).1 := by
  unfold lineConfigBody
  split
  · split
    · exact .refl s
    · split
      · exact .refl s
      · split
        · exact .refl s
        · exact unlined_steady (changeLine_unlined ..)
  · exact .refl s

theorem subscribeBody_steady (s : State) (p : PortId) (line sel : Byte) : Steady s (subscribeBody p line sel s).1 := by
  unfold subscribeBody
  split
  · exact of_fields rfl rfl rfl rfl rfl
  · exact .refl s

theorem postBody_steady (s : State) (p : PortId) (b : PostBlock) : Steady s (postBody p b s).1 := by
  unfold postBody
  split
  · exact .refl s
  · split
    · exact .refl s
    · split
      · exact .refl s
      · split
        · exact .refl s
        · split
          · exact .refl s
          · split
            · exact .refl s
            · exact Steady.trans (t := s.writeEntry p _ _) (of_fields rfl rfl rfl rfl rfl)
                (treatPending_scheduled ..).calm.steady

theorem setMaint_steady (s : State) (x : Maint) : Steady s (s.setMaint x) := of_fields rfl rfl rfl rfl rfl

theorem enterDirect_steady (s : State) : Steady s s.enterDirect.1 := by
  unfold State.enterDirect
  split
  · dsimp only
    split
    · exact (setMaint_steady ..).trans ((suspendTrains_scheduled _).trans (drainExpire_scheduled _)).calm.steady
    · exact (setMaint_steady ..).trans (suspendTrains_scheduled _).calm.steady
  · exact (setMaint_steady ..).trans ((suspendTrains_scheduled _).trans (offerAll_scheduled ..)).calm.steady

theorem enterDirectBody_steady (s : State) (p : PortId) : Steady s (enterDirectBody p s).1 := by
  unfold enterDirectBody
  split
  · exact .refl s
  · split
    · exact .refl s
    · split
      · exact .refl s
      · exact enterDirect_steady s

theorem returnToRun_steady (s : State) (r : ExitReason) : Steady s (s.returnToRun r) :=
  (returnToRun_cleared (keep := fun _ => True) s r).steady

theorem exitDirectBody_steady (s : State) (p : PortId) : Steady s (exitDirectBody p s).1 := by
  unfold exitDirectBody
  split
  · exact .refl s
  · split
    · exact .refl s
    · exact returnToRun_steady ..

theorem directDriveBody_steady (s : State) (p : PortId) (line drive : Byte) :
    Steady s (directDriveBody p line drive s).1 := by
  unfold directDriveBody
  split
  · split
    · exact .refl s
    · split
      · exact .refl s
      · split
        · exact .refl s
        · exact of_fields rfl rfl rfl rfl rfl
  · exact .refl s

theorem startCheck_steady (s : State) (p : PortId) (tested : LineSet) : Steady s (s.startCheck p tested) := by
  unfold State.startCheck
  split
  · exact .refl s
  · exact (setMaint_steady ..).trans (unlined_steady (foldl_unlined (fun _ _ => enterTest_unlined ..) _ _))

theorem lineCheckBody_steady (s : State) (p : PortId) (tested : LineSet) :
    Steady s (lineCheckBody p tested s).1 := by
  unfold lineCheckBody
  split
  · exact .refl s
  · split
    · exact .refl s
    · split
      · exact .refl s
      · split
        · exact .refl s
        · split
          · exact .refl s
          · split
            · exact .refl s
            · exact startCheck_steady ..

theorem endCheck_steady (s : State) (p : PortId) (r : CheckResult) (notify : Bool) :
    Steady s (s.endCheck p r notify) :=
  have h := endCheck_unchecked s p r notify
  of_offered (unchecked_pending h) (unchecked_elapsed h) (endCheck_offered s p r notify) (unchecked_store h)
    (congrArg (·.2.2.2.2.2.2.2.2.2.2.2.2.2.2.2.2.2.2.1) h)

theorem windowEvent_steady (s : State) : Steady s s.windowEvent := by
  unfold State.windowEvent
  split
  · split
    · unfold State.windowEnds
      dsimp only
      split
      · exact setMaint_steady ..
      · exact setMaint_steady ..
      · split
        · exact setMaint_steady ..
        · exact endCheck_steady ..
    · exact .refl s
  · exact .refl s
  · exact .refl s

theorem abortCheck_steady (s : State) (notify : Bool) : Steady s (s.abortCheck notify) := by
  unfold State.abortCheck
  split
  · exact endCheck_steady ..
  · exact .refl s
  · exact .refl s

theorem abortCheckBody_steady (s : State) (p : PortId) : Steady s (abortCheckBody p s).1 := by
  unfold abortCheckBody
  split
  · exact .refl s
  · split
    · exact .refl s
    · exact abortCheck_steady ..

/-! ## Resets -/

/-- A queue that has been emptied and has admitted one record keeps the law. -/
theorem emptied_lawful {q : Port} (h : q.queue = []) (r : Record) : (q.enqueue r).lawful :=
  enqueue_lawful (by simp [Port.lawful, h]) r

theorem mapPorts_steady (s : State) {f : Port → Port} (hf : ∀ q, (f q).lawful) :
    Steady s { s with ports := s.ports.map f } where
  pending := rfl
  elapsed := rfl
  queues _ p := by
    have hp : State.port { s with ports := s.ports.map f } p = f (s.port p) := Vector.getElem_map ..
    exact hp ▸ hf _
  store hs := hs

theorem sweep_steady (s : State) : Steady s s.sweep := of_fields rfl rfl rfl rfl rfl
theorem clearSubs_steady (s : State) : Steady s s.clearSubs := of_fields rfl rfl rfl rfl rfl
theorem clearRow_steady (s : State) (p : PortId) : Steady s (s.clearRow p) := of_fields rfl rfl rfl rfl rfl

theorem softLines_unlined (s : State) : s.softLines.unlined = s.unlined :=
  foldl_unlined (fun _ _ => changeLine_unlined ..) _ s

theorem softReset_steady (s : State) : Steady s s.softReset :=
  (((sweep_steady s).trans (unlined_steady (softLines_unlined _))).trans (clearSubs_steady _)).trans
    (mapPorts_steady _ fun _ => emptied_lawful rfl _)

theorem softResetBody_steady (s : State) (p : PortId) : Steady s (softResetBody p s).1 := by
  unfold softResetBody
  split
  · exact .refl s
  · exact softReset_steady s

theorem portResetBody_steady (s : State) (p : PortId) : Steady s (portResetBody p s).1 :=
  ((dropClaims_steady s p).trans (clearRow_steady ..)).trans (.setPort fun _ => emptied_lawful rfl _)

/-! ## LOADING -/

theorem leaveOff_unlined (s : State) : s.leaveOff.unlined = s.unlined :=
  foldl_unlined (fun _ _ => changeLine_unlined ..) _ s

theorem loadGroups_port (s : State) (p : PortId) :
    ∃ m, s.loadGroups.port p = { s.port p with mask := m } :=
  ⟨_, Vector.getElem_ofFn ..⟩

/-- A step of LOADING writes the phase after its work. -/
theorem withPhase_steady {s t : State} (h : Steady s t) (x : Phase) : Steady s { t with phase := x } :=
  h.trans (of_fields rfl rfl rfl rfl rfl)

theorem loadGroups_steady (s : State) : Steady s s.loadGroups where
  pending := rfl
  elapsed := rfl
  queues hs p := by
    obtain ⟨m, hm⟩ := loadGroups_port s p
    exact hm ▸ hs p
  store hs := hs

theorem loadStep_steady (s : State) (k : Nat) : Steady s (s.loadStep k) := by
  unfold State.loadStep
  split
  · exact of_fields rfl rfl rfl rfl rfl
  · exact withPhase_steady (loadGroups_steady s) _
  · exact withPhase_steady (unlined_steady (leaveOff_unlined s)) _
  · exact of_fields rfl rfl rfl rfl rfl
  · exact withPhase_steady (startLink_calm s).steady _
  · exact withPhase_steady (offerAll_calm ..).steady _
  · exact of_fields rfl rfl rfl rfl rfl
  · exact .refl s

theorem load_steady (s : State) (last : Nat) : Steady s (s.load last) := .foldl loadStep_steady _ s

/-! ## The profile store -/

/-- ORing bits into bytes sets bits and clears none (R184). -/
theorem and_read_orAll {m : Memory} (hm : Memory.wf m) (bits : List Host.Cell) (a : Nat) :
    Memory.read m a &&& Memory.read (Memory.orAll m bits) a = Memory.read m a := by
  induction bits generalizing m with
  | nil => exact BitVec.and_self
  | cons c t ih =>
    have rest := ih (Memory.write_wf hm c.1 (Memory.read m c.1 ||| c.2))
    rw [Memory.read_write hm.1] at rest
    rw [Memory.orAll]
    split at rest
    · rename_i e
      subst e
      generalize Memory.read (Memory.orAll _ t) c.1 = z at rest ⊢
      ext k hk
      have bit := congrArg (·.getLsbD k) rest
      simp only [BitVec.getLsbD_and, BitVec.getLsbD_or] at bit
      simp only [← BitVec.getLsbD_eq_getElem]
      grind
    · exact rest

theorem programStore_lawful {s : State} (hs : s.storeLawful) {bits : List Host.Cell}
    (nd : (bits.map (fun c => c.1)).Nodup) : (s.programStore bits).storeLawful := by
  refine ⟨programStore_wf hs.1 bits, fun b hb => ?_⟩
  obtain rfl : _ = b := Option.some.inj hb
  refine ⟨?_, fun c hc => ?_⟩
  · simpa [List.map_map, Function.comp_def] using nd
  · obtain ⟨x, -, rfl⟩ := List.mem_map.1 hc
    exact and_read_orAll hs.1 bits x.1

theorem programStore_steady (s : State) {bits : List Host.Cell} (nd : (bits.map (fun c => c.1)).Nodup) :
    Steady s (s.programStore bits) where
  pending := rfl
  elapsed := rfl
  queues hs := hs
  store hs := programStore_lawful hs nd

theorem profileWriteBody_steady (s : State) (p : PortId) (slot offset byte : Byte) :
    Steady s (profileWriteBody p slot offset byte s).1 := by
  unfold profileWriteBody
  split
  · exact .refl s
  · split
    · exact .refl s
    · split
      · exact .refl s
      · split
        · exact .refl s
        · split
          · exact .refl s
          · exact programStore_steady s (List.nodup_singleton _)

/-- Sealing writes three different bytes. -/
theorem sealBits_nodup (s : State) (i : Fin 3) : ((s.sealBits i).map (fun c => c.1)).Nodup := by
  simp [State.sealBits, storeAddr, offCheck, offSeal]

theorem profileSealBody_steady (s : State) (p : PortId) (slot : Byte) : Steady s (profileSealBody p slot s).1 := by
  unfold profileSealBody
  split
  · exact .refl s
  · split
    · exact .refl s
    · split
      · exact .refl s
      · split
        · exact .refl s
        · exact programStore_steady s (sealBits_nodup ..)

theorem profileRetireBody_steady (s : State) (p : PortId) (slot : Byte) : Steady s (profileRetireBody p slot s).1 := by
  unfold profileRetireBody
  split
  · exact .refl s
  · split
    · exact .refl s
    · split
      · exact .refl s
      · split
        · exact .refl s
        · exact programStore_steady s (List.nodup_singleton _)

theorem busyEnd_steady (s : State) : Steady s s.busyEnd := by
  unfold State.busyEnd
  split
  · exact ⟨rfl, rfl, id, fun hs => ⟨hs.1, fun _ hb => nomatch hb⟩⟩
  · exact .refl s

/-! ## Every command -/

/-- PIN_RESET empties the queues of the ports, and puts the store in its form again (R122, R184). -/
theorem pinReset_laws (s : State) :
    s.pinReset.pending = s.pending ∧ s.pinReset.queuesLawful ∧ (s.storeLawful → s.pinReset.storeLawful) := by
  refine ⟨rfl, fun p => ?_, fun hs => ⟨pinReset_store_wf hs.1, fun _ hb => nomatch hb⟩⟩
  have hp : s.pinReset.port p = Port.pinReset (s.ports[p.val]).selected := Vector.getElem_map ..
  rw [hp]
  simp [Port.lawful, Port.pinReset]

/-- Every command answers a next state; all but PIN_RESET are steady. -/
theorem exec_steady (i : Instr) (s : State) : ∃ t, exec i s = .next t ∧ (i ≠ .pinReset → Steady s t) := by
  by_cases hi : isMild i = true
  · obtain ⟨t, e, h⟩ := exec_mild hi s
    exact ⟨t, e, fun _ => h.steady⟩
  cases i with
  | pinReset => exact ⟨_, rfl, fun h => absurd rfl h⟩
  | loading last => exact ⟨_, rfl, fun _ => load_steady s last⟩
  | claim => exact ⟨_, rfl, fun _ => take_steady (claimBody_steady ..)⟩
  | release => exact ⟨_, rfl, fun _ => take_steady (releaseBody_steady ..)⟩
  | renew => exact ⟨_, rfl, fun _ => take_steady (renewBody_steady ..)⟩
  | leaseExpiry => exact ⟨_, rfl, fun _ => expireLease_steady ..⟩
  | waitDeadline => exact ⟨_, rfl, fun _ => expireWait_steady ..⟩
  | lineConfig => exact ⟨_, rfl, fun _ => take_steady (lineConfigBody_steady ..)⟩
  | subscribe => exact ⟨_, rfl, fun _ => take_steady (subscribeBody_steady ..)⟩
  | post => exact ⟨_, rfl, fun _ => take_steady (postBody_steady ..)⟩
  | enterDirect => exact ⟨_, rfl, fun _ => take_steady (enterDirectBody_steady ..)⟩
  | exitDirect => exact ⟨_, rfl, fun _ => take_steady (exitDirectBody_steady ..)⟩
  | directDrive => exact ⟨_, rfl, fun _ => take_steady (directDriveBody_steady ..)⟩
  | lineCheck => exact ⟨_, rfl, fun _ => take_steady (lineCheckBody_steady ..)⟩
  | checkWindowEnd => exact ⟨_, rfl, fun _ => windowEvent_steady s⟩
  | abortCheck => exact ⟨_, rfl, fun _ => take_steady (abortCheckBody_steady ..)⟩
  | softReset => exact ⟨_, rfl, fun _ => take_steady (softResetBody_steady ..)⟩
  | portReset => exact ⟨_, rfl, fun _ => take_steady (portResetBody_steady ..)⟩
  | profileWrite => exact ⟨_, rfl, fun _ => take_steady (profileWriteBody_steady ..)⟩
  | profileSeal => exact ⟨_, rfl, fun _ => take_steady (profileSealBody_steady ..)⟩
  | profileRetire => exact ⟨_, rfl, fun _ => take_steady (profileRetireBody_steady ..)⟩
  | profileBusyEnd => exact ⟨_, rfl, fun _ => busyEnd_steady s⟩
  | _ => exact absurd rfl hi

/-- Settles O4: PIN_RESET keeps the queue of commands, and every other command is steady. -/
theorem everyCommandAnswersNext : Obligations.EveryCommandAnswersNext := by
  intro i s
  obtain ⟨t, e, h⟩ := exec_steady i s
  by_cases hi : i = .pinReset
  · subst hi
    exact ⟨_, rfl, (pinReset_laws s).1, fun hne => absurd rfl hne⟩
  · exact ⟨t, e, (h hi).pending, fun _ => (h hi).elapsed⟩

/-! ## What holds of a step -/

/-- A law that a tick keeps and every command keeps is kept by every step. -/
theorem step_keeps {P : State → Prop} (queue : ∀ s l, P s → P { s with pending := l }) (tick : ∀ s, P s → P s.tick)
    (command : ∀ i s, P s → ∃ t, exec i s = .next t ∧ P t) {s t : State} (hs : P s) (e : step s = .next t) : P t := by
  cases hq : s.pending with
  | nil =>
    rw [step_idle hq] at e
    exact of_next (tick s hs) e
  | cons i rest =>
    obtain ⟨u, hu, pu⟩ := command i { s with pending := rest } (queue s rest hs)
    rw [step_command hq, hu] at e
    exact of_next pu e

theorem tick_fields (s : State) : ∃ clock free pins l, s.tick = { s with
    elapsed := clock, free := free, tickPins := pins, pending := l } := by
  unfold State.tick
  split
  · exact ⟨s.elapsed, s.free, s.tickPins, s.pending, rfl⟩
  · exact ⟨_, _, _, _, rfl⟩

/-- Settles O56: the ports' queues are no matter of a tick, and every command is steady or resets them. -/
theorem everyStepKeepsQueueLaw : Obligations.EveryStepKeepsQueueLaw := by
  intro s t
  refine step_keeps (fun _ _ h => h) (fun s hs => ?_) fun i s hs => ?_
  · obtain ⟨_, _, _, _, e⟩ := tick_fields s
    rw [e]
    exact hs
  · obtain ⟨t, e, h⟩ := exec_steady i s
    by_cases hi : i = .pinReset
    · subst hi
      exact ⟨_, rfl, (pinReset_laws s).2.1⟩
    · exact ⟨t, e, (h hi).queues hs⟩

/-- Settles O60: the store is no matter of a tick, and every command is steady or interrupts an operation. -/
theorem everyStepKeepsStoreForm : Obligations.EveryStepKeepsStoreForm := by
  intro s t
  refine step_keeps (fun _ _ h => h) (fun s hs => ?_) fun i s hs => ?_
  · obtain ⟨_, _, _, _, e⟩ := tick_fields s
    rw [e]
    exact hs
  · obtain ⟨t, e, h⟩ := exec_steady i s
    by_cases hi : i = .pinReset
    · subst hi
      exact ⟨_, rfl, (pinReset_laws s).2.2 hs⟩
    · exact ⟨t, e, (h hi).store hs⟩

end Sys2Proof.Machine
end

section
/-! PROOFS. The law of the hub mode (R125, R32): out of RUN, MX is held and no check runs. -/

namespace Sys2Proof.Machine

variable {s t : State}

/-- The law is kept where the hub does not leave RUN, a holder of MX is followed by a holder, and no check begins. -/
theorem modeLawful_of (hs : s.modeLawful) (mode : t.maint.mode ≠ .run → s.maint.mode ≠ .run)
    (holder : (s.claim resMX).holder ≠ none → (t.claim resMX).holder ≠ none)
    (check : s.maint.check.isRunning = false → t.maint.check.isRunning = false) : t.modeLawful := by
  intro hm
  obtain ⟨held, idle⟩ := hs (mode hm)
  exact ⟨holder held, check idle⟩

theorem modeLawful_run (h : t.maint.mode = .run) : t.modeLawful := fun hm => absurd h hm

theorem modeLawful_congr (hs : s.modeLawful) (maint : t.maint = s.maint) (claims : t.claims = s.claims) :
    t.modeLawful := by
  refine modeLawful_of hs (fun h => maint ▸ h) (fun h => ?_) (fun h => maint ▸ h)
  simpa only [State.claim, claims] using h

/-- A mode that an entry's end has moved on from DRAINING was out of RUN before. -/
theorem Mild.modeLawful (h : Mild s t) (hs : s.modeLawful) : t.modeLawful := by
  refine modeLawful_of hs (fun hm => ?_) (fun hh => ?_) (fun hr => h.running.trans hr)
  · obtain same | ⟨draining, -⟩ := h.mode
    · exact same ▸ hm
    · exact fun run => nomatch run.symm.trans draining
  · simpa only [State.claim, h.claims] using hh

theorem Cleared.modeLawful {keep : LineId → Prop} (h : Cleared keep s t) (hs : s.modeLawful) : t.modeLawful := by
  obtain same | ⟨draining, -⟩ | run := h.mode
  · refine modeLawful_of hs (fun hm => same ▸ hm) (fun hh => h.claim resMX ▸ hh) fun hr => ?_
    obtain c | c := h.check
    · exact c ▸ hr
    · exact c
  · refine modeLawful_of hs (fun _ run => nomatch run.symm.trans draining) (fun hh => h.claim resMX ▸ hh) fun hr => ?_
    obtain c | c := h.check
    · exact c ▸ hr
    · exact c
  · exact modeLawful_run run

theorem take_modeLawful {p : PortId} {code : Byte} {params : List Byte} {body : State → State × Reply}
    (hs : s.modeLawful) (h : (body s).1.modeLawful) : (s.take p code params body).modeLawful :=
  take_keeps hs (fun _ _ k => modeLawful_congr k rfl rfl) fun _ => h

/-! ## Claims -/

/-- At the end of the MX claim the hub is in RUN before MX passes on; at the end of another, MX stays with its holder. -/
theorem endClaim_modeLawful (hs : s.modeLawful) {r : ResourceId} {c : EndCause} : (s.endClaim r c).modeLawful := by
  cases hh : (s.claim r).holder with
  | none =>
    rw [endClaim_free hh]
    exact hs
  | some p =>
    have cleared := clearFor_cleared s r p c
    have maint := unclaimed_maint (passOn_unclaimed (s.clearFor r p c) r)
    by_cases hr : r = resMX
    · subst hr
      refine modeLawful_run ?_
      rw [endClaim_held hh, maint]
      by_cases hc : c = .revoked
      · have revoked : s.clearFor resMX p c = (s.clearMX c).offer p (.claim resMX .revoked) := by
          simp [State.clearFor, hc, resMX]
        rw [revoked]
        exact clearMX_mode s c
      · have plain : s.clearFor resMX p c = s.clearMX c := by simp [State.clearFor, hc, resMX]
        rw [plain]
        exact clearMX_mode s c
    · have hq := endClaim_claim hh c resMX
      rw [if_neg hr] at hq
      have law := cleared.modeLawful hs
      refine modeLawful_of law ?_ ?_ ?_
      · rw [endClaim_held hh, maint]
        exact id
      · rw [cleared.claim, hq]
        exact id
      · rw [endClaim_held hh, maint]
        exact id

/-- A claim record that keeps its holder, or gains one. -/
theorem setClaim_modeLawful (hs : s.modeLawful) {r : ResourceId} {x : ClaimRec}
    (hx : (s.claim r).holder ≠ none → x.holder ≠ none) : (s.setClaim r x).modeLawful := by
  refine modeLawful_of hs id (fun hh => ?_) id
  rw [setClaim_claim]
  split
  · rename_i e
    subst e
    exact hx hh
  · exact hh

theorem offer_modeLawful (hs : s.modeLawful) {p : PortId} {x : Record} : (s.offer p x).modeLawful :=
  (offer_calm s p x).mild.modeLawful hs

theorem claimBody_modeLawful (hs : s.modeLawful) {p : PortId} {resource : Byte} {waitMs leaseMs : BitVec 16} :
    (claimBody p resource waitMs leaseMs s).1.modeLawful := by
  unfold claimBody
  split
  · exact hs
  · dsimp only
    split
    · exact setClaim_modeLawful hs fun _ => nofun
    · split
      · exact hs
      · split
        · exact hs
        · split
          · exact hs
          · dsimp only
            split
            · refine offer_modeLawful (setClaim_modeLawful hs ?_)
              exact id
            · exact setClaim_modeLawful hs id

theorem releaseBody_modeLawful (hs : s.modeLawful) {p : PortId} {resource : Byte} :
    (releaseBody p resource s).1.modeLawful := by
  unfold releaseBody
  split
  · exact hs
  · dsimp only
    split
    · exact endClaim_modeLawful hs
    · split
      · exact setClaim_modeLawful hs id
      · exact hs

theorem renew_holder (c : ClaimRec) (now : Nat) : (c.renew now).holder = c.holder := by
  unfold ClaimRec.renew
  split <;> rfl

theorem renewAll_holder (s : State) (p : PortId) (r : ResourceId) :
    ((s.renewAll p).claim r).holder = (s.claim r).holder := by
  rw [renewAll_claim]
  split
  · exact renew_holder ..
  · rfl

theorem renewBody_modeLawful (hs : s.modeLawful) {p : PortId} {resource : Byte} :
    (renewBody p resource s).1.modeLawful := by
  unfold renewBody
  split
  · refine modeLawful_of (t := s.renewAll p) hs id (fun hh => ?_) id
    rw [renewAll_holder]
    exact hh
  · split
    · exact hs
    · split
      · exact setClaim_modeLawful hs fun hh => (renew_holder ..).symm ▸ hh
      · exact hs

theorem expireLease_modeLawful (hs : s.modeLawful) {r : ResourceId} : (s.expireLease r).modeLawful := by
  unfold State.expireLease
  split
  · exact endClaim_modeLawful hs
  · exact hs

theorem expireWait_modeLawful (hs : s.modeLawful) {r : ResourceId} : (s.expireWait r).modeLawful := by
  unfold State.expireWait
  split
  · exact hs
  · refine offer_modeLawful (setClaim_modeLawful hs ?_)
    exact id

theorem dropWaits_claim (s : State) (p : PortId) (r : ResourceId) : (s.dropWaits p).claim r =
    { s.claim r with waiters := (s.claim r).waiters.filter (fun w => w.port != p) } :=
  Vector.getElem_map ..

theorem dropClaims_modeLawful (hs : s.modeLawful) {p : PortId} : (s.dropClaims p).modeLawful := by
  have dropped : (s.dropWaits p).modeLawful := by
    refine modeLawful_of hs id (fun hh => ?_) id
    rw [dropWaits_claim]
    exact hh
  refine List.foldlRecOn (motive := State.modeLawful) _ _ dropped fun t ht r _ => ?_
  split
  · exact endClaim_modeLawful ht
  · exact ht

theorem clearRow_modeLawful (hs : s.modeLawful) {p : PortId} : (s.clearRow p).modeLawful := modeLawful_congr hs rfl rfl

theorem setPort_modeLawful (hs : s.modeLawful) {p : PortId} {q : Port} : (s.setPort p q).modeLawful :=
  modeLawful_congr hs rfl rfl

theorem portResetBody_modeLawful (hs : s.modeLawful) {p : PortId} : (portResetBody p s).1.modeLawful :=
  setPort_modeLawful (clearRow_modeLawful (dropClaims_modeLawful hs))

/-! ## Lines, capture and schedule -/

theorem unlined_modeLawful (h : t.unlined = s.unlined) (hs : s.modeLawful) : t.modeLawful :=
  modeLawful_congr hs (unlined_maint h) (unlined_claims h)

theorem lineConfigBody_modeLawful (hs : s.modeLawful) {p : PortId} {line mode level filter : Byte} :
    (lineConfigBody p line mode level filter s).1.modeLawful := by
  unfold lineConfigBody
  split
  · split
    · exact hs
    · split
      · exact hs
      · split
        · exact hs
        · exact unlined_modeLawful (changeLine_unlined ..) hs
  · exact hs

theorem subscribeBody_modeLawful (hs : s.modeLawful) {p : PortId} {line sel : Byte} :
    (subscribeBody p line sel s).1.modeLawful := by
  unfold subscribeBody
  split
  · exact modeLawful_congr hs rfl rfl
  · exact hs

theorem postBody_modeLawful (hs : s.modeLawful) {p : PortId} {b : PostBlock} : (postBody p b s).1.modeLawful := by
  unfold postBody
  split
  · exact hs
  · split
    · exact hs
    · split
      · exact hs
      · split
        · exact hs
        · split
          · exact hs
          · split
            · exact hs
            · exact (treatPending_scheduled ..).calm.mild.modeLawful (modeLawful_congr hs rfl rfl)

/-! ## The maintenance unit -/

theorem setMaint_modeLawful {x : Maint} (h : x.mode ≠ .run → (s.claim resMX).holder ≠ none ∧ x.check.isRunning = false) :
    (s.setMaint x).modeLawful := h

/-- The hub leaves RUN with MX held by the port that asks, and no check running (R126). -/
theorem enterDirect_modeLawful (held : (s.claim resMX).holder ≠ none) (idle : s.maint.check.isRunning = false) :
    s.enterDirect.1.modeLawful := by
  unfold State.enterDirect
  split
  · dsimp only
    split
    · exact ((suspendTrains_scheduled _).trans (drainExpire_scheduled _)).calm.mild.modeLawful
        (setMaint_modeLawful fun _ => ⟨held, idle⟩)
    · exact (suspendTrains_scheduled _).calm.mild.modeLawful (setMaint_modeLawful fun _ => ⟨held, idle⟩)
  · exact ((suspendTrains_scheduled _).trans (offerAll_scheduled ..)).calm.mild.modeLawful
      (setMaint_modeLawful fun _ => ⟨held, idle⟩)

theorem enterDirectBody_modeLawful (hs : s.modeLawful) {p : PortId} : (enterDirectBody p s).1.modeLawful := by
  unfold enterDirectBody
  split
  · exact hs
  · rename_i holds
    split
    · exact hs
    · rename_i idle
      split
      · exact hs
      · have own := (holds_iff s p resMX).1 (by simpa using holds)
        exact enterDirect_modeLawful (by simp [own]) (by simpa using idle)

theorem exitDirectBody_modeLawful (hs : s.modeLawful) {p : PortId} : (exitDirectBody p s).1.modeLawful := by
  unfold exitDirectBody
  split
  · exact hs
  · split
    · exact hs
    · exact modeLawful_run (returnToRun_mode ..)

theorem directDriveBody_modeLawful (hs : s.modeLawful) {p : PortId} {line drive : Byte} :
    (directDriveBody p line drive s).1.modeLawful := by
  unfold directDriveBody
  split
  · split
    · exact hs
    · split
      · exact hs
      · split
        · exact hs
        · exact modeLawful_congr hs rfl rfl
  · exact hs

theorem startCheck_maint (s : State) (p : PortId) (tested : LineSet) :
    (s.startCheck p tested).maint.mode = s.maint.mode := by
  unfold State.startCheck
  split
  · rfl
  · rw [unlined_maint (foldl_unlined (fun _ _ => enterTest_unlined ..) _ _)]
    rfl

/-- A check starts in RUN only (R133). -/
theorem lineCheckBody_modeLawful (hs : s.modeLawful) {p : PortId} {tested : LineSet} :
    (lineCheckBody p tested s).1.modeLawful := by
  unfold lineCheckBody
  split
  · exact hs
  · split
    · exact hs
    · split
      · exact hs
      · split
        · exact hs
        · rename_i run
          split
          · exact hs
          · split
            · exact hs
            · exact modeLawful_run ((startCheck_maint ..).trans (Classical.not_not.1 run))

theorem endCheck_modeLawful (hs : s.modeLawful) {p : PortId} {r : CheckResult} {notify : Bool} :
    (s.endCheck p r notify).modeLawful := by
  have h := endCheck_unchecked s p r notify
  refine modeLawful_of hs (fun hm => unchecked_mode h ▸ hm) (fun hh => unchecked_claim h resMX ▸ hh) fun _ => ?_
  rw [endCheck_check]
  rfl

/-- A running check goes on in RUN only, by the law. -/
theorem windowEvent_modeLawful (hs : s.modeLawful) : s.windowEvent.modeLawful := by
  unfold State.windowEvent
  split
  · rename_i c hc
    have run : s.maint.mode = .run := by
      by_contra hm
      have := (hs hm).2
      rw [hc] at this
      cases this
    split
    · unfold State.windowEnds
      dsimp only
      split
      · exact modeLawful_run run
      · exact modeLawful_run run
      · split
        · exact modeLawful_run run
        · exact endCheck_modeLawful hs
    · exact hs
  · exact hs
  · exact hs

theorem abortCheckBody_modeLawful (hs : s.modeLawful) {p : PortId} : (abortCheckBody p s).1.modeLawful := by
  unfold abortCheckBody
  split
  · exact hs
  · split
    · exact hs
    · exact (abortCheck_cleared (keep := fun _ => True) s true).modeLawful hs

/-! ## Resets, LOADING and the profile store -/

theorem softReset_maint (s : State) : s.softReset.maint = s.sweep.maint := by
  have lines := unlined_maint (softLines_unlined s.sweep)
  unfold State.softReset
  generalize s.sweep.softLines = t at lines
  exact lines

theorem softResetBody_modeLawful (hs : s.modeLawful) {p : PortId} : (softResetBody p s).1.modeLawful := by
  unfold softResetBody
  split
  · exact hs
  · exact modeLawful_run (congrArg Maint.mode (softReset_maint s))

theorem startLink_modeLawful (hs : s.modeLawful) : s.startLink.modeLawful := (startLink_calm s).mild.modeLawful hs

theorem withPhase_modeLawful (hs : s.modeLawful) {x : Phase} : State.modeLawful { s with phase := x } := hs

theorem loadStep_modeLawful (hs : s.modeLawful) {k : Nat} : (s.loadStep k).modeLawful := by
  unfold State.loadStep
  split
  · exact modeLawful_congr hs rfl rfl
  · exact hs
  · exact withPhase_modeLawful (unlined_modeLawful (leaveOff_unlined s) hs)
  · exact modeLawful_congr hs rfl rfl
  · exact withPhase_modeLawful (startLink_modeLawful hs)
  · exact modeLawful_congr hs rfl rfl
  · exact modeLawful_congr hs rfl rfl
  · exact hs

theorem load_modeLawful (hs : s.modeLawful) {last : Nat} : (s.load last).modeLawful :=
  List.foldlRecOn (motive := State.modeLawful) _ _ hs fun _ ht _ _ => loadStep_modeLawful ht

theorem programStore_modeLawful (hs : s.modeLawful) {bits : List Host.Cell} : (s.programStore bits).modeLawful :=
  modeLawful_congr hs rfl rfl

theorem profileWriteBody_modeLawful (hs : s.modeLawful) {p : PortId} {slot offset byte : Byte} :
    (profileWriteBody p slot offset byte s).1.modeLawful := by
  unfold profileWriteBody
  split
  · exact hs
  · split
    · exact hs
    · split
      · exact hs
      · split
        · exact hs
        · split
          · exact hs
          · exact programStore_modeLawful hs

theorem profileSealBody_modeLawful (hs : s.modeLawful) {p : PortId} {slot : Byte} :
    (profileSealBody p slot s).1.modeLawful := by
  unfold profileSealBody
  split
  · exact hs
  · split
    · exact hs
    · split
      · exact hs
      · split
        · exact hs
        · exact programStore_modeLawful hs

theorem profileRetireBody_modeLawful (hs : s.modeLawful) {p : PortId} {slot : Byte} :
    (profileRetireBody p slot s).1.modeLawful := by
  unfold profileRetireBody
  split
  · exact hs
  · split
    · exact hs
    · split
      · exact hs
      · split
        · exact hs
        · exact programStore_modeLawful hs

theorem busyEnd_modeLawful (hs : s.modeLawful) : s.busyEnd.modeLawful := by
  unfold State.busyEnd
  split
  · exact modeLawful_congr hs rfl rfl
  · exact hs

/-! ## Every command -/

theorem exec_modeLawful (i : Instr) (s : State) (hs : s.modeLawful) : ∃ t, exec i s = .next t ∧ t.modeLawful := by
  by_cases hi : isMild i = true
  · obtain ⟨t, e, h⟩ := exec_mild hi s
    exact ⟨t, e, h.modeLawful hs⟩
  cases i with
  | pinReset => exact ⟨_, rfl, modeLawful_run rfl⟩
  | loading last => exact ⟨_, rfl, load_modeLawful hs⟩
  | claim => exact ⟨_, rfl, take_modeLawful hs (claimBody_modeLawful hs)⟩
  | release => exact ⟨_, rfl, take_modeLawful hs (releaseBody_modeLawful hs)⟩
  | renew => exact ⟨_, rfl, take_modeLawful hs (renewBody_modeLawful hs)⟩
  | leaseExpiry => exact ⟨_, rfl, expireLease_modeLawful hs⟩
  | waitDeadline => exact ⟨_, rfl, expireWait_modeLawful hs⟩
  | lineConfig => exact ⟨_, rfl, take_modeLawful hs (lineConfigBody_modeLawful hs)⟩
  | subscribe => exact ⟨_, rfl, take_modeLawful hs (subscribeBody_modeLawful hs)⟩
  | post => exact ⟨_, rfl, take_modeLawful hs (postBody_modeLawful hs)⟩
  | enterDirect => exact ⟨_, rfl, take_modeLawful hs (enterDirectBody_modeLawful hs)⟩
  | exitDirect => exact ⟨_, rfl, take_modeLawful hs (exitDirectBody_modeLawful hs)⟩
  | directDrive => exact ⟨_, rfl, take_modeLawful hs (directDriveBody_modeLawful hs)⟩
  | lineCheck => exact ⟨_, rfl, take_modeLawful hs (lineCheckBody_modeLawful hs)⟩
  | checkWindowEnd => exact ⟨_, rfl, windowEvent_modeLawful hs⟩
  | abortCheck => exact ⟨_, rfl, take_modeLawful hs (abortCheckBody_modeLawful hs)⟩
  | softReset => exact ⟨_, rfl, take_modeLawful hs (softResetBody_modeLawful hs)⟩
  | portReset => exact ⟨_, rfl, take_modeLawful hs (portResetBody_modeLawful hs)⟩
  | profileWrite => exact ⟨_, rfl, take_modeLawful hs (profileWriteBody_modeLawful hs)⟩
  | profileSeal => exact ⟨_, rfl, take_modeLawful hs (profileSealBody_modeLawful hs)⟩
  | profileRetire => exact ⟨_, rfl, take_modeLawful hs (profileRetireBody_modeLawful hs)⟩
  | profileBusyEnd => exact ⟨_, rfl, busyEnd_modeLawful hs⟩
  | _ => exact absurd rfl hi

/-- Settles O58: a tick touches neither the claims nor the maintenance unit, and every command keeps the law. -/
theorem everyStepKeepsModeLaw : Obligations.EveryStepKeepsModeLaw := by
  intro s t
  refine step_keeps (fun _ _ h => h) (fun s hs => ?_) exec_modeLawful
  obtain ⟨_, _, _, _, e⟩ := tick_fields s
  rw [e]
  exact hs

end Sys2Proof.Machine
end

section
/-! PROOFS. The law of the entries (R58, R76): an entry's owner holds the claim on its line, which is in OUTPUT, and none is
there before READY. -/

namespace Sys2Proof.Machine

variable {s t : State}

/-- Every entry of `t` is one of `s`, with its owner and its line. -/
def State.entriesFrom (s t : State) : Prop :=
  ∀ i k, t.entry i = some k → ∃ h, s.entry i = some h ∧ k.owner = h.owner ∧ k.line = h.line

/-- The law is kept where no entry is new, and the claim and the mode stay for each line that has one. -/
theorem entriesLawful_of (hs : s.entriesLawful) (from_ : s.entriesFrom t)
    (kept : ∀ i k, t.entry i = some k → s.holds k.owner (lineRes k.line) = true → (s.line k.line).mode = .output →
      t.holds k.owner (lineRes k.line) = true ∧ (t.line k.line).mode = .output)
    (phase : t.phase = s.phase) : t.entriesLawful := by
  obtain ⟨law, empty⟩ := hs
  refine ⟨fun i k hk => ?_, fun hp i => ?_⟩
  · obtain ⟨h, hh, owner, line⟩ := from_ i k hk
    obtain ⟨held, output⟩ := law i h hh
    rw [← owner, ← line] at held
    rw [← line] at output
    exact kept i k hk held output
  · cases hk : t.entry i with
    | none => rfl
    | some k =>
      obtain ⟨h, hh, -⟩ := from_ i k hk
      rw [empty (phase ▸ hp) i] at hh
      cases hh

theorem entriesFrom_of_pool (pool : t.pool = s.pool) : s.entriesFrom t := by
  intro i k hk
  refine ⟨k, ?_, rfl, rfl⟩
  simpa only [State.entry, State.slot, pool] using hk

theorem entriesLawful_congr (hs : s.entriesLawful) (pool : t.pool = s.pool) (claims : t.claims = s.claims)
    (lines : t.lines = s.lines) (phase : t.phase = s.phase) : t.entriesLawful := by
  refine entriesLawful_of hs (entriesFrom_of_pool pool) (fun _ k _ held output => ⟨?_, ?_⟩) phase
  · simpa only [State.holds, State.claim, claims] using held
  · simpa only [State.line, lines] using output

/-- An empty pool obeys the law. -/
theorem entriesLawful_empty (h : ∀ i, s.entry i = none) : s.entriesLawful :=
  ⟨fun i _ hk => (nomatch (h i).symm.trans hk), fun _ => h⟩

theorem Mild.entriesLawful (h : Mild s t) (hs : s.entriesLawful) : t.entriesLawful := by
  refine entriesLawful_of hs (fun _ _ hk => h.entries hk) (fun _ k _ held output => ⟨?_, ?_⟩) h.phase
  · simpa only [State.holds, State.claim, h.claims] using held
  · exact (h.lineMode _).trans output

theorem Cleared.entriesLawful (h : Cleared (fun _ => True) s t) (hs : s.entriesLawful) : t.entriesLawful :=
  entriesLawful_of hs h.entries
    (fun _ k _ held output => ⟨(h.holds ..).trans held, h.lines k.line trivial output⟩) h.phase

theorem take_entriesLawful {p : PortId} {code : Byte} {params : List Byte} {body : State → State × Reply}
    (hs : s.entriesLawful) (h : s.phase = .ready → (body s).1.entriesLawful) :
    (s.take p code params body).entriesLawful :=
  take_keeps hs (fun _ _ k => entriesLawful_congr k rfl rfl rfl rfl) h

theorem setPort_entriesLawful (hs : s.entriesLawful) {p : PortId} {q : Port} : (s.setPort p q).entriesLawful :=
  entriesLawful_congr hs rfl rfl rfl rfl

theorem offer_entriesLawful (hs : s.entriesLawful) {p : PortId} {x : Record} : (s.offer p x).entriesLawful :=
  setPort_entriesLawful hs

/-! ## Claims -/

/-- After the end of a claim no entry of the former holder is on its line. -/
theorem endClaim_own {r : ResourceId} {p : PortId} (hh : (s.claim r).holder = some p) (c : EndCause) {i : SlotId}
    {k : Header} (hk : (s.endClaim r c).entry i = some k) : ¬ (k.owner = p ∧ lineRes k.line = r) := by
  rintro ⟨owner, line⟩
  have hr : r.val < 16 := line ▸ k.line.isLt
  rw [endClaim_held hh, unclaimed_entry (passOn_unclaimed ..)] at hk
  have cleared : (s.clearFor r p c).entry i = (s.clearLine p ⟨r.val, hr⟩ c).entry i := by
    unfold State.clearFor
    simp only [dif_pos hr]
    split <;> rfl
  rw [cleared] at hk
  exact clearLine_entry s p _ c i k hk ⟨owner, Fin.ext (Fin.ext_iff.1 line :)⟩

theorem endClaim_entriesLawful (hs : s.entriesLawful) {r : ResourceId} {c : EndCause} :
    (s.endClaim r c).entriesLawful := by
  cases hh : (s.claim r).holder with
  | none =>
    rw [endClaim_free hh]
    exact hs
  | some p =>
    have cleared := clearFor_cleared s r p c
    have passed := passOn_unclaimed (s.clearFor r p c) r
    refine entriesLawful_of hs (fun i k hk => ?_) (fun i k hk held output => ?_) ?_
    · rw [endClaim_held hh, unclaimed_entry passed] at hk
      exact cleared.entries i k hk
    · have claim := endClaim_claim hh c (lineRes k.line)
      have other_ : r ≠ lineRes k.line := by
        intro e
        have owner := (holds_iff ..).1 held
        rw [← e, hh] at owner
        exact endClaim_own hh c hk ⟨(Option.some.inj owner).symm, e.symm⟩
      rw [if_neg other_] at claim
      refine ⟨?_, ?_⟩
      · simpa only [State.holds, claim] using held
      · rw [endClaim_held hh, unclaimed_line passed]
        exact cleared.lines k.line other_.symm output
    · rw [endClaim_held hh, unclaimed_phase passed]
      exact cleared.phase

/-- A claim record that keeps the holder it has. -/
theorem setClaim_entriesLawful (hs : s.entriesLawful) {r : ResourceId} {x : ClaimRec}
    (hx : ∀ p, (s.claim r).holder = some p → x.holder = some p) : (s.setClaim r x).entriesLawful := by
  refine entriesLawful_of hs (entriesFrom_of_pool rfl) (fun _ k _ held output => ⟨?_, output⟩) rfl
  rw [holds_iff] at held ⊢
  rw [setClaim_claim]
  split
  · rename_i e
    subst e
    exact hx _ held
  · exact held

theorem claimBody_entriesLawful (hs : s.entriesLawful) {p : PortId} {resource : Byte} {waitMs leaseMs : BitVec 16} :
    (claimBody p resource waitMs leaseMs s).1.entriesLawful := by
  unfold claimBody
  split
  · exact hs
  · dsimp only
    split
    · rename_i free
      exact setClaim_entriesLawful hs fun q hq => nomatch free.symm.trans hq
    · split
      · exact hs
      · split
        · exact hs
        · split
          · exact hs
          · dsimp only
            split
            · refine offer_entriesLawful (setClaim_entriesLawful hs ?_)
              exact fun _ hq => hq
            · exact setClaim_entriesLawful hs fun _ hq => hq

theorem releaseBody_entriesLawful (hs : s.entriesLawful) {p : PortId} {resource : Byte} :
    (releaseBody p resource s).1.entriesLawful := by
  unfold releaseBody
  split
  · exact hs
  · dsimp only
    split
    · exact endClaim_entriesLawful hs
    · split
      · exact setClaim_entriesLawful hs fun _ hq => hq
      · exact hs

theorem renewBody_entriesLawful (hs : s.entriesLawful) {p : PortId} {resource : Byte} :
    (renewBody p resource s).1.entriesLawful := by
  unfold renewBody
  split
  · refine entriesLawful_of (t := s.renewAll p) hs (entriesFrom_of_pool rfl) (fun _ k _ held output => ⟨?_, output⟩) rfl
    rw [holds_iff] at held ⊢
    exact (renewAll_holder ..).trans held
  · split
    · exact hs
    · split
      · exact setClaim_entriesLawful hs fun _ hq => (renew_holder ..).trans hq
      · exact hs

theorem expireLease_entriesLawful (hs : s.entriesLawful) {r : ResourceId} : (s.expireLease r).entriesLawful := by
  unfold State.expireLease
  split
  · exact endClaim_entriesLawful hs
  · exact hs

theorem expireWait_entriesLawful (hs : s.entriesLawful) {r : ResourceId} : (s.expireWait r).entriesLawful := by
  unfold State.expireWait
  split
  · exact hs
  · refine offer_entriesLawful (setClaim_entriesLawful hs ?_)
    exact fun _ hq => hq

theorem dropWaits_entriesLawful (hs : s.entriesLawful) {p : PortId} : (s.dropWaits p).entriesLawful := by
  refine entriesLawful_of hs (entriesFrom_of_pool rfl) (fun _ k _ held output => ⟨?_, output⟩) rfl
  rw [holds_iff] at held ⊢
  rw [dropWaits_claim]
  exact held

theorem dropClaims_entriesLawful (hs : s.entriesLawful) {p : PortId} : (s.dropClaims p).entriesLawful := by
  refine List.foldlRecOn (motive := State.entriesLawful) _ _ (dropWaits_entriesLawful hs) fun t ht r _ => ?_
  split
  · exact endClaim_entriesLawful ht
  · exact ht

theorem clearRow_entriesLawful (hs : s.entriesLawful) {p : PortId} : (s.clearRow p).entriesLawful :=
  entriesLawful_congr hs rfl rfl rfl rfl

theorem portResetBody_entriesLawful (hs : s.entriesLawful) {p : PortId} : (portResetBody p s).1.entriesLawful :=
  setPort_entriesLawful (clearRow_entriesLawful (dropClaims_entriesLawful hs))

/-! ## Lines and capture -/

/-- A line takes another record: one with an entry stays in OUTPUT. -/
theorem changeLine_entriesLawful (hs : s.entriesLawful) {n : LineId} {x : LineRec}
    (hx : s.occupied n → x.mode = .output) : (s.changeLine n x).entriesLawful := by
  have same := changeLine_unlined s n x
  refine entriesLawful_of hs (entriesFrom_of_pool (unlined_pool same)) (fun i k hk held output => ⟨?_, ?_⟩)
    (unlined_phase same)
  · rw [unlined_holds same]
    exact held
  · rw [changeLine_line]
    split
    · rename_i e
      rw [unlined_entry same] at hk
      exact hx ⟨i, k, hk, e.symm⟩
    · exact output

theorem lineConfigBody_entriesLawful (hs : s.entriesLawful) {p : PortId} {line mode level filter : Byte} :
    (lineConfigBody p line mode level filter s).1.entriesLawful := by
  unfold lineConfigBody
  split
  · rename_i n m lev f _ _ _ _
    split
    · exact hs
    · split
      · exact hs
      · split
        · exact hs
        · rename_i free
          refine changeLine_entriesLawful hs fun occ => ?_
          have output : m = .output := by
            by_contra hm
            exact free ⟨(lineOccupied_iff s n).2 occ, hm⟩
          exact output
  · exact hs

theorem subscribeBody_entriesLawful (hs : s.entriesLawful) {p : PortId} {line sel : Byte} :
    (subscribeBody p line sel s).1.entriesLawful := by
  unfold subscribeBody
  split
  · exact entriesLawful_congr hs rfl rfl rfl rfl
  · exact hs

/-! ## POST -/

/-- A new entry lies on a line in OUTPUT whose claim its owner holds (R60). -/
theorem writeEntry_entriesLawful (hs : s.entriesLawful) {p : PortId} {i : SlotId} {q : PostRequest}
    (ready : s.phase = .ready) (held : s.holds p (lineRes q.line) = true) (output : (s.line q.line).mode = .output) :
    (s.writeEntry p i q).entriesLawful := by
  refine ⟨fun j k hk => ?_, fun hp => absurd ready hp⟩
  have entry : (s.writeEntry p i q).entry j = if i = j then some ⟨p, q.line, q.tag, s.postOrder, q.anchor, 0, 0,
      firstStatus q.body.timing⟩ else s.entry j := setSlot_entry ..
  rw [entry] at hk
  split at hk
  · cases hk
    exact ⟨held, output⟩
  · exact hs.1 j k hk

theorem postBody_entriesLawful (hs : s.entriesLawful) (ready : s.phase = .ready) {p : PortId} {b : PostBlock} :
    (postBody p b s).1.entriesLawful := by
  unfold postBody
  split
  · exact hs
  · split
    · exact hs
    · rename_i held
      split
      · exact hs
      · rename_i output
        split
        · exact hs
        · split
          · exact hs
          · split
            · exact hs
            · exact (treatPending_scheduled ..).calm.mild.entriesLawful
                (writeEntry_entriesLawful hs ready (by simpa using held) (Classical.not_not.1 output))

/-! ## The maintenance unit -/

theorem setMaint_entriesLawful (hs : s.entriesLawful) {x : Maint} : (s.setMaint x).entriesLawful :=
  entriesLawful_congr hs rfl rfl rfl rfl

theorem enterDirect_entriesLawful (hs : s.entriesLawful) : s.enterDirect.1.entriesLawful := by
  unfold State.enterDirect
  split
  · dsimp only
    split
    · exact ((suspendTrains_scheduled _).trans (drainExpire_scheduled _)).calm.mild.entriesLawful
        (setMaint_entriesLawful hs)
    · exact (suspendTrains_scheduled _).calm.mild.entriesLawful (setMaint_entriesLawful hs)
  · exact ((suspendTrains_scheduled _).trans (offerAll_scheduled ..)).calm.mild.entriesLawful
      (setMaint_entriesLawful hs)

theorem enterDirectBody_entriesLawful (hs : s.entriesLawful) {p : PortId} : (enterDirectBody p s).1.entriesLawful := by
  unfold enterDirectBody
  split
  · exact hs
  · split
    · exact hs
    · split
      · exact hs
      · exact enterDirect_entriesLawful hs

theorem exitDirectBody_entriesLawful (hs : s.entriesLawful) {p : PortId} : (exitDirectBody p s).1.entriesLawful := by
  unfold exitDirectBody
  split
  · exact hs
  · split
    · exact hs
    · exact (returnToRun_cleared ..).entriesLawful hs

theorem setLine_entriesLawful (hs : s.entriesLawful) {n : LineId} {x : LineRec} (hx : x.mode = (s.line n).mode) :
    (s.setLine n x).entriesLawful := by
  refine entriesLawful_of hs (entriesFrom_of_pool rfl) (fun _ k _ held output => ⟨held, ?_⟩) rfl
  rw [setLine_line]
  split
  · rename_i e
    subst e
    exact hx.trans output
  · exact output

theorem directDriveBody_entriesLawful (hs : s.entriesLawful) {p : PortId} {line drive : Byte} :
    (directDriveBody p line drive s).1.entriesLawful := by
  unfold directDriveBody
  split
  · split
    · exact hs
    · split
      · exact hs
      · split
        · exact hs
        · exact setLine_entriesLawful hs rfl
  · exact hs

/-- Lines without an entry enter TEST. -/
theorem enterTests_entriesLawful (hs : s.entriesLawful) (l : List LineId) (free : ∀ n ∈ l, ¬ s.occupied n) :
    (l.foldl (fun s m => s.enterTest m) s).entriesLawful := by
  induction l generalizing s with
  | nil => exact hs
  | cons n l ih =>
    have same := enterTest_unlined s n
    refine ih (changeLine_entriesLawful hs fun occ => absurd occ (free n (.head _))) fun m hm => ?_
    rintro ⟨i, k, hk, hl⟩
    exact free m (.tail _ hm) ⟨i, k, (unlined_entry same i).symm.trans hk, hl⟩

/-- A check tests no line that has an entry (R133). -/
theorem startCheck_entriesLawful (hs : s.entriesLawful) {p : PortId} {tested : LineSet}
    (free : ∀ n, inSet tested n = true → ¬ s.occupied n) : (s.startCheck p tested).entriesLawful := by
  unfold State.startCheck
  split
  · exact hs
  · exact enterTests_entriesLawful (setMaint_entriesLawful hs) _ fun n hn => free n (List.mem_filter.1 hn).2

theorem lineCheckBody_entriesLawful (hs : s.entriesLawful) {p : PortId} {tested : LineSet} :
    (lineCheckBody p tested s).1.entriesLawful := by
  unfold lineCheckBody
  split
  · exact hs
  · split
    · exact hs
    · split
      · exact hs
      · split
        · exact hs
        · split
          · exact hs
          · split
            · exact hs
            · rename_i free
              refine startCheck_entriesLawful hs fun n hn occ => free ?_
              refine List.any_eq_true.2 ⟨n, List.mem_finRange n, ?_⟩
              rw [hn, (lineOccupied_iff s n).2 occ]
              rfl

/-- The end of a check changes lines in TEST only. -/
theorem endCheck_entriesLawful (hs : s.entriesLawful) {p : PortId} {r : CheckResult} {notify : Bool} :
    (s.endCheck p r notify).entriesLawful := by
  have same := endCheck_unchecked s p r notify
  refine entriesLawful_of hs (entriesFrom_of_pool (unchecked_pool same)) (fun i k _ held output => ⟨?_, ?_⟩)
    (unchecked_phase same)
  · rw [holds_iff] at held ⊢
    rw [unchecked_claim same]
    exact held
  · rw [endCheck_line s p r notify _ (by rw [output]; nofun)]
    exact output

theorem windowEvent_entriesLawful (hs : s.entriesLawful) : s.windowEvent.entriesLawful := by
  unfold State.windowEvent
  split
  · split
    · unfold State.windowEnds
      dsimp only
      split
      · exact setMaint_entriesLawful hs
      · exact setMaint_entriesLawful hs
      · split
        · exact setMaint_entriesLawful hs
        · exact endCheck_entriesLawful hs
    · exact hs
  · exact hs
  · exact hs

theorem abortCheckBody_entriesLawful (hs : s.entriesLawful) {p : PortId} : (abortCheckBody p s).1.entriesLawful := by
  unfold abortCheckBody
  split
  · exact hs
  · split
    · exact hs
    · exact (abortCheck_cleared s true).entriesLawful hs

/-! ## Resets, LOADING and the profile store -/

theorem entry_replicate (h : s.pool = Vector.replicate 128 Slot.free) (i : SlotId) : s.entry i = none := by
  simp only [State.entry, State.slot, h, Vector.getElem_replicate, Slot.free]

theorem softReset_pool (s : State) : s.softReset.pool = Vector.replicate 128 Slot.free := by
  have swept : s.sweep.softLines.pool = Vector.replicate 128 Slot.free := unlined_pool (softLines_unlined s.sweep)
  unfold State.softReset
  generalize s.sweep.softLines = t at swept
  exact swept

theorem softResetBody_entriesLawful (hs : s.entriesLawful) {p : PortId} : (softResetBody p s).1.entriesLawful := by
  unfold softResetBody
  split
  · exact hs
  · exact entriesLawful_empty (entry_replicate (softReset_pool s))

theorem withPhase_entry {x : Phase} {i : SlotId} : State.entry { s with phase := x } i = s.entry i := rfl

/-- LOADING finds no entry and makes none. -/
theorem loadStep_entry (h : ∀ i, s.entry i = none) (k : Nat) (i : SlotId) : (s.loadStep k).entry i = none := by
  unfold State.loadStep
  split
  · exact h i
  · exact h i
  · rw [withPhase_entry, unlined_entry (leaveOff_unlined s)]
    exact h i
  · exact h i
  · rw [withPhase_entry]
    cases hk : s.startLink.entry i with
    | none => rfl
    | some x =>
      obtain ⟨y, hy, -⟩ := (startLink_calm s).entries i x hk
      exact nomatch (h i).symm.trans hy
  · exact h i
  · exact h i
  · exact h i

/-- At a hub that is READY all seven steps are done. -/
theorem load_ready (h : s.phase = .ready) (last : Nat) : s.load last = s := by
  have none_ : [1, 2, 3, 4, 5, 6, 7].filter (fun k => decide (s.phase.stepsDone < k ∧ k ≤ last)) = [] := by
    rw [h]
    rfl
  rw [State.load, none_]
  rfl

theorem load_entriesLawful (hs : s.entriesLawful) (last : Nat) : (s.load last).entriesLawful := by
  by_cases ready : s.phase = .ready
  · rw [load_ready ready]
    exact hs
  · exact entriesLawful_empty (List.foldlRecOn (motive := fun t : State => ∀ i, t.entry i = none) _ _ (hs.2 ready)
      fun t ht k _ => loadStep_entry ht k)

theorem programStore_entriesLawful (hs : s.entriesLawful) {bits : List Host.Cell} :
    (s.programStore bits).entriesLawful := entriesLawful_congr hs rfl rfl rfl rfl

theorem profileWriteBody_entriesLawful (hs : s.entriesLawful) {p : PortId} {slot offset byte : Byte} :
    (profileWriteBody p slot offset byte s).1.entriesLawful := by
  unfold profileWriteBody
  split
  · exact hs
  · split
    · exact hs
    · split
      · exact hs
      · split
        · exact hs
        · split
          · exact hs
          · exact programStore_entriesLawful hs

theorem profileSealBody_entriesLawful (hs : s.entriesLawful) {p : PortId} {slot : Byte} :
    (profileSealBody p slot s).1.entriesLawful := by
  unfold profileSealBody
  split
  · exact hs
  · split
    · exact hs
    · split
      · exact hs
      · split
        · exact hs
        · exact programStore_entriesLawful hs

theorem profileRetireBody_entriesLawful (hs : s.entriesLawful) {p : PortId} {slot : Byte} :
    (profileRetireBody p slot s).1.entriesLawful := by
  unfold profileRetireBody
  split
  · exact hs
  · split
    · exact hs
    · split
      · exact hs
      · split
        · exact hs
        · exact programStore_entriesLawful hs

theorem busyEnd_entriesLawful (hs : s.entriesLawful) : s.busyEnd.entriesLawful := by
  unfold State.busyEnd
  split
  · exact entriesLawful_congr hs rfl rfl rfl rfl
  · exact hs

/-! ## Every command -/

theorem exec_entriesLawful (i : Instr) (s : State) (hs : s.entriesLawful) :
    ∃ t, exec i s = .next t ∧ t.entriesLawful := by
  by_cases hi : isMild i = true
  · obtain ⟨t, e, h⟩ := exec_mild hi s
    exact ⟨t, e, h.entriesLawful hs⟩
  cases i with
  | pinReset => exact ⟨_, rfl, entriesLawful_empty (entry_replicate rfl)⟩
  | loading last => exact ⟨_, rfl, load_entriesLawful hs last⟩
  | claim => exact ⟨_, rfl, take_entriesLawful hs fun _ => claimBody_entriesLawful hs⟩
  | release => exact ⟨_, rfl, take_entriesLawful hs fun _ => releaseBody_entriesLawful hs⟩
  | renew => exact ⟨_, rfl, take_entriesLawful hs fun _ => renewBody_entriesLawful hs⟩
  | leaseExpiry => exact ⟨_, rfl, expireLease_entriesLawful hs⟩
  | waitDeadline => exact ⟨_, rfl, expireWait_entriesLawful hs⟩
  | lineConfig => exact ⟨_, rfl, take_entriesLawful hs fun _ => lineConfigBody_entriesLawful hs⟩
  | subscribe => exact ⟨_, rfl, take_entriesLawful hs fun _ => subscribeBody_entriesLawful hs⟩
  | post => exact ⟨_, rfl, take_entriesLawful hs fun ready => postBody_entriesLawful hs ready⟩
  | enterDirect => exact ⟨_, rfl, take_entriesLawful hs fun _ => enterDirectBody_entriesLawful hs⟩
  | exitDirect => exact ⟨_, rfl, take_entriesLawful hs fun _ => exitDirectBody_entriesLawful hs⟩
  | directDrive => exact ⟨_, rfl, take_entriesLawful hs fun _ => directDriveBody_entriesLawful hs⟩
  | lineCheck => exact ⟨_, rfl, take_entriesLawful hs fun _ => lineCheckBody_entriesLawful hs⟩
  | checkWindowEnd => exact ⟨_, rfl, windowEvent_entriesLawful hs⟩
  | abortCheck => exact ⟨_, rfl, take_entriesLawful hs fun _ => abortCheckBody_entriesLawful hs⟩
  | softReset => exact ⟨_, rfl, take_entriesLawful hs fun _ => softResetBody_entriesLawful hs⟩
  | portReset => exact ⟨_, rfl, take_entriesLawful hs fun _ => portResetBody_entriesLawful hs⟩
  | profileWrite => exact ⟨_, rfl, take_entriesLawful hs fun _ => profileWriteBody_entriesLawful hs⟩
  | profileSeal => exact ⟨_, rfl, take_entriesLawful hs fun _ => profileSealBody_entriesLawful hs⟩
  | profileRetire => exact ⟨_, rfl, take_entriesLawful hs fun _ => profileRetireBody_entriesLawful hs⟩
  | profileBusyEnd => exact ⟨_, rfl, busyEnd_entriesLawful hs⟩
  | _ => exact absurd rfl hi

/-- Settles O59: a tick touches neither claims nor lines nor the pool, and every command keeps the law. -/
theorem everyStepKeepsEntryLaw : Obligations.EveryStepKeepsEntryLaw := by
  intro s t
  refine step_keeps (fun _ _ h => h) (fun s hs => ?_) exec_entriesLawful
  obtain ⟨_, _, _, _, e⟩ := tick_fields s
  rw [e]
  exact hs

end Sys2Proof.Machine
end

section
/-! PROOFS. The step, the tick and the rows that it brings (R38, R39, R98). -/

namespace Sys2Proof.Machine

/-- Settles O1: the front of the queue decides the case of `step`. -/
theorem stepTakesFrontCommand : Obligations.StepTakesFrontCommand := fun _ _ _ h => step_command h

theorem isTickRow_false {c : Instr} (h : isTickRow c = false) :
    c ≠ .countAdvance ∧ (∀ x l, c ≠ .lineSample x l) ∧ ∀ n, c ≠ .edgeAccepted n := by
  refine ⟨?_, fun x l => ?_, fun n => ?_⟩
  all_goals
    rintro rfl
    cases h

/-- Settles O2: the queue of a tick in the order that every weaving keeps. -/
theorem emptyQueueTick : Obligations.EmptyQueueTick := by
  intro s hq
  refine ⟨fun hp => ?_, fun hp => ?_⟩
  · rw [step_idle hq, tick_held hp]
  · obtain ⟨a, b, c, held, level, order, perm, queue, rest⟩ := tickQueue_order s.clock
    refine ⟨a, b, c, held, level, order, perm, ?_, fun x hx => isTickRow_false (rest x hx)⟩
    rw [step_idle hq, tick_runs hp, queue]
    rfl

/-! ## The rows of a tick -/

theorem reached_iff {now : Nat} {o : Option Nat} : reached now o = true ↔ ∃ e ≤ now, o = some e := by
  cases o <;> simp [reached]

/-- A row of a timer is in the queue of a tick by the rows of the timers alone. -/
theorem mem_tickQueue_timer (s : State) {c : Instr} (h : isTickRow c = false) :
    c ∈ s.tickQueue ↔ c ∈ s.timerRows.flatten := by
  obtain ⟨notAdvance, notSample, notEdge⟩ := isTickRow_false h
  rw [mem_tickQueue, List.mem_flatten]
  refine ⟨fun k => ?_, fun k => .inr (.inr k)⟩
  obtain e | e | e := k
  · exact absurd e notAdvance
  · obtain e | e := List.mem_cons.1 e
    · exact absurd e (notSample _ _)
    · obtain ⟨n, -, e⟩ := List.mem_map.1 e
      exact absurd e.symm (notEdge n)
  · exact e

theorem mem_dueRow_flatten {b : Bool} {l : List Instr} {c : Instr} :
    c ∈ (dueRow b l).flatten ↔ b = true ∧ c ∈ l := by
  cases b <;> simp [dueRow]

theorem mem_flatMap_flatten {α : Type} {l : List α} {f : α → List (List Instr)} {c : Instr} :
    c ∈ (l.flatMap f).flatten ↔ ∃ a ∈ l, c ∈ (f a).flatten := by
  simp only [List.mem_flatten, List.mem_flatMap]
  grind

theorem mem_claimRows (s : State) (c : Instr) : c ∈ s.claimRows.flatten ↔
    (∃ r, c = .leaseExpiry r ∧ ∃ e ≤ s.elapsed, (s.claim r).expiry = some e) ∨
      ∃ r, c = .waitDeadline r ∧ ∃ w ∈ (s.claim r).waiters, w.deadline ≤ s.elapsed := by
  have waits (r : ResourceId) : c ∈ ((s.claim r).waiters.filter (fun w => decide (w.deadline ≤ s.elapsed))).map
      (fun _ => Instr.waitDeadline r) ↔ c = .waitDeadline r ∧ ∃ w ∈ (s.claim r).waiters, w.deadline ≤ s.elapsed := by
    simp only [List.mem_map, List.mem_filter, decide_eq_true_eq]
    exact ⟨fun ⟨w, h, e⟩ => ⟨e.symm, w, h⟩, fun ⟨e, w, h⟩ => ⟨w, h, e.symm⟩⟩
  simp only [State.claimRows, mem_flatMap_flatten, List.flatten_append, List.mem_append, mem_dueRow_flatten, allResources,
    List.mem_finRange, true_and, reached_iff, List.mem_singleton, waits, exists_or, and_comm]

/-- A due time of an entry. -/
theorem entry_due {f : Header → Option Nat} {s : State} {i : SlotId} :
    (∃ e ≤ s.elapsed, (s.entry i).bind f = some e) ↔ ∃ h, s.entry i = some h ∧ ∃ e ≤ s.elapsed, f h = some e := by
  cases s.entry i <;> simp

theorem mem_runRows (s : State) (c : Instr) : c ∈ s.runRows.flatten ↔
    (∃ i, c = .pulseEnd i ∧ ∃ h, s.entry i = some h ∧ ∃ e ≤ s.elapsed, h.status.pulseEnd = some e) ∨
      ∃ i, c = .trainBoundary i ∧ ∃ h, s.entry i = some h ∧ ∃ e ≤ s.elapsed, h.status.nextBoundary = some e := by
  simp only [State.runRows, mem_flatMap_flatten, List.flatten_append, List.mem_append, mem_dueRow_flatten, allSlots,
    List.mem_finRange, true_and, reached_iff, List.mem_singleton, entry_due, exists_or, and_comm]

theorem mem_unitRows (s : State) (c : Instr) : c ∈ s.unitRows.flatten ↔
    (c = .drainLimitExpiry ∧ s.maint.mode = .draining ∧ ∃ e ≤ s.elapsed, s.maint.drainDeadline = some e) ∨
    (c = .checkWindowEnd ∧ ∃ p, s.maint.check = .running p ∧ p.windowEnd ≤ s.elapsed) ∨
    (c = .scrubVisit ∧ ∃ e ≤ s.elapsed, s.integ.scrubDue = some e) ∨
    (c = .profileBusyEnd ∧ ∃ b, s.storeBusy = some b ∧ b.until_ ≤ s.elapsed) := by
  have busy : (∃ e ≤ s.elapsed, s.storeBusy.map (fun b => b.until_) = some e) ↔
      ∃ b, s.storeBusy = some b ∧ b.until_ ≤ s.elapsed := by
    cases s.storeBusy <;> simp
  simp only [State.unitRows, List.flatten_append, List.mem_append, mem_dueRow_flatten, Bool.and_eq_true, beq_iff_eq,
    reached_iff, busy, List.mem_singleton, or_assoc]
  cases s.maint.check <;> simp [and_comm]

theorem mem_slotRows (s : State) (c : Instr) : c ∈ s.slotRows ↔
    (c = .queryDue ∧ ∃ e ≤ s.elapsed, s.link.nextQuery = some e) ∨
    (c = .replyDeadline ∧ ∃ q, s.link.query = some q ∧ q.deadline ≤ s.elapsed) ∨
    (c = .wordSlot ∧ ∃ e ≤ s.elapsed, s.link.nextSlot = some e) := by
  have query : (∃ e ≤ s.elapsed, s.link.query.map (fun q => q.deadline) = some e) ↔
      ∃ q, s.link.query = some q ∧ q.deadline ≤ s.elapsed := by
    cases s.link.query <;> simp
  simp only [State.slotRows, List.flatten_append, List.mem_append, mem_dueRow_flatten, reached_iff, query,
    List.mem_singleton, or_assoc, and_comm]

theorem linkDeadline_iff (s : State) (st : LinkState) :
    s.linkDeadline st = true ↔ s.link.state = st ∧ ∃ e ≤ s.elapsed, s.link.deadline = some e := by
  simp only [State.linkDeadline, State.linkIn, Bool.and_eq_true, beq_iff_eq, reached_iff]

theorem mem_linkRows (s : State) (c : Instr) : c ∈ s.linkRows.flatten ↔
    ((c = .retrainDownEnd ∨ c = .wordSlot) ∧ s.link.state = .down ∧ ∃ e ≤ s.elapsed, s.link.deadline = some e) ∨
    ((c = .holdoffEnd ∨ c = .wordSlot) ∧ s.link.state = .holdoff ∧ ∃ e ≤ s.elapsed, s.link.deadline = some e) ∨
    (c = .aligningDeadline ∧ s.link.state = .aligning ∧ ∃ e ≤ s.elapsed, s.link.deadline = some e) ∨
    ((c = .finalAbilitySent ∨ c = .wordSlot) ∧ ∃ e ≤ s.elapsed, s.link.finalEnd = some e) ∨
    c ∈ s.slotRows ∨
    (c = .followerSilenceDeadline ∧ ∃ e ≤ s.elapsed, s.link.silence = some e) := by
  simp only [State.linkRows, List.flatten_append, List.mem_append, mem_dueRow_flatten, linkDeadline_iff, reached_iff,
    List.mem_cons, List.not_mem_nil, or_false, true_and, or_assoc, and_comm]

/-- The timer rows, unit by unit. -/
theorem mem_timerRows (s : State) (c : Instr) : c ∈ s.timerRows.flatten ↔
    c ∈ s.claimRows.flatten ∨ c ∈ s.runRows.flatten ∨ c ∈ s.unitRows.flatten ∨ c ∈ s.linkRows.flatten := by
  simp only [State.timerRows, List.flatten_append, List.mem_append, or_assoc]

/-! ## The word slot stands behind what makes a query due -/

theorem tail_nil_of_append {α : Type} {pre a b : List α} {w : α} (h : pre ++ [w] = a ++ w :: b) (hw : w ∉ pre) : b = [] := by
  induction a generalizing pre with
  | nil =>
    cases pre with
    | nil => exact (List.cons.inj h).2.symm
    | cons x t => exact absurd ((List.cons.inj h).1 ▸ List.mem_cons_self) hw
  | cons x a ih =>
    cases pre with
    | nil => simp at h
    | cons y t => exact ih (List.cons.inj h).2 fun k => hw (.tail _ k)

/-- What stands before the word slot among the rows of a slot. -/
def State.queryRows (s : State) : List Instr :=
  (dueRow (reached s.elapsed s.link.nextQuery) [.queryDue] ++
    dueRow (reached s.elapsed (s.link.query.map (fun q => q.deadline))) [.replyDeadline]).flatten

theorem slotRows_eq (s : State) :
    s.slotRows = s.queryRows ++ (dueRow (reached s.elapsed s.link.nextSlot) [.wordSlot]).flatten := by
  simp only [State.slotRows, State.queryRows, List.flatten_append]

theorem wordSlot_not_mem_queryRows (s : State) : .wordSlot ∉ s.queryRows := by
  simp only [State.queryRows, List.flatten_append, List.mem_append, mem_dueRow_flatten]
  rintro (⟨-, h⟩ | ⟨-, h⟩)
  · cases List.mem_singleton.1 h
  · cases List.mem_singleton.1 h

/-- Behind a word slot no row of the tick makes a query due. -/
theorem slotRows_behind {s : State} {a b : List Instr} (h : s.slotRows = a ++ .wordSlot :: b) : b = [] := by
  rw [slotRows_eq] at h
  cases hr : reached s.elapsed s.link.nextSlot with
  | true =>
    rw [hr] at h
    exact tail_nil_of_append h (wordSlot_not_mem_queryRows s)
  | false =>
    rw [hr, dueRow, if_neg (by decide), List.flatten_nil, List.append_nil] at h
    exact absurd (h ▸ List.mem_append_right a (.head b)) (wordSlot_not_mem_queryRows s)

theorem tickQueue_behind {s : State} (hl : s.link.state = .aligning ∨ s.link.state = .locked)
    (final : s.link.finalEnd = none) {x y : List Instr} (h : s.tickQueue = x ++ .wordSlot :: y) :
    .queryDue ∉ y ∧ .replyDeadline ∉ y := by
  have notIn (st : LinkState) (hd : st ≠ .aligning) (hk : st ≠ .locked) : s.linkDeadline st = false := by
    rw [← Bool.not_eq_true, linkDeadline_iff]
    rintro ⟨e, -⟩
    obtain k | k := hl
    · exact hd (e.symm.trans k)
    · exact hk (e.symm.trans k)
  have rows := tickQueue_slot s (notIn .down (by decide) (by decide)) (notIn .holdoff (by decide) (by decide)) final
  rw [h, List.filter_append, List.filter_cons_of_pos rfl] at rows
  have empty := slotRows_behind rows.symm
  rw [List.filter_eq_nil_iff] at empty
  exact ⟨fun k => empty _ k rfl, fun k => empty _ k rfl⟩

section
variable (s : State)
@[simp] theorem clock_elapsed : s.clock.elapsed = s.elapsed + 1 := rfl
@[simp] theorem clock_claim (r : ResourceId) : s.clock.claim r = s.claim r := rfl
@[simp] theorem clock_entry (i : SlotId) : s.clock.entry i = s.entry i := rfl
@[simp] theorem clock_maint : s.clock.maint = s.maint := rfl
@[simp] theorem clock_integ : s.clock.integ = s.integ := rfl
@[simp] theorem clock_link : s.clock.link = s.link := rfl
@[simp] theorem clock_storeBusy : s.clock.storeBusy = s.storeBusy := rfl
end

theorem mem_tickRow {s t : State} (queue : t.pending = s.tickQueue) {c : Instr} (h : isTickRow c = false) :
    c ∈ t.pending ↔ c ∈ s.claimRows.flatten ∨ c ∈ s.runRows.flatten ∨ c ∈ s.unitRows.flatten ∨
      c ∈ s.linkRows.flatten := by
  rw [queue, mem_tickQueue_timer s h, mem_timerRows]

theorem step_rows {s : State} (hq : s.pending = []) (hp : s.phase ≠ .pinReset) :
    ∃ t : State, step s = .next t ∧ t.pending = s.clock.tickQueue :=
  ⟨{ s.clock with pending := s.clock.tickQueue }, by rw [step_idle hq, tick_runs hp], rfl⟩

/-- Settles O3: the rows of each unit, and of the rows of a slot the word slot is the last. -/
theorem tickBringsDueTimers : Obligations.TickBringsDueTimers := by
  intro s hq hp
  obtain ⟨t, run, queue⟩ := step_rows hq hp
  have row {c : Instr} (h : isTickRow c = false) := mem_tickRow queue h
  simp only [mem_claimRows, mem_runRows, mem_unitRows, mem_linkRows, mem_slotRows, clock_elapsed, clock_claim,
    clock_entry, clock_maint, clock_integ, clock_link, clock_storeBusy] at row
  refine ⟨t, run, fun r => ?_, fun r => ?_, fun i => ?_, fun i => ?_, ?_, ?_, ?_, ?_, ?_, ?_, ?_, ?_, ?_, ?_, ?_,
    fun due => (row rfl).2 (by simp [due]),
    fun hl final x y h => tickQueue_behind (s := s.clock) hl final (queue.symm.trans h)⟩
  all_goals exact (row rfl).trans (by simp)

end Sys2Proof.Machine
end

section
/-! PROOFS. The values at pin reset, the admission of records, the waits that time out, and SUBSCRIBE (R24, R104, R114,
R115, R180). -/

namespace Sys2Proof.Machine

/-! ## Counters that stop -/

theorem sat8_eq (x : Byte) : sat8 x = if x = 255 then 255 else x + 1 := by
  by_cases h : x = 255
  · subst h
    rfl
  · exact (if_neg h).trans (if_neg h).symm

theorem sat16_eq (x : BitVec 16) : sat16 x = if x = 65535 then 65535 else x + 1 := by
  by_cases h : x = 65535
  · subst h
    rfl
  · exact (if_neg h).trans (if_neg h).symm

/-! ## A command's answer -/

theorem take_data {s t : State} {p : PortId} {code : Byte} {params : List Byte} {body : State → State × Reply}
    {d : List Byte} (h : s.readyFor p code params) (hb : body s = (t, replyData d)) :
    s.take p code params body = t.answered p (0x01 :: d) := by
  rw [take_of_readyFor h, hb]
  exact respond_data ..

/-! ## Admission (R114, R115) -/

section
variable {q : Port} {r : Record}

theorem enqueue_capture (h : r.isCapture = true) (room : q.queue.length < 32) :
    q.enqueue r = { q with queue := q.queue ++ [r.withLost q.lost], lost := 0 } := by
  rw [Port.enqueue, if_pos h, if_pos room]

theorem enqueue_capture_lost (h : r.isCapture = true) (full : 32 ≤ q.queue.length) :
    q.enqueue r = { q with lost := sat8 q.lost } := by
  rw [Port.enqueue, if_pos h, if_neg (Nat.not_lt.2 full)]

theorem enqueue_other (h : r.isCapture = false) (room : q.queue.length < 40) :
    q.enqueue r = { q with queue := q.queue ++ [r] } := by
  rw [Port.enqueue, if_neg (h ▸ Bool.false_ne_true), if_pos room]

theorem enqueue_other_lost (h : r.isCapture = false) (full : 40 ≤ q.queue.length) :
    q.enqueue r = { q with overrun := sat8 q.overrun, overrunLatch := true } := by
  rw [Port.enqueue, if_neg (h ▸ Bool.false_ne_true), if_neg (Nat.not_lt.2 full)]

end

theorem isCapture_false {r : Record} (h : r.kind ≠ .capture) : r.isCapture = false := beq_false_of_ne h

/-- Settles O13: each branch of the admission, by the kind of the record. -/
theorem admission : Obligations.Admission := by
  intro s p r
  refine ⟨?_, fun hk => ⟨fun room => ?_, fun full => ?_⟩, ?_, rfl⟩
  · rintro l e t ep h st rem n rfl
    refine ⟨fun room => ?_, fun full => ?_⟩
    · rw [State.offer, enqueue_capture rfl room]
      rfl
    · rw [State.offer, enqueue_capture_lost rfl full, sat8_eq]
  · rw [State.offer, enqueue_other (isCapture_false hk) room]
  · rw [State.offer, enqueue_other_lost (isCapture_false hk) full, sat8_eq]
  · rw [offerAll_port, offer_port, if_pos rfl]

/-! ## Pin reset -/

theorem reset_port (p : PortId) : State.reset.port p = Port.pinReset false := Vector.getElem_replicate ..
theorem reset_claim (r : ResourceId) : State.reset.claim r = ClaimRec.free := Vector.getElem_replicate ..
theorem reset_line (n : LineId) : State.reset.line n = LineRec.pinReset := Vector.getElem_replicate ..
theorem reset_filter (n : LineId) : State.reset.filter n = Filter.pinReset := Vector.getElem_replicate ..
theorem reset_slot (i : SlotId) : State.reset.slot i = Slot.free := Vector.getElem_replicate ..
theorem reset_errors (p : PortId) : State.reset.errors p = ErrorCounters.pinReset := Vector.getElem_replicate ..
theorem reset_entry (i : SlotId) : State.reset.entry i = none := by rw [State.entry, reset_slot]; rfl

theorem reset_cell (p : PortId) (l : AnyLine) : State.reset.cell p l = .none := by
  have row : State.reset.subs[p.val] = Vector.replicate 32 .none := Vector.getElem_replicate ..
  rw [State.cell, row]
  exact Vector.getElem_replicate ..

theorem slotsInUse_empty {s : State} (h : ∀ i, s.entry i = none) (p : PortId) : s.slotsInUse p = 0 := by
  rw [State.slotsInUse, filter_slots_none fun i => by rw [h i]; rfl]
  rfl

/-- Settles O5: the state at pin reset, block by block. -/
theorem resetValues : Obligations.ResetValues := by
  refine ⟨rfl, rfl, fun p => ?_, reset_claim, fun n => ?_, reset_cell, rfl, rfl, rfl, rfl, reset_slot, rfl,
    fun p => ⟨Vector.getElem_replicate .., slotsInUse_empty reset_entry p⟩, rfl, reset_errors, rfl, rfl, rfl, rfl, rfl,
    rfl, rfl, rfl, rfl, rfl, rfl, rfl, rfl, rfl, rfl, fun p => ?_, fun r => ?_, modeLawful_run rfl, ?_,
    entriesLawful_empty reset_entry⟩
  · simp only [reset_port]
    exact ⟨rfl, rfl, rfl, rfl, rfl, rfl, rfl, rfl, fun _ => rfl⟩
  · simp only [State.drive, State.pinLevel, reset_line, reset_filter]
    exact ⟨rfl, rfl, rfl, rfl, rfl⟩
  · rw [reset_port]
    exact ⟨Nat.zero_le _, Nat.zero_le _⟩
  · exact ClaimRec.lawful_of_no_waiters (by rw [reset_claim]; rfl)
  · exact ⟨⟨.nil, fun _ h => nomatch h⟩, fun _ h => nomatch h⟩

/-! ## Waits (R24) -/

theorem timeOut_none {now : Nat} {l : List Waiter} (h : ∀ w ∈ l, now < w.deadline) : timeOut now l = none := by
  induction l with
  | nil => rfl
  | cons w t ih =>
    rw [timeOut, if_neg (Nat.not_le.2 (h w (.head t))), ih fun v hv => h v (.tail w hv)]
    rfl

theorem timeOut_first {now : Nat} {before after : List Waiter} {w : Waiter} (h : ∀ v ∈ before, now < v.deadline)
    (hw : w.deadline ≤ now) : timeOut now (before ++ w :: after) = some (w, before ++ after) := by
  induction before with
  | nil => rw [List.nil_append, timeOut, if_pos hw]; rfl
  | cons v t ih =>
    rw [List.cons_append, timeOut, if_neg (Nat.not_le.2 (h v (.head t))), ih fun x hx => h x (.tail v hx)]
    rfl

/-- Settles O19: the walk of `timeOut` along the waiters. -/
theorem waitTimesOut : Obligations.WaitTimesOut := by
  intro r s
  refine ⟨fun none_ => congrArg Host.Outcome.next ?_, fun before w after e h hw => congrArg Host.Outcome.next ?_⟩
  · rw [State.expireWait, timeOut_none none_]
  · rw [State.expireWait, e, timeOut_first h hw]

/-! ## SUBSCRIBE (R104) -/

theorem readAnyLine_none {b : Byte} (h : 31 < b.toNat) : readAnyLine b = none := dif_neg (by omega)

theorem readAnyLine_some {b : Byte} {l : AnyLine} (h : l.val = b.toNat) : readAnyLine b = some l := by
  rw [readAnyLine, dif_pos (h ▸ l.isLt)]
  exact congrArg some (Fin.ext h.symm)

theorem readSel_none {b : Byte} (h : 3 < b.toNat) : readSel b = none := by
  unfold readSel
  repeat rw [if_neg (by rintro rfl; exact absurd h (by decide))]

theorem readSel_some {b : Byte} (h : b.toNat ≤ 3) : readSel b =
    some (if b = 0 then .none else if b = 1 then .rise else if b = 2 then .fall else .both) := by
  have codes : b = 0 ∨ b = 1 ∨ b = 2 ∨ b = 3 := by bv_omega
  obtain rfl | rfl | rfl | rfl := codes <;> rfl

theorem subscribeBody_outOfRange {p : PortId} {line sel : Byte} {s : State} (h : 31 < line.toNat ∨ 3 < sel.toNat) :
    subscribeBody p line sel s = (s, reply .badParam) := by
  unfold subscribeBody
  obtain h | h := h
  · rw [readAnyLine_none h]
  · rw [readSel_none h]
    split <;> simp_all

theorem setCell_cell (s : State) (p q : PortId) (l k : AnyLine) (e : EdgeSel) :
    (s.setCell p l e).cell q k = if q = p ∧ k = l then e else s.cell q k := by
  show ((s.subs.set p.val ((s.subs[p.val]).set l.val e))[q.val])[k.val] = _
  rw [getElem_set_fin]
  by_cases hp : p = q
  · subst hp
    simp [getElem_set_fin, State.cell, eq_comm]
  · rw [if_neg hp, if_neg fun h => hp h.1.symm]
    rfl

/-- Settles O22: the range check, and the one cell that is written. -/
theorem subscribeOutcomes : Obligations.SubscribeOutcomes := by
  intro p line sel s hs
  refine ⟨fun h => congrArg Host.Outcome.next (take_answers hs (subscribeBody_outOfRange h)), fun l hl hsel => ?_⟩
  refine ⟨_, congrArg Host.Outcome.next (take_answers (c := .ok) (t := s.setCell p l _) hs ?_), rfl,
    fun q k => setCell_cell ..⟩
  rw [subscribeBody, readAnyLine_some hl, readSel_some hsel]

end Sys2Proof.Machine
end

section
/-! PROOFS. How the 37 commands are taken: each is one `take` whose body answers one result code, with data only under OK
(R169, R172, R173). -/

namespace Sys2Proof.Machine

/-! ## Replies that a READY hub gives -/

/-- A result code other than UNKNOWN_COMMAND, and data only with OK. -/
def Reply.fair (r : Reply) : Prop := r.code ≠ .unknownCommand ∧ (r.code ≠ .ok → r.data = [] ∧ r.records = 0)

theorem reply_fair {c : ResultCode} (h : c ≠ .unknownCommand) : (reply c).fair := ⟨h, fun _ => ⟨rfl, rfl⟩⟩

theorem ok_fair (d : List Byte) (k : Nat) : Reply.fair ⟨.ok, d, k⟩ := ⟨nofun, fun h => absurd rfl h⟩

theorem replyData_fair (d : List Byte) : (replyData d).fair := ok_fair d 0

theorem code_range (c : ResultCode) : c ≠ .unknownCommand → 1 ≤ c.code.toNat ∧ c.code.toNat ≤ 0x0D := by
  cases c <;> decide

/-- The byte of a fair reply's code. -/
theorem fair_code {r : Reply} (h : r.fair) :
    1 ≤ r.code.code.toNat ∧ r.code.code.toNat ≤ 0x0D ∧ (r.code.code ≠ 0x01 → r.data = [] ∧ r.records = 0) := by
  obtain ⟨known, plain⟩ := h
  obtain ⟨lo, hi⟩ := code_range r.code known
  exact ⟨lo, hi, fun n => plain fun e => n (by rw [e]; rfl)⟩

section
variable (p : PortId) (s : State)

theorem claimBody_fair (resource : Byte) (waitMs leaseMs : BitVec 16) :
    (claimBody p resource waitMs leaseMs s).2.fair := by
  unfold claimBody
  split
  · exact reply_fair nofun
  · dsimp only
    split
    · exact reply_fair nofun
    · repeat' split
      all_goals exact reply_fair nofun

theorem releaseBody_fair (resource : Byte) : (releaseBody p resource s).2.fair := by
  unfold releaseBody
  split
  · exact reply_fair nofun
  · dsimp only
    repeat' split
    all_goals exact reply_fair nofun

theorem renewBody_fair (resource : Byte) : (renewBody p resource s).2.fair := by
  unfold renewBody
  repeat' split
  all_goals exact reply_fair nofun

theorem queryClaimBody_fair (resource : Byte) : (queryClaimBody resource s).2.fair := by
  unfold queryClaimBody
  split
  · exact reply_fair nofun
  · exact replyData_fair _

theorem lineConfigBody_fair (line mode level filter : Byte) :
    (lineConfigBody p line mode level filter s).2.fair := by
  unfold lineConfigBody
  repeat' split
  all_goals exact reply_fair nofun

theorem subscribeBody_fair (line sel : Byte) : (subscribeBody p line sel s).2.fair := by
  unfold subscribeBody
  split <;> exact reply_fair nofun

theorem postBody_fair (b : PostBlock) : (postBody p b s).2.fair := by
  unfold postBody
  split
  · exact reply_fair nofun
  · repeat' split
    case _ => exact reply_fair nofun
    case _ => exact reply_fair nofun
    case _ => exact reply_fair nofun
    case _ => exact reply_fair nofun
    case _ => exact reply_fair nofun
    case _ => exact replyData_fair _

theorem cancelBody_fair (id : Byte) : (cancelBody p id s).2.fair := by
  unfold cancelBody
  repeat' split
  all_goals exact reply_fair nofun

theorem cancelLineBody_fair (line : Byte) : (cancelLineBody p line s).2.fair := by
  unfold cancelLineBody
  split
  · exact reply_fair nofun
  · exact replyData_fair _

theorem queryEntryBody_fair (id : Byte) : (queryEntryBody id s).2.fair := by
  unfold queryEntryBody
  split
  · exact reply_fair nofun
  · exact replyData_fair _

theorem tbRefusal_known {c : ResultCode} (h : tbRefusal p s = some c) : c = .notHolder ∨ c = .notLeader := by
  unfold tbRefusal at h
  split at h
  · exact .inl (Option.some.inj h).symm
  · split at h
    · exact .inr (Option.some.inj h).symm
    · cases h

theorem tbRefusal_fair {c : ResultCode} (h : tbRefusal p s = some c) : (reply c).fair := by
  obtain rfl | rfl := tbRefusal_known p s h
  · exact reply_fair nofun
  · exact reply_fair nofun

theorem setTimeBody_fair (count : Count) : (setTimeBody p count s).2.fair := by
  unfold setTimeBody
  split
  · exact tbRefusal_fair p s ‹_›
  · exact reply_fair nofun

theorem stepTimeBody_fair (offset : BitVec 40) : (stepTimeBody p offset s).2.fair := by
  unfold stepTimeBody
  split
  · exact reply_fair nofun
  · split
    · exact tbRefusal_fair p s ‹_›
    · exact reply_fair nofun

theorem runBody_fair (run : RunState) : (runBody p run s).2.fair := by
  unfold runBody
  split
  · exact tbRefusal_fair p s ‹_›
  · split <;> exact reply_fair nofun

theorem takeNoticesBody_fair (max : Byte) : (takeNoticesBody p max s).2.fair := by
  unfold takeNoticesBody
  split
  · exact reply_fair nofun
  · exact ok_fair ..

theorem enterDirect_fair : s.enterDirect.2.fair := by
  unfold State.enterDirect
  split <;> exact reply_fair nofun

theorem enterDirectBody_fair : (enterDirectBody p s).2.fair := by
  unfold enterDirectBody
  repeat' split
  case _ => exact reply_fair nofun
  case _ => exact reply_fair nofun
  case _ => exact reply_fair nofun
  case _ => exact enterDirect_fair s

theorem exitDirectBody_fair : (exitDirectBody p s).2.fair := by
  unfold exitDirectBody
  repeat' split
  all_goals exact reply_fair nofun

theorem directDriveBody_fair (line drive : Byte) : (directDriveBody p line drive s).2.fair := by
  unfold directDriveBody
  repeat' split
  all_goals exact reply_fair nofun

theorem lineCheckBody_fair (tested : LineSet) : (lineCheckBody p tested s).2.fair := by
  unfold lineCheckBody
  repeat' split
  all_goals exact reply_fair nofun

theorem abortCheckBody_fair : (abortCheckBody p s).2.fair := by
  unfold abortCheckBody
  repeat' split
  all_goals exact reply_fair nofun

theorem integrityClearBody_fair : (integrityClearBody p s).2.fair := by
  unfold integrityClearBody
  split <;> exact reply_fair nofun

theorem softResetBody_fair : (softResetBody p s).2.fair := by
  unfold softResetBody
  split <;> exact reply_fair nofun

theorem linkRetrainBody_fair : (linkRetrainBody p s).2.fair := by
  unfold linkRetrainBody
  repeat' split
  all_goals exact reply_fair nofun

theorem profileReadBody_fair (slot offset length : Byte) : (profileReadBody slot offset length s).2.fair := by
  unfold profileReadBody
  split
  · exact reply_fair nofun
  · split
    · exact reply_fair nofun
    · split
      · exact reply_fair nofun
      · exact replyData_fair _

theorem profileWriteBody_fair (slot offset byte : Byte) : (profileWriteBody p slot offset byte s).2.fair := by
  unfold profileWriteBody
  repeat' split
  all_goals exact reply_fair nofun

theorem profileSealBody_fair (slot : Byte) : (profileSealBody p slot s).2.fair := by
  unfold profileSealBody
  repeat' split
  all_goals exact reply_fair nofun

theorem profileRetireBody_fair (slot : Byte) : (profileRetireBody p slot s).2.fair := by
  unfold profileRetireBody
  repeat' split
  all_goals exact reply_fair nofun

end

/-! ## Every command -/

/-- A row is carried out as the `take` of a command whose body answers fairly. -/
def TakenAs (i : Instr) (p : PortId) (code : Byte) (params : List Byte) : Prop :=
  ∃ body : State → State × Reply, (∀ s, exec i s = .next (s.take p code params body)) ∧ ∀ s, (body s).2.fair

theorem exec_takenAs {i : Instr} {p : PortId} {code : Byte} {params : List Byte}
    (h : i.onPort = some (p, code, params)) : TakenAs i p code params := by
  cases i
  case claim => cases h; exact ⟨_, fun _ => rfl, fun s => claimBody_fair ..⟩
  case release => cases h; exact ⟨_, fun _ => rfl, fun s => releaseBody_fair ..⟩
  case renew => cases h; exact ⟨_, fun _ => rfl, fun s => renewBody_fair ..⟩
  case queryClaim => cases h; exact ⟨_, fun _ => rfl, fun s => queryClaimBody_fair ..⟩
  case lineConfig => cases h; exact ⟨_, fun _ => rfl, fun s => lineConfigBody_fair ..⟩
  case lineRead => cases h; exact ⟨_, fun _ => rfl, fun s => replyData_fair _⟩
  case subscribe => cases h; exact ⟨_, fun _ => rfl, fun s => subscribeBody_fair ..⟩
  case post => cases h; exact ⟨_, fun _ => rfl, fun s => postBody_fair ..⟩
  case cancel => cases h; exact ⟨_, fun _ => rfl, fun s => cancelBody_fair ..⟩
  case cancelLine => cases h; exact ⟨_, fun _ => rfl, fun s => cancelLineBody_fair ..⟩
  case queryEntry => cases h; exact ⟨_, fun _ => rfl, fun s => queryEntryBody_fair ..⟩
  case readTime => cases h; exact ⟨_, fun _ => rfl, fun s => replyData_fair _⟩
  case setTime => cases h; exact ⟨_, fun _ => rfl, fun s => setTimeBody_fair ..⟩
  case stepTime => cases h; exact ⟨_, fun _ => rfl, fun s => stepTimeBody_fair ..⟩
  case halt => cases h; exact ⟨_, fun _ => rfl, fun s => runBody_fair ..⟩
  case resume => cases h; exact ⟨_, fun _ => rfl, fun s => runBody_fair ..⟩
  case takeNotices => cases h; exact ⟨_, fun _ => rfl, fun s => takeNoticesBody_fair ..⟩
  case peekNotice => cases h; exact ⟨_, fun _ => rfl, fun s => replyData_fair _⟩
  case setAttnMask => cases h; exact ⟨_, fun _ => rfl, fun s => reply_fair nofun⟩
  case snapshot => cases h; exact ⟨_, fun _ => rfl, fun s => replyData_fair _⟩
  case enterDirect => cases h; exact ⟨_, fun _ => rfl, fun s => enterDirectBody_fair ..⟩
  case exitDirect => cases h; exact ⟨_, fun _ => rfl, fun s => exitDirectBody_fair ..⟩
  case directDrive => cases h; exact ⟨_, fun _ => rfl, fun s => directDriveBody_fair ..⟩
  case lineCheck => cases h; exact ⟨_, fun _ => rfl, fun s => lineCheckBody_fair ..⟩
  case abortCheck => cases h; exact ⟨_, fun _ => rfl, fun s => abortCheckBody_fair ..⟩
  case checkResult => cases h; exact ⟨_, fun _ => rfl, fun s => replyData_fair _⟩
  case integrityRead => cases h; exact ⟨_, fun _ => rfl, fun s => replyData_fair _⟩
  case integrityClear => cases h; exact ⟨_, fun _ => rfl, fun s => integrityClearBody_fair ..⟩
  case softReset => cases h; exact ⟨_, fun _ => rfl, fun s => softResetBody_fair ..⟩
  case portReset => cases h; exact ⟨_, fun _ => rfl, fun s => reply_fair nofun⟩
  case ident => cases h; exact ⟨_, fun _ => rfl, fun s => replyData_fair _⟩
  case linkStatus => cases h; exact ⟨_, fun _ => rfl, fun s => replyData_fair _⟩
  case linkRetrain => cases h; exact ⟨_, fun _ => rfl, fun s => linkRetrainBody_fair ..⟩
  case profileRead => cases h; exact ⟨_, fun _ => rfl, fun s => profileReadBody_fair ..⟩
  case profileWrite => cases h; exact ⟨_, fun _ => rfl, fun s => profileWriteBody_fair ..⟩
  case profileSeal => cases h; exact ⟨_, fun _ => rfl, fun s => profileSealBody_fair ..⟩
  case profileRetire => cases h; exact ⟨_, fun _ => rfl, fun s => profileRetireBody_fair ..⟩
  all_goals exact nomatch h

theorem awaits_of_takes {s : State} {p : PortId} {code : Byte} {params : List Byte}
    (h : s.takes p code params = true) : s.awaits p code params := by
  unfold State.takes at h
  split at h
  · cases h
  · exact .inl ⟨List.isEmpty_iff.1 h, _, ‹_›⟩
  · rename_i hf _
    simp only [Bool.and_eq_true, beq_iff_eq, Bool.not_eq_true', List.isEmpty_eq_false_iff] at h
    obtain ⟨⟨rfl, ne⟩, rfl⟩ := h
    exact .inr ⟨ne, hf⟩
  all_goals cases h

/-- Settles O11: during LOADING `take` does not reach the body. -/
theorem notReadyWhileLoading : Obligations.NotReadyWhileLoading := by
  intro c p code params s hc hs
  obtain ⟨body, run, -⟩ := exec_takenAs hc
  rw [run, take_of_loadingFor hs, respond_reply]
  rfl

/-- Settles O12: the body's reply is what the frame enters RESPONSE with. -/
theorem oneResultCode : Obligations.OneResultCode := by
  intro c p code params s hc
  obtain ⟨body, run, fair⟩ := exec_takenAs hc
  refine ⟨fun hs => ?_, fun hs => ?_⟩
  · obtain ⟨lo, hi, data⟩ := fair_code (fair s)
    refine ⟨(body s).1.respond p (body s).2, _, _, _, ?_, ?_, lo, hi, data⟩
    · rw [run, take_of_readyFor hs]
    · rw [respond_port, if_pos rfl]
  · have untaken : s.takes p code params = false := Bool.eq_false_iff.2 fun h => hs (awaits_of_takes h)
    rw [run, take_not untaken]

end Sys2Proof.Machine
end

section
/-! PROOFS. The events of a frame, and what data out sends in each frame state (R117, R168 to R172). -/

namespace Sys2Proof.Machine

/-! ## The status byte -/

theorem statusFields : ∀ (ready latch : Bool) (n : Fin 64),
    let b : Byte := (if ready then 0x80#8 else 0) ||| (if latch then 0x40#8 else 0) ||| BitVec.ofNat 8 n.val
    b.getLsbD 7 = ready ∧ b.getLsbD 6 = latch ∧ (b &&& 0x3F).toNat = n.val := by
  decide

theorem statusByte_fields (s : State) (p : PortId) :
    ((s.statusByte p).getLsbD 7 = true ↔ s.phase = .ready) ∧
      (s.statusByte p).getLsbD 6 = (s.port p).overrunLatch ∧
      (s.statusByte p &&& 0x3F).toNat = (s.port p).queue.length % 64 := by
  have fields := statusFields (decide (s.phase = .ready)) (s.port p).overrunLatch
    ⟨(s.port p).queue.length % 64, Nat.mod_lt _ (by decide)⟩
  simp only [decide_eq_true_eq] at fields
  obtain ⟨ready, latch, count⟩ := fields
  refine ⟨?_, latch, count⟩
  rw [State.statusByte, ready, decide_eq_true_eq]

/-! ## The rows of a frame -/

section
variable {s : State} {p : PortId}

theorem startFrame_selected (h : (s.port p).selected = true) : s.startFrame p = s := if_pos h

theorem startFrame_held (h : (s.port p).selected = false) (r : s.phase = .pinReset) :
    s.startFrame p = s.setPort p { s.port p with selected := true, frame := .idle } := by
  rw [State.startFrame, if_neg (h ▸ Bool.false_ne_true), if_pos r]

theorem startFrame_begins (h : (s.port p).selected = false) (r : s.phase ≠ .pinReset) :
    s.startFrame p = s.setPort p { s.port p with selected := true, frame := .code (s.statusByte p) } := by
  rw [State.startFrame, if_neg (h ▸ Bool.false_ne_true), if_neg r]

theorem endFrame_unselected (h : (s.port p).selected = false) (clocked : Bool) : s.endFrame p clocked = s :=
  if_neg (h ▸ Bool.false_ne_true)

/-- The port whose select rises: its FRAME latch by its frame state. -/
theorem endFrame_port (q : Port) (clocked ready : Bool) : q.endFrame clocked ready =
    { q with
      selected := false
      frame := .idle
      frameLatch := q.frameLatch || (ready && match q.frame with
        | .code _ => clocked
        | .parameters _ _ => true
        | _ => false) } := by
  obtain ⟨_, _, _, _, latch, _, frame, _⟩ := q
  cases frame <;> cases clocked <;> cases ready <;> simp [Port.endFrame, Frame.faulty, Port.frameFault]

theorem endFrame_selected (h : (s.port p).selected = true) (clocked : Bool) : s.endFrame p clocked =
    s.setPort p { s.port p with
      selected := false
      frame := .idle
      frameLatch := (s.port p).frameLatch || (s.phase == .ready && match (s.port p).frame with
        | .code _ => clocked
        | .parameters _ _ => true
        | _ => false) } := by
  rw [State.endFrame, if_pos h, endFrame_port]

theorem endFrame_held (h : (s.port p).selected = true) (r : s.phase = .pinReset) (clocked : Bool) :
    s.endFrame p clocked = s.setPort p { s.port p with selected := false, frame := .idle } := by
  rw [endFrame_selected h, r]
  simp only [show (Phase.pinReset == Phase.ready) = false from rfl, Bool.false_and, Bool.or_false]

theorem gatherByte_code {b : Byte} {status : Byte} {k : Nat} (h : (s.port p).frame = .code status)
    (hk : paramCount b = some (k + 1)) :
    s.gatherByte p b = s.setPort p { s.port p with frame := .parameters b [] } := by
  rw [State.gatherByte, h, Frame.gather, hk]
  rfl

theorem gatherByte_parameters {b code : Byte} {got : List Byte} {k : Nat}
    (h : (s.port p).frame = .parameters code got) (hk : paramCount code = some k) (more : got.length + 1 < k) :
    s.gatherByte p b = s.setPort p { s.port p with frame := .parameters code (got ++ [b]) } := by
  rw [State.gatherByte, h, Frame.gather, hk]
  exact congrArg (fun f => s.setPort p { s.port p with frame := f }) (if_pos more)

theorem unknownCode_ignored {code status : Byte} (h : (s.port p).frame = .code status) (hk : paramCount code = none) :
    s.unknownCode p code = s.setPort p { s.port p with frame := .ignore } := by
  rw [State.unknownCode, h, Frame.unknown, hk]
  rfl

/-! ## Data out -/

theorem dataOut_held (k : Nat) (h : s.phase = .pinReset) : s.dataOut p k = none := if_pos h

theorem dataOut_frame (k : Nat) (h : s.phase ≠ .pinReset) : s.dataOut p k = (s.port p).dataOut k := if_neg h

theorem dataOut_idle (k : Nat) (h : (s.port p).frame = .idle) : s.dataOut p k = none := by
  unfold State.dataOut Port.dataOut
  rw [h]
  split <;> rfl

theorem byteAt_of_getElem? {l : List Byte} {k : Nat} {b : Byte} (h : l[k]? = some b) : byteAt l k = b := by
  rw [byteAt, List.getD_eq_getElem?_getD, h]
  rfl

theorem byteAt_end {l : List Byte} {k : Nat} (h : l.length ≤ k) : byteAt l k = 0 := by
  rw [byteAt, List.getD_eq_getElem?_getD, List.getElem?_eq_none h]
  rfl

variable {sent : List Byte} {left : Nat} (r : s.phase ≠ .pinReset) (h : (s.port p).frame = .response sent left)
include r h

theorem dataOut_sent {k : Nat} {b : Byte} (hb : sent[k]? = some b) : s.dataOut p k = some b := by
  rw [dataOut_response r h, byteAt_of_getElem?]
  rw [List.getElem?_append_left (List.getElem?_eq_some_iff.1 hb).1, hb]

theorem dataOut_record {j m : Nat} {x : Record} {b : Byte} (hj : j < left) (hx : (s.port p).queue[j]? = some x)
    (hb : x.bytes[m]? = some b) : s.dataOut p (sent.length + 12 * j + m) = some b := by
  have inRecord : m < 12 := record_length x ▸ (List.getElem?_eq_some_iff.1 hb).1
  rw [dataOut_response r h, byteAt_of_getElem?]
  rw [Nat.add_assoc, List.getElem?_append_right (Nat.le_add_right ..), Nat.add_sub_cancel_left,
    records_at _ _ _ inRecord, List.getElem?_take_of_lt hj, hx]
  exact hb

theorem dataOut_after {k : Nat} (hk : sent.length + 12 * min left (s.port p).queue.length ≤ k) :
    s.dataOut p k = some 0x00 := by
  rw [dataOut_response r h, byteAt_end]
  rwa [List.length_append, records_length, List.length_take]

end

theorem dataOut_ignore {s : State} {p : PortId} (k : Nat) (r : s.phase ≠ .pinReset) (h : (s.port p).frame = .ignore) :
    s.dataOut p k = some (if k = 0 then 0x0E else 0x00) := by
  rw [dataOut_frame k r, Port.dataOut, h]
  cases k with
  | zero => rfl
  | succ k => exact congrArg some (byteAt_end (Nat.le_add_left ..))

/-- Settles O10: the rows of a frame by the select pin and the frame state, and data out by the frame state. -/
theorem frameEvents : Obligations.FrameEvents := by
  refine ⟨fun p s => ⟨fun h => congrArg _ (startFrame_selected h), fun h clocked => congrArg _ (endFrame_unselected h _),
    fun r => ⟨fun b => congrArg _ (if_pos r), fun code => congrArg _ (if_pos r),
      fun h => congrArg _ (startFrame_held h r), fun h clocked => congrArg _ (endFrame_held h r _)⟩,
    fun r => ⟨fun h => ?_, fun b status k h hk => ?_, fun b code got k h hk more => ?_, fun code status h hk => ?_⟩⟩,
    fun p clocked s h => congrArg _ (endFrame_selected h _), fun p k s => ⟨?_, fun r => ⟨?_, ?_, ?_, dataOut_ignore k r⟩⟩⟩
  · obtain ⟨ready, latch, count⟩ := statusByte_fields s p
    exact ⟨s.statusByte p, congrArg _ (startFrame_begins h r), ready, latch,
      fun le => count.trans (Nat.mod_eq_of_lt (by omega))⟩
  · exact congrArg _ ((if_neg r).trans (gatherByte_code h hk))
  · exact congrArg _ ((if_neg r).trans (gatherByte_parameters h hk more))
  · exact congrArg _ ((if_neg r).trans (unknownCode_ignored h hk))
  · rintro (r | h)
    · exact dataOut_held k r
    · exact dataOut_idle k h
  · intro status h
    rw [dataOut_frame k r, Port.dataOut, h]
  · intro code got h
    rw [dataOut_frame k r, Port.dataOut, h]
  · exact fun sent left h => ⟨fun b => dataOut_sent r h, fun j m x b hj hx hb hk => hk ▸ dataOut_record r h hj hx hb,
      dataOut_after r h⟩

end Sys2Proof.Machine
end

section
/-! PROOFS. Fields as bytes and bytes as fields, most significant first, and the readers of parameter bytes (R175, R187). -/

namespace Sys2Proof.Machine

/-! ## Fields as bytes -/

theorem toNat_append_byte {n : Nat} (a : BitVec n) (b : Byte) : (a ++ b).toNat = a.toNat * 256 + b.toNat := by
  rw [BitVec.toNat_append, ← Nat.shiftLeft_add_eq_or_of_lt b.isLt, Nat.shiftLeft_eq]

theorem bytesOfNat_two (n : Nat) : ∃ a b : Byte, bytesOfNat 2 n = [a, b] ∧ a.toNat * 256 + b.toNat = n % 65536 := by
  refine ⟨_, _, rfl, ?_⟩
  simp only [BitVec.toNat_ofNat]
  omega

theorem bytesOf_two (x : BitVec 16) : ∃ a b : Byte, bytesOf 2 x = [a, b] ∧ a ++ b = x := by
  refine ⟨_, _, rfl, BitVec.eq_of_toNat_eq ?_⟩
  simp only [toNat_append_byte, BitVec.toNat_ofNat]
  omega

theorem bytesOf_three (x : BitVec 24) : ∃ a b c : Byte, bytesOf 3 x = [a, b, c] ∧ a ++ b ++ c = x := by
  refine ⟨_, _, _, rfl, BitVec.eq_of_toNat_eq ?_⟩
  simp only [toNat_append_byte, BitVec.toNat_ofNat]
  omega

theorem bytesOf_four (x : BitVec 32) : ∃ a b c d : Byte, bytesOf 4 x = [a, b, c, d] ∧ a ++ b ++ c ++ d = x := by
  refine ⟨_, _, _, _, rfl, BitVec.eq_of_toNat_eq ?_⟩
  simp only [toNat_append_byte, BitVec.toNat_ofNat]
  omega

theorem bytesOf_five (x : Count) :
    ∃ a b c d e : Byte, bytesOf 5 x = [a, b, c, d, e] ∧ a ++ b ++ c ++ d ++ e = x := by
  refine ⟨_, _, _, _, _, rfl, BitVec.eq_of_toNat_eq ?_⟩
  simp only [toNat_append_byte, BitVec.toNat_ofNat]
  omega

/-! ## Bytes as fields -/

theorem ofNat_five (a b c d e : Byte) : BitVec.ofNat 40 (natOfBytes [a, b, c, d, e]) = a ++ b ++ c ++ d ++ e := by
  have bounds : a.toNat < 256 ∧ b.toNat < 256 ∧ c.toNat < 256 ∧ d.toNat < 256 ∧ e.toNat < 256 :=
    ⟨a.isLt, b.isLt, c.isLt, d.isLt, e.isLt⟩
  refine BitVec.eq_of_toNat_eq ?_
  simp only [toNat_append_byte, BitVec.toNat_ofNat, natOfBytes, List.foldl]
  omega

theorem take_drop_five {l : List Byte} {k : Nat} (h : k + 5 ≤ l.length) : (l.drop k).take 5 =
    [l.getD k 0, l.getD (k + 1) 0, l.getD (k + 2) 0, l.getD (k + 3) 0, l.getD (k + 4) 0] := by
  refine List.ext_getElem ?_ fun j h₁ h₂ => ?_
  · simp only [List.length_take, List.length_drop, List.length_cons, List.length_nil]
    omega
  · have hj : j < 5 := h₂
    rw [List.getElem_take, List.getElem_drop]
    have at_ (m : Nat) (hm : m < l.length) : l.getD m 0 = l[m] := by
      rw [List.getD_eq_getElem?_getD, List.getElem?_eq_getElem hm]
      rfl
    interval_cases j <;> exact (at_ _ (by omega)).symm

theorem countAt_eq {l : List Byte} {k : Nat} (h : k + 5 ≤ l.length) : countAt l k =
    l.getD k 0 ++ l.getD (k + 1) 0 ++ l.getD (k + 2) 0 ++ l.getD (k + 3) 0 ++ l.getD (k + 4) 0 := by
  rw [countAt, take_drop_five h, ofNat_five]

/-! ## Readers of parameter bytes -/

theorem readLine_none {b : Byte} (h : 15 < b.toNat) : readLine b = none := dif_neg (by omega)

theorem readLine_some {b : Byte} {n : LineId} (h : n.val = b.toNat) : readLine b = some n := by
  rw [readLine, dif_pos (h ▸ n.isLt)]
  exact congrArg some (Fin.ext h.symm)

theorem readSlot_none {b : Byte} (h : 127 < b.toNat) : readSlot b = none := dif_neg (by omega)

theorem readSlot_some {b : Byte} {i : SlotId} (h : i.val = b.toNat) : readSlot b = some i := by
  rw [readSlot, dif_pos (h ▸ i.isLt)]
  exact congrArg some (Fin.ext h.symm)

theorem readProfileSlot_none {b : Byte} (h : 2 < b.toNat) : readProfileSlot b = none := dif_neg (by omega)

theorem readProfileSlot_some {b : Byte} {i : Fin 3} (h : i.val = b.toNat) : readProfileSlot b = some i := by
  rw [readProfileSlot, dif_pos (h ▸ i.isLt)]
  exact congrArg some (Fin.ext h.symm)

theorem readLevel_none {b : Byte} (h : 1 < b.toNat) : readLevel b = none := by
  rw [readLevel, if_neg (by rintro rfl; contradiction), if_neg (by rintro rfl; contradiction)]

theorem readLevel_some {b : Byte} (h : b.toNat ≤ 1) : readLevel b = some (if b = 1 then .high else .low) := by
  have codes : b = 0 ∨ b = 1 := by bv_omega
  obtain rfl | rfl := codes <;> rfl

theorem readMode_none {b : Byte} (h : 2 < b.toNat) : readMode b = none := by
  rw [readMode, if_neg (by rintro rfl; contradiction), if_neg (by rintro rfl; contradiction),
    if_neg (by rintro rfl; contradiction)]

theorem readMode_some {b : Byte} (h : b.toNat ≤ 2) :
    readMode b = some (if b = 0 then .off else if b = 1 then .input else .output) := by
  have codes : b = 0 ∨ b = 1 ∨ b = 2 := by bv_omega
  obtain rfl | rfl | rfl := codes <;> rfl

theorem readFilter_none {b : Byte} (h : 15 < b.toNat) : readFilter b = none := if_neg (by omega)

theorem readFilter_some {b : Byte} {f : BitVec 4} (h : f.toNat = b.toNat) : readFilter b = some f := by
  rw [readFilter, if_pos (h ▸ f.isLt), ← h, BitVec.ofNat_toNat, BitVec.setWidth_eq]

theorem readDrive_none {b : Byte} (h : 2 < b.toNat) : readDrive b = none := by
  rw [readDrive, if_neg (by rintro rfl; contradiction), if_neg (by rintro rfl; contradiction),
    if_neg (by rintro rfl; contradiction)]

theorem readDrive_some {b : Byte} (h : b.toNat ≤ 2) :
    readDrive b = some (if b = 0 then some .low else if b = 1 then some .high else none) := by
  have codes : b = 0 ∨ b = 1 ∨ b = 2 := by bv_omega
  obtain rfl | rfl | rfl := codes <;> rfl

end Sys2Proof.Machine
end

section
/-! PROOFS. QUERY_CLAIM, the checks of the TB commands, DIRECT_DRIVE, EXIT_DIRECT, ABORT_CHECK and CHECK_RESULT (R22, R42,
R129, R131, R137, R138). -/

namespace Sys2Proof.Machine

/-! ## QUERY_CLAIM (R22) -/

/-- Four ports: a holder and distinct waiters beside it leave room for three waits. -/
theorem ClaimRec.lawful_length {c : ClaimRec} (h : c.lawful) : c.waiters.length ≤ 3 := by
  obtain ⟨distinct, notHolder, free⟩ := h
  cases hh : c.holder with
  | none => simp [free hh]
  | some p =>
    have apart : p ∉ c.waiters.map (fun w => w.port) := fun hp => by
      obtain ⟨w, hw, e⟩ := List.mem_map.1 hp
      exact notHolder w hw (hh.trans (congrArg some e.symm))
    have room := (List.nodup_cons.2 ⟨apart, distinct⟩).length_le_card
    simp only [List.length_cons, List.length_map, Fintype.card_fin] at room
    exact Nat.le_of_lt_succ room

theorem remaining_none {c : ClaimRec} {now : Nat} (h : c.expiry = none) : c.remaining now = 0 := by
  rw [ClaimRec.remaining, h]

theorem remaining_some {c : ClaimRec} {now e : Nat} (h : c.expiry = some e) :
    c.remaining now = (e - now + 9999) / 10000 := by
  rw [ClaimRec.remaining, h]

theorem take_three {l : List Byte} (h : l.length ≤ 3) :
    (l ++ [0xFF, 0xFF, 0xFF]).take 3 = l ++ List.replicate (3 - l.length) 0xFF := by
  match l, h with
  | [], _ => rfl
  | [_], _ => rfl
  | [_, _], _ => rfl
  | [_, _, _], _ => rfl

theorem three_bytes {l : List Byte} (h : l.length = 3) : ∃ a b c, [a, b, c] = l := by
  match l, h with
  | [a, b, c], _ => exact ⟨a, b, c, rfl⟩

/-- Settles O18: the report of the claim record, its waiters filled up to three. -/
theorem queryClaimReports : Obligations.QueryClaimReports := by
  intro p resource s
  refine ⟨fun hs => congrArg _ (take_of_loadingFor hs), fun hs => ⟨fun h => ?_, fun r hr lawful => ?_⟩⟩
  · exact congrArg _ (take_answers (c := .badParam) (t := s) hs (by rw [queryClaimBody, readResource_none h]))
  have report : queryClaimBody resource s = (s, replyData ((s.claim r).report s.elapsed)) := by
    rw [queryClaimBody, readResource_some hr]
  have len : ((s.claim r).waiters.map (fun w => portByte w.port)).length ≤ 3 := by
    rw [List.length_map]
    exact ClaimRec.lawful_length lawful
  obtain ⟨hi, lo, bytes, value⟩ := bytesOfNat_two ((s.claim r).remaining s.elapsed)
  obtain ⟨w₀, w₁, w₂, waiters⟩ := three_bytes (l := (s.claim r).waiters.map (fun w => portByte w.port) ++
    List.replicate (3 - (s.claim r).waiters.length) 0xFF) (by
      rw [List.length_append, List.length_replicate, ← List.length_map (f := fun w : Waiter => portByte w.port)]
      omega)
  refine ⟨portOrNone (s.claim r).holder, hi, lo, w₀, w₁, w₂, congrArg Host.Outcome.next ?_, ?_, fun none_ => ?_,
    fun e he le far => ?_, waiters⟩
  · rw [take_data hs report, ClaimRec.report, take_three len, bytes, List.length_map, ← waiters]
    rfl
  · cases (s.claim r).holder <;> rfl
  · have zero := remaining_none (now := s.elapsed) none_
    constructor <;> bv_omega
  · have left := remaining_some (now := s.elapsed) he
    omega

/-! ## The checks of the TB commands (R42) -/

section
variable {p : PortId} {s : State}

theorem tbRefusal_notHolder (h : (s.claim resTB).holder ≠ some p) : tbRefusal p s = some .notHolder :=
  if_pos ((holds_false_iff ..).2 h)

theorem tbRefusal_follower (h : (s.claim resTB).holder = some p) (f : s.tb.source = .follower) :
    tbRefusal p s = some .notLeader := by
  rw [tbRefusal, (holds_iff ..).2 h, if_neg nofun, if_pos f]

theorem tbRefusal_passes (h : (s.claim resTB).holder = some p) (f : s.tb.source ≠ .follower) : tbRefusal p s = none := by
  rw [tbRefusal, (holds_iff ..).2 h, if_neg nofun, if_neg f]

variable {c : ResultCode}

theorem setTimeBody_refused (h : tbRefusal p s = some c) (count : Count) : setTimeBody p count s = (s, reply c) := by
  rw [setTimeBody, h]

theorem setTimeBody_passes (h : tbRefusal p s = none) (count : Count) :
    setTimeBody p count s = (s.changeCount .set count (s.tb.epoch + 1) s.tb.run, reply .ok) := by
  rw [setTimeBody, h]

theorem stepTimeBody_outOfRange : stepTimeBody p (BitVec.ofNat 40 (2 ^ 39)) s = (s, reply .badParam) := if_pos rfl

theorem stepTimeBody_refused {offset : Count} (ho : offset ≠ BitVec.ofNat 40 (2 ^ 39)) (h : tbRefusal p s = some c) :
    stepTimeBody p offset s = (s, reply c) := by
  rw [stepTimeBody, if_neg ho, h]

theorem stepTimeBody_passes {offset : Count} (ho : offset ≠ BitVec.ofNat 40 (2 ^ 39)) (h : tbRefusal p s = none) :
    stepTimeBody p offset s =
      (s.changeCount .step (s.tb.count + offset) (s.tb.epoch + 1) s.tb.run, reply .ok) := by
  rw [stepTimeBody, if_neg ho, h]

theorem runBody_refused (h : tbRefusal p s = some c) (run : RunState) : runBody p run s = (s, reply c) := by
  rw [runBody, h]

theorem runBody_already (h : tbRefusal p s = none) {run : RunState} (hr : s.tb.run = run) :
    runBody p run s = (s, reply .already) := by
  rw [runBody, h]
  exact if_pos hr

theorem runBody_passes (h : tbRefusal p s = none) {run : RunState} (hr : s.tb.run ≠ run) :
    runBody p run s = (s.setRun run, reply .ok) := by
  rw [runBody, h]
  exact if_neg hr

theorem tb_refusals {code : Byte} {params : List Byte} {body : State → State × Reply} (hs : s.readyFor p code params)
    (refused : ∀ c, tbRefusal p s = some c → body s = (s, reply c)) :
    ((s.claim resTB).holder ≠ some p → s.take p code params body = s.answered p [0x05]) ∧
      ((s.claim resTB).holder = some p → s.tb.source = .follower →
        s.take p code params body = s.answered p [0x0C]) :=
  ⟨fun h => take_answers hs (refused _ (tbRefusal_notHolder h)),
    fun h f => take_answers hs (refused _ (tbRefusal_follower h f))⟩

end

/-- Settles O34: the four commands share the refusals; HALT and RESUME have ALREADY besides. -/
theorem timeCommandChecks : Obligations.TimeCommandChecks := by
  intro p s count offset
  refine ⟨fun c code params hc => ?_, fun hs ho => ?_⟩
  · simp only [List.mem_cons, List.not_mem_nil, or_false, Prod.mk.injEq] at hc
    refine ⟨fun hs => ?_, fun hs ho => ?_⟩
    · obtain ⟨rfl, rfl, rfl⟩ | ⟨rfl, rfl, rfl⟩ | ⟨rfl, rfl, rfl⟩ | ⟨rfl, rfl, rfl⟩ := hc <;>
        exact congrArg Host.Outcome.next (take_of_loadingFor hs)
    obtain ⟨rfl, rfl, rfl⟩ | ⟨rfl, rfl, rfl⟩ | ⟨rfl, rfl, rfl⟩ | ⟨rfl, rfl, rfl⟩ := hc
    · obtain ⟨notHolder, follower⟩ := tb_refusals hs fun _ h => setTimeBody_refused h count
      exact ⟨fun h => congrArg _ (notHolder h), fun h f => congrArg _ (follower h f), fun h f => ⟨nofun, nofun,
        fun _ _ => ⟨_, congrArg _ (take_answers hs (setTimeBody_passes (tbRefusal_passes h f) count))⟩⟩⟩
    · obtain ⟨notHolder, follower⟩ := tb_refusals hs fun _ h => stepTimeBody_refused (ho rfl) h
      exact ⟨fun h => congrArg _ (notHolder h), fun h f => congrArg _ (follower h f), fun h f => ⟨nofun, nofun,
        fun _ _ => ⟨_, congrArg _ (take_answers hs (stepTimeBody_passes (ho rfl) (tbRefusal_passes h f)))⟩⟩⟩
    · obtain ⟨notHolder, follower⟩ := tb_refusals hs fun _ h => runBody_refused h .halted
      exact ⟨fun h => congrArg _ (notHolder h), fun h f => congrArg _ (follower h f), fun h f =>
        ⟨fun _ r => congrArg _ (take_answers hs (runBody_already (tbRefusal_passes h f) r)), nofun, fun r _ =>
          ⟨_, congrArg _ (take_answers hs (runBody_passes (tbRefusal_passes h f) (by rw [r rfl]; nofun)))⟩⟩⟩
    · obtain ⟨notHolder, follower⟩ := tb_refusals hs fun _ h => runBody_refused h .running
      exact ⟨fun h => congrArg _ (notHolder h), fun h f => congrArg _ (follower h f), fun h f =>
        ⟨nofun, fun _ r => congrArg _ (take_answers hs (runBody_already (tbRefusal_passes h f) r)), fun _ r =>
          ⟨_, congrArg _ (take_answers hs (runBody_passes (tbRefusal_passes h f) (by rw [r rfl]; nofun)))⟩⟩⟩
  · subst ho
    exact congrArg _ (take_answers hs stepTimeBody_outOfRange)

/-! ## DIRECT_DRIVE (R129) -/

section
variable {p : PortId} {line drive : Byte} {s : State} {n : LineId} {o : Option Level}

theorem directDriveBody_outOfRange (h : 15 < line.toNat ∨ 2 < drive.toNat) :
    directDriveBody p line drive s = (s, reply .badParam) := by
  unfold directDriveBody
  obtain h | h := h
  · rw [readLine_none h]
  · rw [readDrive_none h]
    split
    · rename_i k
      cases k
    · rfl

variable (hn : readLine line = some n) (ho : readDrive drive = some o)
include hn ho

theorem directDriveBody_notHolder (h : (s.claim resMX).holder ≠ some p) :
    directDriveBody p line drive s = (s, reply .notHolder) := by
  rw [directDriveBody, hn, ho]
  exact if_pos ((holds_false_iff ..).2 h)

variable (h : (s.claim resMX).holder = some p)
include h

theorem directDriveBody_notDirect (m : s.maint.mode ≠ .direct) :
    directDriveBody p line drive s = (s, reply .wrongState) := by
  rw [directDriveBody, hn, ho]
  simp [(holds_iff ..).2 h, m]

theorem directDriveBody_undriven (m : s.maint.mode = .direct)
    (d : ¬ ((s.line n).mode = .output ∨ (s.line n).mode = .parked)) :
    directDriveBody p line drive s = (s, reply .wrongState) := by
  rw [directDriveBody, hn, ho]
  simp only [(holds_iff ..).2 h, m, if_pos (not_or.1 d)]
  rfl

theorem directDriveBody_drives (m : s.maint.mode = .direct)
    (d : (s.line n).mode = .output ∨ (s.line n).mode = .parked) :
    directDriveBody p line drive s = (s.setLine n { s.line n with override := o }, reply .ok) := by
  rw [directDriveBody, hn, ho]
  simp only [(holds_iff ..).2 h, m, if_neg fun k => (not_or.2 k) d]
  rfl

end

/-- Settles O41: the cases of the body. -/
theorem directDrive : Obligations.DirectDrive := by
  intro p line drive s
  refine ⟨fun hs => congrArg Host.Outcome.next (take_of_loadingFor hs), fun hs => ⟨fun h => ?_, fun n hn hd => ?_⟩⟩
  · exact congrArg _ (take_answers hs (directDriveBody_outOfRange h))
  have hn := readLine_some hn
  have ho := readDrive_some hd
  exact ⟨fun h => congrArg _ (take_answers hs (directDriveBody_notHolder hn ho h)),
    fun h m => congrArg _ (take_answers hs (directDriveBody_notDirect hn ho h m)),
    fun h m d => congrArg _ (take_answers hs (directDriveBody_undriven hn ho h m d)),
    fun h m d => congrArg _ (take_answers hs (directDriveBody_drives hn ho h m d))⟩

/-! ## EXIT_DIRECT (R131) -/

section
variable {p : PortId} {s : State}

theorem exitDirectBody_notHolder (h : (s.claim resMX).holder ≠ some p) : exitDirectBody p s = (s, reply .notHolder) :=
  if_pos ((holds_false_iff ..).2 h)

theorem exitDirectBody_run (h : (s.claim resMX).holder = some p) (m : s.maint.mode = .run) :
    exitDirectBody p s = (s, reply .wrongState) := by
  rw [exitDirectBody, (holds_iff ..).2 h, if_neg nofun, if_pos m]

theorem exitDirectBody_returns (h : (s.claim resMX).holder = some p) (m : s.maint.mode ≠ .run) :
    exitDirectBody p s = (s.returnToRun .command, reply .ok) := by
  rw [exitDirectBody, (holds_iff ..).2 h, if_neg nofun, if_neg m]

end

/-- Settles O40: the return to RUN is the one that `returnToRun_returned` speaks of. -/
theorem exitDirect : Obligations.ExitDirect := fun _ s hs =>
  ⟨fun h => congrArg _ (take_answers hs (exitDirectBody_notHolder h)),
    fun h m => congrArg _ (take_answers hs (exitDirectBody_run h m)),
    fun h m => ⟨_, returnToRun_returned s .command, congrArg _ (take_answers hs (exitDirectBody_returns h m))⟩⟩

/-! ## ABORT_CHECK and CHECK_RESULT (R137, R138) -/

section
variable {p : PortId} {s : State}

theorem isRunning_false {c : Check} (h : ∀ q, c ≠ .running q) : c.isRunning = false := by
  rw [← Bool.not_eq_true, isRunning_iff]
  exact fun ⟨q, e⟩ => h q e

theorem abortCheckBody_notHolder (h : (s.claim resMX).holder ≠ some p) : abortCheckBody p s = (s, reply .notHolder) :=
  if_pos ((holds_false_iff ..).2 h)

theorem abortCheckBody_idle (h : (s.claim resMX).holder = some p) (c : ∀ q, s.maint.check ≠ .running q) :
    abortCheckBody p s = (s, reply .wrongState) := by
  rw [abortCheckBody, (holds_iff ..).2 h, if_neg nofun, if_pos (isRunning_false c)]

theorem abortCheckBody_aborts {c : Progress} (h : (s.claim resMX).holder = some p) (hc : s.maint.check = .running c) :
    abortCheckBody p s =
      (s.endCheck c.requester ⟨.aborted, c.passed, c.completed, c.failure⟩ true, reply .ok) := by
  rw [abortCheckBody, (holds_iff ..).2 h, if_neg nofun, State.abortCheck, hc]
  rfl

end

/-- The four bytes of a first failure. -/
theorem failureBytes_eq (x : Option Failure) (free : Nat) : ∃ f l e o : Byte, failureBytes x free = [f, l, e, o] ∧
    (x = none → f = 0) ∧ (∀ g, x = some g → f = 1 ∧ l = BitVec.ofNat 8 g.line.val ∧
      e = (match g.expected with | .rise => 1 | .fall => 2) ∧
      o = (match g.observed with | .nothing => 1 | .wrongEdge => 2)) := by
  cases x with
  | none => exact ⟨_, _, _, _, rfl, fun _ => rfl, nofun⟩
  | some g =>
    refine ⟨_, _, _, _, rfl, nofun, ?_⟩
    rintro _ ⟨⟩
    refine ⟨rfl, rfl, ?_, ?_⟩
    · cases g.expected <;> rfl
    · cases g.observed <;> rfl

/-- The ten bytes of CHECK_RESULT: state, outcome, the two sets and the first failure. -/
theorem report_bytes (a b : Byte) (passed completed : LineSet) (x : Option Failure) (free : Nat) :
    ∃ c₁ c₀ d₁ d₀ f l e o : Byte,
      [a, b] ++ bytesOf 2 passed ++ bytesOf 2 completed ++ failureBytes x free = [a, b, c₁, c₀, d₁, d₀, f, l, e, o] ∧
      c₁ ++ c₀ = passed ∧ d₁ ++ d₀ = completed ∧ (x = none → f = 0) ∧
      (∀ g, x = some g → f = 1 ∧ l = BitVec.ofNat 8 g.line.val ∧
        e = (match g.expected with | .rise => 1 | .fall => 2) ∧
        o = (match g.observed with | .nothing => 1 | .wrongEdge => 2)) := by
  obtain ⟨c₁, c₀, hc, ec⟩ := bytesOf_two passed
  obtain ⟨d₁, d₀, hd, ed⟩ := bytesOf_two completed
  obtain ⟨f, l, e, o, hf, none_, some_⟩ := failureBytes_eq x free
  refine ⟨c₁, c₀, d₁, d₀, f, l, e, o, ?_, ec, ed, none_, some_⟩
  rw [hc, hd, hf]
  rfl

/-- Settles O44: an abort ends the check with its sets as they stand, and the report is that of the check state. -/
theorem checkAbortsAndReports : Obligations.CheckAbortsAndReports := by
  intro p s
  refine ⟨fun hs => ⟨fun h => congrArg _ (take_answers hs (abortCheckBody_notHolder h)),
    fun h c => congrArg _ (take_answers hs (abortCheckBody_idle h c)),
    fun c h hc => ⟨_, congrArg _ (take_answers hs (abortCheckBody_aborts h hc)), endCheck_checkEnded ..⟩⟩, fun hs => ?_⟩
  have answer : exec (.checkResult p) s = .next (s.bumpFree.answered p (0x01 :: s.maint.check.report s.free)) :=
    congrArg _ (take_data hs rfl)
  cases hc : s.maint.check with
  | idle =>
    obtain ⟨c₁, c₀, d₁, d₀, f, l, e, o, bytes, ec, ed, none_, some_⟩ := report_bytes 0 0 0 0 none s.free
    refine ⟨s.bumpFree, 0, 0, c₁, c₀, d₁, d₀, f, l, e, o, ?_, rfl, fun _ => ⟨rfl, rfl, ec, ed, none_, some_⟩, nofun, nofun⟩
    rw [answer, hc, Check.report, bytes]
  | running c =>
    obtain ⟨c₁, c₀, d₁, d₀, f, l, e, o, bytes, ec, ed, none_, some_⟩ :=
      report_bytes 1 4 c.passed c.completed c.failure s.free
    refine ⟨s.bumpFree, 1, 4, c₁, c₀, d₁, d₀, f, l, e, o, ?_, rfl, nofun, ?_, nofun⟩
    · rw [answer, hc, Check.report, bytes]
    · rintro _ ⟨⟩
      exact ⟨rfl, rfl, ec, ed, none_, some_⟩
  | finished r =>
    obtain ⟨c₁, c₀, d₁, d₀, f, l, e, o, bytes, ec, ed, none_, some_⟩ :=
      report_bytes 2 r.outcome.code r.passed r.completed r.failure s.free
    refine ⟨s.bumpFree, 2, r.outcome.code, c₁, c₀, d₁, d₀, f, l, e, o, ?_, rfl, nofun, nofun, ?_⟩
    · rw [answer, hc, Check.report, bytes]
    · rintro _ ⟨⟩
      exact ⟨rfl, by cases r.outcome <;> rfl, ec, ed, none_, some_⟩

end Sys2Proof.Machine
end

section
/-! PROOFS. The tie link: its report and retrain, its timers, its transmitter, and the ABILITY words (R153 to R166). -/

namespace Sys2Proof.Machine

/-! ## Deadlines that are reached or not -/

theorem reached_false {now : Nat} {o : Option Nat} (h : ∀ d, o = some d → now < d) : reached now o = false := by
  rw [← Bool.not_eq_true, reached_iff]
  exact fun ⟨e, le, eq⟩ => absurd (h e eq) (Nat.not_lt.2 le)

theorem reached_true {now d : Nat} {o : Option Nat} (h : o = some d) (le : d ≤ now) : reached now o = true :=
  reached_iff.2 ⟨d, le, h⟩

section
variable {s : State}

theorem linkIn_true {st : LinkState} (h : s.link.state = st) : s.linkIn st = true := beq_iff_eq.2 h

theorem linkIn_false {st : LinkState} (h : s.link.state ≠ st) : s.linkIn st = false := beq_false_of_ne h

theorem linkDeadline_false {st : LinkState} (h : s.link.state ≠ st ∨ ∀ d, s.link.deadline = some d → s.elapsed < d) :
    s.linkDeadline st = false := by
  rw [State.linkDeadline]
  obtain h | h := h
  · rw [linkIn_false h, Bool.false_and]
  · rw [reached_false h, Bool.and_false]

theorem linkDeadline_true {st : LinkState} {d : Nat} (h : s.link.state = st) (hd : s.link.deadline = some d)
    (le : d ≤ s.elapsed) : s.linkDeadline st = true :=
  (linkDeadline_iff s st).2 ⟨h, d, le, hd⟩

theorem acts_iff {role : Role} : s.acts role = true ↔ s.isRole role := by
  simp only [State.acts, State.linkIn, State.isRole, Bool.and_eq_true, Bool.or_eq_true, beq_iff_eq]

/-! ## The link goes quiet (R48, R154, R155, R161) -/

theorem firstMark_eq (now : Nat) : firstMark now = now ∨ firstMark now = now + 1000 := by
  unfold firstMark
  split
  · exact .inl rfl
  · exact .inr rfl

theorem leaveLock_eq (s : State) : s.leaveLock = { s with tb := s.tb.unlocked } := by
  unfold State.leaveLock Timebase.unlocked
  cases h : s.tb.source <;> rfl

theorem loseLock_eq (s : State) : s.loseLock = s.unlocked := by
  rw [State.loseLock, leaveLock_eq]
  rfl

theorem retrain_eq (s : State) : s.retrain = State.offerAll { s with
    link := quietLink s.link .down (some (s.elapsed + 100000)) []
    tb := if s.link.state = .locked then s.tb.unlocked else s.tb } (.link .down) := by
  rw [State.retrain]
  by_cases h : s.link.state = .locked
  · rw [linkIn_true h, if_pos rfl, if_pos h, leaveLock_eq]
    rfl
  · rw [linkIn_false h, if_neg nofun, if_neg h]
    rfl

/-! ## LINK_RETRAIN -/

variable {p : PortId}

theorem linkRetrainBody_notHolder (h : (s.claim resTB).holder ≠ some p) :
    linkRetrainBody p s = (s, reply .notHolder) := if_pos ((holds_false_iff ..).2 h)

theorem linkRetrainBody_off (h : (s.claim resTB).holder = some p) (off : s.link.state = .off) :
    linkRetrainBody p s = (s, reply .wrongState) := by
  rw [linkRetrainBody, (holds_iff ..).2 h, if_neg nofun, linkIn_true off, if_pos rfl]

theorem linkRetrainBody_retrains (h : (s.claim resTB).holder = some p) (on : s.link.state ≠ .off) :
    linkRetrainBody p s = (s.retrain, reply .ok) := by
  rw [linkRetrainBody, (holds_iff ..).2 h, if_neg nofun, linkIn_false on, if_neg nofun]

end

/-- Settles O49: the bytes of the report, and the cases of the retrain. -/
theorem linkStatusAndRetrain : Obligations.LinkStatusAndRetrain := by
  intro p s
  refine ⟨fun hs => ?_, fun hs => ⟨fun h => congrArg _ (take_answers hs (linkRetrainBody_notHolder h)),
    fun h off => congrArg _ (take_answers hs (linkRetrainBody_off h off)), fun h on => ?_⟩⟩
  · obtain ⟨d₄, d₃, d₂, d₁, d₀, hd, ed⟩ := bytesOf_five (BitVec.ofInt 40 s.link.lastD)
    obtain ⟨f₁, f₀, hf, ef⟩ := bytesOf_two s.link.drops
    refine ⟨d₄, d₃, d₂, d₁, d₀, f₁, f₀, congrArg Host.Outcome.next ?_, ed, ef⟩
    have body : linkStatusBody s = (s, replyData ([s.link.state.code, roleCode s.link.role, rateCode s.link.rate] ++
        [d₄, d₃, d₂, d₁, d₀] ++ [f₁, f₀] ++ [BitVec.ofNat 8 s.link.forward.length, s.tb.source.code])) := by
      rw [linkStatusBody, hd, hf]
    exact take_data hs body
  · exact congrArg _ (take_answers hs ((linkRetrainBody_retrains h on).trans (by rw [retrain_eq])))

/-! ## The timers (R155, R157, R160, R161, R162, R165) -/

section
variable {s : State}

theorem enterProbing_probes (s : State) : ∃ mark, (mark = s.elapsed ∨ mark = s.elapsed + 1000) ∧
    s.enterProbing = { s with link := { quietLink s.link .probing none s.link.forward with
      rate := some .r5, nextSlot := some s.elapsed, nextAbility := some mark } } :=
  ⟨firstMark s.elapsed, firstMark_eq _, rfl⟩

theorem replyMissed_early (h : ∀ q, s.link.query = some q → s.elapsed < q.deadline) : s.replyMissed = s := by
  refine if_neg (Bool.not_eq_true _ ▸ reached_false fun d hd => ?_)
  obtain ⟨q, hq, rfl⟩ := Option.map_eq_some_iff.1 hd
  exact h q hq

variable {q : Query} (hq : s.link.query = some q) (le : q.deadline ≤ s.elapsed)
include hq le

theorem query_reached : reached s.elapsed (s.link.query.map (fun q => q.deadline)) = true :=
  reached_true (congrArg (Option.map _) hq) le

theorem replyMissed_unlocked (h : s.link.state ≠ .locked) :
    s.replyMissed = { s with link := { s.link with query := none } } := by
  rw [State.replyMissed, if_pos (query_reached hq le), if_neg h]
  rfl

theorem replyMissed_counts (h : s.link.state = .locked) (few : s.link.missed < 2) : s.replyMissed = { s with
    link := { s.link with query := none, missed := s.link.missed + 1, queryDue := true } } := by
  rw [State.replyMissed, if_pos (query_reached hq le), if_pos h]
  exact if_neg fun k => absurd (show 3 ≤ s.link.missed + 1 from k) (by omega)

theorem replyMissed_third (h : s.link.state = .locked) (many : 2 ≤ s.link.missed) : s.replyMissed = s.unlocked := by
  rw [State.replyMissed, if_pos (query_reached hq le), if_pos h]
  refine (if_pos (show 3 ≤ s.link.missed + 1 by omega)).trans ?_
  rw [loseLock_eq]
  rfl

end

section
variable {s : State}

theorem queryFallsDue_early (h : ¬ s.isRole .follower ∨ ∀ d, s.link.nextQuery = some d → s.elapsed < d) :
    s.queryFallsDue = s := by
  unfold State.queryFallsDue
  split
  · refine if_neg fun ⟨le, role⟩ => ?_
    obtain h | h := h
    · exact h (acts_iff.1 role)
    · exact absurd (h _ ‹_›) (Nat.not_lt.2 le)
  · rfl

theorem queryFallsDue_due {d : Nat} (role : s.isRole .follower) (hd : s.link.nextQuery = some d)
    (le : d ≤ s.elapsed) : s.queryFallsDue = { s with link := { s.link with
      queryDue := true, nextQuery := if s.link.state = .aligning then some (d + 10000) else none } } := by
  rw [State.queryFallsDue, hd]
  exact if_pos ⟨le, acts_iff.2 role⟩

end

/-- Settles O50: each timer reached or not. -/
theorem linkTimers : Obligations.LinkTimers := by
  intro s
  refine ⟨fun c st hc => ?_, fun h => ?_, fun d h hd le => ?_, fun h => ?_, fun d h hd le => ?_,
    fun h => congrArg _ (replyMissed_early h),
    fun q hq le => ⟨fun h => congrArg _ (replyMissed_unlocked hq le h),
      fun h few => congrArg _ (replyMissed_counts hq le h few),
      fun h many => congrArg _ (replyMissed_third hq le h many)⟩,
    fun h => congrArg _ (queryFallsDue_early h), fun d role hd le => congrArg _ (queryFallsDue_due role hd le)⟩
  · obtain ⟨mark, hm, probes⟩ := enterProbing_probes s
    simp only [List.mem_cons, List.not_mem_nil, or_false, Prod.mk.injEq] at hc
    obtain ⟨rfl, rfl⟩ | ⟨rfl, rfl⟩ := hc
    all_goals
      exact ⟨fun h => congrArg _ (if_neg (Bool.not_eq_true _ ▸ linkDeadline_false h)), fun d h hd le =>
        ⟨s.enterProbing, congrArg Host.Outcome.next (if_pos (linkDeadline_true h hd le)), mark, hm, probes⟩⟩
  · exact congrArg _ (if_neg (Bool.not_eq_true _ ▸ linkDeadline_false h))
  · exact congrArg _ (if_pos (linkDeadline_true h hd le))
  · refine congrArg _ (if_neg (Bool.not_eq_true _ ▸ ?_))
    obtain h | h := h
    · rw [linkIn_false h, Bool.false_and]
    · rw [reached_false h, Bool.and_false]
  · refine congrArg _ ((if_pos ?_).trans (loseLock_eq s))
    rw [linkIn_true h, reached_true hd le, Bool.and_self]

/-! ## The transmitter (R153, R154, R156, R158, R159, R163) -/

theorem wordTicks_eq (r : Option Rate) :
    wordTicks r = match r with | some .r10 => 160 | some .r20 => 80 | _ => 320 := by
  cases r with
  | none => rfl
  | some r => cases r <;> rfl

theorem nextMark_bounds {m now : Nat} (h : m ≤ now) : now < nextMark m now ∧ nextMark m now ≤ now + 1000 ∧
    ∃ k, nextMark m now = m + k * 1000 := by
  unfold nextMark
  exact ⟨by omega, by omega, _, rfl⟩

section
variable {s : State}

theorem sendAbility_idle (ack : Bool) (h : ∀ m, s.link.nextAbility = some m → s.elapsed < m) :
    s.sendAbility ack = s.sendWord .idle := by
  unfold State.sendAbility
  split
  · exact if_neg (Nat.not_le.2 (h _ ‹_›))
  · rfl

theorem sendAbility_mark (ack : Bool) {m : Nat} (h : s.link.nextAbility = some m) (le : m ≤ s.elapsed) :
    s.sendAbility ack = (s.setLink { s.link with nextAbility := some (nextMark m s.elapsed) }).sendWord
      (s.abilityWord ack) := by
  rw [State.sendAbility, h]
  exact if_pos le

theorem slotBegins_ability {ack : Bool} (h : s.link.state = .probing ∧ s.link.resolved = none ∧ ack = s.link.ack ∨
    s.link.state = .conflict ∧ ack = true) : s.slotBegins = s.sendAbility ack := by
  unfold State.slotBegins
  obtain ⟨st, r, rfl⟩ | ⟨st, rfl⟩ := h
  · rw [st, r]
    rfl
  · rw [st]

theorem slotBegins_final (h : s.link.state = .probing) (r : s.link.resolved ≠ none) : s.slotBegins = s.sendFinal := by
  rw [State.slotBegins, h]
  exact if_pos (Option.isSome_iff_ne_none.2 r)

theorem slotBegins_exchange (h : s.link.state = .aligning ∨ s.link.state = .locked) :
    s.slotBegins = s.sendExchange := by
  obtain h | h := h <;> rw [State.slotBegins, h]

theorem sendExchange_reply {o : Owed} (h : s.link.owed = some o) : s.sendExchange = s.sendReply o := by
  rw [State.sendExchange, h]

theorem sendExchange_query (h : s.link.owed = none) (q : s.link.queryDue = true) : s.sendExchange = s.sendQuery := by
  rw [State.sendExchange, h]
  exact if_pos q

theorem sendExchange_idle (h : s.link.owed = none) (q : s.link.queryDue = false)
    (e : s.link.state = .aligning ∨ s.link.forward = []) : s.sendExchange = s.sendWord .idle := by
  rw [State.sendExchange, h]
  refine (if_neg (q ▸ Bool.false_ne_true)).trans ?_
  obtain e | e := e
  · rw [linkIn_false (by rw [e]; nofun)]
    rfl
  · split
    · rw [State.sendForward, e]
    · rfl

theorem sendExchange_forward {f : Forward} {rest : List Forward} (l : s.link.state = .locked) (h : s.link.owed = none)
    (q : s.link.queryDue = false) (e : s.link.forward = f :: rest) :
    s.sendExchange = (s.setLink { s.link with forward := rest }).sendWord (.capture f) := by
  rw [State.sendExchange, h]
  refine (if_neg (q ▸ Bool.false_ne_true)).trans ((if_pos (linkIn_true l)).trans ?_)
  rw [State.sendForward, e]

theorem sendReply_locked (o : Owed) (l : s.link.state = .locked) :
    s.sendReply o = (s.setLink { s.link with owed := none }).sendWord
      (.timeReply o.c1 o.l1 s.tb.count s.tb.epoch (s.tb.run == .halted)) :=
  if_neg (l ▸ nofun)

theorem sendReply_aligning (o : Owed) (l : s.link.state = .aligning) :
    s.sendReply o = ((s.setLink { s.link with owed := none }).sendWord
      (.timeReply o.c1 o.l1 s.tb.count s.tb.epoch (s.tb.run == .halted))).leaderLock :=
  if_pos l

theorem finalSent_early (h : s.link.resolved = none ∨ ∀ e, s.link.finalEnd = some e → s.elapsed < e) :
    s.finalSent = s := by
  unfold State.finalSent
  split
  · obtain h | h := h
    · rename_i k
      cases h.symm.trans k
    · exact if_neg (reached_false h ▸ Bool.false_ne_true)
  · rfl

theorem finalSent_aligns {role : Role} {rate : Rate} {e : Nat} (h : s.link.resolved = some (role, rate))
    (he : s.link.finalEnd = some e) (le : e ≤ s.elapsed) :
    s.finalSent = s.setLink (s.link.align role rate s.elapsed) := by
  rw [State.finalSent, h]
  exact if_pos (reached_true he le)

theorem wordSlot_begins (h : ∃ e ≤ s.elapsed, s.link.nextSlot = some e) : exec .wordSlot s = .next s.slotBegins :=
  congrArg _ (if_pos (reached_iff.2 h))

end

/-- Settles O51: the word slot by the link state and by what waits to be sent. -/
theorem wordSlots : Obligations.WordSlots := by
  intro s run ticks sends ability begun exchanging
  have length : wordTicks s.link.rate = ticks := wordTicks_eq s.link.rate
  clear_value ticks
  subst length
  refine ⟨fun h => congrArg _ (if_neg fun k => h (reached_iff.1 k)), fun ack begun h => ?_, fun begun h r => ?_,
    fun o begun h ho => ?_, fun begun h ho q => ?_, fun f rest begun h ho q hf => ?_, fun begun h ho q e => ?_,
    fun h => congrArg _ (finalSent_early h), fun role rate e h he le => congrArg _ (finalSent_aligns h he le)⟩
  · have slot : exec .wordSlot s = .next (s.sendAbility ack) :=
      (wordSlot_begins begun).trans (congrArg _ (slotBegins_ability h))
    refine ⟨fun early => slot.trans (congrArg _ (sendAbility_idle ack early)), fun m hm le => ?_⟩
    obtain ⟨after, within, grid⟩ := nextMark_bounds le
    exact ⟨nextMark m s.elapsed, after, within, grid, slot.trans (congrArg _ (sendAbility_mark ack hm le))⟩
  · exact (wordSlot_begins begun).trans (congrArg _ (slotBegins_final h r))
  · have slot : exec .wordSlot s = .next (s.sendReply o) :=
      (wordSlot_begins begun).trans (congrArg _ ((slotBegins_exchange h).trans (sendExchange_reply ho)))
    exact ⟨fun l => slot.trans (congrArg _ (sendReply_locked o l)),
      fun l => slot.trans (congrArg _ (sendReply_aligning o l))⟩
  · exact (wordSlot_begins begun).trans (congrArg _ ((slotBegins_exchange h).trans (sendExchange_query ho q)))
  · exact (wordSlot_begins begun).trans (congrArg _ ((slotBegins_exchange (.inr h)).trans
      (sendExchange_forward h ho q hf)))
  · exact (wordSlot_begins begun).trans (congrArg _ ((slotBegins_exchange h).trans (sendExchange_idle ho q e)))

end Sys2Proof.Machine
end

section
/-! PROOFS. The words received on the tie link: which row hears a word, ABILITY, TIME_QUERY and IDLE (R153 to R158, R161,
R188). -/

namespace Sys2Proof.Machine

/-! ## Which row hears a word -/

/-- The kind byte of a word. -/
def Received.kind : Received → Byte
  | .ability .. => 0x11
  | .timeQuery _ => 0x12
  | .timeReply .. => 0x13
  | .capture _ => 0x14
  | .captureDiscarded => 0x14
  | .idle => 0x15

theorem readCapture_kind (l : List Byte) : (readCapture l).kind = 0x14 := by
  unfold readCapture
  dsimp only
  repeat' split
  all_goals rfl

theorem byteAt_of_toNat {l : List Byte} {k : Nat} {b : Byte} (h : (byteAt l k).toNat = b.toNat) : byteAt l k = b :=
  BitVec.eq_of_toNat_eq h

theorem readWord_kind {l : List Byte} {x : Received} (h : readWord l = some x) : byteAt l 0 = x.kind := by
  unfold readWord at h
  split at h
  · obtain rfl := Option.some.inj h
    exact byteAt_of_toNat ‹_›
  · obtain rfl := Option.some.inj h
    exact byteAt_of_toNat ‹_›
  · obtain rfl := Option.some.inj h
    exact byteAt_of_toNat ‹_›
  · obtain rfl := Option.some.inj h
    rw [readCapture_kind]
    exact byteAt_of_toNat ‹_›
  · obtain rfl := Option.some.inj h
    exact byteAt_of_toNat ‹_›
  · cases h

section
variable {w : WireWord} {s : State} {l : List Byte}

theorem head_byteAt (h : l.length = 20) (b : Byte) : l.head? = some b ↔ byteAt l 0 = b := by
  cases l with
  | nil => cases h
  | cons x t => simp [byteAt]

theorem readWire_valid {rate : Option Rate} (h : validAt w rate) : readWire w rate = readWord w.bytes := if_pos h

theorem received_judged (h : s.link.state = .probing ∨ s.link.state = .aligning ∨ s.link.state = .locked) :
    s.received w = readWire w s.link.rate := by
  obtain h | h | h := h <;> rw [State.received, h]

theorem received_of_hears {kind : Byte} (h : s.hears w kind) : s.received w = readWord w.bytes ∧
    byteAt w.bytes 0 = kind ∧ w.bytes.length = 20 := by
  obtain ⟨on, valid, head⟩ := h
  exact ⟨(received_judged on).trans (readWire_valid valid), (head_byteAt valid.2.1 kind).1 head, valid.2.1⟩

/-- A row goes on only with a word that it hears. -/
theorem hears_of_received {x : Received} (h : s.received w = some x) : s.hears w x.kind := by
  have judged : readWire w s.link.rate = some x ∧
      (s.link.state = .probing ∨ s.link.state = .aligning ∨ s.link.state = .locked) := by
    unfold State.received at h
    split at h
    · exact ⟨h, .inl ‹_›⟩
    · exact ⟨h, .inr (.inl ‹_›)⟩
    · exact ⟨h, .inr (.inr ‹_›)⟩
    all_goals cases h
  obtain ⟨wire, on⟩ := judged
  have valid : validAt w s.link.rate := by
    by_contra n
    cases (if_neg n).symm.trans wire
  rw [readWire_valid valid] at wire
  exact ⟨on, valid, (head_byteAt valid.2.1 _).2 (readWord_kind wire)⟩

theorem readWord_ability (h : byteAt l 0 = 0x11) : readWord l =
    some (.ability (RolePref.ofCode (byteAt l 1)) (byteAt l 2) ((byteAt l 3).setWidth 3) ((byteAt l 4).getLsbD 0)) := by
  rw [readWord, h]
  rfl

theorem readWord_timeQuery (h : byteAt l 0 = 0x12) : readWord l = some (.timeQuery (countAt l 1)) := by
  rw [readWord, h]
  rfl

theorem readWord_timeReply (h : byteAt l 0 = 0x13) : readWord l =
    some (.timeReply (countAt l 1) (countAt l 6) (countAt l 11) (byteAt l 16) ((byteAt l 17).getLsbD 0)) := by
  rw [readWord, h]
  rfl

theorem readWord_capture (h : byteAt l 0 = 0x14) : readWord l = some (readCapture l) := by
  rw [readWord, h]
  rfl

theorem readWord_idle (h : byteAt l 0 = 0x15) : readWord l = some .idle := by
  rw [readWord, h]
  rfl

end

/-! ## ABILITY (R155, R156) -/

section
variable {own peer : RolePref} {mine other_ : Byte}

theorem resolveRole_leader : resolveRole own peer mine other_ = some .leader ↔
    (own = .leader ∧ peer ≠ .leader) ∨ (own = .either ∧ peer = .follower) ∨
      ((own = .either ∧ peer = .either) ∧ other_.toNat < mine.toNat) := by
  cases own <;> cases peer <;> simp [resolveRole]
  grind

theorem resolveRole_follower : resolveRole own peer mine other_ = some .follower ↔
    (own = .follower ∧ peer ≠ .follower) ∨ (own = .either ∧ peer = .leader) ∨
      ((own = .either ∧ peer = .either) ∧ mine.toNat < other_.toNat) := by
  cases own <;> cases peer <;> simp [resolveRole]
  bv_omega

end

theorem commonRate_eq (a : BitVec 3) (b : Byte) : commonRate a (b.setWidth 3) =
    if a.getLsbD 2 && b.getLsbD 2 then .r20 else if a.getLsbD 1 && b.getLsbD 1 then .r10 else .r5 := by
  simp only [commonRate, BitVec.getLsbD_setWidth]
  rfl

section
variable {s : State} {pref : RolePref} {unit : Byte} {rates : BitVec 3}

theorem resolve_role {role : Role} (h : resolveRole s.loaded.rolePref pref s.loaded.unit unit = some role) :
    s.resolve pref unit rates = s.setLink { s.link with resolved := some (role, commonRate s.loaded.rateSet rates) } := by
  rw [State.resolve, h]

theorem resolve_conflict (h : resolveRole s.loaded.rolePref pref s.loaded.unit unit = none) :
    s.resolve pref unit rates = (s.setLink (s.link.conflict s.elapsed)).offerAll (.link .conflict) := by
  rw [State.resolve, h]

theorem takeAbility_resolved {ack : Bool} (h : s.link.state = .probing) (r : s.link.resolved ≠ none) :
    s.takeAbility pref unit rates ack = s := by
  rw [State.takeAbility, h]
  exact if_pos (Option.isSome_iff_ne_none.2 r)

theorem takeAbility_probing {ack : Bool} (h : s.link.state = .probing) (r : s.link.resolved = none) :
    s.takeAbility pref unit rates ack = if ack then (s.setLink { s.link with ack := true }).resolve pref unit rates
      else s.setLink { s.link with ack := true } := by
  rw [State.takeAbility, h, r]
  rfl

theorem takeAbility_aligning {ack : Bool} (h : s.link.state = .aligning) :
    s.takeAbility pref unit rates ack = if ack then s else s.setLink (s.link.holdoff s.elapsed) := by
  rw [State.takeAbility, h]

theorem takeAbility_locked {ack : Bool} (h : s.link.state = .locked) :
    s.takeAbility pref unit rates ack = s.unlocked := by
  rw [State.takeAbility, h, ← loseLock_eq]

end

theorem abilityReceived_deaf {w : WireWord} {s : State} (h : ¬ s.hears w 0x11) :
    exec (.abilityReceived w) s = .next s := by
  refine congrArg Host.Outcome.next ?_
  split
  · exact absurd (hears_of_received ‹_›) h
  · rfl

theorem abilityReceived_heard {w : WireWord} {s : State} (h : s.hears w 0x11) :
    exec (.abilityReceived w) s = .next (s.takeAbility (RolePref.ofCode (byteAt w.bytes 1)) (byteAt w.bytes 2)
      ((byteAt w.bytes 3).setWidth 3) ((byteAt w.bytes 4).getLsbD 0)) := by
  obtain ⟨received, kind, -⟩ := received_of_hears h
  refine congrArg Host.Outcome.next ?_
  rw [received, readWord_ability kind]

/-- Settles O52: the ABILITY word by the link state, and in PROBING by the table of roles. -/
theorem abilityReceived : Obligations.AbilityReceived := by
  intro w s
  refine ⟨fun h => abilityReceived_deaf h, fun h => ?_⟩
  have heard := abilityReceived_heard h
  refine ⟨fun st r => heard.trans (congrArg _ (takeAbility_resolved st r)), fun st r => ?_,
    fun st a => heard.trans (congrArg _ ((takeAbility_aligning st).trans (if_pos a))),
    fun st a => heard.trans (congrArg _ ((takeAbility_aligning st).trans (if_neg (ne_true_of_eq_false a)))),
    fun st => heard.trans (congrArg _ (takeAbility_locked st))⟩
  have probing := heard.trans (congrArg _ (takeAbility_probing st r))
  refine ⟨fun a => probing.trans (congrArg _ (if_neg (ne_true_of_eq_false a))), fun a leads => ?_, fun a follows => ?_,
    fun a notLeads notFollows => ⟨firstMark s.elapsed, firstMark_eq _, ?_⟩⟩
  · refine probing.trans (congrArg _ ((if_pos a).trans
      ((resolve_role (s := s.setLink { s.link with ack := true }) (resolveRole_leader.2 leads)).trans ?_)))
    rw [commonRate_eq]
    rfl
  · refine probing.trans (congrArg _ ((if_pos a).trans
      ((resolve_role (s := s.setLink { s.link with ack := true }) (resolveRole_follower.2 follows)).trans ?_)))
    rw [commonRate_eq]
    rfl
  · refine probing.trans (congrArg _ ((if_pos a).trans (resolve_conflict ?_)))
    cases role : resolveRole s.loaded.rolePref (RolePref.ofCode (byteAt w.bytes 1)) s.loaded.unit (byteAt w.bytes 2) with
    | none => exact role
    | some role' =>
      cases role' with
      | leader => exact absurd (resolveRole_leader.1 role) notLeads
      | follower => exact absurd (resolveRole_follower.1 role) notFollows

end Sys2Proof.Machine
end

section
/-! PROOFS. The capture unit: the sample of a tick, the acceptance of an edge, its delivery and what it arms; and the words
that a leader, or a link in LOCKED, acts on (R86, R97 to R109, R158, R161, R163, R164). -/

namespace Sys2Proof.Machine

/-! ## One sample (R98, R99) -/

section
variable {f : Filter} {raw : Level} {count : Count} {fl : BitVec 4}

theorem sample_same (h : f.run = none) (e : raw = f.filtered) : f.sample raw count fl = { f with sampled := raw } := by
  rw [Filter.sample, h]
  exact if_pos e

theorem sample_begins (h : f.run = none) (e : raw ≠ f.filtered) :
    f.sample raw count fl = { f with sampled := raw, run := some ⟨1, count, false⟩ } := by
  rw [Filter.sample, h]
  exact if_neg e

variable {r : FilterRun} (h : f.run = some r)
include h

theorem sample_complete (long : fl.toNat < r.len) : f.sample raw count fl = { f with sampled := raw } := by
  rw [Filter.sample, h]
  exact if_pos long

theorem sample_ends (short : r.len ≤ fl.toNat) (e : raw = f.filtered) :
    f.sample raw count fl = { f with sampled := raw, run := none } := by
  rw [Filter.sample, h]
  exact (if_neg (by omega)).trans (if_pos e)

theorem sample_goesOn (short : r.len ≤ fl.toNat) (e : raw ≠ f.filtered) :
    f.sample raw count fl = { f with sampled := raw, run := some { r with len := r.len + 1 } } := by
  rw [Filter.sample, h]
  exact (if_neg (by omega)).trans (if_neg e)

end

section
variable {s : State} {n : LineId} {drive : Option Level}

theorem rawUnder_held (h : s.held.getLsbD n.val = true) : s.rawUnder n drive = Level.ofBit (s.level.getLsbD n.val) :=
  if_pos h

theorem rawUnder_driven {v : Level} (h : s.held.getLsbD n.val = false) (d : drive = some v) :
    s.rawUnder n drive = v := by
  rw [State.rawUnder, h, d]
  rfl

theorem sampled_off (h : (s.line n).mode = .off) : s.sampled n = s.filter n := if_pos h

theorem sampled_on (h : (s.line n).mode ≠ .off) : s.sampled n =
    (s.filter n).sample (s.rawUnder n (s.driveForSample n)) s.tb.count (s.line n).filterLen := if_neg h

theorem sampleAll_filter (s : State) (held level : LineSet) (n : LineId) :
    (s.sampleAll held level).filter n = State.sampled { s with held := held, level := level } n :=
  Vector.getElem_ofFn ..

end

/-- Settles O23: a sample of each line, by its mode and its run. -/
theorem sampleOfATick : Obligations.SampleOfATick := by
  intro held level s
  refine ⟨s.sampleAll held level, rfl, rfl, rfl, rfl, rfl, fun n => ?_⟩
  rw [sampleAll_filter]
  refine ⟨fun off => sampled_off off, fun on => ?_⟩
  rw [sampled_on (s := { s with held := held, level := level }) on]
  exact ⟨_, fun h => rawUnder_held h, fun v h d => rawUnder_driven h d, sample_same, sample_begins,
    fun r h short => ⟨sample_ends h short, sample_goesOn h short⟩, fun r h long => sample_complete h long⟩

/-! ## Delivery (R105, R106, R108) -/

/-- The ports after an edge has been offered to every port of a list whose cell selects it. -/
theorem foldl_notify (n : AnyLine) (e : Edge) (r : Record) (l : List PortId) (nd : l.Nodup) (s : State) :
    l.foldl (fun s p => if (s.cell p n).selects e then s.offer p r else s) s =
      { s with ports := Vector.ofFn (fun p => if p ∈ l ∧ (s.cell p n).selects e = true
        then (s.port p).enqueue r else s.port p) } := by
  induction l generalizing s with
  | nil =>
    have same : s.ports = Vector.ofFn (fun p => s.port p) := vector_ext_fin fun p => by
      rw [Vector.getElem_ofFn, State.port]
    simp only [List.foldl_nil, List.not_mem_nil, false_and, if_false, ← same]
  | cons q t ih =>
    obtain ⟨fresh, nd⟩ := List.nodup_cons.1 nd
    rw [List.foldl_cons, ih nd]
    by_cases sel : (s.cell q n).selects e = true
    · rw [if_pos sel]
      refine congrArg (fun v => { s with ports := v }) (vector_ext_fin fun p => ?_)
      simp only [Vector.getElem_ofFn, List.mem_cons, offer_port]
      by_cases hp : q = p
      · subst hp
        rw [if_neg fun k => fresh k.1, if_pos rfl, if_pos ⟨.inl rfl, sel⟩]
      · simp only [if_neg hp, Ne.symm hp, false_or]
        rfl
    · rw [if_neg sel]
      refine congrArg (fun v => { s with ports := v }) (vector_ext_fin fun p => ?_)
      simp only [Vector.getElem_ofFn, List.mem_cons]
      by_cases hp : q = p
      · subst hp
        rw [if_neg fun k => sel k.2, if_neg fun k => sel k.2]
      · simp only [Ne.symm hp, false_or]

/-- An edge has been offered to every port whose cell selects it. -/
def State.noticed (s : State) (x : CapturedEdge) : State :=
  { s with ports := Vector.ofFn (fun p => if (s.cell p x.line).selects x.edge = true
      then (s.port p).enqueue x.record else s.port p) }

theorem noticed_port (s : State) (x : CapturedEdge) (p : PortId) : (s.noticed x).port p =
    if (s.cell p x.line).selects x.edge = true then (s.port p).enqueue x.record else s.port p :=
  Vector.getElem_ofFn ..

theorem notifyEdge_eq (s : State) (x : CapturedEdge) : s.notifyEdge x = s.noticed x := by
  refine (foldl_notify _ _ _ _ (List.nodup_finRange 4) s).trans ?_
  simp only [List.mem_finRange, true_and]
  rfl

theorem deliver_eq (s : State) (x : CapturedEdge) : s.deliver x = (s.noticed x).reportEdge x.line x.edge x.time := by
  rw [State.deliver, notifyEdge_eq]

theorem deliver_none {s : State} {x : CapturedEdge} (h : s.noneAwaits x.line x.edge) : s.deliver x = s.noticed x := by
  rw [deliver_eq, State.reportEdge, entriesWhere_none (s := s.noticed x) h]
  rfl

theorem link_enqueue_eq (l : Link) (f : Forward) : l.enqueue f =
    if l.forward.length < 16 then { l with forward := l.forward ++ [f] }
    else { l with drops := if l.drops = 65535 then 65535 else l.drops + 1 } := by
  rw [Link.enqueue, sat16_eq]

theorem exportEdge_eq (s : State) (n : LineId) (f : Forward) : s.exportEdge n f = { s with
    link := if s.loaded.exported.getLsbD n.val = true ∧ s.link.state = .locked then
        if s.link.forward.length < 16 then { s.link with forward := s.link.forward ++ [f] }
        else { s.link with drops := if s.link.drops = 65535 then 65535 else s.link.drops + 1 }
      else s.link } := by
  rw [State.exportEdge, link_enqueue_eq]
  by_cases h : s.loaded.exported.getLsbD n.val = true ∧ s.link.state = .locked
  · rw [if_pos h]
    exact if_pos h
  · rw [if_neg h]
    exact if_neg h

/-! ## The acceptance of an edge (R99, R101, R103) -/

theorem opposite_eq (l : Level) : l.opposite = if l = .low then .high else .low := by
  cases l <;> rfl

theorem edge_of_opposite (l : Level) : Edge.to l.opposite = if l = .low then .rise else .fall := by
  cases l <;> rfl

/-- The state in which an edge has left the filter. -/
def State.taken (s : State) (n : LineId) : State :=
  s.setFilter n { s.filter n with
    filtered := if (s.filter n).filtered = .low then .high else .low
    run := none }

/-- The edge of a run, for the ports and the anchors. -/
def State.edgeTaken (s : State) (n : LineId) (r : FilterRun) : CapturedEdge :=
  ⟨localLine n, if (s.filter n).filtered = .low then .rise else .fall, r.stamp, s.tb.epoch, s.tb.run == .halted,
    r.stepped, false⟩

/-- The edge of a run, for the forward queue. -/
def State.forwardTaken (s : State) (n : LineId) (r : FilterRun) : Forward :=
  ⟨n, if (s.filter n).filtered = .low then .rise else .fall, r.stamp, s.tb.epoch, s.tb.run == .halted, r.stepped⟩

section
variable {s : State} {n : LineId}

theorem acceptEdge_early (h : (s.line n).mode = .off ∨ (s.filter n).run = none ∨
    ∃ r, (s.filter n).run = some r ∧ r.len ≤ (s.line n).filterLen.toNat) : s.acceptEdge n = s := by
  unfold State.acceptEdge
  split
  · rfl
  · rename_i r hr
    obtain off | none_ | ⟨r', hr', short⟩ := h
    · split
      · rw [State.acceptRun, off]
      · rfl
    · cases none_.symm.trans hr
    · cases hr.symm.trans hr'
      exact if_neg (by omega)

variable {r : FilterRun} (hr : (s.filter n).run = some r) (long : (s.line n).filterLen.toNat < r.len)
include hr long

theorem acceptEdge_long : s.acceptEdge n = s.acceptRun n r := by
  rw [State.acceptEdge, hr]
  exact if_pos long

theorem acceptEdge_test (test : (s.line n).mode = .test) : s.acceptEdge n =
    (s.taken n).checkEdge n (if (s.filter n).filtered = .low then .rise else .fall) := by
  rw [acceptEdge_long hr long, State.acceptRun, test, opposite_eq, ← opposite_eq, edge_of_opposite]
  rw [opposite_eq]
  rfl

theorem acceptEdge_delivers (on : (s.line n).mode ≠ .off) (use : (s.line n).mode ≠ .test) : s.acceptEdge n =
    ((s.taken n).deliver (s.edgeTaken n r)).exportEdge n (s.forwardTaken n r) := by
  rw [acceptEdge_long hr long, State.acceptRun, edge_of_opposite, opposite_eq]
  cases m : (s.line n).mode with
  | off => exact absurd m on
  | test => exact absurd m use
  | input => rfl
  | output => rfl
  | parked => rfl

end

theorem checkEdge_check (s : State) (n : LineId) (e : Edge) : ∃ c, s.checkEdge n e = s.setCheck c := by
  unfold State.checkEdge
  split
  · exact ⟨_, rfl⟩
  · exact ⟨s.maint.check, rfl⟩
  · exact ⟨s.maint.check, rfl⟩

/-- Settles O24: where no anchor waits, the delivery is the notice alone, and the edge goes to the link for itself. -/
theorem edgeAcceptedDelivers : Obligations.EdgeAcceptedDelivers := by
  intro n s
  refine ⟨fun h => congrArg _ (acceptEdge_early h), fun r hr long => ⟨fun test => ?_, fun on use none_ => ?_⟩⟩
  · obtain ⟨c, hc⟩ := checkEdge_check (s.taken n) n (if (s.filter n).filtered = .low then .rise else .fall)
    exact ⟨c, congrArg _ ((acceptEdge_test hr long test).trans hc)⟩
  · have accepted : s.acceptEdge n = ((s.taken n).noticed (s.edgeTaken n r)).exportEdge n (s.forwardTaken n r) := by
      rw [acceptEdge_delivers hr long on use, deliver_none (s := s.taken n) (x := s.edgeTaken n r) none_]
    exact ⟨_, congrArg Host.Outcome.next (accepted.trans (exportEdge_eq ..)), rfl, rfl,
      fun p => noticed_port (s.taken n) (s.edgeTaken n r) p, rfl⟩

/-- Settles O25: the anchors that wait are armed after the notices, and the edge goes to the link last. -/
theorem edgeArmsEntry : Obligations.EdgeArmsEntry := by
  intro n s r l f lev e line hr long on use order _ drains u
  refine ⟨u.reportEdge line e r.stamp, reportEdge_each r.stamp order drains, congrArg Host.Outcome.next ?_⟩
  have kept := reportEdge_scheduled u line e r.stamp
  have accepted : s.acceptEdge n = (u.reportEdge line e r.stamp).exportEdge n (s.forwardTaken n r) := by
    rw [acceptEdge_delivers hr long on use, deliver_eq]
    rfl
  rw [accepted, exportEdge_eq, kept.loaded, kept.link]
  rfl

/-! ## TIME_QUERY, IDLE and CAPTURE (R158, R161, R164) -/

section
variable {w : WireWord} {s : State}

theorem noteValid_eq (s : State) : s.noteValid = { s with link := s.linkAfterWord } := by
  unfold State.noteValid State.linkAfterWord
  split <;> rfl

theorem linkAfterWord_state (s : State) : s.linkAfterWord.state = s.link.state := by
  unfold State.linkAfterWord
  split <;> rfl

theorem linkAfterWord_role (s : State) : s.linkAfterWord.role = s.link.role := by
  unfold State.linkAfterWord
  split <;> rfl

theorem noteValid_isRole (s : State) (role : Role) : s.noteValid.isRole role ↔ s.isRole role := by
  rw [noteValid_eq]
  simp only [State.isRole, linkAfterWord_state, linkAfterWord_role]

theorem takeQuery_leader (h : s.isRole .leader) (c1 : Count) :
    s.takeQuery c1 = s.setLink { s.link with owed := some ⟨c1, s.tb.count⟩ } := if_pos (acts_iff.2 h)

theorem takeQuery_other (h : ¬ s.isRole .leader) (c1 : Count) : s.takeQuery c1 = s :=
  if_neg fun k => h (acts_iff.1 k)

theorem timeQueryReceived_deaf (h : ¬ s.hears w 0x12) : exec (.timeQueryReceived w) s = .next s := by
  refine congrArg Host.Outcome.next ?_
  split
  · exact absurd (hears_of_received ‹_›) h
  · rfl

theorem timeQueryReceived_heard (h : s.hears w 0x12) :
    exec (.timeQueryReceived w) s = .next (s.noteValid.takeQuery (countAt w.bytes 1)) := by
  obtain ⟨received, kind, -⟩ := received_of_hears h
  refine congrArg Host.Outcome.next ?_
  rw [received, readWord_timeQuery kind]

theorem idleWordReceived_deaf (h : ¬ s.hears w 0x15) : exec (.idleWordReceived w) s = .next s := by
  refine congrArg Host.Outcome.next ?_
  split
  · exact absurd (hears_of_received ‹_›) h
  · rfl

theorem idleWordReceived_heard (h : s.hears w 0x15) : exec (.idleWordReceived w) s = .next s.noteValid := by
  obtain ⟨received, kind, -⟩ := received_of_hears h
  refine congrArg Host.Outcome.next ?_
  rw [received, readWord_idle kind]

theorem captureWordReceived_deaf (h : ¬ s.hears w 0x14) : exec (.captureWordReceived w) s = .next s := by
  refine congrArg Host.Outcome.next ?_
  split
  · exact absurd (hears_of_received ‹_›) h
  · exact absurd (hears_of_received ‹_›) h
  · rfl

theorem readCapture_discarded {l : List Byte} (h : 15 < (byteAt l 1).toNat ∨ (byteAt l 2 ≠ 1 ∧ byteAt l 2 ≠ 2)) :
    readCapture l = .captureDiscarded := by
  unfold readCapture
  dsimp only
  obtain h | h := h
  · exact dif_neg (by omega)
  · split
    · exact if_neg (not_or.2 h)
    · rfl

theorem readCapture_cases (l : List Byte) : readCapture l = .captureDiscarded ∨ ∃ f, readCapture l = .capture f := by
  unfold readCapture
  dsimp only
  split
  · split
    · exact .inr ⟨_, rfl⟩
    · exact .inl rfl
  · exact .inl rfl

theorem readCapture_edge {l : List Byte} {n : LineId} {e : Edge} (hn : n.val = (byteAt l 1).toNat)
    (he : byteAt l 2 = 1 ∧ e = .rise ∨ byteAt l 2 = 2 ∧ e = .fall) : readCapture l =
      .capture ⟨n, e, countAt l 3, byteAt l 8, (byteAt l 9).getLsbD 0, (byteAt l 9).getLsbD 1⟩ := by
  unfold readCapture
  have line : (⟨(byteAt l 1).toNat, hn ▸ n.isLt⟩ : LineId) = n := Fin.ext hn.symm
  rw [dif_pos (hn ▸ n.isLt), line]
  obtain ⟨code, rfl⟩ | ⟨code, rfl⟩ := he
  · rw [code]
    rfl
  · rw [code]
    rfl

theorem takeCapture_unlocked (h : s.link.state ≠ .locked) (f : Forward) : s.takeCapture f = s := by
  rw [State.takeCapture, linkIn_false h]
  rfl

theorem takeCapture_locked (h : s.link.state = .locked) (f : Forward) : s.takeCapture f = s.remoteEdge f :=
  if_pos (linkIn_true h)

theorem captureWordReceived_discarded (h : s.hears w 0x14) (d : readCapture w.bytes = .captureDiscarded) :
    exec (.captureWordReceived w) s = .next s.noteValid := by
  obtain ⟨received, kind, -⟩ := received_of_hears h
  refine congrArg Host.Outcome.next ?_
  rw [received, readWord_capture kind, d]

theorem captureWordReceived_edge (h : s.hears w 0x14) {f : Forward} (c : readCapture w.bytes = .capture f) :
    exec (.captureWordReceived w) s = .next (s.noteValid.takeCapture f) := by
  obtain ⟨received, kind, -⟩ := received_of_hears h
  refine congrArg Host.Outcome.next ?_
  rw [received, readWord_capture kind, c]

theorem captureWordReceived_unlocked (h : s.hears w 0x14) (u : s.link.state ≠ .locked) :
    exec (.captureWordReceived w) s = .next s.noteValid := by
  have unlocked : s.noteValid.link.state ≠ .locked := by
    rw [noteValid_eq]
    exact linkAfterWord_state s ▸ u
  obtain d | ⟨f, c⟩ := readCapture_cases w.bytes
  · exact captureWordReceived_discarded h d
  · rw [captureWordReceived_edge h c, takeCapture_unlocked unlocked]

end

/-- The edge that the CAPTURE bytes carry to a remote line. -/
def remoteOf (l : List Byte) (n : AnyLine) (e : Edge) : CapturedEdge :=
  ⟨n, e, l.getD 3 0 ++ l.getD (3 + 1) 0 ++ l.getD (3 + 2) 0 ++ l.getD (3 + 3) 0 ++ l.getD (3 + 4) 0, l.getD 8 0,
    (l.getD 9 0).getLsbD 0, (l.getD 9 0).getLsbD 1, true⟩

theorem captureWordReceived_delivers {w : WireWord} {s : State} (h : s.hears w 0x14) (locked : s.link.state = .locked)
    {n : AnyLine} {e : Edge} (hn : n.val = 16 + (w.bytes.getD 1 0).toNat)
    (he : w.bytes.getD 2 0 = 1 ∧ e = .rise ∨ w.bytes.getD 2 0 = 2 ∧ e = .fall) :
    exec (.captureWordReceived w) s = .next (s.noteValid.deliver (remoteOf w.bytes n e)) := by
  obtain ⟨-, -, length⟩ := received_of_hears h
  have line : (w.bytes.getD 1 0).toNat < 16 := by omega
  have remote : remoteLine ⟨(w.bytes.getD 1 0).toNat, line⟩ = n := Fin.ext hn.symm
  have locked' : s.noteValid.link.state = .locked := by
    rw [noteValid_eq]
    exact (linkAfterWord_state s).trans locked
  rw [captureWordReceived_edge h (readCapture_edge (n := ⟨(w.bytes.getD 1 0).toNat, line⟩) rfl he),
    takeCapture_locked locked', State.remoteEdge, remote, countAt_eq (by omega)]
  rfl

/-- Settles O53: each row by the kind that it hears; a CAPTURE word by the link state and by its line and edge. -/
theorem queryCaptureIdleReceived : Obligations.QueryCaptureIdleReceived := by
  intro w s count counted
  have valid : s.noteValid = counted := noteValid_eq s
  refine ⟨fun h => timeQueryReceived_deaf h, fun h leader => ?_, fun h other => ?_, fun h => idleWordReceived_deaf h,
    fun h => valid ▸ idleWordReceived_heard h, fun h => captureWordReceived_deaf h, fun h =>
      ⟨fun u => valid ▸ captureWordReceived_unlocked h u, fun locked =>
        ⟨fun d => valid ▸ captureWordReceived_discarded h (readCapture_discarded d), fun n e hn he none_ => ?_,
          fun n e l hn he order _ drains => ?_⟩⟩⟩
  · obtain ⟨-, -, length⟩ := received_of_hears h
    rw [timeQueryReceived_heard h, takeQuery_leader ((noteValid_isRole s _).2 leader), valid, countAt_eq (by omega)]
    rfl
  · rw [timeQueryReceived_heard h, takeQuery_other fun k => other ((noteValid_isRole s _).1 k), valid]
  · refine ⟨counted.noticed (remoteOf w.bytes n e), ?_, rfl, fun p => noticed_port ..⟩
    rw [captureWordReceived_delivers h locked hn he, valid, deliver_none (s := counted) (x := remoteOf w.bytes n e) none_]
  · intro u
    refine ⟨u.reportEdge n e (count 3), reportEdge_each _ order drains, ?_⟩
    rw [captureWordReceived_delivers h locked hn he, valid, deliver_eq]
    rfl

end Sys2Proof.Machine
end

section
/-! PROOFS. Changes of the count and of the run state: the TB commands that take effect, and the TIME_REPLY that the
follower takes (R43 to R52, R158 to R160). -/

namespace Sys2Proof.Machine

/-! ## SET_TIME, STEP_TIME, HALT and RESUME (R43, R44, R45) -/

/-- The count and the epoch have changed, and every port is told; the PENDING entries are still to be re-examined. -/
def State.countChanged (s : State) (e : TimeEvent) (count : Count) (epoch : Byte) : State :=
  State.offerAll { s with
    tb := { s.tb with count := count, epoch := epoch, slew := none }
    link := { s.link with query := none }
    filters := s.steppedFilters } (.timebase e epoch count)

section
variable {s : State} {e : TimeEvent} {count : Count} {epoch : Byte}

theorem changeCount_quiet (h : s.nonePending) :
    s.changeCount e count epoch s.tb.run = s.countChanged e count epoch := by
  unfold State.changeCount
  dsimp only
  rw [dueList_none h, if_pos rfl]
  rfl

theorem changeCount_walks {l : List SlotId} (o : s.dueOrdered (fun _ => True) l)
    (d : s.drainsOn (fun _ => False)) : eachBecomes State.rejudgesTo l (s.countChanged e count epoch)
      (s.changeCount e count epoch s.tb.run) := by
  have each := changeCount_each s e count epoch s.tb.run o d
  dsimp only at each
  rw [if_pos rfl] at each
  exact each

end

/-- Settles O35: the change of the count with the walk of the re-examination, and the change of the run state. -/
theorem timeCommandsTakeEffect : Obligations.TimeCommandsTakeEffect := by
  refine ⟨fun p count offset s holds source => ?_, fun p s holds source => ?_⟩
  · have passes := tbRefusal_passes holds source
    intro changed
    refine ⟨fun hs => ?_, fun hs ho => ?_⟩
    · have answer := take_answers hs (setTimeBody_passes passes count)
      exact ⟨fun h => congrArg _ (answer.trans (by rw [changeCount_quiet h]; rfl)),
        fun l o _ d => ⟨_, changeCount_walks o d, congrArg _ answer⟩⟩
    · have answer := take_answers hs (stepTimeBody_passes ho passes)
      exact ⟨fun h => congrArg _ (answer.trans (by rw [changeCount_quiet h]; rfl)),
        fun l o _ d => ⟨_, changeCount_walks o d, congrArg _ answer⟩⟩
  · have passes := tbRefusal_passes holds source
    exact ⟨fun hs r => congrArg _ (take_answers hs (runBody_passes passes (by rw [r]; nofun))),
      fun hs r => congrArg _ (take_answers hs (runBody_passes passes (by rw [r]; nofun)))⟩

/-! ## What a change of the count leaves of the link -/

theorem changeCount_link (s : State) (e : TimeEvent) (count : Count) (epoch : Byte) (run : RunState) :
    (s.changeCount e count epoch run).link = { s.link with query := none } ∧
      (s.changeCount e count epoch run).elapsed = s.elapsed := by
  unfold State.changeCount
  dsimp only
  split
  all_goals exact ⟨(reexamine_scheduled ..).link, (reexamine_scheduled ..).elapsed⟩

/-! ## TIME_REPLY (R158, R159, R160) -/

section
variable {w : WireWord} {s : State}

theorem timeReplyReceived_deaf (h : ¬ s.hears w 0x13) : exec (.timeReplyReceived w) s = .next s := by
  refine congrArg Host.Outcome.next ?_
  split
  · exact absurd (hears_of_received ‹_›) h
  · rfl

theorem timeReplyReceived_heard (h : s.hears w 0x13) : exec (.timeReplyReceived w) s =
    .next (s.noteValid.takeReply (countAt w.bytes 1) (countAt w.bytes 6) (countAt w.bytes 11) (byteAt w.bytes 16)
      ((byteAt w.bytes 17).getLsbD 0)) := by
  obtain ⟨received, kind, -⟩ := received_of_hears h
  refine congrArg Host.Outcome.next ?_
  rw [received, readWord_timeReply kind]

theorem noteValid_follower (h : s.isRole .follower) : s.noteValid = s :=
  if_neg fun k => by cases h.2.symm.trans k.2

variable {c1 l1 l2 : Count} {epoch : Byte} {halted : Bool}

theorem takeReply_other (h : ¬ (s.isRole .follower ∧ ∃ q, s.link.query = some q ∧ q.c1 = c1)) :
    s.takeReply c1 l1 l2 epoch halted = s := by
  unfold State.takeReply
  split
  · rename_i q role query
    exact if_neg fun e => h ⟨acts_iff.1 role, q, query, e⟩
  · rfl
  · rfl

/-- The reply has been taken: the query is answered, and d is kept (R158). -/
def State.answeredBy (s : State) (x : Exchange) : State := s.setLink { s.link with query := none, lastD := x.d }

theorem takeReply_taken (role : s.isRole .follower) {q : Query} (query : s.link.query = some q) (e : q.c1 = c1) :
    s.takeReply c1 l1 l2 epoch halted = (let x := computeExchange c1 l1 l2 s.tb.count epoch halted
      if s.linkIn .aligning then (s.answeredBy x).followerLock x else (s.answeredBy x).followerTrack x) := by
  rw [State.takeReply, acts_iff.2 role, query]
  exact if_pos e

end

section
variable {s : State} {x : Exchange}

theorem alignStep_link (s : State) (x : Exchange) : (s.alignStep x).link = { s.link with query := none } ∧
    (s.alignStep x).elapsed = s.elapsed := changeCount_link ..

theorem followerLock_eq (s : State) (x : Exchange) : s.followerLock x = State.offerAll { s.alignStep x with
    link := { s.link with
      query := none, state := .locked, deadline := none, missed := 0, queryDue := false
      nextQuery := some (s.elapsed + 10000) }
    tb := { (s.alignStep x).tb with source := .follower } } (.link .locked) := by
  obtain ⟨link, elapsed⟩ := alignStep_link s x
  rw [State.followerLock]
  dsimp only
  rw [link, ← elapsed]
  rfl

theorem mustAlign_iff : s.mustAlign x = true ↔ x.epoch ≠ s.tb.epoch ∨ 8 < x.d ∨ x.d < -8 := by
  simp only [State.mustAlign, Bool.or_eq_true, bne_iff_ne, decide_eq_true_eq]
  exact or_congr Iff.rfl (by omega)

theorem followerTrack_aligns (h : x.epoch ≠ s.tb.epoch ∨ 8 < x.d ∨ x.d < -8) : s.followerTrack x =
    { s.alignStep x with
      link := { s.link with
        query := none, missed := 0, queryDue := false, nextQuery := some (s.elapsed + 10000) } } := by
  obtain ⟨link, elapsed⟩ := alignStep_link s x
  rw [State.followerTrack, if_pos (mustAlign_iff.2 h)]
  dsimp only
  rw [link, ← elapsed]
  rfl

/-- The slew after a small difference: none is asked for while HALTED or at 0 (R49, R160). -/
def slewAfter (run : RunState) (d : Int) (old : Option Slew) : Option Slew :=
  if run = .halted ∨ d = 0 then old else if 0 < d then some .double else some .held

theorem correctBy_eq (s : State) (d : Int) :
    s.correctBy d = { s with tb := { s.tb with slew := slewAfter s.tb.run d s.tb.slew } } := by
  unfold State.correctBy slewAfter State.requestSlew
  by_cases zero : d = 0
  · rw [if_pos zero, if_pos (.inr zero)]
  by_cases halted : s.tb.run = .halted
  · rw [if_neg zero, if_pos halted, if_pos halted, ite_self, if_pos (.inl halted)]
  · rw [if_neg zero, if_neg halted, if_neg halted, if_neg (not_or.2 ⟨halted, zero⟩)]
    split <;> rfl

theorem copyHalted_same {halted : Bool} (h : runOf halted = s.tb.run) : s.copyHalted halted = s := if_pos h

theorem copyHalted_new {halted : Bool} (h : runOf halted ≠ s.tb.run) : s.copyHalted halted = s.setRun (runOf halted) :=
  if_neg h

theorem followerTrack_tracks (h : ¬ (x.epoch ≠ s.tb.epoch ∨ 8 < x.d ∨ x.d < -8)) (quiet : s.link.query = none) :
    s.followerTrack x = (let u : State := { s with
        tb := { s.tb with run := runOf x.halted, slew := slewAfter (runOf x.halted) x.d s.tb.slew }
        link := { s.link with missed := 0, queryDue := false, nextQuery := some (s.elapsed + 10000) } }
      if runOf x.halted = s.tb.run then u
        else u.offerAll (.timebase (runOf x.halted).event s.tb.epoch s.tb.count)) := by
  rw [State.followerTrack, if_neg fun k => h (mustAlign_iff.1 k), correctBy_eq]
  by_cases same : runOf x.halted = s.tb.run
  · rw [copyHalted_same same]
    dsimp only
    rw [if_pos same, same]
    rfl
  · rw [copyHalted_new same]
    dsimp only
    rw [if_neg same]
    simp only [State.setRun, State.voidQuery, State.announceTime, setTb_link, setLink_link, State.offerAll,
      setTb_elapsed, setLink_elapsed, Link.exchanged, ← quiet]
    rfl

end

theorem runOf_event (halted : Bool) : (runOf halted).event = if halted then .halt else .resume := by
  cases halted <;> rfl

theorem linkAfterWord_query (s : State) : s.linkAfterWord.query = s.link.query := by
  unfold State.linkAfterWord
  split <;> rfl

/-- The count in five bytes of a word. -/
def countBytes (l : List Byte) (k : Nat) : Count :=
  l.getD k 0 ++ l.getD (k + 1) 0 ++ l.getD (k + 2) 0 ++ l.getD (k + 3) 0 ++ l.getD (k + 4) 0

/-- The exchange that the bytes of a TIME_REPLY give a follower. -/
def exchangeOf (l : List Byte) (c2 : Count) : Exchange :=
  computeExchange (countBytes l 1) (countBytes l 6) (countBytes l 11) c2 (l.getD 16 0) ((l.getD 17 0).getLsbD 0)

section
variable {w : WireWord} {s : State} (h : s.hears w 0x13)
include h

theorem timeReplyReceived_untaken
    (n : ¬ (s.isRole .follower ∧ ∃ q, s.link.query = some q ∧ q.c1 = countBytes w.bytes 1)) :
    exec (.timeReplyReceived w) s = .next s.noteValid := by
  obtain ⟨-, -, length⟩ := received_of_hears h
  rw [timeReplyReceived_heard h, takeReply_other]
  rw [noteValid_isRole, noteValid_eq, countAt_eq (by omega)]
  simp only [linkAfterWord_query]
  exact n

theorem timeReplyReceived_taken {q : Query} (role : s.isRole .follower) (query : s.link.query = some q)
    (e : q.c1 = countBytes w.bytes 1) : exec (.timeReplyReceived w) s = .next (
      let x := exchangeOf w.bytes s.tb.count
      if s.linkIn .aligning then (s.answeredBy x).followerLock x else (s.answeredBy x).followerTrack x) := by
  obtain ⟨-, -, length⟩ := received_of_hears h
  have fields : countAt w.bytes 1 = countBytes w.bytes 1 ∧ countAt w.bytes 6 = countBytes w.bytes 6 ∧
      countAt w.bytes 11 = countBytes w.bytes 11 :=
    ⟨countAt_eq (by omega), countAt_eq (by omega), countAt_eq (by omega)⟩
  obtain ⟨c1, l1, l2⟩ := fields
  rw [timeReplyReceived_heard h, noteValid_follower role, c1, l1, l2, takeReply_taken role query e]
  rfl

end

/-- The walk of an alignment step over the PENDING entries (R44, R50, R67). -/
theorem alignStep_walks {s : State} {x : Exchange} {l : List SlotId} (o : s.dueOrdered (fun _ => True) l)
    (d : s.drainsOn (fun _ => False)) :
    let u : State := State.offerAll { s with
      tb := { s.tb with count := x.leaderTime, epoch := x.epoch, run := runOf x.halted, slew := none }
      filters := s.steppedFilters
      link := { s.link with query := none } } (.timebase .alignStep x.epoch x.leaderTime)
    eachBecomes State.rejudgesTo l (if runOf x.halted = s.tb.run then u
      else u.offerAll (.timebase (if x.halted then .halt else .resume) x.epoch x.leaderTime)) (s.alignStep x) := by
  rw [← runOf_event]
  exact changeCount_each s .alignStep x.leaderTime x.epoch (runOf x.halted) o d

/-- Settles O54: the reply by the kind, by the outstanding query, and by the link state and the size of d. -/
theorem timeReplyReceived : Obligations.TimeReplyReceived := by
  intro w s
  refine ⟨fun h => timeReplyReceived_deaf h, fun h n => ?_, fun h ⟨role, q, query, e⟩ => ?_⟩
  · rw [timeReplyReceived_untaken h n, noteValid_eq]
  have run := timeReplyReceived_taken h role query e
  let x := exchangeOf w.bytes s.tb.count
  refine ⟨fun l o _ d => ⟨fun st => ?_, fun st far => ?_⟩, fun st same low high => ?_⟩
  · rw [linkIn_true st] at run
    exact ⟨_, alignStep_walks (s := s.answeredBy x) (x := x) o d, run.trans (congrArg _ (followerLock_eq ..))⟩
  · rw [linkIn_false (by rw [st]; nofun)] at run
    exact ⟨_, alignStep_walks (s := s.answeredBy x) (x := x) o d, run.trans (congrArg _ (followerTrack_aligns far))⟩
  · rw [linkIn_false (by rw [st]; nofun)] at run
    refine run.trans (congrArg _ ((followerTrack_tracks ?_ rfl).trans ?_))
    · rintro (k | k | k)
      · exact k same
      · exact absurd k (Int.not_lt.2 high)
      · exact absurd k (Int.not_lt.2 low)
    · rw [runOf_event, show (s.answeredBy x).tb.epoch = w.bytes.getD 16 0 from same.symm]
      rfl

end Sys2Proof.Machine
end

section
/-! PROOFS. The commands of the notice queues, the bytes of a record, the status block, and reading and clearing the
error counters (R113 to R121, R149, R150). -/

namespace Sys2Proof.Machine

theorem setPort_self (s : State) (p : PortId) : s.setPort p (s.port p) = s :=
  congrArg (fun v => { s with ports := v }) (Vector.set_getElem_self ..)

/-! ## TAKE_NOTICES and the removal of its records (R117, R118) -/

section
variable {s : State} {p : PortId}

theorem takeNoticesBody_outOfRange {max : Byte} (h : max = 0 ∨ 8 < max.toNat) :
    takeNoticesBody p max s = (s, reply .badParam) := if_pos h

/-- The count of a TAKE_NOTICES response is fixed at the taking. -/
theorem takeNotices_taken {max : Byte} (hs : s.readyFor p 0x50 [max]) (low : 1 ≤ max.toNat) (high : max.toNat ≤ 8) :
    exec (.takeNotices p max) s = .next (let k := min max.toNat (s.port p).queue.length
      s.setPort p { s.port p with frame := .response [0x01, BitVec.ofNat 8 k] k }) := by
  have inRange : ¬ (max = 0 ∨ 8 < max.toNat) := by
    rintro (rfl | h)
    · exact absurd low (by decide)
    · omega
  refine (congrArg Host.Outcome.next (take_of_readyFor hs)).trans ?_
  rw [takeNoticesBody, if_neg inRange]
  rfl

theorem removeSent_removes {q : Port} {sent : List Byte} {k : Nat} {r : Record} {rest : List Record}
    (hf : q.frame = .response sent (k + 1)) (hq : q.queue = r :: rest) :
    q.removeSent = { q with queue := rest, frame := .response (sent ++ r.bytes) k } := by
  rw [Port.removeSent, hf, hq]

theorem removeSent_same {q : Port} (h : (∀ sent k, q.frame ≠ .response sent (k + 1)) ∨ q.queue = []) :
    q.removeSent = q := by
  unfold Port.removeSent
  split
  · rename_i hf hq
    exact h.elim (fun n => absurd hf (n _ _)) fun e => nomatch hq.symm.trans e
  · rfl

end

/-- Settles O36: TAKE_NOTICES by its parameter, its response byte by byte, and the removal by the frame and the queue. -/
theorem takeNotices : Obligations.TakeNotices := by
  intro p s
  refine ⟨fun max hs => ⟨fun h => congrArg _ (take_answers hs (takeNoticesBody_outOfRange h)), fun low high => ?_⟩,
    fun sent k r rest hf hq => congrArg (fun q => Host.Outcome.next (s.setPort p q)) (removeSent_removes hf hq),
    fun h => congrArg Host.Outcome.next ((congrArg (s.setPort p) (removeSent_same h)).trans (setPort_self s p))⟩
  have taken := takeNotices_taken hs low high
  refine ⟨taken, fun m hm => ⟨_, taken, ?_⟩⟩
  let k := min max.toNat (s.port p).queue.length
  let t := s.setPort p { s.port p with frame := .response [0x01, BitVec.ofNat 8 k] k }
  have port : t.port p = { s.port p with frame := .response [0x01, BitVec.ofNat 8 k] k } :=
    (setPort_port ..).trans (if_pos rfl)
  have ready : t.phase ≠ .pinReset := by
    rw [setPort_phase, hs.1]
    nofun
  have inQueue : m / 12 < k := by omega
  obtain ⟨x, hx⟩ : ∃ x, (s.port p).queue[m / 12]? = some x := ⟨_, List.getElem?_eq_getElem (by omega)⟩
  obtain ⟨b, hb⟩ : ∃ b, x.bytes[m % 12]? = some b :=
    ⟨_, List.getElem?_eq_getElem (by rw [record_length]; omega)⟩
  have sends := dataOut_record ready (congrArg Port.frame port) inQueue (by rw [port]; exact hx) hb
  rw [hx, Option.bind_some, hb, ← sends]
  congr 1
  show 2 + m = 2 + 12 * (m / 12) + m % 12
  omega

/-! ## INTEGRITY_READ and INTEGRITY_CLEAR (R149, R150) -/

theorem firstErrorBytes_none (free : Nat) :
    (firstErrorBytes none free).length = 8 ∧ (firstErrorBytes none free).head? = some 0 := ⟨rfl, rfl⟩

theorem firstErrorBytes_some (g : FirstError) (free : Nat) : ∃ e₃ e₂ e₁ e₀ : Byte,
    firstErrorBytes (some g) free = [1, BitVec.ofNat 8 g.slot.val,
      (match g.severity with | .corrected => 1 | .uncorrectable => 2),
      (match g.owner with | some q => BitVec.ofNat 8 q.val | none => 0xFF), e₃, e₂, e₁, e₀] ∧
    e₃ ++ e₂ ++ e₁ ++ e₀ = g.time := by
  obtain ⟨e₃, e₂, e₁, e₀, bytes, time⟩ := bytesOf_four g.time
  refine ⟨e₃, e₂, e₁, e₀, ?_, time⟩
  rw [firstErrorBytes, bytes]
  rfl

section
variable {s : State} {p : PortId}

theorem integrityReadBody_eq (s : State) : integrityReadBody s = (s.bumpFree, replyData
    (((List.finRange 4).flatMap (fun q => [(s.errors q).corrected, (s.errors q).uncorrectable,
      (s.errors q).threshold, if (s.errors q).mark then 1 else 0])) ++
      BitVec.ofNat 8 s.integ.scrubPos.val :: firstErrorBytes s.integ.firstError s.free)) :=
  congrArg (fun d => (s.bumpFree, replyData d)) (List.append_assoc ..)

theorem integrityClearBody_notHolder (h : (s.claim resMX).holder ≠ some p) :
    integrityClearBody p s = (s, reply .notHolder) := if_pos ((holds_false_iff ..).2 h)

theorem integrityClearBody_clears (h : (s.claim resMX).holder = some p) : integrityClearBody p s =
    ({ s with integ := { s.integ with
      counters := s.integ.counters.map (fun c => ⟨0, 0, c.threshold, false⟩), firstError := none } }, reply .ok) := by
  rw [integrityClearBody, (holds_iff ..).2 h]
  rfl

end

/-- Settles O46: INTEGRITY_READ by the first-error record, and INTEGRITY_CLEAR by the phase and the holder of MX. -/
theorem integrityReadAndClear : Obligations.IntegrityReadAndClear := by
  intro p s
  refine ⟨fun hs => ⟨s.bumpFree, firstErrorBytes s.integ.firstError s.free,
      congrArg _ (take_data hs (integrityReadBody_eq s)), rfl, ?_, fun h => ?_, fun g h => ?_⟩,
    fun hs => congrArg _ ((take_of_loadingFor hs).trans (respond_reply ..)),
    fun hs => ⟨fun h => congrArg _ (take_answers hs (integrityClearBody_notHolder h)),
      fun h => congrArg _ (take_answers hs (integrityClearBody_clears h))⟩⟩
  · cases h : s.integ.firstError with
    | none => exact (firstErrorBytes_none s.free).1
    | some g =>
      obtain ⟨_, _, _, _, bytes, -⟩ := firstErrorBytes_some g s.free
      rw [bytes]
      rfl
  · rw [h]
    exact (firstErrorBytes_none s.free).2
  · rw [h]
    exact firstErrorBytes_some g s.free

end Sys2Proof.Machine
end

section
/-! PROOFS. PEEK_NOTICE, SET_ATTN_MASK and SNAPSHOT, and the twelve bytes of each record (R113 to R121). -/

namespace Sys2Proof.Machine

/-! ## The bytes of a record (R113) -/

theorem toNat_flagsByte (halted stepped remote : Bool) : (flagsByte halted stepped remote).toNat =
    (if halted then 1 else 0) + (if stepped then 2 else 0) + (if remote then 4 else 0) := by
  cases halted <;> cases stepped <;> cases remote <;> rfl

theorem bytes_capture (line : AnyLine) (e : Edge) (time : Count) (epoch : Byte) (halted stepped remote : Bool)
    (lost : Byte) : ∃ t₄ t₃ t₂ t₁ t₀ flags : Byte,
      (Record.capture line e time epoch halted stepped remote lost).bytes =
        [0x01, BitVec.ofNat 8 line.val, edgeCode e, t₄, t₃, t₂, t₁, t₀, epoch, flags, lost, 0] ∧
      t₄ ++ t₃ ++ t₂ ++ t₁ ++ t₀ = time ∧ flags.toNat =
        (if halted then 1 else 0) + (if stepped then 2 else 0) + (if remote then 4 else 0) := by
  obtain ⟨t₄, t₃, t₂, t₁, t₀, bytes, time_⟩ := bytesOf_five time
  refine ⟨t₄, t₃, t₂, t₁, t₀, flagsByte halted stepped remote, ?_, time_, toNat_flagsByte ..⟩
  rw [Record.bytes, Record.payload, bytes]
  rfl

theorem bytes_actionDone (id : SlotId) (tag : BitVec 16) (line : LineId) (o : EntryOutcome) (a b : BitVec 16) :
    ∃ g₁ g₀ a₁ a₀ b₁ b₀ : Byte, (Record.actionDone id tag line o a b).bytes =
        [0x02, BitVec.ofNat 8 id.val, g₁, g₀, BitVec.ofNat 8 line.val, o.code, a₁, a₀, b₁, b₀, 0, 0] ∧
      g₁ ++ g₀ = tag ∧ a₁ ++ a₀ = a ∧ b₁ ++ b₀ = b := by
  obtain ⟨g₁, g₀, tagBytes, tag_⟩ := bytesOf_two tag
  obtain ⟨a₁, a₀, aBytes, a_⟩ := bytesOf_two a
  obtain ⟨b₁, b₀, bBytes, b_⟩ := bytesOf_two b
  refine ⟨g₁, g₀, a₁, a₀, b₁, b₀, ?_, tag_, a_, b_⟩
  rw [Record.bytes, Record.payload, tagBytes, aBytes, bBytes]
  rfl

theorem bytes_timebase (e : TimeEvent) (epoch : Byte) (count : Count) : ∃ t₄ t₃ t₂ t₁ t₀ : Byte,
    (Record.timebase e epoch count).bytes =
      0x04 :: e.code :: epoch :: t₄ :: t₃ :: t₂ :: t₁ :: t₀ :: List.replicate 4 0 ∧
    t₄ ++ t₃ ++ t₂ ++ t₁ ++ t₀ = count := by
  obtain ⟨t₄, t₃, t₂, t₁, t₀, bytes, time_⟩ := bytesOf_five count
  refine ⟨t₄, t₃, t₂, t₁, t₀, ?_, time_⟩
  rw [Record.bytes, Record.payload, bytes]
  rfl

theorem bytes_checkDone (o : CheckOutcome) (x y : LineSet) (failure : Option Failure) :
    ∃ x₁ x₀ y₁ y₀ f l e : Byte, (Record.checkDone ⟨o, x, y, failure⟩).bytes =
        [0x05, 0x03, o.code, x₁, x₀, y₁, y₀, f, l, e, 0, 0] ∧
      x₁ ++ x₀ = x ∧ y₁ ++ y₀ = y ∧ (failure = none → f = 0 ∧ l = 0 ∧ e = 0) ∧
      (∀ g, failure = some g → f = 1 ∧ l = BitVec.ofNat 8 g.line.val ∧ e = edgeCode g.expected) := by
  obtain ⟨x₁, x₀, xBytes, x_⟩ := bytesOf_two x
  obtain ⟨y₁, y₀, yBytes, y_⟩ := bytesOf_two y
  cases failure with
  | none =>
    refine ⟨x₁, x₀, y₁, y₀, 0, 0, 0, ?_, x_, y_, fun _ => ⟨rfl, rfl, rfl⟩, nofun⟩
    rw [Record.bytes, Record.payload, xBytes, yBytes]
    rfl
  | some g =>
    refine ⟨x₁, x₀, y₁, y₀, 1, lineByte g.line, edgeCode g.expected, ?_, x_, y_, nofun, ?_⟩
    · rw [Record.bytes, Record.payload, xBytes, yBytes]
      rfl
    · rintro _ ⟨⟩
      exact ⟨rfl, rfl, rfl⟩

/-! ## The status block (R121) -/

theorem attn_iff (q : Port) : q.attn = true ↔
    q.overrunLatch = true ∨ ∃ r ∈ q.queue, q.mask.getLsbD r.kind.bit = true := by
  rw [Port.attn, Bool.or_eq_true, List.any_eq_true]

theorem toNat_latches (q : Port) :
    q.latches.toNat = (if q.overrunLatch then 1 else 0) + (if q.frameLatch then 2 else 0) := by
  unfold Port.latches
  cases q.overrunLatch <;> cases q.frameLatch <;> rfl

/-- Each bit of a set that is built one resource after another. -/
theorem foldl_bits (f : ResourceId → Bool) (k : Nat) (l : List ResourceId) (x : BitVec 24) :
    (l.foldl (fun x r => if f r then x ||| ((1 : BitVec 24) <<< r.val) else x) x).getLsbD k =
      (x.getLsbD k || l.any (fun r => f r && decide (r.val = k))) := by
  induction l generalizing x with
  | nil => simp
  | cons r l ih =>
    have bit : ((1 : BitVec 24) <<< r.val).getLsbD k = decide (r.val = k) := by
      rw [show (1 : BitVec 24) <<< r.val = BitVec.twoPow 24 r.val from (BitVec.twoPow_eq ..).symm,
        BitVec.getLsbD_twoPow, decide_eq_true (by omega : r.val < 24), Bool.true_and]
    rw [List.foldl_cons, ih, List.any_cons]
    cases f r
    · simp
    · rw [if_pos rfl, BitVec.getLsbD_or, bit, Bool.true_and, Bool.or_assoc]

theorem heldSet_getLsbD (s : State) (p : PortId) (k : Nat) :
    (s.heldSet p).getLsbD k = allResources.any (fun r => s.holds p r && decide (r.val = k)) :=
  (foldl_bits (s.holds p) k allResources 0#24).trans (by rw [BitVec.getLsbD_zero, Bool.false_or])

theorem heldSet_bit (s : State) (p : PortId) (r : ResourceId) : (s.heldSet p).getLsbD r.val = s.holds p r := by
  rw [heldSet_getLsbD, Bool.eq_iff_iff, List.any_eq_true]
  constructor
  · rintro ⟨q, -, h⟩
    obtain ⟨holds, same⟩ := Bool.and_eq_true_iff.1 h
    exact Fin.ext (of_decide_eq_true same) ▸ holds
  · exact fun h => ⟨r, List.mem_finRange r, Bool.and_eq_true_iff.2 ⟨h, decide_eq_true rfl⟩⟩

theorem heldSet_above (s : State) (p : PortId) {k : Nat} (h : 18 ≤ k) : (s.heldSet p).getLsbD k = false := by
  rw [heldSet_getLsbD, List.any_eq_false]
  intro r _ hr
  have := of_decide_eq_true (Bool.and_eq_true_iff.1 hr).2
  omega

theorem toNat_modeAndLink (mode : HubMode) (link : LinkState) :
    (mode.code ||| (link.code <<< 4)).toNat = mode.code.toNat + 16 * link.code.toNat := by
  cases mode <;> cases link <;> rfl

theorem snapshotBytes_eq (s : State) (p : PortId) : ∃ c₃ c₂ c₁ c₀ r₂ r₁ r₀ : Byte,
    s.snapshotBytes p = [BitVec.ofNat 8 p.val, BitVec.ofNat 8 (s.port p).queue.length, (s.port p).lost,
      (s.port p).overrun, (s.port p).latches, r₂, r₁, r₀, BitVec.ofNat 8 (s.slotsInUse p), s.loaded.quota[p.val],
      c₃, c₂, c₁, c₀, s.tb.epoch, s.maint.mode.code ||| (s.link.state.code <<< 4)] ∧
    c₃ ++ c₂ ++ c₁ ++ c₀ = s.tb.count.setWidth 32 ∧ r₂ ++ r₁ ++ r₀ = s.heldSet p := by
  obtain ⟨c₃, c₂, c₁, c₀, count, c_⟩ := bytesOf_four (s.tb.count.setWidth 32)
  obtain ⟨r₂, r₁, r₀, held, r_⟩ := bytesOf_three (s.heldSet p)
  refine ⟨c₃, c₂, c₁, c₀, r₂, r₁, r₀, ?_, c_, r_⟩
  rw [State.snapshotBytes, count, held]
  rfl

theorem snapshot_answered {p : PortId} {s : State} (hs : s.readyFor p 0x53 []) :
    ∃ c₃ c₂ c₁ c₀ r₂ r₁ r₀ last latches : Byte,
      exec (.snapshot p) s =
        .next ((s.setPort p { s.port p with overrunLatch := false, frameLatch := false, overrun := 0 }).answered p
          [0x01, BitVec.ofNat 8 p.val, BitVec.ofNat 8 (s.port p).queue.length, (s.port p).lost, (s.port p).overrun,
            latches, r₂, r₁, r₀, BitVec.ofNat 8 (s.slotsInUse p), s.loaded.quota[p.val], c₃, c₂, c₁, c₀,
            s.tb.epoch, last]) ∧
      c₃ ++ c₂ ++ c₁ ++ c₀ = s.tb.count.setWidth 32 ∧ r₂ ++ r₁ ++ r₀ = s.heldSet p ∧
      latches = (s.port p).latches ∧ last.toNat = s.maint.mode.code.toNat + 16 * s.link.state.code.toNat := by
  obtain ⟨c₃, c₂, c₁, c₀, r₂, r₁, r₀, bytes, count, held⟩ := snapshotBytes_eq s p
  refine ⟨c₃, c₂, c₁, c₀, r₂, r₁, r₀, _, _, congrArg _ ((take_data hs rfl).trans ?_), count, held, rfl,
    toNat_modeAndLink ..⟩
  rw [bytes]
  rfl

/-- Settles O37: the three commands, ATTN, and the bytes of each kind of record. -/
theorem noticesReadAndMasked : Obligations.NoticesReadAndMasked := by
  refine ⟨fun p s => ⟨fun hs => ⟨fun h => congrArg _ ((take_data hs rfl).trans (by rw [h])), fun r rest h =>
      ⟨congrArg _ ((take_data hs rfl).trans (by rw [h])), record_length r⟩⟩,
    fun mask hs => congrArg Host.Outcome.next (take_answers (body := setMaskBody p mask) hs rfl), fun hs => ?_⟩,
    attn_iff, bytes_capture, bytes_actionDone, fun r e => rfl, bytes_timebase, rfl, fun _ => rfl, bytes_checkDone, fun _ => rfl, fun _ _ => rfl, fun _ => rfl⟩
  obtain ⟨c₃, c₂, c₁, c₀, r₂, r₁, r₀, last, latches, run, count, held, latches_, last_⟩ := snapshot_answered hs
  refine ⟨c₃, c₂, c₁, c₀, r₂, r₁, r₀, last, latches, run, count, fun r => ?_, fun k hk => ?_,
    latches_ ▸ toNat_latches _, last_.trans ?_⟩
  · exact (congrArg (·.getLsbD r.val) held).trans (heldSet_bit s p r)
  · exact (congrArg (·.getLsbD k) held).trans (heldSet_above s p hk)
  · cases s.maint.mode <;> cases s.link.state <;> rfl

end Sys2Proof.Machine
end

section
/-! PROOFS. The scrub and a stored bit that changes (R141, R143); the end of a pulse and the boundaries of a train (R80 to
R82, R89 to R91). -/

namespace Sys2Proof.Machine

/-! ## STORED_BIT_ERROR and SCRUB_VISIT (R141, R143) -/

theorem flip_right {sl : Slot} {bit : Nat} (h : bit ∉ sl.wrongBits) :
    sl.flip bit = { sl with wrongBits := bit :: sl.wrongBits } := by
  rw [Slot.flip, if_neg h]

theorem flip_wrong {sl : Slot} {bit : Nat} (h : bit ∈ sl.wrongBits) :
    sl.flip bit = { sl with wrongBits := sl.wrongBits.erase bit } := by
  rw [Slot.flip, if_pos h]

section
variable {s : State}

theorem scrubEvent_early (h : ∀ d, s.integ.scrubDue = some d → s.elapsed < d) : s.scrubEvent = s := by
  unfold State.scrubEvent
  split
  · rfl
  · rename_i d hd
    exact if_neg (Nat.not_le.2 (h d hd))

theorem scrubEvent_due {d : Nat} (h : s.integ.scrubDue = some d) (le : d ≤ s.elapsed) : s.scrubEvent = s.scrub d := by
  rw [State.scrubEvent, h]
  exact if_pos le

theorem integ_same {t : State} {i : SlotId} {d : Option Nat} (pos : t.integ.scrubPos = i) (due : t.integ.scrubDue = d) :
    { t with integ := { t.integ with scrubPos := i, scrubDue := d } } = t := by
  subst pos due
  rfl

/-- The visit is the check of the slot, but for the scrub's own position and next time. -/
theorem scrub_checked {d : Nat} (h : s.integ.scrubDue = some d) :
    s.checkedSlot s.integ.scrubPos { s.scrub d with
      integ := { (s.scrub d).integ with scrubPos := s.integ.scrubPos, scrubDue := some d } } := by
  have kept := (Checked.checkSlot s s.integ.scrubPos).integ
  have pos := congrArg (fun g => g.scrubPos) kept
  have due := congrArg (fun g => g.scrubDue) kept
  have same := integ_same pos (due.trans h)
  have checked := checkSlot_checkedSlot s s.integ.scrubPos
  rw [← same] at checked
  exact checked

end

/-- Settles O45: a stored bit by the phase and the bit, and the visit by its time. -/
theorem scrubChecksSlot : Obligations.ScrubChecksSlot := by
  refine ⟨fun i bit s h => congrArg _ (if_pos h), fun i bit s h => ⟨fun n => ?_, fun m => ?_⟩, fun s =>
    ⟨fun h => congrArg _ (scrubEvent_early h), fun d h le =>
      ⟨s.scrub d, congrArg _ (scrubEvent_due h le), rfl, rfl, scrub_checked h⟩⟩⟩
  · exact congrArg _ ((if_neg h).trans (congrArg (s.setSlot i) (flip_right n)))
  · exact congrArg _ ((if_neg h).trans (congrArg (s.setSlot i) (flip_wrong m)))

/-! ## The report of the schedule while DRAINING (R89, R127) -/

theorem reportDrain_again (s : State) : s.reportDrain.reportDrain = s.reportDrain := by
  by_cases h : s.maint.mode = .draining ∧ s.pulseInProgress = false
  · rw [reportDrain_now h.1 h.2]
    exact reportDrain_none fun k => nomatch k
  · have same : s.reportDrain = s := if_neg h
    rw [same, same]

/-- A change of one entry, which no longer has a pulse in progress: the report follows exactly when that was the last
pulse. -/
theorem reportDrain_beside {u x : State} {i : SlotId} (maint : x.maint = u.maint)
    (others : ∀ j, j ≠ i → x.entry j = u.entry j) (own : ∀ k, x.entry i = some k → k.status.isPulse = false) :
    ((u.maint.mode ≠ .draining ∨ ∃ j k, j ≠ i ∧ u.entry j = some k ∧ k.status.isPulse = true) → x.reportDrain = x) ∧
      (u.maint.mode = .draining → ¬ (∃ j k, j ≠ i ∧ u.entry j = some k ∧ k.status.isPulse = true) →
        x.reportDrain = x.nowDirect) := by
  refine ⟨fun on => reportDrain_none fun m => ?_, fun m none_ => reportDrain_now (maint ▸ m) ?_⟩
  · rcases on with run | ⟨j, k, hj, e, pulse⟩
    · exact absurd (maint ▸ m) run
    · exact ⟨j, k, (others j hj).trans e, pulse⟩
  · refine Bool.eq_false_iff.2 fun p => ?_
    obtain ⟨j, k, e, pulse⟩ := (pulseInProgress_iff x).1 p
    by_cases hj : j = i
    · subst hj
      exact absurd pulse (Bool.eq_false_iff.1 (own k e))
    · exact none_ ⟨j, k, hj, (others j hj).symm.trans e, pulse⟩

/-! ## PULSE_END (R80 to R82, R89, R90) -/

section
variable {s u : State} {i : SlotId} {h : Header} {r : Run} {e : Nat} {act : Level}

theorem pulseEndEvent_early (n : ∀ h e, s.entry i = some h → h.status.pulseEnd = some e → s.elapsed < e) :
    s.pulseEndEvent i = s := by
  refine if_neg fun k => ?_
  obtain ⟨e, le, he⟩ := reached_iff.1 k
  obtain ⟨h, entry, end_⟩ := Option.bind_eq_some_iff.1 he
  exact absurd le (Nat.not_le.2 (n h e entry end_))

theorem pulseEndEvent_due (entry : s.entry i = some h) (status : h.status = .active r) (phase : r.phase = .inPulse e)
    (le : e ≤ s.elapsed) : s.pulseEndEvent i = s.endPulse i := by
  refine if_pos (reached_true (d := e) ?_ le)
  rw [entry, Option.bind_some, EntryStatus.pulseEnd, status, EntryStatus.activeRun, Option.bind_some, phase]

theorem endPulse_clean (clean : (u.slot i).wrongBits = []) (entry : u.entry i = some h)
    (status : h.status = .active r) :
    u.endPulse i = ((u.setScheduled h.line (u.inactiveLevel i h)).afterPulse i h r).reportDrain := by
  rw [State.endPulse, checkSlot_clean clean, entry]
  dsimp only
  rw [status]
  rfl

theorem inactiveLevel_eq (a : activeLevel (u.body i).action = some act) : u.inactiveLevel i h = other act := by
  rw [State.inactiveLevel, a]
  exact opposite_eq_other act

/-- An entry that has finished: completed, or an EVERY entry ARMED again; the report has followed already, or follows
now. -/
theorem finish_reported (x : State) (i : SlotId) (entry : x.entry i = some h) (t : Timeliness) :
    (x.finish i h t).reportDrain = (if x.isEvery i then x.entryNow i { h with status := .armed, countA := sat16 h.countA }
      else x.entryEnded i h (firedAs t)).reportDrain := by
  unfold State.finish
  split
  · rfl
  · rw [complete_eq entry, reportDrain_again]
    cases t <;> rfl

theorem isEvery_false (n : ¬ ∃ d, (u.body i).timing = .anchored d .every) : u.isEvery i = false :=
  Bool.eq_false_iff.2 fun k => n ((isEvery_iff u i).1 k)

theorem afterPulse_once (train : r.train = none) : u.afterPulse i h r = u.finish i h r.timeliness := by
  rw [State.afterPulse, train]

variable {x : TrainRun}

theorem afterPulse_last (train : r.train = some x) (left : pulsesLeft (u.body i).action x = false) :
    u.afterPulse i h r = u.finish i h r.timeliness := by
  rw [State.afterPulse, train]
  exact if_neg (by rw [left]; nofun)

theorem afterPulse_between (train : r.train = some x) (left : pulsesLeft (u.body i).action x = true) :
    u.afterPulse i h r = if u.maint.mode = .run
      then u.entryNow i { h with status := .active { r with phase := .betweenPulses } }
      else u.entryNow i { h with status := .suspended { r with phase := .betweenPulses } } := by
  rw [State.afterPulse, train]
  exact if_pos left

end

/-- What becomes of a state after a change of the entry in a slot: the change, and then the report of R89 where the pulse
of that entry was the last. -/
def State.becomesOf (u : State) (i : SlotId) (x t : State) : Prop :=
  ((u.maint.mode ≠ .draining ∨ ∃ j k, j ≠ i ∧ u.entry j = some k ∧ k.status.isPulse = true) → t = x) ∧
    (u.maint.mode = .draining → ¬ (∃ j k, j ≠ i ∧ u.entry j = some k ∧ k.status.isPulse = true) → t = x.nowDirect)

section
variable {u : State} {i : SlotId} {h k : Header} {n : LineId} {l : Level} {o : EntryOutcome}

theorem becomesOf_ended : u.becomesOf i ((u.setScheduled n l).entryEnded i h o)
    ((u.setScheduled n l).entryEnded i h o).reportDrain := by
  refine reportDrain_beside rfl (fun j hj => ?_) fun k e => ?_
  · rw [entryEnded_entry, if_neg hj.symm]
    rfl
  · rw [entryEnded_entry, if_pos rfl] at e
    cases e

theorem becomesOf_now (np : k.status.isPulse = false) : u.becomesOf i ((u.setScheduled n l).entryNow i k)
    ((u.setScheduled n l).entryNow i k).reportDrain := by
  refine reportDrain_beside rfl (fun j hj => ?_) fun k' e => ?_
  · rw [State.entryNow, setSlot_entry, if_neg hj.symm]
    rfl
  · rw [State.entryNow, setSlot_entry, if_pos rfl] at e
    cases e
    exact np

end

section
variable {u : State} {i : SlotId} {h : Header} {r : Run} {act : Level}
  (clean : (u.slot i).wrongBits = []) (entry : u.entry i = some h) (status : h.status = .active r)
  (active : activeLevel (u.body i).action = some act)
include clean entry status active

/-- The end of a pulse after which the entry finishes. -/
theorem endPulse_finishes (finishes : ∀ v : State, v.body i = u.body i → v.afterPulse i h r = v.finish i h r.timeliness) :
    ((¬ ∃ d, (u.body i).timing = .anchored d .every) → u.becomesOf i
        ((u.setScheduled h.line (other act)).entryEnded i h (firedAs r.timeliness)) (u.endPulse i)) ∧
      ((∃ d, (u.body i).timing = .anchored d .every) → u.becomesOf i ((u.setScheduled h.line (other act)).entryNow i
        { h with status := .armed, countA := sat16 h.countA }) (u.endPulse i)) := by
  have run : u.endPulse i = _ := endPulse_clean clean entry status
  rw [inactiveLevel_eq active, finishes (u.setScheduled h.line (other act)) rfl,
    finish_reported (u.setScheduled h.line (other act)) i entry] at run
  constructor
  · intro n
    rw [run, show (u.setScheduled h.line (other act)).isEvery i = false from isEvery_false n]
    exact becomesOf_ended
  · intro every
    rw [run, show (u.setScheduled h.line (other act)).isEvery i = true from (isEvery_iff u i).2 every]
    exact becomesOf_now rfl

/-- The end of a pulse of a train with pulses left. -/
theorem endPulse_goesOn {x : TrainRun} (train : r.train = some x) (left : pulsesLeft (u.body i).action x = true) :
    (u.maint.mode = .run → u.becomesOf i ((u.setScheduled h.line (other act)).entryNow i
        { h with status := .active { r with phase := .betweenPulses } }) (u.endPulse i)) ∧
      (u.maint.mode ≠ .run → u.becomesOf i ((u.setScheduled h.line (other act)).entryNow i
        { h with status := .suspended { r with phase := .betweenPulses } }) (u.endPulse i)) := by
  have run : u.endPulse i = _ := endPulse_clean clean entry status
  rw [inactiveLevel_eq active, afterPulse_between (u := u.setScheduled h.line (other act)) train left] at run
  constructor
  · intro m
    rw [run, if_pos (show (u.setScheduled h.line (other act)).maint.mode = .run from m)]
    exact becomesOf_now rfl
  · intro m
    rw [run, if_neg (show (u.setScheduled h.line (other act)).maint.mode ≠ .run from m)]
    exact becomesOf_now rfl

end

/-- Settles O32: the pulse end by its time, and then by the action of the body and the pulses left. -/
theorem pulseEnds : Obligations.PulseEnds := by
  intro i s
  refine ⟨fun n => congrArg _ (pulseEndEvent_early n), fun h r e entry status phase le _ =>
    ⟨s.endPulse i, congrArg _ (pulseEndEvent_due entry status phase le), reads_of endPulse_lost fun k ek act => ?_⟩⟩
  rw [← endPulse_read]
  have same : k = h := Option.some.inj ((checkSlot_some ek).1.symm.trans entry)
  subst same
  have clean := checkSlot_wrong s i
  intro u₁ every beside becomes ended
  refine ⟨fun w pulse once => ?_, fun w q c x train run => ⟨fun finite spent => ?_, fun left => ?_⟩⟩
  · exact endPulse_finishes clean ek status (by rw [pulse]; rfl) fun v _ => afterPulse_once once
  · refine endPulse_finishes clean ek status (by rw [train]; rfl) fun v body => afterPulse_last run ?_
    rw [body]
    exact Bool.eq_false_iff.2 fun k => ((pulsesLeft_iff train).1 k).elim finite (Nat.not_lt.2 spent)
  · exact endPulse_goesOn clean ek status (by rw [train]; rfl) run ((pulsesLeft_iff train).2 left)

/-! ## TRAIN_BOUNDARY (R81, R91) -/

section
variable {s u : State} {i : SlotId} {h : Header} {r : Run} {t : TrainRun} {b : Nat} {act : Level} {w q : BitVec 24}
  {c : BitVec 16}

theorem boundaryEvent_early (n : ∀ h b, s.entry i = some h → h.status.nextBoundary = some b → s.elapsed < b) :
    s.boundaryEvent i = s := by
  unfold State.boundaryEvent
  split
  · rfl
  · rename_i b hb
    obtain ⟨h, entry, boundary⟩ := Option.bind_eq_some_iff.1 hb
    exact if_neg (Nat.not_le.2 (n h b entry boundary))

theorem nextBoundary_eq (status : h.status = .active r ∨ h.status = .suspended r) (train : r.train = some t)
    (phase : r.phase = .betweenPulses) : h.status.nextBoundary = t.nextBoundary := by
  rcases status with status | status
  · rw [status, EntryStatus.nextBoundary, phase, train]
    rfl
  · rw [status, EntryStatus.nextBoundary, train]
    rfl

theorem boundaryEvent_due (entry : s.entry i = some h) (next_ : h.status.nextBoundary = some b) (le : b ≤ s.elapsed) :
    s.boundaryEvent i = s.trainAt i b := by
  rw [State.boundaryEvent, entry, Option.bind_some, next_]
  exact if_pos le

theorem trainAt_active (clean : (u.slot i).wrongBits = []) (entry : u.entry i = some h) (status : h.status = .active r)
    (train : r.train = some t) : u.trainAt i b = u.beginTrainPulse i h r t b := by
  rw [State.trainAt, checkSlot_clean clean, entry]
  dsimp only
  rw [status]
  dsimp only
  rw [train]

theorem trainAt_suspended (clean : (u.slot i).wrongBits = []) (entry : u.entry i = some h)
    (status : h.status = .suspended r) (train : r.train = some t) : u.trainAt i b = u.skipPulse i h r t b := by
  rw [State.trainAt, checkSlot_clean clean, entry]
  dsimp only
  rw [status]
  dsimp only
  rw [train]

theorem skipPulse_eq (ha : (u.body i).action = .train act w q c) : u.skipPulse i h r t b = u.entryNow i { h with
    countB := if u.isEvery i then h.countB else sat16 h.countB
    status := .suspended { r with
      train := some ⟨t.begun, sat16 t.skipped, boundaryLeft c t.begun (sat16 t.skipped) (b + q.toNat)⟩ } } := by
  unfold State.skipPulse
  rw [ha]
  dsimp only
  rw [boundaryAfter_eq]
  split <;> rfl

/-- A count that an EVERY entry keeps and any other raises. -/
theorem count_eq {a old : BitVec 16} (keeps : (∃ d, (u.body i).timing = .anchored d .every) → a = old)
    (raises : ¬ (∃ d, (u.body i).timing = .anchored d .every) → a = sat16 old) :
    a = if u.isEvery i then old else sat16 old := by
  by_cases every : ∃ d, (u.body i).timing = .anchored d .every
  · rw [(isEvery_iff u i).2 every]
    exact keeps every
  · rw [isEvery_false every]
    exact raises every

end

/-- Settles O33: the boundary by its time, and then by the status of the entry. -/
theorem trainBoundaries : Obligations.TrainBoundaries := by
  intro i s
  refine ⟨fun n => congrArg _ (boundaryEvent_early n), fun h r t b entry status train phase next_ le _ =>
    ⟨s.trainAt i b, congrArg _ (boundaryEvent_due entry ((nextBoundary_eq status train phase).trans next_) le),
      reads_of (fun e => trainAt_lost e b) fun k ek act w q c ha => ?_⟩⟩
  rw [← trainAt_read]
  have same : k = h := Option.some.inj ((checkSlot_some ek).1.symm.trans entry)
  subst same
  have clean := checkSlot_wrong s i
  intro every goOn
  refine ⟨fun active a keeps raises => ?_, fun suspended a keeps raises => ?_⟩
  · rw [trainAt_active clean ek active train, beginTrainPulse_eq ha, ← count_eq keeps raises]
    rfl
  · rw [trainAt_suspended clean ek suspended train, skipPulse_eq ha, ← count_eq keeps raises]
    rfl

/-! ## The end of DRAINING (R89, R92, R127, R128) -/

theorem drainDeadlineEvent_early {s : State}
    (h : s.maint.mode ≠ .draining ∨ ∀ d, s.maint.drainDeadline = some d → s.elapsed < d) : s.drainDeadlineEvent = s := by
  refine if_neg fun ⟨mode, due⟩ => ?_
  rcases h with run | early
  · exact run mode
  · exact absurd due (Bool.eq_false_iff.1 (reached_false early))

/-- Settles O39: the drain limit by the mode and the deadline, and the end of the last pulse. -/
theorem drainingEnds : Obligations.DrainingEnds := by
  refine ⟨fun s => ⟨fun h => congrArg _ (drainDeadlineEvent_early h), fun d mode deadline le =>
    ⟨s.drainExpire, congrArg _ (if_pos ⟨mode, reached_true deadline le⟩), drainExpire_drained s mode⟩⟩,
    fun i s h r e act w entry status phase le once mode quiet _ => ⟨s.endPulse i,
      congrArg _ (pulseEndEvent_due entry status phase le), reads_of endPulse_lost fun k ek pulse n => ?_⟩⟩
  rw [← endPulse_read]
  obtain ⟨entry', maint⟩ := checkSlot_some ek
  have same : k = h := Option.some.inj (entry'.symm.trans entry)
  subst same
  have finishes := (endPulse_finishes (checkSlot_wrong s i) ek status (by rw [pulse]; rfl)
    fun v _ => afterPulse_once once).1 fun ⟨d, every⟩ => n d every
  refine finishes.2 (maint ▸ mode) fun ⟨j, k', hj, e', pulse'⟩ => ?_
  rw [(OnlySlot.checkSlot s).entry hj] at e'
  exact absurd pulse' (Bool.eq_false_iff.1 (quiet j k' hj e'))

end Sys2Proof.Machine
end

section
/-! PROOFS. The advance of the count (R38, R49, R77), and the hub mode that leaves RUN (R90, R126, R127). -/

namespace Sys2Proof.Machine

/-! ## COUNT_ADVANCE -/

theorem eq_of_distance {d c : Count} {j : Nat} (h : distance d c = j) : d = c + BitVec.ofNat 40 j := by
  subst h
  rw [distance, BitVec.ofNat_toNat, BitVec.setWidth_eq, add_sub_cancel]

section
variable {s : State} {k : Nat}

theorem advance_halted (h : s.tb.run = .halted) : s.advance = s := by
  rw [State.advance, h]

theorem advance_held (h : s.tb.run = .running) (slew : s.tb.slew = some .held) :
    s.advance = s.setTb { s.tb with slew := none } := by
  rw [State.advance, h, slew]

theorem advance_one (h : s.tb.run = .running) (slew : s.tb.slew = none) : s.advance = s.advanceBy 1 := by
  rw [State.advance, h, slew]

theorem advance_double (h : s.tb.run = .running) (slew : s.tb.slew = some .double) : s.advance = s.advanceBy 2 := by
  rw [State.advance, h, slew]

theorem arriving_noneDue (h : ∀ j, 1 ≤ j → j ≤ k → s.noneDue (s.tb.count + BitVec.ofNat 40 j)) :
    s.arriving k = [] := by
  refine arriving_none fun i d pending low high => ?_
  obtain ⟨x, entry, due⟩ := Option.bind_eq_some_iff.1 pending
  exact h _ low high i x entry (eq_of_distance rfl ▸ (pendingDue_eq ..).1 due)

theorem advanceBy_quiet (h : ∀ j, 1 ≤ j → j ≤ k → s.noneDue (s.tb.count + BitVec.ofNat 40 j)) :
    s.advanceBy k = s.setTb { s.tb with count := s.tb.count + BitVec.ofNat 40 k, slew := none } := by
  rw [State.advanceBy, arriving_noneDue h]
  rfl

theorem advanceBy_each {f : Nat → Prop} {l : List SlotId} (o : s.dueOrdered f l) (hf : ∀ d, f d ↔ 1 ≤ d ∧ d ≤ k) :
    eachBecomes State.comesDue l
      (s.setTb { s.tb with count := s.tb.count + BitVec.ofNat 40 k, slew := none }) (s.advanceBy k) := by
  obtain ⟨pending, nodup⟩ := pendingIn_ordered o
  rw [State.advanceBy, arriving_ordered o hf]
  exact arriveAll_each l _ nodup pending

end

/-- Settles O31: the advance by the run state and the slew, and by what is due on the way. -/
theorem countAdvances : Obligations.CountAdvances := by
  intro s
  refine ⟨fun h => congrArg _ (advance_halted h), fun h slew => congrArg _ ((advance_held h slew).trans ?_),
    fun h slew one => congrArg _ ((advance_one h slew).trans (advanceBy_quiet fun j low high => ?_)),
    fun h slew one two => congrArg _ ((advance_double h slew).trans (advanceBy_quiet fun j low high => ?_)),
    fun k l h which _ => ?_⟩
  · dsimp only
    rw [show s.tb.count + (0 : Count) = s.tb.count from BitVec.add_zero _]
    rfl
  · obtain rfl : j = 1 := Nat.le_antisymm high low
    exact one
  · obtain rfl | rfl : j = 1 ∨ j = 2 := by omega
    · exact one
    · exact two
  · rcases which with ⟨slew, rfl, o⟩ | ⟨slew, rfl, o⟩
    · have one (d : Nat) : d = 1 ↔ 1 ≤ d ∧ d ≤ 1 := by omega
      exact ⟨s.advanceBy 1, advanceBy_each (k := 1) o one, congrArg _ (advance_one h slew)⟩
    · have two (d : Nat) : d = 1 ∨ d = 2 ↔ 1 ≤ d ∧ d ≤ 2 := by omega
      exact ⟨s.advanceBy 2, advanceBy_each (k := 2) o two, congrArg _ (advance_double h slew)⟩

/-! ## ENTER_DIRECT (R90, R126) -/

/-- The pool with every train between pulses SUSPENDED. -/
def State.suspendedPool (s : State) : Vector Slot 128 :=
  s.pool.map (fun sl => { sl with entry := sl.entry.map (fun h =>
    match h.status with
    | .active r => if r.phase = .betweenPulses then { h with status := .suspended r } else h
    | _ => h) })

theorem suspendBetween_eq (sl : Slot) : sl.suspendBetween = { sl with entry := sl.entry.map (fun h =>
    match h.status with
    | .active r => if r.phase = .betweenPulses then { h with status := .suspended r } else h
    | _ => h) } := by
  obtain ⟨body, wrong, entry⟩ := sl
  cases entry with
  | none => rfl
  | some h =>
    rw [Slot.suspendBetween, Option.map_some]
    dsimp only
    cases h.status with
    | active r =>
      dsimp only
      cases r.phase <;> rfl
    | pending d => rfl
    | armed => rfl
    | suspended r => rfl
    | deferred d k => rfl

theorem suspendTrains_eq (s : State) : s.suspendTrains = { s with pool := s.suspendedPool } := by
  rw [State.suspendTrains, funext suspendBetween_eq]
  rfl

/-- What the drain limit does is said of a state, whatever its hub mode and its drain deadline. -/
theorem drained_congr {s t : State} {m : Maint} (h : s.drained t)
    (same : { s.maint with mode := .direct, drainDeadline := none } = { m with mode := .direct, drainDeadline := none }) :
    State.drained { s with maint := m } t := by
  obtain ⟨frame, maint, slots, lines, ports⟩ := h
  refine ⟨congrArg (fun x : State => { x with maint := m }) frame, maint.trans same, slots, lines, fun l o =>
    (ports l o).trans (congrArg (Vector.map fun q : Port => q.enqueue .directEntered) ?_)⟩
  rw [withRecords_eq, withRecords_eq, withRecord_pool (s := s) (t := { s with maint := m }) rfl]
  exact withRecords_congr s .cut l rfl

section
variable {s : State} {p : PortId}

theorem enterDirectBody_notHolder (h : (s.claim resMX).holder ≠ some p) :
    enterDirectBody p s = (s, reply .notHolder) := if_pos ((holds_false_iff ..).2 h)

variable (h : (s.claim resMX).holder = some p)
include h

theorem enterDirectBody_checking (c : ∃ c, s.maint.check = .running c) :
    enterDirectBody p s = (s, reply .wrongState) := by
  rw [enterDirectBody, (holds_iff ..).2 h, (isRunning_iff _).2 c]
  rfl

variable (c : ¬ ∃ c, s.maint.check = .running c)
include c

theorem enterDirectBody_already (m : s.maint.mode ≠ .run) : enterDirectBody p s = (s, reply .already) := by
  rw [enterDirectBody, (holds_iff ..).2 h, isRunning_false (not_exists.1 c), if_neg nofun, if_neg nofun]
  exact if_pos m

theorem enterDirectBody_enters (m : s.maint.mode = .run) : enterDirectBody p s = s.enterDirect := by
  rw [enterDirectBody, (holds_iff ..).2 h, isRunning_false (not_exists.1 c), if_neg nofun, if_neg nofun]
  exact if_neg (not_not.2 m)

end

section
variable {s : State}

theorem enterDirect_quiet (n : ¬ ∃ i h, s.entry i = some h ∧ h.status.isPulse = true) : s.enterDirect =
    (State.offerAll { s with pool := s.suspendedPool, maint := { s.maint with mode := .direct } } .directEntered,
      reply .ok) := by
  rw [State.enterDirect, if_neg fun k => n ((pulseInProgress_iff s).1 k), suspendTrains_eq]
  rfl

variable (pulse : ∃ i h, s.entry i = some h ∧ h.status.isPulse = true)
include pulse

theorem enterDirect_drains (limit : s.maint.drainLimit ≠ 0) : s.enterDirect =
    ({ s with
        pool := s.suspendedPool
        maint := { s.maint with
          mode := .draining, drainDeadline := some (s.elapsed + s.maint.drainLimit.toNat) } }, reply .accepted) := by
  rw [State.enterDirect, if_pos ((pulseInProgress_iff s).2 pulse), suspendTrains_eq]
  dsimp only
  rw [if_neg limit]
  rfl

theorem enterDirect_cuts (limit : s.maint.drainLimit = 0) : ∃ t : State, s.enterDirect = (t, reply .accepted) ∧
    State.drained { s with pool := s.suspendedPool } t := by
  let u : State := { s with
    pool := s.suspendedPool
    maint := { s.maint with mode := .draining, drainDeadline := some (s.elapsed + s.maint.drainLimit.toNat) } }
  refine ⟨u.drainExpire, ?_, drained_congr (s := u) (drainExpire_drained u rfl) rfl⟩
  rw [State.enterDirect, if_pos ((pulseInProgress_iff s).2 pulse), suspendTrains_eq]
  dsimp only
  rw [if_pos limit]
  rfl

end

/-- Settles O38: ENTER_DIRECT by the holder of MX, the check, the mode, the pulses in progress and the drain limit. -/
theorem enterDirect : Obligations.EnterDirect := by
  intro p s hs
  refine ⟨fun h => congrArg _ (take_answers hs (enterDirectBody_notHolder h)),
    fun h c => congrArg _ (take_answers hs (enterDirectBody_checking h c)),
    fun h c m => congrArg _ (take_answers hs (enterDirectBody_already h c m)),
    fun h c m n => congrArg _ (take_answers hs ((enterDirectBody_enters h c m).trans (enterDirect_quiet n))),
    fun h c m pulse => ⟨fun limit =>
      congrArg _ (take_answers hs ((enterDirectBody_enters h c m).trans (enterDirect_drains pulse limit))),
      fun limit => ?_⟩⟩
  obtain ⟨t, cuts, drained⟩ := enterDirect_cuts pulse limit
  exact ⟨t, congrArg _ (take_answers hs ((enterDirectBody_enters h c m).trans cuts)), drained⟩

end Sys2Proof.Machine
end

section
/-! PROOFS. CANCEL and CANCEL_LINE (R69 to R72, R95). -/

namespace Sys2Proof.Machine

/-! ## CANCEL -/

section
variable {s : State} {p : PortId} {id : Byte} {i : SlotId} {h : Header}

theorem cancelBody_outOfRange (hr : readSlot id = none) : cancelBody p id s = (s, reply .badParam) := by
  rw [cancelBody, hr]

variable (hr : readSlot id = some i)
include hr

theorem cancelBody_noEntry (e : s.entry i = none) : cancelBody p id s = (s, reply .noEntry) := by
  rw [cancelBody, hr]
  dsimp only
  rw [e]

theorem cancelBody_notOwner (e : s.entry i = some h) (n : h.owner ≠ p) :
    cancelBody p id s = (s, reply .notOwner) := by
  rw [cancelBody, hr]
  dsimp only
  rw [e]
  exact if_neg n

theorem cancelBody_withdraws (e : s.entry i = some h) (own : h.owner = p) :
    cancelBody p id s = (s.withdraw i .cancelled, reply .ok) := by
  rw [cancelBody, hr]
  dsimp only
  rw [e]
  exact if_pos own

end

/-- A withdrawal: the entry has ended, its pulse cut; the report follows where that was the last pulse in progress. -/
theorem withdraw_becomes {s : State} {i : SlotId} {h : Header} (e : s.entry i = some h) (o : EntryOutcome) :
    s.becomesOf i ((s.cutPulse h).entryEnded i h o) (s.withdraw i o) := by
  rw [withdraw_eq e]
  have kept := cutPulse_kept s h
  refine reportDrain_beside (congrArg (·.maint) kept) (fun j hj => ?_) fun k ek => ?_
  · rw [entryEnded_entry, if_neg hj.symm]
    exact congrArg (·.entry j) kept
  · rw [entryEnded_entry, if_pos rfl] at ek
    cases ek

theorem cutPulse_quiet {s : State} {h : Header} (n : h.status.isPulse = false) : s.cutPulse h = s :=
  if_neg (by rw [n]; nofun)

theorem cutPulse_pulse {s : State} {h : Header} (y : h.status.isPulse = true) :
    s.cutPulse h = s.setScheduled h.line (other (s.line h.line).scheduled) := by
  rw [State.cutPulse, if_pos y, opposite_eq_other]

/-- Settles O29: CANCEL by the id, the entry, its owner, and the pulse it has in progress. -/
theorem cancelOutcomes : Obligations.CancelOutcomes := by
  intro p id s hs
  refine ⟨fun n => congrArg _ (take_answers hs (cancelBody_outOfRange (readSlot_none n))), fun i hi =>
    ⟨fun e => congrArg _ (take_answers hs (cancelBody_noEntry (readSlot_some hi) e)), fun h e =>
      ⟨fun n => congrArg _ (take_answers hs (cancelBody_notOwner (readSlot_some hi) e n)), fun own => ?_⟩⟩⟩
  have answer : exec (.cancel p id) s = .next ((s.withdraw i .cancelled).answered p [0x01]) :=
    congrArg _ (take_answers hs (cancelBody_withdraws (readSlot_some hi) e own))
  have becomes := withdraw_becomes e .cancelled
  subst own
  refine ⟨fun n quiet => ?_, fun y => ⟨fun quiet => ?_, fun m last => ?_⟩⟩
  · refine answer.trans (congrArg _ ?_)
    rw [becomes.1 quiet, cutPulse_quiet n]
    rfl
  · refine answer.trans (congrArg _ ?_)
    rw [becomes.1 quiet, cutPulse_pulse y]
    rfl
  · refine answer.trans (congrArg _ ?_)
    rw [becomes.2 m last, cutPulse_pulse y]
    rfl

/-! ## CANCEL_LINE -/

section
variable {s : State} {p : PortId} {n : LineId}

theorem mem_entriesOn (s : State) (p : PortId) (n : LineId) (i : SlotId) :
    i ∈ s.entriesOn p n ↔ ∃ h, s.entry i = some h ∧ (h.owner = p ∧ h.line = n) := by
  rw [State.entriesOn, mem_entriesWhere, Option.any_eq_true]
  simp only [Bool.and_eq_true, beq_iff_eq]

theorem entriesOn_length (s : State) (p : PortId) (n : LineId) : (s.entriesOn p n).length =
    ((List.finRange 128).filter (fun i => (s.entry i).any (fun h => h.owner == p && h.line == n))).length :=
  (sortBy_perm ..).length_eq

theorem entriesOn_few (s : State) (p : PortId) (n : LineId) : (s.entriesOn p n).length < 256 := by
  have le := List.length_filter_le (fun i => (s.entry i).any (fun h => h.owner == p && h.line == n)) (List.finRange 128)
  rw [← entriesOn_length, List.length_finRange] at le
  omega

theorem entriesOn_ordered {l : List SlotId} (o : s.postOrdered (fun h => h.owner = p ∧ h.line = n) l) :
    s.entriesOn p n = l :=
  postOrdered_entriesWhere (fun h => by rw [Bool.and_eq_true, beq_iff_eq, beq_iff_eq]) o

theorem cancelLineBody_outOfRange {line : Byte} (hr : readLine line = none) :
    cancelLineBody p line s = (s, reply .badParam) := by
  rw [cancelLineBody, hr]

theorem cancelLineBody_withdraws {line : Byte} (hr : readLine line = some n) : cancelLineBody p line s =
    (s.withdrawAll (s.entriesOn p n) .cancelled, replyData [BitVec.ofNat 8 (s.entriesOn p n).length]) := by
  rw [cancelLineBody, hr]

end

/-- Settles O30: CANCEL_LINE by the line; the entries withdrawn are those of the port on it, in post order. -/
theorem cancelLineOutcomes : Obligations.CancelLineOutcomes := by
  intro p line s hs
  refine ⟨fun n => congrArg _ (take_answers hs (cancelLineBody_outOfRange (readLine_none n))), fun n hn => ?_⟩
  have mem := mem_entriesOn s p n
  have nd : (s.entriesOn p n).Nodup := entriesWhere_nodup ..
  have occ : ∀ i ∈ s.entriesOn p n, ∃ h, s.entry i = some h := fun i hi => by
    obtain ⟨h, e, -⟩ := (mem i).1 hi
    exact ⟨h, e⟩
  obtain ⟨kept, records⟩ := withdrawAll_recorded (o := .cancelled) mem nd
  refine ⟨s.withdrawAll (s.entriesOn p n) .cancelled, BitVec.ofNat 8 (s.entriesOn p n).length,
    congrArg _ (take_data hs (cancelLineBody_withdraws (readLine_some hn))), ?_, fun i => ?_, fun m hm => ?_,
    (withdrawAll_line occ nd n).1, withdrawAll_levelCut mem nd n, withdrawAll_same .., kept, fun d some_ => ?_,
    fun l o => ?_⟩
  · rw [BitVec.toNat_ofNat, Nat.mod_eq_of_lt (entriesOn_few ..), entriesOn_length]
  · rw [withdrawAll_slot occ nd]
    exact if_congr (mem_entriesWhere ..) rfl rfl
  · refine (withdrawAll_line occ nd m).2.1 fun i hi h e on => ?_
    obtain ⟨k, ek, -, line_⟩ := (mem i).1 hi
    cases e.symm.trans ek
    exact absurd (on.symm.trans line_) hm
  · refine withdrawAll_direct mem nd d fun empty => ?_
    obtain ⟨i, h, e, mine⟩ := some_
    exact List.not_mem_nil (empty ▸ (mem i).2 ⟨h, e, mine⟩)
  · obtain rfl := entriesOn_ordered o
    exact records

end Sys2Proof.Machine
end

section
/-! PROOFS. The profile commands (R184 to R186): the bits that an operation sets, and each command in every case. -/

namespace Sys2Proof.Machine

/-! ## Bits ORed into the store -/

/-- The bits that a list of cells ORs into an address. -/
def orBits : List Host.Cell → Nat → Byte
  | [], _ => 0
  | c :: t, a => (if a = c.1 then c.2 else 0) ||| orBits t a

theorem or_zeroByte (v : Byte) : v ||| 0 = v := BitVec.or_zero

theorem zeroByte_or (v : Byte) : 0 ||| v = v := BitVec.zero_or

theorem read_orAll {m : Memory} (hm : Memory.wf m) (bits : List Host.Cell) (a : Nat) :
    Memory.read (Memory.orAll m bits) a = Memory.read m a ||| orBits bits a := by
  induction bits generalizing m with
  | nil => exact (or_zeroByte _).symm
  | cons c t ih =>
    rw [Memory.orAll, ih (Memory.write_wf hm ..), Memory.read_write hm.1, orBits, ← BitVec.or_assoc]
    by_cases same : a = c.1
    · rw [if_pos same, if_pos same, same]
    · rw [if_neg same, if_neg same, or_zeroByte]

/-- Cells of one slot, by their offsets. -/
def slotCells (i : Nat) (l : List Host.Cell) : List Host.Cell := l.map (fun c => (storeAddr i c.1, c.2))

theorem storeAddr_inj {i j x k : Nat} (hx : x < 64) (hk : k < 64) : storeAddr j k = storeAddr i x ↔ j = i ∧ k = x := by
  unfold storeAddr
  omega

theorem orBits_slotCells {i j k : Nat} {l : List Host.Cell} (hl : ∀ c ∈ l, c.1 < 64) (hk : k < 64) :
    orBits (slotCells i l) (storeAddr j k) = if j = i then orBits l k else 0 := by
  induction l with
  | nil => exact (ite_self _).symm
  | cons c t ih =>
    obtain ⟨hc, ht⟩ := List.forall_mem_cons.1 hl
    show (if storeAddr j k = storeAddr i c.1 then c.2 else 0) ||| orBits (slotCells i t) (storeAddr j k) = _
    rw [ih ht, orBits]
    by_cases same : j = i
    · simp only [storeAddr_inj hc hk, same, true_and, if_true]
    · simp only [storeAddr_inj hc hk, same, false_and, if_false, or_zeroByte]

/-- An operation on a slot: bits are ORed into its bytes, the store is busy, and nothing else changes (R184). -/
structure Programs (s t : State) (i : Nat) (bits : Nat → Byte) : Prop where
  same : { t with store := s.store, storeBusy := s.storeBusy } = s
  busy : ∃ b, t.storeBusy = some b ∧ b.until_ = s.elapsed + 2000
  others : ∀ j k, j ≠ i → k < 64 → t.storeByte j k = s.storeByte j k
  own : ∀ k, k < 64 → t.storeByte i k = s.storeByte i k ||| bits k

theorem Programs.parts {s t : State} {i : Nat} {bits : Nat → Byte} (x : Programs s t i bits) :
    { t with store := s.store, storeBusy := s.storeBusy } = s ∧
    (∃ b, t.storeBusy = some b ∧ b.until_ = s.elapsed + 2000) ∧
    (∀ j k, j ≠ i → k < 64 → t.storeByte j k = s.storeByte j k) ∧
    (∀ k, k < 64 → t.storeByte i k = s.storeByte i k ||| bits k) := ⟨x.same, x.busy, x.others, x.own⟩

theorem programStore_programs {s : State} (hs : Memory.wf s.store) {i : Nat} {l : List Host.Cell}
    (hl : ∀ c ∈ l, c.1 < 64) {bits : Nat → Byte} (hb : ∀ k, orBits l k = bits k) :
    Programs s (s.programStore (slotCells i l)) i bits where
  same := rfl
  busy := ⟨_, rfl, rfl⟩
  others j k hj hk := by
    refine (read_orAll hs ..).trans ?_
    rw [orBits_slotCells hl hk, if_neg hj, or_zeroByte]
    rfl
  own k hk := by
    refine (read_orAll hs ..).trans ?_
    rw [orBits_slotCells hl hk, if_pos rfl, hb]
    rfl

theorem orBits_one (a : Nat) (v : Byte) (k : Nat) : orBits [(a, v)] k = if k = a then v else 0 := or_zeroByte _

theorem orBits_three {a b c : Nat} (x y z : Byte) (ab : a ≠ b) (ac : a ≠ c) (bc : b ≠ c) (k : Nat) :
    orBits [(a, x), (b, y), (c, z)] k = if k = a then x else if k = b then y else if k = c then z else 0 := by
  rw [orBits, orBits, orBits_one]
  by_cases ha : k = a
  · rw [if_pos ha, if_pos ha, if_neg (ha ▸ ab), if_neg (ha ▸ ac), or_zeroByte, or_zeroByte]
  · rw [if_neg ha, if_neg ha, zeroByte_or]
    by_cases hb : k = b
    · rw [if_pos hb, if_pos hb, if_neg (hb ▸ bc), or_zeroByte]
    · rw [if_neg hb, if_neg hb, zeroByte_or]

/-! ## PROFILE_READ -/

section
variable {s : State} {p : PortId} {slot offset byte : Byte} {i : Fin 3}

theorem isSome_busy (h : s.storeBusy ≠ none) : s.storeBusy.isSome = true := Option.isSome_iff_ne_none.2 h

theorem isSome_idle (h : ¬ s.storeBusy ≠ none) : s.storeBusy.isSome = false := by
  rw [not_not.1 h]
  rfl

theorem exists_profileSlot (h : slot.toNat ≤ 2) : ∃ i : Fin 3, i.val = slot.toNat := ⟨⟨slot.toNat, by omega⟩, rfl⟩

theorem profileReadBody_bad (h : 2 < slot.toNat ∨ 63 < offset.toNat ∨ byte = 0 ∨ 16 < byte.toNat ∨
    64 < offset.toNat + byte.toNat) : profileReadBody slot offset byte s = (s, reply .badParam) := by
  unfold profileReadBody
  split
  · rfl
  · rename_i i hi
    refine if_pos (h.resolve_left fun k => ?_)
    rw [readProfileSlot_none k] at hi
    cases hi

variable (good : ¬ (2 < slot.toNat ∨ 63 < offset.toNat ∨ byte = 0 ∨ 16 < byte.toNat ∨
  64 < offset.toNat + byte.toNat))
include good

theorem profileReadBody_busy (b : s.storeBusy ≠ none) : profileReadBody slot offset byte s = (s, reply .busy) := by
  obtain ⟨inSlot, inRange⟩ := not_or.1 good
  obtain ⟨i, hi⟩ := exists_profileSlot (Nat.not_lt.1 inSlot)
  rw [profileReadBody, readProfileSlot_some hi]
  exact (if_neg inRange).trans (if_pos (isSome_busy b))

theorem profileReadBody_reads (b : ¬ s.storeBusy ≠ none) : profileReadBody slot offset byte s =
    (s, replyData (s.storeBytes slot.toNat offset.toNat byte.toNat)) := by
  obtain ⟨inSlot, inRange⟩ := not_or.1 good
  obtain ⟨i, hi⟩ := exists_profileSlot (Nat.not_lt.1 inSlot)
  rw [profileReadBody, readProfileSlot_some hi, ← hi]
  exact (if_neg inRange).trans (if_neg (by rw [isSome_idle b]; nofun))

end

theorem storeBytes_length (s : State) (slot offset k : Nat) : (s.storeBytes slot offset k).length = k := by
  rw [State.storeBytes, List.length_map, List.length_range]

theorem storeBytes_at (s : State) (slot offset : Nat) {k j : Nat} (h : j < k) :
    (s.storeBytes slot offset k)[j]? = some (s.storeByte slot (offset + j)) := by
  rw [State.storeBytes, List.getElem?_map, List.getElem?_range h]
  rfl

/-! ## PROFILE_WRITE -/

section
variable {s : State} {p : PortId} {slot offset byte : Byte} {i : Fin 3}

theorem profileWriteBody_bad (h : 2 < slot.toNat ∨ 0x3C ≤ offset.toNat) :
    profileWriteBody p slot offset byte s = (s, reply .badParam) := by
  unfold profileWriteBody
  split
  · rfl
  · rename_i i hi
    refine if_pos (h.resolve_left fun k => ?_)
    rw [readProfileSlot_none k] at hi
    cases hi

variable (hi : i.val = slot.toNat) (inRange : ¬ 0x3C ≤ offset.toNat)
include hi inRange

theorem profileWriteBody_notHolder (h : (s.claim resMX).holder ≠ some p) :
    profileWriteBody p slot offset byte s = (s, reply .notHolder) := by
  rw [profileWriteBody, readProfileSlot_some hi]
  exact (if_neg inRange).trans (if_pos ((holds_false_iff ..).2 h))

variable (h : (s.claim resMX).holder = some p)
include h

theorem profileWriteBody_busy (b : s.storeBusy ≠ none) :
    profileWriteBody p slot offset byte s = (s, reply .busy) := by
  rw [profileWriteBody, readProfileSlot_some hi, (holds_iff ..).2 h]
  exact (if_neg inRange).trans ((if_neg nofun).trans (if_pos (isSome_busy b)))

variable (b : ¬ s.storeBusy ≠ none)
include b

theorem profileWriteBody_sealed (sealed_ : s.storeByte slot.toNat 0x3E = 0x5A) :
    profileWriteBody p slot offset byte s = (s, reply .wrongState) := by
  rw [profileWriteBody, readProfileSlot_some hi, (holds_iff ..).2 h]
  exact (if_neg inRange).trans ((if_neg nofun).trans ((if_neg (by rw [isSome_idle b]; nofun)).trans
    (if_pos (beq_iff_eq.2 (hi ▸ sealed_)))))

theorem profileWriteBody_writes (open_ : ¬ s.storeByte slot.toNat 0x3E = 0x5A) :
    profileWriteBody p slot offset byte s = (s.programStore (slotCells i.val [(offset.toNat, byte)]), reply .ok) := by
  rw [profileWriteBody, readProfileSlot_some hi, (holds_iff ..).2 h]
  exact (if_neg inRange).trans ((if_neg nofun).trans ((if_neg (by rw [isSome_idle b]; nofun)).trans
    (if_neg fun k => open_ (hi ▸ beq_iff_eq.1 k))))

end

/-! ## PROFILE_SEAL and PROFILE_RETIRE -/

section
variable {s : State} {p : PortId} {slot : Byte} {i : Fin 3}

theorem profileSealBody_bad (h : 2 < slot.toNat) : profileSealBody p slot s = (s, reply .badParam) := by
  rw [profileSealBody, readProfileSlot_none h]

theorem profileRetireBody_bad (h : 2 < slot.toNat) : profileRetireBody p slot s = (s, reply .badParam) := by
  rw [profileRetireBody, readProfileSlot_none h]

variable (hi : i.val = slot.toNat)
include hi

theorem profileSealBody_notHolder (h : (s.claim resMX).holder ≠ some p) :
    profileSealBody p slot s = (s, reply .notHolder) := by
  rw [profileSealBody, readProfileSlot_some hi]
  exact if_pos ((holds_false_iff ..).2 h)

theorem profileRetireBody_notHolder (h : (s.claim resMX).holder ≠ some p) :
    profileRetireBody p slot s = (s, reply .notHolder) := by
  rw [profileRetireBody, readProfileSlot_some hi]
  exact if_pos ((holds_false_iff ..).2 h)

variable (h : (s.claim resMX).holder = some p)
include h

theorem profileSealBody_busy (b : s.storeBusy ≠ none) : profileSealBody p slot s = (s, reply .busy) := by
  rw [profileSealBody, readProfileSlot_some hi, (holds_iff ..).2 h]
  exact (if_neg nofun).trans (if_pos (isSome_busy b))

theorem profileRetireBody_busy (b : s.storeBusy ≠ none) : profileRetireBody p slot s = (s, reply .busy) := by
  rw [profileRetireBody, readProfileSlot_some hi, (holds_iff ..).2 h]
  exact (if_neg nofun).trans (if_pos (isSome_busy b))

variable (b : ¬ s.storeBusy ≠ none)
include b

theorem profileSealBody_already (sealed_ : s.storeByte slot.toNat 0x3E = 0x5A) :
    profileSealBody p slot s = (s, reply .already) := by
  rw [profileSealBody, readProfileSlot_some hi, (holds_iff ..).2 h]
  exact (if_neg nofun).trans ((if_neg (by rw [isSome_idle b]; nofun)).trans (if_pos (beq_iff_eq.2 (hi ▸ sealed_))))

theorem profileSealBody_seals (open_ : ¬ s.storeByte slot.toNat 0x3E = 0x5A) : profileSealBody p slot s =
    (s.programStore (slotCells i.val [(0x3C, ((crc (s.storeBytes slot.toNat 0 60)) >>> 8).setWidth 8),
      (0x3D, (crc (s.storeBytes slot.toNat 0 60)).setWidth 8), (0x3E, 0x5A)]), reply .ok) := by
  rw [profileSealBody, readProfileSlot_some hi, (holds_iff ..).2 h, ← hi]
  exact (if_neg nofun).trans ((if_neg (by rw [isSome_idle b]; nofun)).trans
    (if_neg fun k => open_ (hi ▸ beq_iff_eq.1 k)))

theorem profileRetireBody_already (retired_ : s.storeByte slot.toNat 0x3F = 0xC3) :
    profileRetireBody p slot s = (s, reply .already) := by
  rw [profileRetireBody, readProfileSlot_some hi, (holds_iff ..).2 h]
  exact (if_neg nofun).trans ((if_neg (by rw [isSome_idle b]; nofun)).trans (if_pos (beq_iff_eq.2 (hi ▸ retired_))))

theorem profileRetireBody_retires (inUse : ¬ s.storeByte slot.toNat 0x3F = 0xC3) :
    profileRetireBody p slot s = (s.programStore (slotCells i.val [(0x3F, 0xC3)]), reply .ok) := by
  rw [profileRetireBody, readProfileSlot_some hi, (holds_iff ..).2 h]
  exact (if_neg nofun).trans ((if_neg (by rw [isSome_idle b]; nofun)).trans
    (if_neg fun k => inUse (hi ▸ beq_iff_eq.1 k)))

end

section
variable {s : State}

theorem busyEnd_early (h : ∀ b, s.storeBusy = some b → s.elapsed < b.until_) : s.busyEnd = s := by
  refine if_neg fun k => ?_
  obtain ⟨e, le, he⟩ := reached_iff.1 k
  obtain ⟨b, hb, rfl⟩ := Option.map_eq_some_iff.1 he
  exact absurd le (Nat.not_le.2 (h b hb))

theorem busyEnd_due {b : StoreBusy} (h : s.storeBusy = some b) (le : b.until_ ≤ s.elapsed) :
    s.busyEnd = { s with storeBusy := none } :=
  if_pos (reached_true (congrArg (Option.map _) h) le)

end

/-- Settles O55: each command by its parameters, the holder of MX, the busy time and the markers of the slot. -/
theorem profileStoreCommands : Obligations.ProfileStoreCommands := by
  intro p slot offset byte s lawful
  refine ⟨fun hs => ⟨fun bad => congrArg _ (take_answers hs (profileReadBody_bad bad)),
      fun good b => congrArg _ (take_answers hs (profileReadBody_busy good b)), fun good b =>
        ⟨_, congrArg _ (take_data hs (profileReadBody_reads good b)), storeBytes_length ..,
          fun k hk => storeBytes_at _ _ _ hk⟩⟩,
    fun hs => ⟨fun bad => congrArg _ (take_answers hs (profileWriteBody_bad bad)), fun good h => ?_, fun good h b => ?_,
      fun good h b sealed_ => ?_, fun i hi good h b open_ => ?_⟩,
    fun hs => ⟨fun bad => congrArg _ (take_answers hs (profileSealBody_bad bad)), fun low h => ?_, fun low h b => ?_,
      fun low h b sealed_ => ?_, fun i hi h b open_ => ?_⟩,
    fun hs => ⟨fun bad => congrArg _ (take_answers hs (profileRetireBody_bad bad)), fun low h => ?_, fun low h b => ?_,
      fun low h b retired_ => ?_, fun i hi h b inUse => ?_⟩,
    fun early => congrArg _ (busyEnd_early early), fun b hb le => congrArg _ (busyEnd_due hb le)⟩
  · obtain ⟨inSlot, inRange⟩ := not_or.1 good
    obtain ⟨i, hi⟩ := exists_profileSlot (Nat.not_lt.1 inSlot)
    exact congrArg _ (take_answers hs (profileWriteBody_notHolder hi inRange h))
  · obtain ⟨inSlot, inRange⟩ := not_or.1 good
    obtain ⟨i, hi⟩ := exists_profileSlot (Nat.not_lt.1 inSlot)
    exact congrArg _ (take_answers hs (profileWriteBody_busy hi inRange h b))
  · obtain ⟨inSlot, inRange⟩ := not_or.1 good
    obtain ⟨i, hi⟩ := exists_profileSlot (Nat.not_lt.1 inSlot)
    exact congrArg _ (take_answers hs (profileWriteBody_sealed hi inRange h b sealed_))
  · obtain ⟨-, inRange⟩ := not_or.1 good
    exact ⟨_, congrArg _ (take_answers hs (profileWriteBody_writes hi inRange h b open_)),
      Programs.parts (programStore_programs lawful.1 (List.forall_mem_singleton.2 (by omega)) (orBits_one _ _))⟩
  · obtain ⟨i, hi⟩ := exists_profileSlot low
    exact congrArg _ (take_answers hs (profileSealBody_notHolder hi h))
  · obtain ⟨i, hi⟩ := exists_profileSlot low
    exact congrArg _ (take_answers hs (profileSealBody_busy hi h b))
  · obtain ⟨i, hi⟩ := exists_profileSlot low
    exact congrArg _ (take_answers hs (profileSealBody_already hi h b sealed_))
  · refine ⟨_, congrArg _ (take_answers hs (profileSealBody_seals hi h b open_)),
      Programs.parts (programStore_programs lawful.1 ?_ (orBits_three _ _ _ (by decide) (by decide) (by decide)))⟩
    simp only [List.forall_mem_cons]
    exact ⟨by decide, by decide, by decide, nofun⟩
  · obtain ⟨i, hi⟩ := exists_profileSlot low
    exact congrArg _ (take_answers hs (profileRetireBody_notHolder hi h))
  · obtain ⟨i, hi⟩ := exists_profileSlot low
    exact congrArg _ (take_answers hs (profileRetireBody_busy hi h b))
  · obtain ⟨i, hi⟩ := exists_profileSlot low
    exact congrArg _ (take_answers hs (profileRetireBody_already hi h b retired_))
  · exact ⟨_, congrArg _ (take_answers hs (profileRetireBody_retires hi h b inUse)),
      Programs.parts (programStore_programs lawful.1 (List.forall_mem_singleton.2 (by decide)) (orBits_one _ _))⟩

end Sys2Proof.Machine
end

section
/-! PROOFS. LINE_CONFIG (R8, R9, R97, R102), and the commands that only read (R2, R3, R10, R46, R73, R177). -/

namespace Sys2Proof.Machine

/-! ## A line record replaced, and its filter (R97, R102) -/

/-- What the hub drives at a pin, by the record of its line and the check. -/
def LineRec.driven (x : LineRec) (c : Check) (n : LineId) : Option Level :=
  match x.mode with
  | .off => none
  | .input => none
  | .output => some (x.override.getD x.scheduled)
  | .parked => some (x.override.getD x.park.level)
  | .test => some (c.drive n)

theorem drive_eq (s : State) (n : LineId) : s.drive n = (s.line n).driven s.maint.check n := rfl

/-- The filter of a line whose record is replaced: cleared in OFF; restarted at the raw level of the moment where the line
leaves OFF or its filter length changes; else as it was. -/
structure FilterFollows (s : State) (n : LineId) (x : LineRec) (f : Filter) : Prop where
  off : x.mode = .off → f.filtered = .low ∧ f.run = none
  same : x.mode ≠ .off → (s.line n).mode ≠ .off → x.filterLen = (s.line n).filterLen → f = s.filter n
  sampled : (s.line n).mode ≠ .off → f.sampled = (s.filter n).sampled
  restarted : x.mode ≠ .off → ((s.line n).mode = .off ∨ x.filterLen ≠ (s.line n).filterLen) → f.run = none ∧
    (s.held.getLsbD n.val = true → f.filtered = Level.ofBit (s.level.getLsbD n.val)) ∧
    ∀ v, s.held.getLsbD n.val = false → x.driven s.maint.check n = some v → f.filtered = v

section
variable (s : State) (n : LineId) (x : LineRec)

theorem raw_held {s : State} {n : LineId} (h : s.held.getLsbD n.val = true) :
    s.raw n = Level.ofBit (s.level.getLsbD n.val) := rawUnder_held h

theorem raw_setLine_driven {v : Level} (free : s.held.getLsbD n.val = false)
    (d : x.driven s.maint.check n = some v) : (s.setLine n x).raw n = v := by
  refine rawUnder_driven (s := s.setLine n x) free ?_
  rw [drive_eq, setLine_line, if_pos rfl, setLine_maint]
  exact d

theorem changeLine_follows : FilterFollows s n x ((s.changeLine n x).filter n) where
  off h := by
    rw [changeLine_filter, if_pos h]
    exact ⟨rfl, rfl⟩
  same on old length := by
    rw [changeLine_filter, if_neg on, if_neg (not_or.2 ⟨old, not_not.2 length.symm⟩)]
  sampled old := by
    rw [changeLine_filter, if_neg old]
    split
    · rfl
    · split <;> rfl
  restarted on changed := by
    rw [changeLine_filter, if_neg on, if_pos (changed.imp_right Ne.symm)]
    exact ⟨rfl, raw_held (s := s.setLine n x), fun v => raw_setLine_driven s n x⟩

theorem changeLine_drive : (s.changeLine n x).drive n = x.driven s.maint.check n := by
  rw [drive_eq, changeLine_line, if_pos rfl, unlined_maint (changeLine_unlined ..)]

theorem changeLine_same : { s.changeLine n x with lines := s.lines, filters := s.filters, free := s.free } = s := by
  unfold State.changeLine
  dsimp only
  split
  · rfl
  · split <;> rfl

end

/-! ## LINE_CONFIG -/

section
variable {s : State} {p : PortId} {line mode level filter : Byte}

theorem lineConfigBody_outOfRange (h : 15 < line.toNat ∨ 2 < mode.toNat ∨ 1 < level.toNat ∨ 15 < filter.toNat) :
    lineConfigBody p line mode level filter s = (s, reply .badParam) := by
  unfold lineConfigBody
  split
  · rename_i hn hm hl hf
    rcases h with h | h | h | h
    · cases (readLine_none h).symm.trans hn
    · cases (readMode_none h).symm.trans hm
    · cases (readLevel_none h).symm.trans hl
    · cases (readFilter_none h).symm.trans hf
  · rfl

variable {n : LineId} {m : LineMode} {l : Level} {f : BitVec 4} (hn : readLine line = some n)
  (hm : readMode mode = some m) (hl : readLevel level = some l) (hf : readFilter filter = some f)
include hn hm hl hf

theorem lineConfigBody_notHolder (h : (s.claim (lineRes n)).holder ≠ some p) :
    lineConfigBody p line mode level filter s = (s, reply .notHolder) := by
  rw [lineConfigBody, hn, hm, hl, hf]
  exact if_pos ((holds_false_iff ..).2 h)

variable (h : (s.claim (lineRes n)).holder = some p)
include h

theorem lineConfigBody_test (t : (s.line n).mode = .test) :
    lineConfigBody p line mode level filter s = (s, reply .wrongState) := by
  rw [lineConfigBody, hn, hm, hl, hf]
  dsimp only
  rw [(holds_iff ..).2 h]
  exact (if_neg nofun).trans (if_pos t)

theorem lineConfigBody_occupied (o : s.occupied n) (out : m ≠ .output) :
    lineConfigBody p line mode level filter s = (s, reply .wrongState) := by
  by_cases t : (s.line n).mode = .test
  · exact lineConfigBody_test hn hm hl hf h t
  · rw [lineConfigBody, hn, hm, hl, hf]
    dsimp only
    rw [(holds_iff ..).2 h]
    exact (if_neg nofun).trans ((if_neg t).trans (if_pos ⟨(lineOccupied_iff ..).2 o, out⟩))

theorem lineConfigBody_configures (t : (s.line n).mode ≠ .test) (o : s.occupied n → m = .output) :
    lineConfigBody p line mode level filter s = (s.changeLine n ((s.line n).configure m l f), reply .ok) := by
  rw [lineConfigBody, hn, hm, hl, hf]
  dsimp only
  rw [(holds_iff ..).2 h]
  exact (if_neg nofun).trans ((if_neg t).trans (if_neg fun ⟨occupied, out⟩ => out (o ((lineOccupied_iff ..).1 occupied))))

end

/-- Settles O20: LINE_CONFIG by its parameters, the holder, the mode and the entries of the line; the filter follows. -/
theorem lineConfigOutcomes : Obligations.LineConfigOutcomes := by
  intro p line mode level filter s hs
  refine ⟨fun h => congrArg _ (take_answers hs (lineConfigBody_outOfRange h)), fun n m f hn hm hl hf code => ?_⟩
  have read := readMode_some hm
  rw [← code] at read
  have readL := readLevel_some hl
  refine ⟨fun h => congrArg _ (take_answers hs
      (lineConfigBody_notHolder (readLine_some hn) read readL (readFilter_some hf) h)),
    fun h t => congrArg _ (take_answers hs (lineConfigBody_test (readLine_some hn) read readL (readFilter_some hf) h t)),
    fun h o out => congrArg _ (take_answers hs
      (lineConfigBody_occupied (readLine_some hn) read readL (readFilter_some hf) h o out)), fun h t o => ?_⟩
  let x := (s.line n).configure m (if level = 1 then .high else .low) f
  have follows := changeLine_follows s n x
  refine ⟨s.changeLine n x, congrArg _ (take_answers hs
      (lineConfigBody_configures (readLine_some hn) read readL (readFilter_some hf) h t o)),
    changeLine_same .., (changeLine_line ..).trans (if_pos rfl), fun k hk =>
      ⟨(changeLine_line ..).trans (if_neg hk.symm), changeLine_filter_ne _ _ _ _ hk.symm⟩,
    follows.off, follows.same, follows.sampled, fun on changed => ?_⟩
  rw [changeLine_drive]
  exact follows.restarted on changed

/-! ## LINE_READ and the drive of a pin (R2, R3, R10) -/

theorem drive_cases (s : State) (n : LineId) :
    let shown (level : Level) : Option Level := match (s.line n).override with | some v => some v | none => some level
    (((s.line n).mode = .off ∨ (s.line n).mode = .input) → s.drive n = none) ∧
    ((s.line n).mode = .output → s.drive n = shown (s.line n).scheduled) ∧
    ((s.line n).mode = .parked → (s.line n).park = .parkLow → s.drive n = shown .low) ∧
    ((s.line n).mode = .parked → (s.line n).park = .parkHigh → s.drive n = shown .high) := by
  intro shown
  have shown_eq (level : Level) : some ((s.line n).override.getD level) = shown level := by
    show _ = match (s.line n).override with | some v => some v | none => some level
    cases (s.line n).override <;> rfl
  rw [drive_eq, LineRec.driven]
  refine ⟨?_, fun m => ?_, fun m k => ?_, fun m k => ?_⟩
  · rintro (m | m) <;> rw [m]
  · rw [m]
    exact shown_eq _
  · rw [m, k]
    exact shown_eq _
  · rw [m, k]
    exact shown_eq _

theorem lineStatus_fields (m : LineMode) (a b : Level) :
    let x : Byte := m.code ||| (levelCode a <<< 4) ||| (levelCode b <<< 5)
    x.toNat % 8 = (match m with | .off => 0 | .input => 1 | .output => 2 | .parked => 3 | .test => 4) ∧
      x.getLsbD 4 = (a == .high) ∧ x.getLsbD 5 = (b == .high) ∧
      x.getLsbD 3 = false ∧ x.getLsbD 6 = false ∧ x.getLsbD 7 = false := by
  cases m <;> cases a <;> cases b <;> exact ⟨rfl, rfl, rfl, rfl, rfl, rfl⟩

theorem pinLevel_eq (s : State) (n : LineId) : s.pinLevel n = match (s.line n).mode with
    | .off => .low
    | .input => (s.filter n).sampled
    | _ => (s.drive n).getD .low := by
  unfold State.pinLevel
  cases (s.line n).mode <;> rfl

theorem lineReadBody_eq (s : State) :
    lineReadBody s = (s, replyData (Vector.ofFn (fun n : Fin 16 => s.lineStatus n)).toList) := by
  rw [lineReadBody, Vector.toList_ofFn, List.ofFn_eq_map]
  rfl

/-! ## QUERY_ENTRY (R73) -/

section
variable {s : State} {p : PortId} {id : Byte} {i : SlotId}

theorem queryEntryBody_outOfRange (hr : readSlot id = none) : queryEntryBody id s = (s, reply .badParam) := by
  rw [queryEntryBody, hr]

theorem queryEntryBody_reports (hr : readSlot id = some i) :
    queryEntryBody id s = (s.checkSlot i, replyData ((s.checkSlot i).entryReport i)) := by
  rw [queryEntryBody, hr]

end

/-- The current due in a report: a flag, and five bytes that are 0 without one. -/
def dueReport : Option Count → List Byte
  | none => List.replicate 6 0
  | some d => 1 :: bytesOf 5 d

theorem dueReport_bytes (t : EntryStatus) : ∃ d₄ d₃ d₂ d₁ d₀ : Byte,
    dueReport t.due =
        [(match t with | .pending _ => 1 | .deferred _ _ => 1 | _ => 0), d₄, d₃, d₂, d₁, d₀] ∧
    d₄ ++ d₃ ++ d₂ ++ d₁ ++ d₀ = (match t with | .pending d => d | .deferred d _ => d | _ => 0 : Count) := by
  cases t with
  | pending d =>
    obtain ⟨d₄, d₃, d₂, d₁, d₀, bytes, due⟩ := bytesOf_five d
    exact ⟨d₄, d₃, d₂, d₁, d₀, congrArg (1 :: ·) bytes, due⟩
  | deferred d k =>
    obtain ⟨d₄, d₃, d₂, d₁, d₀, bytes, due⟩ := bytesOf_five d
    exact ⟨d₄, d₃, d₂, d₁, d₀, congrArg (1 :: ·) bytes, due⟩
  | armed => exact ⟨0, 0, 0, 0, 0, rfl, rfl⟩
  | active r => exact ⟨0, 0, 0, 0, 0, rfl, rfl⟩
  | suspended r => exact ⟨0, 0, 0, 0, 0, rfl, rfl⟩

theorem entryReport_free {u : State} {i : SlotId} (e : u.entry i = none) :
    u.entryReport i = List.replicate 16 0 := by
  rw [State.entryReport, e]

theorem entryReport_eq {u : State} {i : SlotId} {h : Header} (e : u.entry i = some h) : u.entryReport i =
    [h.status.code, portByte h.owner, lineByte h.line] ++ bytesOf 2 h.tag ++ [actionCode (u.body i).action] ++
      dueReport h.status.due ++ bytesOf 2 h.countA ++ bytesOf 2 h.countB := by
  rw [State.entryReport, e]
  rfl

theorem entryReport_entry {u : State} {i : SlotId} {h : Header} (e : u.entry i = some h) :
    ∃ t₁ t₀ a₁ a₀ b₁ b₀ d₄ d₃ d₂ d₁ d₀ : Byte,
      u.entryReport i = [h.status.code, BitVec.ofNat 8 h.owner.val, BitVec.ofNat 8 h.line.val, t₁, t₀,
        actionCode (u.body i).action, (match h.status with | .pending _ => 1 | .deferred _ _ => 1 | _ => 0),
        d₄, d₃, d₂, d₁, d₀, a₁, a₀, b₁, b₀] ∧
      t₁ ++ t₀ = h.tag ∧ a₁ ++ a₀ = h.countA ∧ b₁ ++ b₀ = h.countB ∧
      d₄ ++ d₃ ++ d₂ ++ d₁ ++ d₀ = (match h.status with | .pending d => d | .deferred d _ => d | _ => 0 : Count) := by
  obtain ⟨t₁, t₀, tag, tag_⟩ := bytesOf_two h.tag
  obtain ⟨a₁, a₀, countA, countA_⟩ := bytesOf_two h.countA
  obtain ⟨b₁, b₀, countB, countB_⟩ := bytesOf_two h.countB
  obtain ⟨d₄, d₃, d₂, d₁, d₀, due, due_⟩ := dueReport_bytes h.status
  refine ⟨t₁, t₀, a₁, a₀, b₁, b₀, d₄, d₃, d₂, d₁, d₀, ?_, tag_, countA_, countB_, due_⟩
  rw [entryReport_eq e, due, tag, countA, countB]
  rfl

/-- Settles O21: the drive by the mode, and each command that reads, field by field. -/
theorem readingCommands : Obligations.ReadingCommands := by
  refine ⟨fun n s => drive_cases s n, fun p s => ⟨fun hs => ⟨_, congrArg _ (take_data hs (lineReadBody_eq s)),
      fun n => ?_⟩, fun hs => ?_, fun hs => congrArg Host.Outcome.next (take_data (body := identBody p) hs rfl)⟩,
    fun p id s hs => ⟨fun n => congrArg _ (take_answers hs (queryEntryBody_outOfRange (readSlot_none n))),
      fun i hi _ => ⟨s.checkSlot i, checkSlot_checkedSlot s i, fun e => ?_, fun h e => ?_⟩⟩⟩
  · have fields := lineStatus_fields (s.line n).mode (s.pinLevel n) (s.filter n).filtered
    rw [pinLevel_eq] at fields
    rw [Vector.getElem_ofFn, State.lineStatus, pinLevel_eq]
    exact fields
  · obtain ⟨a, b, c, d, e, bytes, count⟩ := bytesOf_five s.tb.count
    refine ⟨a, b, c, d, e, congrArg Host.Outcome.next ((take_data (body := readTimeBody) hs rfl).trans ?_), count⟩
    rw [bytes]
    rfl
  · refine (congrArg Host.Outcome.next (take_data hs (queryEntryBody_reports (readSlot_some hi)))).trans ?_
    rw [entryReport_free e]
  · obtain ⟨t₁, t₀, a₁, a₀, b₁, b₀, d₄, d₃, d₂, d₁, d₀, report, fields⟩ := entryReport_entry e
    refine ⟨t₁, t₀, a₁, a₀, b₁, b₀, d₄, d₃, d₂, d₁, d₀, ?_, fields⟩
    refine (congrArg Host.Outcome.next (take_data hs (queryEntryBody_reports (readSlot_some hi)))).trans ?_
    rw [report]
    rfl

end Sys2Proof.Machine
end

section
/-! PROOFS. The line check: its start (R12, R133, R134), its windows, the judgement of an edge and the completion (R135,
R136). -/

namespace Sys2Proof.Machine

/-! ## The lowest line with a property -/

section
variable {f : LineId → Bool} {n : LineId}

theorem find_lines_some (h : f n = true) (lowest : ∀ m, m < n → f m = false) : allLines.find? f = some n := by
  unfold allLines
  rw [← Fin.find?_eq_find?_finRange, Fin.find?_eq_some_iff]
  exact ⟨h, fun j hj => by rw [lowest j hj]⟩

theorem find_lines_none (h : ∀ n, f n = false) : allLines.find? f = none :=
  List.find?_eq_none.2 fun n _ => by rw [h n]; nofun

end

theorem firstTested_some {x : LineSet} {n : LineId} (h : x.getLsbD n.val = true)
    (lowest : ∀ m, m < n → x.getLsbD m.val = false) : firstTested x = some n := find_lines_some h lowest

theorem nextTested_some {x : LineSet} {n c : LineId} (above : c < n) (h : x.getLsbD n.val = true)
    (lowest : ∀ m, c < m → m < n → x.getLsbD m.val = false) : nextTested x c = some n := by
  refine find_lines_some (Bool.and_eq_true_iff.2 ⟨h, decide_eq_true above⟩) fun m hm => ?_
  by_cases hc : c < m
  · rw [show inSet x m = false from lowest m hc hm, Bool.false_and]
  · rw [decide_eq_false (p := c.val < _) hc, Bool.and_false]

theorem nextTested_none {x : LineSet} {c : LineId} (h : ∀ n, c < n → x.getLsbD n.val = false) :
    nextTested x c = none := by
  refine find_lines_none fun n => ?_
  by_cases hc : c < n
  · rw [show inSet x n = false from h n hc, Bool.false_and]
  · rw [decide_eq_false (p := c.val < _) hc, Bool.and_false]

/-! ## The windows and the edges of a running check -/

/-- The failure of a check after one more: the first stays. -/
def Progress.failed (c : Progress) (e : Edge) (o : Observed) : Option Failure :=
  match c.failure with
  | some f => some f
  | none => some ⟨c.current, e, o⟩

theorem fail_eq (c : Progress) (e : Edge) (o : Observed) : c.fail e o = { c with failure := c.failed e o } := by
  rw [Progress.fail, Progress.failed]
  cases h : c.failure with
  | some f =>
    dsimp only
    rw [← h]
  | none => rfl

section
variable {c : Progress} {n : LineId} {e : Edge}

theorem judgeEdge_same (h : n ≠ c.current ∨ c.window = .w1 ∨ c.window = .w2 ∧ c.rise ≠ .undecided ∨
    c.window = .w3 ∧ c.fall ≠ .undecided) : c.judgeEdge n e = c := by
  by_cases current : c.current = n
  · rcases h with other | w | ⟨w, decided⟩ | ⟨w, decided⟩
    · exact absurd current.symm other
    · rw [Progress.judgeEdge, if_pos current, w]
    · rw [Progress.judgeEdge, if_pos current, w]
      exact if_neg decided
    · rw [Progress.judgeEdge, if_pos current, w]
      exact if_neg decided
  · exact if_neg current

theorem judgeEdge_rise (h : n = c.current) (w : c.window = .w2) (u : c.rise = .undecided) : c.judgeEdge n e =
    if e = .rise then { c with rise := .met } else { c with rise := .failed, failure := c.failed .rise .wrongEdge } := by
  rw [Progress.judgeEdge, if_pos h.symm, w]
  dsimp only
  rw [if_pos u, fail_eq, ← w]

theorem judgeEdge_fall (h : n = c.current) (w : c.window = .w3) (u : c.fall = .undecided) : c.judgeEdge n e =
    if e = .fall then { c with fall := .met } else { c with fall := .failed, failure := c.failed .fall .wrongEdge } := by
  rw [Progress.judgeEdge, if_pos h.symm, w]
  dsimp only
  rw [if_pos u, fail_eq, ← w]

theorem closeWindow_same (h : c.window = .w1 ∨ c.window = .w2 ∧ c.rise ≠ .undecided) : c.closeWindow = c := by
  rcases h with w | ⟨w, decided⟩
  · rw [Progress.closeWindow, w]
  · rw [Progress.closeWindow, w]
    exact if_neg decided

theorem closeWindow_rise (w : c.window = .w2) (u : c.rise = .undecided) :
    c.closeWindow = { c with rise := .failed, failure := c.failed .rise .nothing } := by
  rw [Progress.closeWindow, w]
  dsimp only
  rw [if_pos u, fail_eq, ← w]

theorem closeWindow_fall (w : c.window = .w3) : c.closeWindow = if c.fall = .undecided
    then { c with fall := .failed, failure := c.failed .fall .nothing } else c := by
  rw [Progress.closeWindow, w]
  dsimp only
  rw [fail_eq, ← w]

/-- The line of window 3 is completed: the sets and the failure after it. -/
theorem completeLine_close (w : c.window = .w3) : ∃ fall, c.closeWindow.completeLine = { c with
    fall := fall
    failure := if c.fall = .undecided then c.failed .fall .nothing else c.failure
    completed := c.completed ||| ((1 : LineSet) <<< c.current.val)
    passed := if c.rise = .met ∧ c.fall = .met then c.passed ||| ((1 : LineSet) <<< c.current.val) else c.passed } := by
  rw [closeWindow_fall w]
  by_cases u : c.fall = .undecided
  · have notMet : ¬ (c.rise = .met ∧ c.fall = .met) := fun k => by
      rw [u] at k
      cases k.2
    rw [if_pos u, if_pos u, if_neg notMet]
    refine ⟨.failed, ?_⟩
    rw [Progress.completeLine, if_neg (fun k => by cases k.2)]
    rfl
  · rw [if_neg u, if_neg u]
    exact ⟨c.fall, rfl⟩

end

section
variable {s : State} {c : Progress} (running : s.maint.check = .running c)
include running

theorem drive_test {n : LineId} (m : (s.line n).mode = .test) :
    s.drive n = some (if n = c.current ∧ c.window = .w2 then .high else .low) := by
  rw [drive_eq, LineRec.driven, m, running]
  dsimp only
  rw [Check.drive]
  simp only [eq_comm]

theorem windowEvent_early (h : s.elapsed < c.windowEnd) : s.windowEvent = s := by
  rw [State.windowEvent, running]
  exact if_neg (Nat.not_le.2 h)

theorem windowEvent_due (h : c.windowEnd ≤ s.elapsed) : s.windowEvent = s.windowEnds c := by
  rw [State.windowEvent, running]
  exact if_pos h

theorem checkEdge_running (n : LineId) (e : Edge) : s.checkEdge n e = s.setCheck (.running (c.judgeEdge n e)) := by
  rw [State.checkEdge, running]

theorem edgeAccepted_test {n : LineId} {r : FilterRun} (m : (s.line n).mode = .test) (hr : (s.filter n).run = some r)
    (long : (s.line n).filterLen.toNat < r.len) : exec (.edgeAccepted n) s = .next ((s.taken n).setCheck
      (.running (c.judgeEdge n (if (s.filter n).filtered = .low then .rise else .fall)))) :=
  congrArg _ ((acceptEdge_test hr long m).trans (checkEdge_running (s := s.taken n) running n _))

end

section
variable {s : State} {c : Progress}

theorem windowEnds_one (w : c.window = .w1) : s.windowEnds c =
    s.setCheck (.running { c with window := .w2, windowEnd := s.elapsed + s.windowTicks c.current }) := by
  rw [State.windowEnds, closeWindow_same (.inl w), w]

theorem windowEnds_two (w : c.window = .w2) : s.windowEnds c =
    s.setCheck (.running { c.closeWindow with window := .w3, windowEnd := s.elapsed + s.windowTicks c.current }) := by
  rw [State.windowEnds, w]

theorem windowEnds_next (w : c.window = .w3) {n : LineId} (h : nextTested c.tested c.current = some n) :
    s.windowEnds c = s.setCheck (.running { c.closeWindow.completeLine with
      current := n, window := .w1, windowEnd := s.elapsed + s.windowTicks n, rise := .undecided,
      fall := .undecided }) := by
  rw [State.windowEnds, w]
  dsimp only
  rw [h]

theorem windowEnds_last (w : c.window = .w3) (h : nextTested c.tested c.current = none) :
    s.windowEnds c = s.endCheck c.requester c.closeWindow.completeLine.result true := by
  rw [State.windowEnds, w]
  dsimp only
  rw [h]

theorem windowTicks_add (s : State) (n : LineId) :
    s.elapsed + s.windowTicks n = s.elapsed + (s.line n).filterLen.toNat + 16 := (Nat.add_assoc ..).symm

end

/-- Settles O43: the drive in TEST, the end of each window, and the judgement of an edge by the window. -/
theorem checkWindows : Obligations.CheckWindows := by
  intro c s running
  refine ⟨fun n m => drive_test running m, fun early => congrArg _ (windowEvent_early running early), fun due => ?_,
    fun n r m hr long => ?_⟩
  · have run : exec .checkWindowEnd s = .next (s.windowEnds c) := congrArg _ (windowEvent_due running due)
    refine ⟨fun w => ?_, fun w decided => ?_, fun w u => ?_, fun w => ?_⟩
    · rw [run, windowEnds_one w, windowTicks_add]
      rfl
    · rw [run, windowEnds_two w, closeWindow_same (.inr ⟨w, decided⟩), windowTicks_add]
      rfl
    · rw [run, windowEnds_two w, closeWindow_rise w u, windowTicks_add]
      rfl
    · obtain ⟨fall, complete⟩ := completeLine_close w
      refine ⟨fun n above h lowest => ?_, fun none_ => ⟨_, run, ?_⟩⟩
      · rw [run, windowEnds_next w (nextTested_some above h lowest), complete, windowTicks_add]
        rfl
      · rw [windowEnds_last w (nextTested_none none_), complete]
        exact endCheck_checkEnded ..
  · have run := edgeAccepted_test running m hr long
    refine ⟨fun same => ?_, fun h w u => ?_, fun h w u => ?_⟩
    · rw [judgeEdge_same same] at run
      exact run
    · rw [judgeEdge_rise h w u] at run
      exact run
    · rw [judgeEdge_fall h w u] at run
      exact run

/-! ## The start of a check (R12, R134) -/

theorem foldl_same {f : State → LineId → State}
    (hf : ∀ u n, { f u n with lines := u.lines, filters := u.filters, free := u.free } = u) (l : List LineId)
    (s : State) : { l.foldl f s with lines := s.lines, filters := s.filters, free := s.free } = s :=
  List.foldlRecOn l f (motive := fun u => { u with lines := s.lines, filters := s.filters, free := s.free } = s) rfl
    fun u hu n _ => (congrArg (fun x : State => { x with lines := s.lines, filters := s.filters, free := s.free })
      (hf u n)).trans hu

theorem foldl_other_line {f : State → LineId → State}
    (away : ∀ u n m, n ≠ m → (f u n).lineAndFilter m = u.lineAndFilter m) {l : List LineId} {m : LineId} (hm : m ∉ l)
    (s : State) : (l.foldl f s).lineAndFilter m = s.lineAndFilter m :=
  List.foldlRecOn l f (motive := fun u => u.lineAndFilter m = s.lineAndFilter m) rfl
    fun u hu n hn => (away u n m fun e => hm (e ▸ hn)).trans hu

theorem changeLine_away (u : State) (n m : LineId) (x : LineRec) (h : n ≠ m) :
    (u.changeLine n x).lineAndFilter m = u.lineAndFilter m :=
  Prod.ext ((changeLine_line ..).trans (if_neg h)) (changeLine_filter_ne _ _ _ _ h)

/-- The lines of a check, in ascending order. -/
def testedLines (x : LineSet) : List LineId := allLines.filter (fun m => inSet x m)

theorem mem_testedLines (x : LineSet) (m : LineId) : m ∈ testedLines x ↔ x.getLsbD m.val = true :=
  List.mem_filter.trans (and_iff_right (List.mem_finRange m))

theorem testedLines_nodup (x : LineSet) : (testedLines x).Nodup := (List.nodup_finRange 16).filter _

section
variable (s : State) (x : LineSet)

theorem enterTests_same : { (testedLines x).foldl State.enterTest s with
    lines := s.lines, filters := s.filters, free := s.free } = s :=
  foldl_same (f := State.enterTest) (fun _ _ => changeLine_same ..) _ s

theorem enterTests_other {m : LineId} (h : x.getLsbD m.val = false) :
    ((testedLines x).foldl State.enterTest s).line m = s.line m :=
  congrArg Prod.fst (foldl_other_line (f := State.enterTest) (fun u n m h => changeLine_away u n m _ h)
    (fun k => by rw [(mem_testedLines x m).1 k] at h; cases h) s)

theorem enterTests_line {m : LineId} (h : x.getLsbD m.val = true) :
    ((testedLines x).foldl State.enterTest s).line m = { s.line m with
      mode := .test, saved := some ((s.line m).mode, (s.line m).scheduled) } := by
  refine foldl_each_line (s := s) (P := fun n y => y.1 = { s.line n with
    mode := .test, saved := some ((s.line n).mode, (s.line n).scheduled) }) (fun u n => enterTest_unlined u n)
    (fun u n m h => changeLine_away u n m _ h) (fun u n _ e => ?_) _ (testedLines_nodup x) m ((mem_testedLines x m).2 h)
  rw [← show u.line n = s.line n from congrArg Prod.fst e]
  exact (changeLine_line ..).trans (if_pos rfl)

end

section
variable {s : State} {p : PortId} {x : LineSet} {n : LineId}

theorem startCheck_starts (h : x.getLsbD n.val = true) (lowest : ∀ m, m < n → x.getLsbD m.val = false) :
    s.startCheck p x = (testedLines x).foldl State.enterTest (s.setCheck (.running
      { requester := p, tested := x, current := n, window := .w1,
        windowEnd := s.elapsed + (s.line n).filterLen.toNat + 16, rise := .undecided, fall := .undecided,
        passed := 0, completed := 0, failure := none })) := by
  rw [State.startCheck, firstTested_some h lowest]
  dsimp only
  rw [windowTicks_add]
  rfl

/-! ## LINE_CHECK (R133) -/

theorem holdsAll_iff (s : State) (p : PortId) (x : LineSet) : s.holdsAll p x = true ↔
    ∀ n : LineId, x.getLsbD n.val = true → (s.claim (lineRes n)).holder = some p := by
  refine List.all_eq_true.trans ⟨fun h n hn => ?_, fun h n _ => ?_⟩
  · have holds := h n (List.mem_finRange n)
    rw [show inSet x n = true from hn] at holds
    exact (holds_iff ..).1 holds
  · cases hn : inSet x n with
    | false => rfl
    | true => exact (holds_iff ..).2 (h n hn)

theorem anyOccupied_iff (s : State) (x : LineSet) : s.anyOccupied x = true ↔
    ∃ n : LineId, x.getLsbD n.val = true ∧ s.occupied n := by
  refine List.any_eq_true.trans ⟨fun ⟨n, _, h⟩ => ?_, fun ⟨n, hn, o⟩ => ⟨n, List.mem_finRange n, ?_⟩⟩
  · obtain ⟨inX, o⟩ := Bool.and_eq_true_iff.1 h
    exact ⟨n, inX, (lineOccupied_iff ..).1 o⟩
  · exact Bool.and_eq_true_iff.2 ⟨hn, (lineOccupied_iff ..).2 o⟩

theorem lineCheckBody_empty (h : x = 0) : lineCheckBody p x s = (s, reply .badParam) := if_pos h

variable (some_ : x ≠ 0)
include some_

theorem lineCheckBody_notHolder (h : (s.claim resMX).holder ≠ some p) :
    lineCheckBody p x s = (s, reply .notHolder) :=
  (if_neg some_).trans (if_pos ((holds_false_iff ..).2 h))

variable (h : (s.claim resMX).holder = some p)
include h

theorem lineCheckBody_busy (c : ∃ c, s.maint.check = .running c) : lineCheckBody p x s = (s, reply .busy) := by
  rw [lineCheckBody, (holds_iff ..).2 h]
  exact (if_neg some_).trans ((if_neg nofun).trans (if_pos ((isRunning_iff _).2 c)))

variable (c : ¬ ∃ c, s.maint.check = .running c)
include c

theorem lineCheckBody_mode (m : s.maint.mode ≠ .run) : lineCheckBody p x s = (s, reply .wrongState) := by
  rw [lineCheckBody, (holds_iff ..).2 h, isRunning_false (not_exists.1 c)]
  exact (if_neg some_).trans ((if_neg nofun).trans ((if_neg nofun).trans (if_pos m)))

variable (m : s.maint.mode = .run)
include m

theorem lineCheckBody_notAllHeld (a : ¬ ∀ n : LineId, x.getLsbD n.val = true → (s.claim (lineRes n)).holder = some p) :
    lineCheckBody p x s = (s, reply .notHolder) := by
  rw [lineCheckBody, (holds_iff ..).2 h, isRunning_false (not_exists.1 c)]
  exact (if_neg some_).trans ((if_neg nofun).trans ((if_neg nofun).trans ((if_neg (not_not.2 m)).trans
    (if_pos (Bool.eq_false_iff.2 fun k => a ((holdsAll_iff ..).1 k))))))

variable (a : ∀ n : LineId, x.getLsbD n.val = true → (s.claim (lineRes n)).holder = some p)
include a

theorem lineCheckBody_occupied (o : ∃ n : LineId, x.getLsbD n.val = true ∧ s.occupied n) :
    lineCheckBody p x s = (s, reply .wrongState) := by
  rw [lineCheckBody, (holds_iff ..).2 h, isRunning_false (not_exists.1 c), (holdsAll_iff ..).2 a]
  exact (if_neg some_).trans ((if_neg nofun).trans ((if_neg nofun).trans ((if_neg (not_not.2 m)).trans
    ((if_neg nofun).trans (if_pos ((anyOccupied_iff ..).2 o))))))

theorem lineCheckBody_starts (o : ¬ ∃ n : LineId, x.getLsbD n.val = true ∧ s.occupied n) :
    lineCheckBody p x s = (s.startCheck p x, reply .accepted) := by
  rw [lineCheckBody, (holds_iff ..).2 h, isRunning_false (not_exists.1 c), (holdsAll_iff ..).2 a]
  exact (if_neg some_).trans ((if_neg nofun).trans ((if_neg nofun).trans ((if_neg (not_not.2 m)).trans
    ((if_neg nofun).trans (if_neg fun k => o ((anyOccupied_iff ..).1 k))))))

end

/-- Settles O42: LINE_CHECK in the order of its checks, and the start of the check line by line. -/
theorem lineCheckStarts : Obligations.LineCheckStarts := by
  intro p x s hs
  refine ⟨fun e => congrArg _ (take_answers hs (lineCheckBody_empty e)),
    fun e h => congrArg _ (take_answers hs (lineCheckBody_notHolder e h)),
    fun e h c => congrArg _ (take_answers hs (lineCheckBody_busy e h c)),
    fun e h c m => congrArg _ (take_answers hs (lineCheckBody_mode e h c m)),
    fun e h c m a => congrArg _ (take_answers hs (lineCheckBody_notAllHeld e h c m a)),
    fun e h c m a o => congrArg _ (take_answers hs (lineCheckBody_occupied e h c m a o)),
    fun n hn lowest h c m a o => ?_⟩
  have nonempty : x ≠ 0 := by
    rintro rfl
    cases (BitVec.getLsbD_zero (w := 16) (i := n.val)).symm.trans hn
  let progress : Progress :=
    { requester := p, tested := x, current := n, window := .w1,
      windowEnd := s.elapsed + (s.line n).filterLen.toNat + 16, rise := .undecided, fall := .undecided,
      passed := 0, completed := 0, failure := none }
  let u := s.setCheck (.running progress)
  let t := (testedLines x).foldl State.enterTest u
  have same : { t with lines := u.lines, filters := u.filters, free := u.free } = u := enterTests_same u x
  have maint : t.maint = u.maint := congrArg (·.maint) same
  have low (m : LineId) : u.maint.check.drive m = .low := if_neg fun k => nomatch k.2
  have filters (m : LineId) := enterTests_filter (testedLines x) (testedLines_nodup x) u low m
  refine ⟨t, congrArg _ (take_answers hs ((lineCheckBody_starts nonempty h c m a o).trans
      (congrArg (·, reply .accepted) (startCheck_starts hn lowest)))),
    congrArg (fun y : State => { y with maint := s.maint }) same, maint, fun m => ⟨fun out => ?_, fun in_ => ?_⟩⟩
  · exact ⟨enterTests_other u x out, (filters m).1 fun k => by rw [(mem_testedLines x m).1 k] at out; cases out⟩
  · have line := enterTests_line u x in_
    refine ⟨line, ?_, (filters m).2 ((mem_testedLines x m).2 in_)⟩
    rw [drive_eq, line, maint]
    exact congrArg some (low m)

end Sys2Proof.Machine
end

section
/-! PROOFS. PIN_RESET with an unfinished operation of the store (R180, R184), and the slot in force (R181). -/

namespace Sys2Proof.Machine

/-! ## PIN_RESET -/

/-- One byte of an unfinished operation: the bits it held before, and of the others some. -/
def finishCell (free : Nat) (m : Memory) (c : Host.Cell × Nat) : Memory :=
  Memory.write m c.1.1 (c.1.2 ||| ((Memory.read m c.1.1 &&& ~~~c.1.2) &&& Config.unfinishedBits free c.2))

theorem unfinished_eq (m : Memory) (b : StoreBusy) (free : Nat) :
    unfinished m b free = b.old.zipIdx.foldl (finishCell free) m := rfl

section
variable {m : Memory} {free : Nat} {l : List (Host.Cell × Nat)}

theorem read_finishCells_other (hm : Memory.wf m) {a : Nat} (ha : a ∉ l.map (fun c => c.1.1)) :
    Memory.read (l.foldl (finishCell free) m) a = Memory.read m a := by
  induction l generalizing m with
  | nil => rfl
  | cons c t ih =>
    obtain ⟨hc, ht⟩ := not_or.1 fun k => ha (List.mem_cons.2 k)
    refine (ih (Memory.write_wf hm ..) ht).trans ?_
    rw [Memory.read_write hm.1, if_neg hc]

theorem read_finishCells (hm : Memory.wf m) (nd : (l.map (fun c => c.1.1)).Nodup) {c : Host.Cell × Nat} (hc : c ∈ l) :
    Memory.read (l.foldl (finishCell free) m) c.1.1 =
      c.1.2 ||| ((Memory.read m c.1.1 &&& ~~~c.1.2) &&& Config.unfinishedBits free c.2) := by
  induction l generalizing m with
  | nil => cases hc
  | cons d t ih =>
    obtain ⟨hd, ht⟩ := List.nodup_cons.1 nd
    rcases List.mem_cons.1 hc with rfl | inTail
    · refine (read_finishCells_other (Memory.write_wf hm ..) hd).trans ?_
      rw [Memory.read_write hm.1, if_pos rfl]
    · have other : c.1.1 ≠ d.1.1 := fun e => hd (List.mem_map.2 ⟨c, inTail, e⟩)
      refine (ih (Memory.write_wf hm ..) ht inTail).trans ?_
      rw [Memory.read_write hm.1, if_neg other]

end

theorem and_or_self (a b : Byte) : a &&& (a ||| b) = a := by
  ext i
  simp only [BitVec.getElem_and, BitVec.getElem_or]
  cases a[i] <;> simp

/-- Bits between those of an old byte and those of a new one. -/
theorem between_and (a w x : Byte) (h : a &&& w = a) : (a ||| (w &&& ~~~a &&& x)) &&& w = a ||| (w &&& ~~~a &&& x) := by
  ext i hi
  have bit := congrArg (fun v : Byte => v[i]) h
  simp only [BitVec.getElem_and, BitVec.getElem_or, BitVec.getElem_not] at bit ⊢
  revert bit
  cases a[i] <;> cases w[i] <;> cases x[i] <;> simp

theorem zipIdx_addresses (l : List Host.Cell) :
    l.zipIdx.map (fun c => c.1.1) = l.map (fun c => c.1) := by
  conv_rhs => rw [← List.zipIdx_map_fst 0 l, List.map_map]
  rfl

/-- Settles O6: the reset of every block, and each byte of an operation that was cut short. -/
theorem pinResetAnswers : Obligations.PinResetAnswers := by
  intro s lawful
  refine ⟨match s.storeBusy with | none => s.store | some b => unfinished s.store b s.free, rfl, fun idle => ?_,
    fun b busy => ?_⟩
  · rw [idle]
  · obtain ⟨nodup, old⟩ := lawful.2 b busy
    rw [← zipIdx_addresses] at nodup
    rw [busy]
    refine ⟨fun a ha => read_finishCells_other lawful.1 (by rw [zipIdx_addresses]; exact ha), fun c hc => ?_⟩
    rw [← List.zipIdx_map_fst 0 b.old] at hc
    obtain ⟨⟨c, k⟩, hk, rfl⟩ := List.mem_map.1 hc
    have inOld : c ∈ b.old := List.zipIdx_map_fst 0 b.old ▸ hc
    dsimp only
    rw [unfinished_eq, read_finishCells (c := (c, k)) lawful.1 nodup hk]
    exact ⟨and_or_self .., between_and _ _ _ (old c inOld)⟩

/-! ## The slot in force -/

theorem load_one {s : State} (h : s.phase = .pinReset) : s.load 1 = s.loadStep 1 := by
  rw [State.load, h]
  rfl

theorem qualifies_iff (s : State) (i : Fin 3) : s.qualifies i = true ↔ s.mayBeInForce i := by
  rw [State.qualifies, Bool.and_eq_true, Bool.and_eq_true, Bool.not_eq_true', State.sealed, State.retired, beq_iff_eq,
    beq_eq_false_iff_ne, beq_iff_eq, and_assoc]
  exact Iff.rfl

theorem selectSlot_some (s : State) (i : Fin 3) :
    s.selectSlot.inForce = some i ↔ s.mayBeInForce i ∧ ∀ j : Fin 3, j < i → ¬ s.mayBeInForce j := by
  rw [State.selectSlot, ← Fin.find?_eq_find?_finRange, Fin.find?_eq_some_iff, qualifies_iff]
  exact and_congr Iff.rfl (forall₂_congr fun j _ => by rw [← qualifies_iff, Bool.not_eq_true])

theorem selectSlot_none (s : State) : s.selectSlot.inForce = none ↔ ∀ i : Fin 3, ¬ s.mayBeInForce i := by
  refine List.find?_eq_none.trans ⟨fun h i k => h i (List.mem_finRange i) ((qualifies_iff s i).2 k), fun h i _ k => ?_⟩
  exact h i ((qualifies_iff s i).1 k)

/-- Settles O8: the first slot that qualifies, or none. -/
theorem inForceSlot : Obligations.InForceSlot := fun s h =>
  ⟨s.loadStep 1, congrArg _ (load_one h), rfl, selectSlot_some s, selectSlot_none s⟩

end Sys2Proof.Machine
end

section
/-! PROOFS. The groups of the profile slot in force, each applied whole or with its defaults whole (R182). -/

namespace Sys2Proof.Machine

section
variable {s : State} {i : Fin 3}

/-! ## PORTS -/

/-- The PORTS group as a slot holds it. -/
def State.portsOf (s : State) (i : Fin 3) : PortsGroup :=
  ⟨Vector.ofFn (fun p => s.storeByte i.val (0x01 + p.val)), Vector.ofFn (fun p => s.storeByte i.val (0x05 + p.val)),
    Vector.ofFn (fun p => s.storeByte i.val (0x09 + p.val))⟩

theorem quotaSum_eq (s : State) (i : Fin 3) : ((s.portsOf i).quota.toList.map (fun q => q.toNat)).sum =
    (s.storeByte i.val 1).toNat + (s.storeByte i.val 2).toNat + (s.storeByte i.val 3).toNat +
      (s.storeByte i.val 4).toNat := by
  rw [State.portsOf, Vector.toList_ofFn]
  simp only [List.ofFn_succ, List.ofFn_zero, List.map_cons, List.map_nil, List.sum_cons, List.sum_nil]
  show (s.storeByte i.val 1).toNat + ((s.storeByte i.val 2).toNat + ((s.storeByte i.val 3).toNat +
    ((s.storeByte i.val 4).toNat + 0))) = _
  omega

theorem noThreshold_iff (s : State) (i : Fin 3) : (s.portsOf i).threshold.toList.any (fun t => t == 0) = true ↔
    ∃ p : PortId, s.storeByte i.val (0x09 + p.val) = 0 := by
  rw [State.portsOf, Vector.toList_ofFn, List.any_eq_true]
  constructor
  · rintro ⟨b, hb, zero⟩
    obtain ⟨p, rfl⟩ := List.mem_ofFn.1 hb
    exact ⟨p, beq_iff_eq.1 zero⟩
  · rintro ⟨p, zero⟩
    exact ⟨_, List.mem_ofFn.2 ⟨p, rfl⟩, beq_iff_eq.2 zero⟩

theorem readPorts_applied (h : s.portsApply i) : s.readPorts i = some (s.portsOf i) := by
  obtain ⟨marker, quotas, thresholds⟩ := h
  have enabled : s.enabled i 0x00 = true := beq_iff_eq.2 marker
  rw [State.readPorts]
  dsimp only
  rw [if_neg (by rw [enabled]; nofun)]
  refine (if_neg (not_lt.2 ?_)).trans (if_neg fun k => ?_)
  · exact (quotaSum_eq s i).trans_le quotas
  · obtain ⟨p, zero⟩ := (noThreshold_iff s i).1 k
    exact thresholds p zero

theorem readPorts_rejected (h : ¬ s.portsApply i) : s.readPorts i = none := by
  rw [State.readPorts]
  dsimp only
  by_cases enabled : s.enabled i 0x00 = false
  · exact if_pos enabled
  refine (if_neg enabled).trans ?_
  by_cases quotas : 128 < ((s.portsOf i).quota.toList.map (fun q => q.toNat)).sum
  · exact if_pos quotas
  refine (if_neg quotas).trans (if_pos ((noThreshold_iff s i).2 ?_))
  by_contra thresholds
  refine h ⟨beq_iff_eq.1 (Bool.not_eq_false _ ▸ enabled), ?_, fun p zero => thresholds ⟨p, zero⟩⟩
  exact quotaSum_eq s i ▸ not_lt.1 quotas

/-! ## LINES -/

theorem readPark_eq (b : Byte) : readPark b = ([.off, .input, .parkLow, .parkHigh] : List ParkMode)[b.toNat]? := by
  unfold readPark
  split
  · rename_i h
    rw [h]
    rfl
  split
  · rename_i h
    rw [h]
    rfl
  split
  · rename_i h
    rw [h]
    rfl
  split
  · rename_i h
    rw [h]
    rfl
  · refine (List.getElem?_eq_none ?_).symm
    show 4 ≤ b.toNat
    bv_omega

theorem readPark_isSome (b : Byte) : (readPark b).isSome = true ↔ b.toNat ≤ 3 := by
  rw [readPark_eq, Option.isSome_iff_ne_none, ne_eq, List.getElem?_eq_none_iff, not_le]
  exact Nat.lt_succ_iff

theorem readFilter_isSome (b : Byte) : (readFilter b).isSome = true ↔ b.toNat ≤ 15 := by
  unfold readFilter
  split
  · exact iff_of_true rfl (by omega)
  · exact iff_of_false nofun (by omega)

/-- The LINES group as a slot holds it. -/
def State.linesOf (s : State) (i : Fin 3) : LinesGroup :=
  ⟨(Vector.ofFn (fun n : Fin 16 => readPark (s.storeByte i.val (0x0E + n.val)))).map (fun m => m.getD .input),
    (Vector.ofFn (fun n : Fin 16 => readFilter (s.storeByte i.val (0x1E + n.val)))).map (fun f => f.getD 2)⟩

theorem all_isSome {α : Type} {k : Nat} (f : Fin k → Option α) :
    (Vector.ofFn f).toList.all Option.isSome = true ↔ ∀ n, (f n).isSome = true := by
  rw [Vector.toList_ofFn, List.all_eq_true]
  exact ⟨fun h n => h _ (List.mem_ofFn.2 ⟨n, rfl⟩), fun h x hx => by obtain ⟨n, rfl⟩ := List.mem_ofFn.1 hx; exact h n⟩

theorem linesValid_iff (s : State) (i : Fin 3) : (s.enabled i 0x0D &&
    (Vector.ofFn (fun n : Fin 16 => readPark (s.storeByte i.val (0x0E + n.val)))).toList.all Option.isSome &&
    (Vector.ofFn (fun n : Fin 16 => readFilter (s.storeByte i.val (0x1E + n.val)))).toList.all Option.isSome) = true ↔
    s.linesApply i := by
  rw [Bool.and_eq_true, Bool.and_eq_true, all_isSome, all_isSome, State.enabled, beq_iff_eq, and_assoc, ← forall_and]
  exact and_congr Iff.rfl (forall_congr' fun n => and_congr (readPark_isSome _) (readFilter_isSome _))

theorem readLines_applied (h : s.linesApply i) : s.readLines i = some (s.linesOf i) :=
  if_pos ((linesValid_iff s i).2 h)

theorem readLines_rejected (h : ¬ s.linesApply i) : s.readLines i = none :=
  if_neg fun k => h ((linesValid_iff s i).1 k)

theorem linesOf_park (h : s.linesApply i) (n : LineId) : some (s.linesOf i).park[n.val] =
    ([.off, .input, .parkLow, .parkHigh] : List ParkMode)[(s.storeByte i.val (0x0E + n.val)).toNat]? := by
  obtain ⟨park, code⟩ := Option.isSome_iff_exists.1 ((readPark_isSome _).2 (h.2 n).1)
  rw [← readPark_eq, code, State.linesOf, Vector.getElem_map, Vector.getElem_ofFn, code]
  rfl

theorem linesOf_filter (h : s.linesApply i) (n : LineId) :
    (s.linesOf i).filter[n.val].toNat = (s.storeByte i.val (0x1E + n.val)).toNat := by
  have short : (s.storeByte i.val (0x1E + n.val)).toNat < 16 := Nat.lt_succ_of_le (h.2 n).2
  rw [State.linesOf, Vector.getElem_map, Vector.getElem_ofFn, readFilter, if_pos short, Option.getD_some,
    BitVec.toNat_ofNat]
  exact Nat.mod_eq_of_lt short

/-! ## HUB -/

/-- The HUB group as a slot holds it. -/
def State.hubOf (s : State) (i : Fin 3) : HubGroup :=
  ⟨BitVec.ofNat 24 (natOfBytes (s.storeBytes i.val 0x2F 3)), s.storeByte i.val 0x32⟩

theorem readHub_applied (h : s.storeByte i.val 0x2E = 0xA5) : s.readHub i = some (s.hubOf i) :=
  if_pos (beq_iff_eq.2 h)

theorem readHub_rejected (h : s.storeByte i.val 0x2E ≠ 0xA5) : s.readHub i = none :=
  if_neg fun k => h (beq_iff_eq.1 k)

theorem hubOf_drainLimit (s : State) (i : Fin 3) : (s.hubOf i).drainLimit.toNat =
    (s.storeByte i.val 0x2F).toNat * 65536 + (s.storeByte i.val 0x30).toNat * 256 + (s.storeByte i.val 0x31).toNat := by
  show (BitVec.ofNat 24 (((0 * 256 + (s.storeByte i.val 0x2F).toNat) * 256 + (s.storeByte i.val 0x30).toNat) * 256 +
    (s.storeByte i.val 0x31).toNat)).toNat = _
  rw [BitVec.toNat_ofNat]
  have := (s.storeByte i.val 0x2F).isLt
  have := (s.storeByte i.val 0x30).isLt
  have := (s.storeByte i.val 0x31).isLt
  omega

/-! ## TIE -/

/-- The TIE group as a slot holds it. -/
def State.tieOf (s : State) (i : Fin 3) : TieGroup :=
  ⟨(s.storeByte i.val 0x34).getLsbD 0, RolePref.ofCode (s.storeByte i.val 0x35),
    (s.storeByte i.val 0x36).setWidth 3, BitVec.ofNat 16 (natOfBytes (s.storeBytes i.val 0x37 2))⟩

theorem tieValid_iff (s : State) (i : Fin 3) : (s.enabled i 0x33 && (s.storeByte i.val 0x35 == 1 ||
    s.storeByte i.val 0x35 == 2 || s.storeByte i.val 0x35 == 3)) = true ↔ s.tieApply i := by
  rw [Bool.and_eq_true, Bool.or_eq_true, Bool.or_eq_true, State.enabled, beq_iff_eq, beq_iff_eq, beq_iff_eq, beq_iff_eq]
  refine and_congr Iff.rfl ?_
  generalize s.storeByte i.val 0x35 = b
  bv_omega

theorem readTie_applied (h : s.tieApply i) : s.readTie i = some (s.tieOf i) := if_pos ((tieValid_iff s i).2 h)

theorem readTie_rejected (h : ¬ s.tieApply i) : s.readTie i = none := if_neg fun k => h ((tieValid_iff s i).1 k)

theorem tieOf_rateSet (s : State) (i : Fin 3) : ∀ k < 3,
    (s.tieOf i).rateSet.getLsbD k = (s.storeByte i.val 0x36).getLsbD k := fun k hk => by
  rw [State.tieOf, BitVec.getLsbD_setWidth, decide_eq_true hk, Bool.true_and]

theorem tieOf_exported (s : State) (i : Fin 3) : (s.tieOf i).exported.toNat =
    (s.storeByte i.val 0x37).toNat * 256 + (s.storeByte i.val 0x38).toNat := by
  show (BitVec.ofNat 16 ((0 * 256 + (s.storeByte i.val 0x37).toNat) * 256 + (s.storeByte i.val 0x38).toNat)).toNat = _
  rw [BitVec.toNat_ofNat]
  have := (s.storeByte i.val 0x37).isLt
  have := (s.storeByte i.val 0x38).isLt
  omega

end

/-! ## Step 2 of LOADING -/

section
variable (s : State)

/-- The four groups that the blocks take their values from. -/
def State.portsGroup (s : State) : PortsGroup := (s.inForce.bind s.readPorts).getD .default

def State.linesGroup (s : State) : LinesGroup := (s.inForce.bind s.readLines).getD .default

def State.hubGroup (s : State) : HubGroup := (s.inForce.bind s.readHub).getD .default

def State.tieGroup (s : State) : TieGroup := (s.inForce.bind s.readTie).getD .default

theorem loadGroups_port_eq (p : PortId) : s.loadGroups.port p = { s.port p with mask := s.portsGroup.mask[p.val] } :=
  Vector.getElem_ofFn ..

theorem loadGroups_errors (p : PortId) :
    s.loadGroups.errors p = { s.errors p with threshold := s.portsGroup.threshold[p.val] } := Vector.getElem_ofFn ..

theorem loadGroups_line (n : LineId) : s.loadGroups.line n = { s.line n with
    park := s.linesGroup.park[n.val], filterLen := s.linesGroup.filter[n.val] } := Vector.getElem_ofFn ..

end

section
variable {α : Type} {o : Option (Fin 3)} {read : Fin 3 → Option α} {i : Fin 3} {x d : α}

theorem group_applied (h : o = some i) (r : read i = some x) : (o.bind read).getD d = x := by
  rw [h, Option.bind_some, r]
  rfl

theorem group_default (h : ∀ i, o = some i → read i = none) : (o.bind read).getD d = d := by
  rw [Option.bind_eq_none_iff.2 h]
  rfl

end

theorem loadGroups_settings (s : State) : s.loadGroups.settingsLoaded := by
  have portsDefault (h : ∀ i, s.inForce = some i → ¬ s.portsApply i) : s.portsGroup = .default :=
    group_default fun i hi => readPorts_rejected (h i hi)
  have linesDefault (h : ∀ i, s.inForce = some i → ¬ s.linesApply i) : s.linesGroup = .default :=
    group_default fun i hi => readLines_rejected (h i hi)
  have hubDefault (h : ∀ i, s.inForce = some i → s.storeByte i.val 0x2E ≠ 0xA5) : s.hubGroup = .default :=
    group_default fun i hi => readHub_rejected (h i hi)
  have tieDefault (h : ∀ i, s.inForce = some i → ¬ s.tieApply i) : s.tieGroup = .default :=
    group_default fun i hi => readTie_rejected (h i hi)
  refine ⟨fun i hi => ⟨fun h p => ?_, fun h n => ?_, fun h => ?_, fun h => ?_⟩, fun h p => ?_, fun h n => ?_, fun h => ?_,
    fun h => ?_⟩
  · have group : s.portsGroup = s.portsOf i := group_applied hi (readPorts_applied h)
    rw [loadGroups_errors]
    show s.portsGroup.quota[p.val] = _ ∧ s.portsGroup.mask[p.val] = _ ∧ s.portsGroup.threshold[p.val] = _
    rw [group]
    exact ⟨Vector.getElem_ofFn .., Vector.getElem_ofFn .., Vector.getElem_ofFn ..⟩
  · have group : s.linesGroup = s.linesOf i := group_applied hi (readLines_applied h)
    rw [loadGroups_line]
    show some s.linesGroup.park[n.val] = _ ∧ s.linesGroup.filter[n.val].toNat = _
    rw [group]
    exact ⟨linesOf_park h n, linesOf_filter h n⟩
  · have group : s.hubGroup = s.hubOf i := group_applied hi (readHub_applied h)
    show s.hubGroup.drainLimit.toNat = _ ∧ s.hubGroup.unit = _
    rw [group]
    exact ⟨hubOf_drainLimit s i, rfl⟩
  · have group : s.tieGroup = s.tieOf i := group_applied hi (readTie_applied h)
    show s.tieGroup.enable = _ ∧ s.tieGroup.rolePref = _ ∧ (∀ k < 3, s.tieGroup.rateSet.getLsbD k = _) ∧
      s.tieGroup.exported.toNat = _
    rw [group]
    exact ⟨rfl, rfl, tieOf_rateSet s i, tieOf_exported s i⟩
  · rw [loadGroups_errors]
    show s.portsGroup.quota[p.val] = _ ∧ s.portsGroup.mask[p.val] = _ ∧ s.portsGroup.threshold[p.val] = _
    rw [portsDefault h]
    exact ⟨Vector.getElem_replicate .., Vector.getElem_replicate .., Vector.getElem_replicate ..⟩
  · rw [loadGroups_line]
    show s.linesGroup.park[n.val] = _ ∧ s.linesGroup.filter[n.val] = _
    rw [linesDefault h]
    exact ⟨Vector.getElem_replicate .., Vector.getElem_replicate ..⟩
  · show s.hubGroup.drainLimit = _ ∧ s.hubGroup.unit = _
    rw [hubDefault h]
    exact ⟨rfl, rfl⟩
  · show s.tieGroup.enable = _
    rw [tieDefault h]
    rfl

theorem load_two {s : State} (h : s.phase = .loading 1) : s.load 2 = s.loadStep 2 := by
  rw [State.load, h]
  rfl

/-- Settles O9: the step changes only the settings, and each group is applied whole or has its defaults whole. -/
theorem groupsAllOrDefault : Obligations.GroupsAllOrDefault := by
  intro s h
  refine ⟨s.loadStep 2, congrArg _ (load_two h), rfl, rfl, fun p => ⟨?_, ?_, ?_⟩, fun n => ⟨?_, ?_⟩, rfl, rfl,
    loadGroups_settings s⟩
  · exact congrArg (fun q : Port => { q with mask := (s.port p).mask }) (loadGroups_port_eq s p)
  · exact congrArg Port.mask (loadGroups_port_eq s p)
  · exact congrArg (fun c : ErrorCounters => { c with threshold := (s.errors p).threshold }) (loadGroups_errors s p)
  · exact congrArg (fun l : LineRec => { l with park := (s.line n).park, filterLen := (s.line n).filterLen })
      (loadGroups_line s n)
  · exact congrArg LineRec.filterLen (loadGroups_line s n)

end Sys2Proof.Machine
end

section
/-! PROOFS. SOFT_RESET part by part (R14, R111, R118, R122, R179). -/

namespace Sys2Proof.Machine

theorem filterFollows_congr {a b : State} {n : LineId} {x : LineRec} {f : Filter} (u : a.unlined = b.unlined)
    (e : a.lineAndFilter n = b.lineAndFilter n) (h : FilterFollows a n x f) : FilterFollows b n x f := by
  have line : a.line n = b.line n := congrArg Prod.fst e
  have filter : a.filter n = b.filter n := congrArg Prod.snd e
  obtain ⟨off, same, sampled, restarted⟩ := h
  rw [line, filter] at same
  rw [line, filter] at sampled
  rw [line, unlined_held u, unlined_level u, unlined_maint u] at restarted
  exact ⟨off, same, sampled, restarted⟩

/-! ## The lines (R14) -/

/-- A line after a soft reset: in its park mode, with its loaded filter length. -/
def State.softRec (s : State) (n : LineId) : LineRec :=
  ⟨(s.line n).park.mode, .low, none, (s.line n).park, s.loaded.filter[n.val], none⟩

theorem softLine_away (u : State) (n m : LineId) (h : n ≠ m) : (u.softLine n).lineAndFilter m = u.lineAndFilter m :=
  changeLine_away u n m _ h

theorem softLines_each (s : State) (n : LineId) :
    s.softLines.line n = s.softRec n ∧ FilterFollows s n (s.softRec n) (s.softLines.filter n) := by
  refine foldl_each_line (f := State.softLine) (s := s) (P := fun n y => y.1 = s.softRec n ∧
    FilterFollows s n (s.softRec n) y.2) (fun u n => changeLine_unlined ..) softLine_away (fun u n un e => ?_) allLines
    (List.nodup_finRange 16) n (List.mem_finRange n)
  have line : u.line n = s.line n := congrArg Prod.fst e
  have record : u.softRec n = s.softRec n := by
    rw [State.softRec, State.softRec, line, unlined_loaded un]
  have soft : u.softLine n = u.changeLine n (u.softRec n) := rfl
  rw [← record, soft]
  exact ⟨(changeLine_line ..).trans (if_pos rfl), filterFollows_congr un e (changeLine_follows u n (u.softRec n))⟩

theorem softLines_same (s : State) :
    { s.softLines with lines := s.lines, filters := s.filters, free := s.free } = s :=
  foldl_same (f := State.softLine) (fun _ _ => changeLine_same ..) allLines s

/-! ## The whole reset -/

/-- Parts 5 and 6 of a soft reset. -/
def State.softRest (u : State) : State :=
  { u.clearSubs with ports := u.ports.map Port.softReset }

section
variable (s : State)

theorem softReset_eq : s.softReset = s.sweep.softLines.softRest := by
  rw [State.softReset]
  generalize s.sweep.softLines = u
  rfl

theorem softReset_same : { s.softReset with
    maint := s.maint, pool := s.pool, postOrder := s.postOrder, claims := s.claims, lines := s.lines,
    filters := s.filters, subs := s.subs, ports := s.ports, free := s.free } = s := by
  have lines := softLines_same s.sweep
  rw [softReset_eq]
  generalize s.sweep.softLines = u at lines ⊢
  exact congrArg (fun x : State => { x with
    maint := s.maint, pool := s.pool, postOrder := s.postOrder, claims := s.claims, subs := s.subs, ports := s.ports })
    lines

theorem softReset_line (n : LineId) : s.softReset.line n = s.softRec n := by
  have line := (softLines_each s.sweep n).1
  rw [softReset_eq]
  generalize s.sweep.softLines = u at line ⊢
  exact line

theorem softReset_filter (n : LineId) : FilterFollows s.sweep n (s.softRec n) (s.softReset.filter n) := by
  have follows := (softLines_each s.sweep n).2
  rw [softReset_eq]
  generalize s.sweep.softLines = u at follows ⊢
  exact follows

theorem softReset_drive (n : LineId) : s.softReset.drive n = (s.softRec n).driven s.sweep.maint.check n := by
  rw [drive_eq, softReset_line, softReset_maint]

theorem softReset_postOrder : s.softReset.postOrder = 0 := by
  have lines := softLines_same s.sweep
  rw [softReset_eq]
  generalize s.sweep.softLines = u at lines ⊢
  exact congrArg State.postOrder lines

theorem softReset_cell (q : PortId) (l : AnyLine) : s.softReset.cell q l = .none := by
  rw [softReset_eq]
  generalize s.sweep.softLines = u
  have row : u.softRest.subs[q.val] = Vector.replicate 32 .none := Vector.getElem_replicate ..
  rw [State.cell, row]
  exact Vector.getElem_replicate ..

theorem softReset_port (q : PortId) : s.softReset.port q = { s.port q with
    queue := [.reset .soft], lost := 0, frame := (s.port q).frame.emptied } := by
  have ports : s.sweep.softLines.port q = s.port q := unlined_port (softLines_unlined s.sweep) q
  rw [softReset_eq]
  generalize s.sweep.softLines = u at ports ⊢
  have soft : u.softRest.port q = (u.port q).softReset := Vector.getElem_map ..
  rw [soft, ports]
  exact enqueue_other rfl (Nat.zero_lt_succ 39)

theorem abandon_eq (c : Check) : c.abandon = match c with
    | .running c => .finished ⟨.aborted, c.passed, c.completed, c.failure⟩
    | other => other := by
  cases c <;> rfl

theorem emptied_other {f : Frame} (h : ∀ sent k, f ≠ .response sent k) : f.emptied = f := by
  cases f with
  | response sent k => exact absurd rfl (h sent k)
  | idle => rfl
  | code b => rfl
  | parameters c got => rfl
  | ignore => rfl

end

section
variable {s : State} {p : PortId}

theorem softResetBody_notHolder (h : (s.claim resMX).holder ≠ some p) :
    softResetBody p s = (s, reply .notHolder) := if_pos ((holds_false_iff ..).2 h)

theorem softResetBody_resets (h : (s.claim resMX).holder = some p) : softResetBody p s = (s.softReset, reply .ok) := by
  rw [softResetBody, (holds_iff ..).2 h]
  rfl

end

/-- Settles O47: SOFT_RESET by the holder of MX, and then part by part. -/
theorem softReset : Obligations.SoftReset := by
  intro p s hs
  refine ⟨fun h => congrArg _ (take_answers hs (softResetBody_notHolder h)), fun h => ?_⟩
  have answer : exec (.softReset p) s = .next (s.softReset.answered p [0x01]) :=
    congrArg Host.Outcome.next (take_answers hs (softResetBody_resets h))
  have same := softReset_same s
  have maint := softReset_maint s
  have pool := softReset_pool s
  have claims := softReset_claims s
  have line := softReset_line s
  have filter := softReset_filter s
  have drive := softReset_drive s
  have cell := softReset_cell s
  have port := softReset_port s
  have order : s.softReset.postOrder = 0 := softReset_postOrder s
  generalize s.softReset = t at *
  have phase : t.phase = s.phase := congrArg (·.phase) same
  refine ⟨t, answer, same, congrArg Maint.mode maint, congrArg Maint.drainDeadline maint, congrArg (·.drainLimit) maint,
    (congrArg Maint.check maint).trans (abandon_eq _), fun i => ?_, order, fun r => ?_, line, fun n => ?_, cell,
    fun q => ?_⟩
  · rw [State.slot, pool]
    exact Vector.getElem_replicate ..
  · rw [State.claim, claims]
    exact Vector.getElem_replicate ..
  · obtain ⟨off, same, sampled, restarted⟩ := filter n
    refine ⟨fun park => off (parkMode_off.2 park), fun park on length => ?_, sampled, fun park changed => ?_⟩
    · exact same (fun k => park (parkMode_off.1 k)) on length.symm
    · rw [drive]
      exact restarted (fun k => park (parkMode_off.1 k)) (changed.imp_right Ne.symm)
  · rw [port q]
    refine ⟨rfl, rfl, rfl, rfl, rfl, rfl, rfl, emptied_other, fun sent k h => ?_⟩
    have emptied : (s.port q).frame.emptied = .response sent 0 := congrArg Frame.emptied h
    have frame : (t.port q).frame = .response sent 0 := (congrArg Port.frame (port q)).trans emptied
    refine ⟨emptied, fun j hj => dataOut_after (by rw [phase, hs.1]; nofun) frame ?_⟩
    rw [Nat.zero_min, Nat.mul_zero, Nat.add_zero]
    exact hj

end Sys2Proof.Machine
end

section
/-! PROOFS. LOADING as a whole, from a hub at its pin-reset values to READY (R53, R143, R167, R181 to R183). -/

namespace Sys2Proof.Machine

theorem load_seven {s : State} (h : s.phase = .pinReset) : s.load 7 =
    ((((((s.loadStep 1).loadStep 2).loadStep 3).loadStep 4).loadStep 5).loadStep 6).loadStep 7 := by
  rw [State.load, h]
  rfl

/-! ## Step 3: every line leaves OFF -/

theorem leaveOff_each (s : State) (n : LineId) :
    s.leaveOff.line n = { s.line n with mode := (s.line n).park.mode } ∧
      FilterFollows s n { s.line n with mode := (s.line n).park.mode } (s.leaveOff.filter n) := by
  refine foldl_each_line (s := s) (f := fun u n => u.changeLine n { u.line n with mode := (u.line n).park.mode })
    (P := fun n y => y.1 = { s.line n with mode := (s.line n).park.mode } ∧
      FilterFollows s n { s.line n with mode := (s.line n).park.mode } y.2) (fun u n => changeLine_unlined ..)
    (fun u n m => changeLine_away u n m _) (fun u n un e => ?_) allLines (List.nodup_finRange 16) n (List.mem_finRange n)
  rw [← show u.line n = s.line n from congrArg Prod.fst e]
  exact ⟨(changeLine_line ..).trans (if_pos rfl), filterFollows_congr un e (changeLine_follows u n _)⟩

theorem leaveOff_same (s : State) :
    { s.leaveOff with lines := s.lines, filters := s.filters, free := s.free } = s :=
  foldl_same (f := fun u n => u.changeLine n { u.line n with mode := (u.line n).park.mode })
    (fun _ _ => changeLine_same ..) allLines s

/-- The filter of a line that leaves OFF for its park mode. -/
theorem follows_park {s : State} {n : LineId} {f : Filter} (off : (s.line n).mode = .off)
    (override : (s.line n).override = none) (h : FilterFollows s n { s.line n with mode := (s.line n).park.mode } f) :
    f.run = none ∧ ((s.line n).park = .off → f.filtered = .low) ∧
    ((s.line n).park ≠ .off → s.held.getLsbD n.val = true → f.filtered = Level.ofBit (s.level.getLsbD n.val)) ∧
    ((s.line n).park = .parkLow → s.held.getLsbD n.val = false → f.filtered = .low) ∧
    ((s.line n).park = .parkHigh → s.held.getLsbD n.val = false → f.filtered = .high) := by
  have on (k : (s.line n).park ≠ .off) := h.restarted (fun m => k (parkMode_off.1 m)) (.inl off)
  refine ⟨?_, fun k => (h.off (parkMode_off.2 k)).1, fun k held => (on k).2.1 held, fun k free => ?_, fun k free => ?_⟩
  · by_cases k : (s.line n).park = .off
    · exact (h.off (parkMode_off.2 k)).2
    · exact (on k).1
  · refine (on (by rw [k]; nofun)).2.2 _ free ?_
    rw [LineRec.driven, k, override]
    rfl
  · refine (on (by rw [k]; nofun)).2.2 _ free ?_
    rw [LineRec.driven, k, override]
    rfl

/-! ## Steps 4 to 7 -/

/-- The link after step 5. -/
def State.linkStarted (s : State) : Link :=
  if s.loaded.tieEnable then s.link.probe s.elapsed else s.link.quiet .off

theorem startLink_eq (s : State) : s.startLink = { s with link := s.linkStarted } := by
  unfold State.startLink State.linkStarted
  split <;> rfl

/-- The hub when steps 4 to 7 are done. -/
def State.madeReady (u : State) : State := { u with
  phase := .ready
  tb := ⟨0, .running, 0, .localTime, none⟩
  link := u.linkStarted
  ports := u.ports.map (fun q => q.enqueue (.reset .power))
  integ := { u.integ with scrubDue := some (u.elapsed + 64) } }

theorem madeReady_phase (u : State) (x : Phase) : ({ u with phase := x } : State).madeReady = u.madeReady := rfl

theorem loadSteps_ready (u : State) : (((u.loadStep 4).loadStep 5).loadStep 6).loadStep 7 = u.madeReady := by
  have started : (u.loadStep 4).loadStep 5 = { u with
      phase := .loading 5, tb := ⟨0, .running, 0, .localTime, none⟩, link := u.linkStarted } :=
    congrArg (fun x : State => { x with phase := .loading 5 }) (startLink_eq (u.loadStep 4))
  rw [started]
  rfl

/-! ## The settings after the later steps -/

theorem settingsLoaded_congr {a b : State} (h : a.settingsLoaded) (inForce : b.inForce = a.inForce)
    (store : b.store = a.store) (loaded : b.loaded = a.loaded)
    (threshold : ∀ p, (b.errors p).threshold = (a.errors p).threshold)
    (park : ∀ n, (b.line n).park = (a.line n).park) (limit : b.maint.drainLimit = a.maint.drainLimit) :
    b.settingsLoaded := by
  have byte (j k : Nat) : b.storeByte j k = a.storeByte j k := congrArg (Memory.read · (storeAddr j k)) store
  unfold State.settingsLoaded State.portsApply State.linesApply State.tieApply at h ⊢
  simp only [inForce, loaded, threshold, park, limit, byte]
  exact h

/-! ## From the pin-reset values -/

/-- A hub at its pin-reset values, with whatever waits and whatever its pins and its store are. -/
def State.atReset (queue : List Instr) (clock free : Nat) (selected : Vector Bool 4) (held level : LineSet)
    (store : Memory) : State := { State.reset with
  pending := queue, elapsed := clock, free := free, held := held, level := level, store := store
  ports := selected.map (fun b => ⟨[], 0, 0, false, false, 0xFF, .idle, b⟩) }

/-- The hub when its settings are loaded and its lines are still in OFF. -/
def State.settled (s : State) : State := (s.loadStep 1).loadStep 2

section
variable (queue : List Instr) (clock free : Nat) (selected : Vector Bool 4) (held level : LineSet) (store : Memory)

theorem settled_line (n : LineId) :
    let u := (State.atReset queue clock free selected held level store).settled
    u.line n = ⟨.off, .low, none, (u.line n).park, u.loaded.filter[n.val], none⟩ := by
  let s := (State.atReset queue clock free selected held level store).loadStep 1
  have line : s.loadGroups.line n = _ := loadGroups_line s n
  rw [show s.line n = LineRec.pinReset from reset_line n] at line
  show s.loadGroups.line n = ⟨.off, .low, none, (s.loadGroups.line n).park, s.loadGroups.loaded.filter[n.val], none⟩
  rw [line]
  rfl

theorem settled_port (p : PortId) :
    let u := (State.atReset queue clock free selected held level store).settled
    u.port p = ⟨[], 0, 0, false, false, u.loaded.mask[p.val], .idle, selected[p.val]⟩ := by
  let s := (State.atReset queue clock free selected held level store).loadStep 1
  have port : s.port p = ⟨[], 0, 0, false, false, 0xFF, .idle, selected[p.val]⟩ := Vector.getElem_map ..
  refine (loadGroups_port_eq s p).trans ?_
  rw [port]
  rfl

theorem settled_errors (p : PortId) :
    let u := (State.atReset queue clock free selected held level store).settled
    (u.errors p).corrected = 0 ∧ (u.errors p).uncorrectable = 0 ∧ (u.errors p).mark = false := by
  let s := (State.atReset queue clock free selected held level store).loadStep 1
  have errors : s.loadGroups.errors p = _ := loadGroups_errors s p
  rw [show s.errors p = ErrorCounters.pinReset from reset_errors p] at errors
  show (s.loadGroups.errors p).corrected = 0 ∧ (s.loadGroups.errors p).uncorrectable = 0 ∧
    (s.loadGroups.errors p).mark = false
  rw [errors]
  exact ⟨rfl, rfl, rfl⟩

end

section
variable {u v : State} (same : { v with lines := u.lines, filters := u.filters, free := u.free } = u)
include same

/-- The link after step 5, by the enable of the TIE group. -/
theorem ready_link :
    (u.loaded.tieEnable = true → v.madeReady.link.state = .probing ∧ v.madeReady.link.ack = false ∧
      v.madeReady.link.rate = some .r5 ∧ v.madeReady.link.nextSlot = some u.elapsed) ∧
    (u.loaded.tieEnable = false → v.madeReady.link.state = .off ∧ v.madeReady.link.rate = none ∧
      v.madeReady.link.nextSlot = none) := by
  have loaded : v.loaded = u.loaded := congrArg (·.loaded) same
  have elapsed : v.elapsed = u.elapsed := congrArg (·.elapsed) same
  show (_ → v.linkStarted.state = .probing ∧ v.linkStarted.ack = false ∧ v.linkStarted.rate = some .r5 ∧
    v.linkStarted.nextSlot = some u.elapsed) ∧
    (_ → v.linkStarted.state = .off ∧ v.linkStarted.rate = none ∧ v.linkStarted.nextSlot = none)
  rw [State.linkStarted, loaded, elapsed]
  refine ⟨fun h => ?_, fun h => ?_⟩
  · rw [if_pos h]
    exact ⟨rfl, rfl, rfl, rfl⟩
  · rw [if_neg (by rw [h]; nofun)]
    exact ⟨rfl, rfl, rfl⟩

theorem ready_port {p : PortId} {b : Bool}
    (h : u.port p = ⟨[], 0, 0, false, false, u.loaded.mask[p.val], .idle, b⟩) :
    v.madeReady.port p = ⟨[.reset .power], 0, 0, false, false, u.loaded.mask[p.val], .idle, b⟩ := by
  have port : v.port p = u.port p := congrArg (·.port p) same
  have ready : v.madeReady.port p = (v.port p).enqueue (.reset .power) := Vector.getElem_map ..
  rw [ready, port, h]
  exact enqueue_other rfl (Nat.zero_lt_succ 39)

end

theorem port_afterReset {q : Port} {m : Byte} {b : Bool}
    (h : q = ⟨[.reset .power], 0, 0, false, false, m, .idle, b⟩) :
    q.queue = [.reset .power] ∧ q.lost = 0 ∧ q.overrun = 0 ∧ q.overrunLatch = false ∧ q.frameLatch = false ∧
      q.selected = b ∧ q.mask = m ∧ q.attn = m.getLsbD 7 := by
  subst h
  exact ⟨rfl, rfl, rfl, rfl, rfl, rfl, rfl, Bool.or_false _⟩

/-- Settles O7: the seven steps one after another, each field traced to the step that writes it. -/
theorem loadingWholeRow : Obligations.LoadingWholeRow := by
  intro queue clock free selected held level store s
  have run : exec (.loading 7) s = .next s.settled.leaveOff.madeReady :=
    congrArg Host.Outcome.next <| (load_seven rfl).trans <| (loadSteps_ready (s.settled.loadStep 3)).trans <|
      madeReady_phase s.settled.leaveOff _
  have settings : s.settled.settingsLoaded := loadGroups_settings (s.loadStep 1)
  have line := settled_line queue clock free selected held level store
  have port := settled_port queue clock free selected held level store
  have errors := settled_errors queue clock free selected held level store
  have inForce (i : Fin 3) : s.settled.inForce = some i ↔ _ := selectSlot_some s i
  have leave := leaveOff_each s.settled
  have same := leaveOff_same s.settled
  have pins : s.settled.held = held ∧ s.settled.level = level := ⟨rfl, rfl⟩
  have kept : s.settled.pending = queue ∧ s.settled.elapsed = clock ∧ s.settled.store = store ∧
    s.settled.storeBusy = none := ⟨rfl, rfl, rfl, rfl⟩
  have claim (r : ResourceId) : s.settled.claim r = ClaimRec.free := Vector.getElem_replicate ..
  have slot (i : SlotId) : s.settled.slot i = Slot.free := Vector.getElem_replicate ..
  have cell (p : PortId) (l : Fin 32) : s.settled.cell p l = .none := reset_cell p l
  have maint : s.settled.maint.mode = .run ∧ s.settled.maint.check = .idle := ⟨rfl, rfl⟩
  have integ : s.settled.integ.scrubPos = 0 ∧ s.settled.integ.firstError = none := ⟨rfl, rfl⟩
  rw [show State.atReset queue clock free selected held level store = s from rfl] at line port errors
  generalize s.settled = u at *
  generalize u.leaveOff = v at *
  have maint' : v.maint = u.maint := congrArg (·.maint) same
  have errors' (p : PortId) : v.errors p = u.errors p := congrArg (·.errors p) same
  rw [← maint'] at maint
  rw [← show v.integ = u.integ from congrArg (·.integ) same] at integ
  obtain ⟨pending, elapsed, storeKept, storeFree⟩ := kept
  obtain ⟨heldKept, levelKept⟩ := pins
  have elapsed' : v.elapsed = clock := (congrArg (·.elapsed) same).trans elapsed
  have loaded : v.loaded = u.loaded := congrArg (·.loaded) same
  have link := ready_link same
  rw [elapsed] at link
  refine ⟨v.madeReady, run, rfl, ?_, elapsed', ?_, ?_, fun i => ?_, ?_, rfl, fun n => ?_, fun n => ?_, ?_, ?_,
    fun p => ?_, fun r => ?_, fun i => ?_, fun p l => ?_, maint.1, maint.2, integ.1, ?_, integ.2, fun p => ?_⟩
  · exact (congrArg (·.pending) same).trans pending
  · exact (congrArg (·.store) same).trans storeKept
  · exact (congrArg (·.storeBusy) same).trans storeFree
  · rw [← inForce i]
    exact Eq.to_iff (congrArg (· = some i) (congrArg (·.inForce) same))
  · refine settingsLoaded_congr settings (congrArg (·.inForce) same) (congrArg (·.store) same) loaded ?_ (fun n => ?_) ?_
    · exact fun p => congrArg (·.threshold) (errors' p)
    · exact congrArg (·.park) (leave n).1
    · exact congrArg (·.drainLimit) maint'
  · show (v.line n).mode = (v.line n).park.mode ∧ (v.line n).scheduled = .low ∧ (v.line n).override = none ∧
      (v.line n).saved = none ∧ (v.line n).filterLen = v.loaded.filter[n.val]
    rw [(leave n).1, loaded, line n]
    exact ⟨rfl, rfl, rfl, rfl, rfl⟩
  · show (v.filter n).run = none ∧ ((v.line n).park = .off → (v.filter n).filtered = .low) ∧
      ((v.line n).park ≠ .off → held.getLsbD n.val = true →
        (v.filter n).filtered = Level.ofBit (level.getLsbD n.val)) ∧
      ((v.line n).park = .parkLow → held.getLsbD n.val = false → (v.filter n).filtered = .low) ∧
      ((v.line n).park = .parkHigh → held.getLsbD n.val = false → (v.filter n).filtered = .high)
    rw [show (v.line n).park = (u.line n).park from congrArg (·.park) (leave n).1, ← heldKept, ← levelKept]
    exact follows_park (congrArg (·.mode) (line n)) (congrArg (·.override) (line n)) (leave n).2
  · exact fun h => link.1 (loaded ▸ h)
  · exact fun h => link.2 (loaded ▸ h)
  · refine port_afterReset ((ready_port same (port p)).trans ?_)
    rw [← loaded]
    rfl
  · exact (congrArg (·.claim r) same).trans (claim r)
  · exact (congrArg (·.slot i) same).trans (slot i)
  · exact (congrArg (·.cell p l) same).trans (cell p l)
  · exact congrArg (fun x => some (x + 64)) elapsed'
  · show (v.errors p).corrected = 0 ∧ (v.errors p).uncorrectable = 0 ∧ (v.errors p).mark = false
    rw [errors' p]
    exact errors p

end Sys2Proof.Machine
end

section
/-! PROOFS. The end of a claim on the timebase or on the maintenance resource, by RELEASE and by lease expiry
(R20, R23, R27, R31, R32). -/

namespace Sys2Proof.Machine

/-! ## Clearing away -/

/-- What the end of a claim on the timebase or on the maintenance resource clears away before the resource passes on. -/
def State.clearedElsewhere (s : State) (r : ResourceId) (u : State) : Prop :=
  (r = resTB ∨ r = resMX ∧ s.maint.mode = .run ∧ s.maint.check.isRunning = false) ∧ u = s ∨
  r = resMX ∧ s.maint.mode ≠ .run ∧ s.maint.check.isRunning = false ∧ s.returned .mxLost u ∨
  r = resMX ∧ s.maint.mode = .run ∧ ∃ c, s.maint.check = .running c ∧
    s.checkEnded c.requester ⟨.aborted, c.passed, c.completed, c.failure⟩ u

theorem abortCheck_running {s : State} {c : Progress} (h : s.maint.check = .running c) (notify : Bool) :
    s.abortCheck notify = s.endCheck c.requester ⟨.aborted, c.passed, c.completed, c.failure⟩ notify := by
  rw [State.abortCheck, h]

theorem abortCheck_still {s : State} (h : s.maint.check.isRunning = false) (notify : Bool) : s.abortCheck notify = s := by
  unfold State.abortCheck
  split
  · rename_i e
    rw [e] at h
    cases h
  · rfl
  · rfl

theorem returnToRun_check (s : State) (reason : ExitReason) : (s.returnToRun reason).maint.check = s.maint.check := by
  obtain ⟨-, maint, -⟩ := returnToRun_returned s reason
  exact congrArg (·.check) maint

theorem clearMX_inMode {s : State} {c : EndCause} (m : s.maint.mode ≠ .run) (still : s.maint.check.isRunning = false) :
    s.clearMX c = s.returnToRun .mxLost := by
  rw [State.clearMX, if_neg m]
  exact abortCheck_still (by rw [returnToRun_check, still]) _

theorem clearMX_inRun {s : State} {c : EndCause} (m : s.maint.mode = .run) :
    s.clearMX c = s.abortCheck (c != .portReset) := by
  rw [State.clearMX, if_pos m]

/-- The clearing away of a claim on a resource other than a line, without the record of a revocation. -/
def State.clearOther (s : State) (r : ResourceId) (c : EndCause) : State := if r = resMX then s.clearMX c else s

theorem clearFor_other {s : State} {r : ResourceId} (h : r = resTB ∨ r = resMX) (p : PortId) (c : EndCause) :
    s.clearFor r p c = if c = .revoked then (s.clearOther r c).offer p (.claim r .revoked) else s.clearOther r c := by
  have beyond : ¬ r.val < 16 := by
    rcases h with rfl | rfl <;> decide
  unfold State.clearFor
  rw [dif_neg beyond]
  rfl

theorem clearOther_cleared {s : State} {r : ResourceId} {c : EndCause} (h : r = resTB ∨ r = resMX ∧ s.modeLawful)
    (told : (c != .portReset) = true) : s.clearedElsewhere r (s.clearOther r c) := by
  rcases h with rfl | ⟨rfl, lawful⟩
  · exact .inl ⟨.inl rfl, rfl⟩
  · rw [State.clearOther, if_pos rfl]
    by_cases m : s.maint.mode = .run
    · rw [clearMX_inRun m, told]
      cases k : s.maint.check.isRunning with
      | false => exact .inl ⟨.inr ⟨rfl, m, k⟩, abortCheck_still k true⟩
      | true =>
        obtain ⟨p, e⟩ := (isRunning_iff _).1 k
        rw [abortCheck_running e]
        exact .inr (.inr ⟨rfl, m, p, e, endCheck_checkEnded ..⟩)
    · obtain ⟨-, still⟩ := lawful m
      rw [clearMX_inMode m still]
      exact .inr (.inl ⟨rfl, m, still, returnToRun_returned ..⟩)

/-- The end of a claim: what is cleared away, then the record that passes on and the new holder greeted. -/
theorem endClaim_passes {s : State} {r : ResourceId} {p : PortId} (h : (s.claim r).holder = some p) (c : EndCause) :
    s.endClaim r c = ((s.clearFor r p c).setClaim r ((s.claim r).next s.elapsed)).greet r (s.claim r).waiters := by
  have k := clearFor_cleared s r p c
  rw [endClaim_held h, passOn_greet, k.claim, k.elapsed]

theorem endClaim_released {s : State} {r : ResourceId} {p : PortId} (h : (s.claim r).holder = some p)
    (e : r = resTB ∨ r = resMX) : s.endClaim r .released =
      ((s.clearOther r .released).setClaim r ((s.claim r).next s.elapsed)).greet r (s.claim r).waiters := by
  rw [endClaim_passes h, clearFor_other e, if_neg nofun]

theorem endClaim_revoked {s : State} {r : ResourceId} {p : PortId} (h : (s.claim r).holder = some p)
    (e : r = resTB ∨ r = resMX) : s.endClaim r .revoked =
      (((s.clearOther r .revoked).offer p (.claim r .revoked)).setClaim r ((s.claim r).next s.elapsed)).greet r
        (s.claim r).waiters := by
  rw [endClaim_passes h, clearFor_other e, if_pos rfl]

/-! ## RELEASE and the expiry of a lease -/

section
variable {p : PortId} {resource : Byte} {s : State}

theorem releaseBody_outOfRange (h : 17 < resource.toNat) : releaseBody p resource s = (s, reply .badParam) := by
  simp only [releaseBody, readResource_none h]

variable {r : ResourceId} (hr : r.val = resource.toNat)
include hr

theorem releaseBody_holder (h : (s.claim r).holder = some p) :
    releaseBody p resource s = (s.endClaim r .released, reply .ok) := by
  simp only [releaseBody, readResource_some hr, if_pos h]

theorem releaseBody_waiter (h : (s.claim r).holder ≠ some p) (w : ∃ w ∈ (s.claim r).waiters, w.port = p) :
    releaseBody p resource s =
      (s.setClaim r { s.claim r with waiters := (s.claim r).waiters.filter (fun w => w.port != p) }, reply .ok) := by
  have waits : (s.claim r).waiters.any (fun w => w.port == p) = true := by simpa using w
  simp only [releaseBody, readResource_some hr, if_neg h, if_pos waits]

theorem releaseBody_notHolder (h : (s.claim r).holder ≠ some p) (w : ∀ w ∈ (s.claim r).waiters, w.port ≠ p) :
    releaseBody p resource s = (s, reply .notHolder) := by
  have no : ¬ (s.claim r).waiters.any (fun w => w.port == p) = true := by simpa using w
  simp only [releaseBody, readResource_some hr, if_neg h, if_neg no]

end

theorem expireLease_early {s : State} {r : ResourceId} (h : ∀ e, (s.claim r).expiry = some e → s.elapsed < e) :
    s.expireLease r = s := by
  refine if_neg fun k => ?_
  obtain ⟨e, le, expiry⟩ := reached_iff.1 k
  exact absurd (h e expiry) (Nat.not_lt.2 le)

theorem expireLease_due {s : State} {r : ResourceId} {e : Nat} (h : (s.claim r).expiry = some e) (le : e ≤ s.elapsed) :
    s.expireLease r = s.endClaim r .revoked := if_pos (reached_iff.2 ⟨e, le, h⟩)

/-- Settles O15: the cases of the two, and for the claim's end what it clears away and the record it passes on. -/
theorem claimEndsElsewhere : Obligations.ClaimEndsElsewhere := by
  refine ⟨fun p resource s hs => ⟨fun out => ?_, fun r hr => ⟨fun no none_ => ?_, fun no waits => ?_, fun own e => ?_⟩⟩,
    fun r s => ⟨fun early => ?_, fun e p expiry le own res => ?_⟩⟩
  · exact congrArg Host.Outcome.next (take_answers hs (releaseBody_outOfRange out))
  · exact congrArg Host.Outcome.next (take_answers hs (releaseBody_notHolder hr no none_))
  · exact congrArg Host.Outcome.next (take_answers hs (releaseBody_waiter hr no waits))
  · refine ⟨s.clearOther r .released, clearOther_cleared e rfl, ?_⟩
    have ends := endClaim_released own (e.imp_right And.left)
    exact congrArg Host.Outcome.next (take_answers hs ((releaseBody_holder hr own).trans (by rw [ends])))
  · exact congrArg Host.Outcome.next (expireLease_early early)
  · refine ⟨s.clearOther r .revoked, clearOther_cleared res rfl, congrArg Host.Outcome.next ?_⟩
    rw [expireLease_due expiry le, endClaim_revoked own (res.imp_right And.left)]

end Sys2Proof.Machine
end

section
/-! PROOFS. The end of a claim on a line, by RELEASE and by lease expiry (R20, R23, R27 to R30). -/

namespace Sys2Proof.Machine

/-! ## The line as its claim leaves it, before anyone is told of an aborted check -/

section
variable (s : State) (p : PortId) (n : LineId) (o : EntryOutcome)

/-- The property of the entries that the end of the claim withdraws. -/
def Header.ownedOn (p : PortId) (n : LineId) (h : Header) : Prop := h.owner = p ∧ h.line = n

/-- Does a running check of the state test the line? -/
def State.testedBy (s : State) (n : LineId) (c : Progress) : Prop :=
  s.maint.check = .running c ∧ c.tested.getLsbD n.val = true

/-- What an aborted check has found. -/
def Progress.cutShort (c : Progress) : CheckResult := ⟨.aborted, c.passed, c.completed, c.failure⟩

/-- The hub when the entries of a port on a line are withdrawn. -/
def State.withdrawnOn : State := s.withdrawAll (s.entriesOn p n) o

/-- The hub when the line is parked too and a check that tests it aborted. -/
def State.lineVacated : State :=
  let t := (s.withdrawnOn p n o).park n
  if t.testing n then t.abortCheck false else t

theorem entriesOn_occupied : ∀ i ∈ s.entriesOn p n, ∃ h, s.entry i = some h := fun i hi => by
  obtain ⟨h, e, -⟩ := (mem_entriesOn s p n i).1 hi
  exact ⟨h, e⟩

theorem entriesOn_nodup : (s.entriesOn p n).Nodup := entriesWhere_nodup ..

theorem withdrawnOn_same :
    { s.withdrawnOn p n o with pool := s.pool, lines := s.lines, ports := s.ports, maint := s.maint } = s :=
  withdrawAll_same ..

theorem withdrawnOn_line (m : LineId) :
    { (s.withdrawnOn p n o).line m with scheduled := (s.line m).scheduled } = s.line m :=
  (withdrawAll_line (entriesOn_occupied s p n) (entriesOn_nodup s p n) m).1

theorem withdrawnOn_other {m : LineId} (h : m ≠ n) : (s.withdrawnOn p n o).line m = s.line m := by
  refine (withdrawAll_line (entriesOn_occupied s p n) (entriesOn_nodup s p n) m).2.1 fun i hi k e on => ?_
  obtain ⟨k', e', -, line⟩ := (mem_entriesOn s p n i).1 hi
  cases e.symm.trans e'
  exact absurd (on.symm.trans line) h

theorem withdrawnOn_check : (s.withdrawnOn p n o).maint.check = s.maint.check := (withdrawAll_scheduled ..).check

theorem withdrawnOn_slot (i : SlotId) :
    ((∀ h, s.entry i = some h → h.ownedOn p n → (s.withdrawnOn p n o).slot i = ⟨Body.free, [], none⟩)) ∧
    ((∀ h, s.entry i = some h → ¬ h.ownedOn p n) → (s.withdrawnOn p n o).slot i = s.slot i) := by
  have slot := withdrawAll_slot (o := o) (entriesOn_occupied s p n) (entriesOn_nodup s p n) i
  refine ⟨fun h e mine => ?_, fun no => ?_⟩
  · exact slot.trans (if_pos ((mem_entriesOn s p n i).2 ⟨h, e, mine⟩))
  · refine slot.trans (if_neg fun hi => ?_)
    obtain ⟨h, e, mine⟩ := (mem_entriesOn s p n i).1 hi
    exact no h e mine

theorem withdrawnOn_kept (d : s.drainsOn (Header.ownedOn p n)) : (s.withdrawnOn p n o).maint = s.maint :=
  (withdrawAll_recorded (mem_entriesOn s p n) (entriesOn_nodup s p n)).1 d

theorem withdrawnOn_direct (d : ¬ s.drainsOn (Header.ownedOn p n)) (some_ : ∃ i h, s.entry i = some h ∧ h.ownedOn p n) :
    (s.withdrawnOn p n o).maint = { s.maint with mode := .direct, drainDeadline := none } := by
  refine withdrawAll_direct (mem_entriesOn s p n) (entriesOn_nodup s p n) d fun empty => ?_
  obtain ⟨i, h, e, mine⟩ := some_
  exact List.not_mem_nil (empty ▸ (mem_entriesOn s p n i).2 ⟨h, e, mine⟩)

theorem withdrawnOn_ports {l : List SlotId} (ordered : s.postOrdered (Header.ownedOn p n) l) :
    ∃ u, s.recorded (Header.ownedOn p n) o l u ∧ (s.withdrawnOn p n o).ports = u.ports := by
  obtain rfl := entriesOn_ordered ordered
  exact (withdrawAll_recorded (mem_entriesOn s p n) (entriesOn_nodup s p n)).2

/-- What a line, the pool and the maintenance unit are when the claim on the line has ended. -/
structure LineVacated (t : State) : Prop where
  frame : { t with pool := s.pool, lines := s.lines, filters := s.filters, maint := s.maint, ports := s.ports,
                   free := s.free } = s
  slot : ∀ i, (∀ h, s.entry i = some h → h.ownedOn p n → t.slot i = ⟨Body.free, [], none⟩) ∧
    ((∀ h, s.entry i = some h → ¬ h.ownedOn p n) → t.slot i = s.slot i)
  line : { t.line n with scheduled := (s.line n).scheduled } =
    { s.line n with mode := (s.line n).park.mode, override := none, saved := none }
  cut : s.levelCut (Header.ownedOn p n) n (t.line n).scheduled
  filter : s.filterParked n ((s.line n).mode = .off) (t.filter n)
  untested : (∀ c, ¬ s.testedBy n c) →
    t.maint.check = s.maint.check ∧ ∀ m, m ≠ n → t.line m = s.line m ∧ t.filter m = s.filter m
  tested : ∀ c, s.testedBy n c →
    t.maint.check = .finished c.cutShort ∧ ∀ m, m ≠ n → s.lineRestored c.requester m t
  kept : s.drainsOn (Header.ownedOn p n) → { t.maint with check := s.maint.check } = s.maint
  direct : ¬ s.drainsOn (Header.ownedOn p n) → (∃ i h, s.entry i = some h ∧ h.ownedOn p n) →
    { t.maint with check := s.maint.check } = { s.maint with mode := .direct, drainDeadline := none }

theorem lineVacated : LineVacated s p n (s.lineVacated p n o) := by
  have left : LineLeft n (s.withdrawnOn p n o) (s.lineVacated p n o) := lineLeft (s.withdrawnOn p n o) n
  have same := withdrawnOn_same s p n o
  have line := withdrawnOn_line s p n o n
  have cut : s.levelCut (Header.ownedOn p n) n ((s.withdrawnOn p n o).line n).scheduled :=
    withdrawAll_levelCut (mem_entriesOn s p n) (entriesOn_nodup s p n) n
  have away := fun m => withdrawnOn_other s p n o (m := m)
  have check := withdrawnOn_check s p n o
  have slot := withdrawnOn_slot s p n o
  have kept := withdrawnOn_kept s p n o
  have direct := withdrawnOn_direct s p n o
  generalize s.lineVacated p n o = t at *
  generalize s.withdrawnOn p n o = u at *
  obtain ⟨frame, left_line, left_filter, mode, untested, tested⟩ := left
  have filters (m : LineId) : u.filter m = s.filter m := (congrArg (·.filter m) same :)
  have slots (i : SlotId) : t.slot i = u.slot i := (congrArg (·.slot i) frame :)
  have maint {m : Maint} (h : u.maint = m) :
      { t.maint with check := s.maint.check } = { m with check := s.maint.check } := by
    rw [← h]
    exact congrArg (fun k : Maint => { k with check := s.maint.check }) mode
  refine ⟨?_, fun i => slots i ▸ slot i, ?_, ?_, ?_, fun no => ?_, fun c k => ?_, fun d => maint (kept d),
    fun d some_ => maint (direct d some_)⟩
  · exact (congrArg (fun x : State => { x with
      pool := s.pool, lines := s.lines, filters := s.filters, maint := s.maint, ports := s.ports, free := s.free })
      frame).trans (congrArg (fun x : State => { x with filters := s.filters, free := s.free }) same)
  · rw [left_line, ← line]
  · rw [left_line]
    exact cut
  · refine filterParked_congr (a := u) (congrArg (·.held) same :) (congrArg (·.level) same :)
      (congrArg (·.park) line :) (filters n) ?_
    rw [← show (u.line n).mode = (s.line n).mode from (congrArg (·.mode) line :)]
    exact left_filter
  · obtain ⟨kept_check, other⟩ := untested (check ▸ no)
    refine ⟨kept_check.trans check, fun m hm => ?_⟩
    rw [(other m hm).1, (other m hm).2, away m hm, filters]
    exact ⟨rfl, rfl⟩
  · obtain ⟨running, tests⟩ := k
    obtain ⟨ended, restored⟩ := tested c (check.trans running) tests
    refine ⟨ended, fun m hm => ?_⟩
    have q := restored m hm
    unfold State.lineRestored at q ⊢
    have claim : u.claim (lineRes m) = s.claim (lineRes m) := (congrArg (·.claim (lineRes m)) same :)
    rw [away m hm, filters, claim] at q
    exact q

end

/-! ## The records of the end -/

section
variable {s : State} {p : PortId} {n : LineId} {c : EndCause}

theorem withdrawnOn_park_check (s : State) (p : PortId) (n : LineId) (o : EntryOutcome) :
    ((s.withdrawnOn p n o).park n).maint.check = s.maint.check := by
  rw [unlined_maint (park_unlined ..), withdrawnOn_check]

theorem withdrawnOn_park_testing (s : State) (p : PortId) (n : LineId) (o : EntryOutcome) :
    ((s.withdrawnOn p n o).park n).testing n = true ↔ ∃ k, s.testedBy n k := by
  rw [testing_iff, withdrawnOn_park_check]
  exact Iff.rfl

theorem clearLine_untested (h : ∀ k, ¬ s.testedBy n k) : s.clearLine p n c = s.lineVacated p n c.outcome := by
  have no : ¬ ((s.withdrawnOn p n c.outcome).park n).testing n = true := fun k => by
    obtain ⟨k, tests⟩ := (withdrawnOn_park_testing ..).1 k
    exact h k tests
  exact (if_neg no).trans (if_neg no).symm

/-- The requester of an aborted check is told. -/
theorem clearLine_tested {k : Progress} (h : s.testedBy n k) (told : (c != .portReset) = true) :
    s.clearLine p n c = (s.lineVacated p n c.outcome).offer k.requester (.checkDone k.cutShort) := by
  have yes : ((s.withdrawnOn p n c.outcome).park n).testing n = true := (withdrawnOn_park_testing ..).2 ⟨k, h⟩
  have running : ((s.withdrawnOn p n c.outcome).park n).maint.check = .running k :=
    (withdrawnOn_park_check ..).trans h.1
  have vacated : s.lineVacated p n c.outcome = ((s.withdrawnOn p n c.outcome).park n).abortCheck false := if_pos yes
  rw [vacated, abortCheck_running running false]
  refine (if_pos yes).trans ?_
  rw [told]
  exact abortCheck_running running true

theorem clearFor_line (s : State) (p : PortId) (n : LineId) (c : EndCause) : s.clearFor (lineRes n) p c =
    if c = .revoked then (s.clearLine p n c).offer p (.claim (lineRes n) .revoked) else s.clearLine p n c := by
  unfold State.clearFor
  rw [dif_pos (show (lineRes n).val < 16 from n.isLt)]
  rfl

theorem clearLine_kept (s : State) (p : PortId) (n : LineId) (told : (c != .portReset) = true) :
    { s.clearLine p n c with ports := (s.lineVacated p n c.outcome).ports } = s.lineVacated p n c.outcome := by
  by_cases h : ∃ k, s.testedBy n k
  · obtain ⟨k, h⟩ := h
    rw [clearLine_tested h told]
    rfl
  · rw [clearLine_untested (not_exists.1 h)]

theorem greet_ports_congr {a b : State} (h : a.ports = b.ports) (r : ResourceId) (l : List Waiter) :
    (a.greet r l).ports = (b.greet r l).ports := by
  unfold State.greet
  split
  · exact h
  · exact offer_ports_congr h _ _
  · exact offer_ports_congr (offer_ports_congr h _ _) _ _

/-- The records of a claim's end after those of its entries: a revocation to the former holder, and the new holder
greeted. -/
def State.endTold (s : State) (p : PortId) (n : LineId) (c : EndCause) (u : State) : State :=
  (if c = .revoked then u.offer p (.claim (lineRes n) .revoked) else u).greet (lineRes n) (s.claim (lineRes n)).waiters

theorem endTold_ports_congr {a b : State} (h : a.ports = b.ports) :
    (s.endTold p n c a).ports = (s.endTold p n c b).ports := by
  refine greet_ports_congr ?_ _ _
  split
  · exact offer_ports_congr h _ _
  · exact h

theorem endTold_clearLine : s.endTold p n c (s.clearLine p n c) =
    (s.clearFor (lineRes n) p c).greet (lineRes n) (s.claim (lineRes n)).waiters := by
  rw [clearFor_line]
  rfl

theorem clearFor_line_kept (told : (c != .portReset) = true) :
    { s.clearFor (lineRes n) p c with ports := (s.lineVacated p n c.outcome).ports } = s.lineVacated p n c.outcome := by
  rw [clearFor_line]
  refine Eq.trans ?_ (clearLine_kept s p n told)
  split <;> rfl

section
variable (h : (s.claim (lineRes n)).holder = some p)
include h

theorem endClaim_line_ports : (s.endClaim (lineRes n) c).ports = (s.endTold p n c (s.clearLine p n c)).ports := by
  rw [endClaim_passes h, endTold_clearLine]
  exact greet_ports_congr (a := (s.clearFor (lineRes n) p c).setClaim ..) (b := s.clearFor (lineRes n) p c) rfl _ _

theorem endClaim_line_kept (told : (c != .portReset) = true) :
    { s.endClaim (lineRes n) c with claims := s.claims, ports := (s.lineVacated p n c.outcome).ports } =
      s.lineVacated p n c.outcome := by
  have claims : (s.lineVacated p n c.outcome).claims = s.claims :=
    (congrArg (·.claims) (lineVacated s p n c.outcome).frame :)
  have kept := clearFor_line_kept (s := s) (p := p) (n := n) told
  have greeted := greet_same ((s.clearFor (lineRes n) p c).setClaim (lineRes n) ((s.claim (lineRes n)).next s.elapsed))
    (lineRes n) (s.claim (lineRes n)).waiters
  rw [endClaim_passes h, ← claims]
  generalize State.greet _ _ _ = t at *
  generalize s.clearFor (lineRes n) p c = u at *
  generalize s.lineVacated p n c.outcome = v at *
  have beside : { t with claims := v.claims, ports := v.ports } = { u with claims := v.claims, ports := v.ports } :=
    congrArg (fun x : State => { x with claims := v.claims, ports := v.ports }) greeted
  exact beside.trans (congrArg (fun x : State => { x with claims := v.claims }) kept)

/-- The line's entries recorded, the aborted check reported, and then the records of the claim's end. -/
theorem endClaim_line_records (told : (c != .portReset) = true) {l : List SlotId}
    (ordered : s.postOrdered (Header.ownedOn p n) l) : ∃ u, s.recorded (Header.ownedOn p n) c.outcome l u ∧
      ((∀ k, ¬ s.testedBy n k) → (s.endClaim (lineRes n) c).ports = (s.endTold p n c u).ports) ∧
      (∀ k, s.testedBy n k → (s.endClaim (lineRes n) c).ports =
        (s.endTold p n c (u.offer k.requester (.checkDone k.cutShort))).ports) := by
  obtain ⟨u, recorded, ports⟩ := withdrawnOn_ports s p n c.outcome ordered
  have left : LineLeft n (s.withdrawnOn p n c.outcome) (s.lineVacated p n c.outcome) := lineLeft ..
  have vacated : (s.lineVacated p n c.outcome).ports = u.ports := (congrArg (·.ports) left.frame :).trans ports
  refine ⟨u, recorded, fun no => ?_, fun k yes => ?_⟩
  · rw [endClaim_line_ports h, clearLine_untested no]
    exact endTold_ports_congr vacated
  · rw [endClaim_line_ports h, clearLine_tested yes told]
    exact endTold_ports_congr (offer_ports_congr vacated _ _)

end

/-! ## What the end of a claim on a line does -/

/-- A line freed of the claim of a port, its entries withdrawn with the outcome of the cause. -/
def State.lineFreed (s : State) (p : PortId) (n : LineId) (c : EndCause) (t : State) : Prop :=
  t.claim (lineRes n) = (s.claim (lineRes n)).next s.elapsed ∧ (∀ q, q ≠ lineRes n → t.claim q = s.claim q) ∧
  (∀ i, (∀ h, s.entry i = some h → h.ownedOn p n → t.slot i = ⟨Body.free, [], none⟩) ∧
    ((∀ h, s.entry i = some h → ¬ h.ownedOn p n) → t.slot i = s.slot i)) ∧
  (t.line n).mode = (s.line n).park.mode ∧ (t.line n).override = none ∧ (t.line n).saved = none ∧
  (t.line n).park = (s.line n).park ∧ (t.line n).filterLen = (s.line n).filterLen ∧
  s.levelCut (Header.ownedOn p n) n (t.line n).scheduled ∧
  s.filterParked n ((s.line n).mode = .off) (t.filter n) ∧
  ((∀ k, ¬ s.testedBy n k) →
    t.maint.check = s.maint.check ∧ ∀ m, m ≠ n → t.line m = s.line m ∧ t.filter m = s.filter m) ∧
  (∀ k, s.testedBy n k →
    t.maint.check = .finished k.cutShort ∧ ∀ m, m ≠ n → s.lineRestored k.requester m t) ∧
  t.tb = s.tb ∧ t.link = s.link ∧ t.subs = s.subs ∧ t.store = s.store ∧
  (s.drainsOn (Header.ownedOn p n) → { t.maint with check := s.maint.check } = s.maint) ∧
  (¬ s.drainsOn (Header.ownedOn p n) → (∃ i h, s.entry i = some h ∧ h.ownedOn p n) →
    { t.maint with check := s.maint.check } = { s.maint with mode := .direct, drainDeadline := none }) ∧
  ∀ l, s.postOrdered (Header.ownedOn p n) l → ∃ u, s.recorded (Header.ownedOn p n) c.outcome l u ∧
    ((∀ k, ¬ s.testedBy n k) → t.ports = (s.endTold p n c u).ports) ∧
    (∀ k, s.testedBy n k → t.ports = (s.endTold p n c (u.offer k.requester (.checkDone k.cutShort))).ports)

theorem endClaim_lineFreed (h : (s.claim (lineRes n)).holder = some p) (told : (c != .portReset) = true) :
    s.lineFreed p n c (s.endClaim (lineRes n) c) := by
  have claim := endClaim_claim h c
  have records := fun l => endClaim_line_records h told (l := l)
  have kept := endClaim_line_kept h told
  have vacated := lineVacated s p n c.outcome
  generalize s.endClaim (lineRes n) c = t at *
  generalize s.lineVacated p n c.outcome = v at *
  obtain ⟨frame, slot, line, cut, filter, untested, tested, keepsMaint, direct⟩ := vacated
  have lines (m : LineId) : t.line m = v.line m := (congrArg (·.line m) kept :)
  have filters (m : LineId) : t.filter m = v.filter m := (congrArg (·.filter m) kept :)
  have slots (i : SlotId) : t.slot i = v.slot i := (congrArg (·.slot i) kept :)
  have maint : t.maint = v.maint := (congrArg (·.maint) kept :)
  rw [← lines n] at line cut
  rw [← filters n] at filter
  rw [← maint] at untested tested keepsMaint direct
  refine ⟨(claim _).trans (if_pos rfl), fun q hq => (claim q).trans (if_neg hq.symm), fun i => slots i ▸ slot i,
    (congrArg (·.mode) line :), (congrArg (·.override) line :), (congrArg (·.saved) line :), (congrArg (·.park) line :),
    (congrArg (·.filterLen) line :), cut, filter, fun no => ?_, fun k yes => ?_, ?_, ?_, ?_, ?_, keepsMaint, direct, records⟩
  · obtain ⟨check, other⟩ := untested no
    exact ⟨check, fun m hm => ⟨(lines m).trans (other m hm).1, (filters m).trans (other m hm).2⟩⟩
  · obtain ⟨check, restored⟩ := tested k yes
    refine ⟨check, fun m hm => lineRestored_congr ?_ (restored m hm)⟩
    exact Prod.ext (lines m) (filters m)
  · exact (congrArg (·.tb) kept :).trans (congrArg (·.tb) frame :)
  · exact (congrArg (·.link) kept :).trans (congrArg (·.link) frame :)
  · exact (congrArg (·.subs) kept :).trans (congrArg (·.subs) frame :)
  · exact (congrArg (·.store) kept :).trans (congrArg (·.store) frame :)

end

theorem lineByte_toNat (n : LineId) : (lineRes n).val = (lineByte n).toNat := by
  have := n.isLt
  show n.val = (BitVec.ofNat 8 n.val).toNat
  rw [BitVec.toNat_ofNat]
  omega

/-- Settles O16: both commands end the claim; `endClaim_lineFreed` says what that does. -/
theorem lineClaimEnds : Obligations.LineClaimEnds := by
  intro p n s own
  refine ⟨fun hs => ⟨s.endClaim (lineRes n) .released, ?_, endClaim_lineFreed own rfl⟩, fun e expiry le =>
    ⟨s.endClaim (lineRes n) .revoked, ?_, endClaim_lineFreed own rfl⟩⟩
  · exact congrArg Host.Outcome.next (take_answers hs (releaseBody_holder (lineByte_toNat n) own))
  · exact congrArg Host.Outcome.next (expireLease_due expiry le)

end Sys2Proof.Machine
end

section
/-! PROOFS. An accepted POST: what the block asks for, and what becomes of the entry it places (R57 to R62, R77 to R81,
R90). -/

namespace Sys2Proof.Machine

/-! ## What the readers read -/

section
variable {b : PostBlock}

theorem readLevel_eq {x : Byte} {l : Level} (h : readLevel x = some l) : l = Level.ofBit (x == 1) := by
  unfold readLevel at h
  split_ifs at h with zero one
  · cases h
    rw [zero]
    rfl
  · cases h
    rw [one]
    rfl

theorem readAction_pulse_eq {a : Action} (h : readAction b = some a) (k : b.action = 3) :
    a = .pulse (Level.ofBit (b.active == 1)) b.width := by
  have reads : readAction b = match readLevel b.active with
      | some l => if b.width = 0 then none else some (.pulse l b.width)
      | none => none := by
    simp only [readAction, k]
    rfl
  rw [reads] at h
  split at h
  · rename_i l active
    split at h
    · cases h
    · rw [← readLevel_eq active]
      exact (Option.some.inj h).symm
  · cases h

theorem readAction_train_eq {a : Action} (h : readAction b = some a) (k : b.action = 4) :
    a = .train (Level.ofBit (b.active == 1)) b.width b.period b.count := by
  have reads : readAction b = match readLevel b.active with
      | some l => if b.width = 0 then none else if b.period.toNat ≤ b.width.toNat then none
          else some (.train l b.width b.period b.count)
      | none => none := by
    simp only [readAction, k]
    rfl
  rw [reads] at h
  split at h
  · rename_i l active
    split_ifs at h
    rw [← readLevel_eq active]
    exact (Option.some.inj h).symm
  · cases h

theorem readTiming_anchored_eq {anchor : Option Anchor} {t : Timing} (h : readTiming b = some (anchor, t))
    (k : b.timing = 1) : ∃ l e r, anchor = some ⟨l, e⟩ ∧ t = .anchored b.delay r ∧ readAnyLine b.anchorLine = some l ∧
      readAnchorEdge b.anchorEdge = some e ∧ readRepeat b.rep = some r := by
  have reads : readTiming b = match readAnyLine b.anchorLine, readAnchorEdge b.anchorEdge, readRepeat b.rep with
      | some l, some e, some r => some (some ⟨l, e⟩, .anchored b.delay r)
      | _, _, _ => none := by
    simp only [readTiming, k]
    rfl
  rw [reads] at h
  split at h
  · rename_i l e r line edge rep
    cases h
    exact ⟨l, e, r, rfl, rfl, line, edge, rep⟩
  · cases h

theorem val_of_readAnyLine {x : Byte} {l : AnyLine} (h : readAnyLine x = some l) : l.val = x.toNat := by
  unfold readAnyLine at h
  split at h <;> cases h
  rfl

theorem code_of_readAnchorEdge {x : Byte} {e : EdgeSel} (h : readAnchorEdge x = some e) :
    (x = 1 → e = .rise) ∧ (x = 2 → e = .fall) ∧ (x = 3 → e = .both) := by
  refine ⟨?_, ?_, ?_⟩ <;>
  · rintro rfl
    exact (Option.some.inj h).symm

theorem code_of_readRepeat {x : Byte} {r : Repeat} (h : readRepeat x = some r) :
    (x = 0 → r = .once) ∧ (x = 1 → r = .every) := by
  refine ⟨?_, ?_⟩ <;>
  · rintro rfl
    exact (Option.some.inj h).symm

theorem code_of_readLate {x : Byte} {l : LatePolicy} (h : readLate x = some l) :
    (x = 0 → l = .fireLate) ∧ (x = 1 → l = .dropLate) := by
  refine ⟨?_, ?_⟩ <;>
  · rintro rfl
    exact (Option.some.inj h).symm

/-- What an entry asks for, in the codes of the block that posts it (R59, R187). -/
structure Asks (b : PostBlock) (body : Body) (anchor : Option Anchor) : Prop where
  setHigh : b.action = 0 → body.action = .setHigh
  setLow : b.action = 1 → body.action = .setLow
  toggle : b.action = 2 → body.action = .toggle
  pulse : b.action = 3 → body.action = .pulse (Level.ofBit (b.active == 1)) b.width
  train : b.action = 4 → body.action = .train (Level.ofBit (b.active == 1)) b.width b.period b.count
  absolute : b.timing = 0 → anchor = none ∧ body.timing = .absolute b.due
  anchored : b.timing = 1 → ∃ l e r, anchor = some ⟨l, e⟩ ∧ body.timing = .anchored b.delay r ∧
    l.val = b.anchorLine.toNat ∧ (b.anchorEdge = 1 → e = .rise) ∧ (b.anchorEdge = 2 → e = .fall) ∧
    (b.anchorEdge = 3 → e = .both) ∧ (b.rep = 0 → r = .once) ∧ (b.rep = 1 → r = .every)
  fireLate : b.late = 0 → body.late = .fireLate
  dropLate : b.late = 1 → body.late = .dropLate

theorem action_of_readPost {q : PostRequest} (h : readPost b = some q) : readAction b = some q.body.action := by
  unfold readPost at h
  split at h
  · rename_i action _ _
    cases h
    exact action
  · cases h

theorem tag_of_readPost {q : PostRequest} (h : readPost b = some q) : q.tag = b.tag := by
  unfold readPost at h
  split at h <;> cases h
  rfl

theorem asks_of_readPost {q : PostRequest} (h : readPost b = some q) : Asks b q.body q.anchor := by
  obtain ⟨-, timing, late⟩ := fields_of_readPost h
  have action := action_of_readPost h
  have code {a : Action} (k : readAction b = some a) : q.body.action = a := Option.some.inj (action.symm.trans k)
  refine ⟨fun k => code ?_, fun k => code ?_, fun k => code ?_, readAction_pulse_eq action, readAction_train_eq action,
    fun k => ?_, fun k => ?_, (code_of_readLate late).1, (code_of_readLate late).2⟩
  · exact if_pos k
  · simp [readAction, k]
  · simp [readAction, k]
  · rw [readTiming_absolute k] at timing
    obtain ⟨anchor, absolute⟩ := Prod.mk.inj (Option.some.inj timing)
    exact ⟨anchor.symm, absolute.symm⟩
  · obtain ⟨l, e, r, anchor, anchored, line, edge, rep⟩ := readTiming_anchored_eq timing k
    obtain ⟨rise, fall, both⟩ := code_of_readAnchorEdge edge
    obtain ⟨once, every⟩ := code_of_readRepeat rep
    exact ⟨l, e, r, anchor, anchored, val_of_readAnyLine line, rise, fall, both, once, every⟩

end

end Sys2Proof.Machine
end

section
/-! PROOFS. What becomes of an entry that POST places (R57, R61, R62, R77 to R81, R90). -/

namespace Sys2Proof.Machine

/-! ## The entry in its slot -/

/-- The header of the entry that a request asks for. -/
def PostRequest.header (q : PostRequest) (p : PortId) (order : Nat) (fired : BitVec 16) (st : EntryStatus) : Header :=
  ⟨p, q.line, q.tag, order, q.anchor, fired, 0, st⟩

/-- The hub with the entry of a request in a slot. -/
def State.placed (s : State) (p : PortId) (i : SlotId) (q : PostRequest) (fired : BitVec 16) (st : EntryStatus) : State :=
  { s.setSlot i ⟨q.body, [], some (q.header p s.postOrder fired st)⟩ with postOrder := s.postOrder + 1 }

/-- The hub when the entry of a request has completed at once. -/
def State.placedDone (s : State) (p : PortId) (i : SlotId) (q : PostRequest) (o : EntryOutcome) : State :=
  ({ s.setSlot i ⟨Body.free, [], none⟩ with postOrder := s.postOrder + 1 } : State).offer p
    (.actionDone i q.tag q.line o 0 0)

section
variable (s : State) (p : PortId) (i : SlotId) (q : PostRequest) (st : EntryStatus)

theorem placed_slot : (s.placed p i q 0 st).slot i = ⟨q.body, [], some (q.header p s.postOrder 0 st)⟩ :=
  (setSlot_slot s i i _).trans (if_pos rfl)

theorem placed_body : (s.placed p i q 0 st).body i = q.body := congrArg (·.body) (placed_slot s p i q st)

theorem placed_entry : (s.placed p i q 0 st).entry i = some (q.header p s.postOrder 0 st) :=
  congrArg (·.entry) (placed_slot s p i q st)

theorem placed_other {j : SlotId} (h : j ≠ i) : (s.placed p i q 0 st).entry j = s.entry j :=
  (setSlot_entry s i j _).trans (if_neg h.symm)

theorem placed_entryNow (fired : BitVec 16) (st' : EntryStatus) :
    (s.placed p i q 0 st).entryNow i (q.header p s.postOrder fired st') = s.placed p i q fired st' := by
  unfold State.entryNow
  rw [placed_slot]
  exact congrArg (fun x : State => { x with postOrder := s.postOrder + 1 }) (setSlot_setSlot s i _ _)

theorem placed_entryEnded (o : EntryOutcome) :
    (s.placed p i q 0 st).entryEnded i (q.header p s.postOrder 0 st) o = s.placedDone p i q o :=
  congrArg (fun x : State => ({ x with postOrder := s.postOrder + 1 } : State).offer p (.actionDone i q.tag q.line o 0 0))
    (setSlot_setSlot s i _ _)

theorem placed_busy {n : LineId} (free : s.entry i = none) (idle : st.isBusy = false) :
    (s.placed p i q 0 st).busy n ↔ s.busy n := by
  refine exists_congr fun j => ?_
  by_cases h : j = i
  · subst h
    rw [placed_entry, free]
    refine ⟨fun ⟨k, e, _, busy⟩ => ?_, fun ⟨k, e, _⟩ => nomatch e⟩
    cases e
    exact absurd (idle.symm.trans busy) nofun
  · rw [placed_other s p i q st h]

end

/-! ## The arrival of an entry just placed -/

theorem handleLate_fireLate {s : State} {i : SlotId} {h : Header} (clean : (s.slot i).wrongBits = [])
    (e : s.entry i = some h) (late : (s.body i).late = .fireLate) : s.handleLate i = s.arrive i .late := by
  unfold State.handleLate
  rw [checkSlot_clean clean]
  dsimp only
  rw [e]
  dsimp only
  rw [late]

/-- Whether an entry that is not ahead of its due time arrives in time. -/
def timeliness (j : Judgement) : Timeliness := if j = .due then .onTime else .late

theorem firedAs_timeliness (j : Judgement) : firedAs (timeliness j) = if j = .due then .applied else .lateApplied := by
  cases j <;> rfl

section
variable {s : State} {p : PortId} {i : SlotId} {q : PostRequest} {d : Count}

theorem placed_treatPending : (s.placed p i q 0 (.pending d)).treatPending i = match judge d s.tb.count with
    | .ahead => s.placed p i q 0 (.pending d)
    | .due => (s.placed p i q 0 (.pending d)).arrive i .onTime
    | .behind => (s.placed p i q 0 (.pending d)).handleLate i := treatPending_eq (placed_entry ..) rfl

theorem placed_armed : (s.placed p i q 0 .armed).treatPending i = s.placed p i q 0 .armed := by
  unfold State.treatPending State.pendingDue
  rw [placed_entry]
  rfl

theorem placed_arrives (ahead : judge d s.tb.count ≠ .ahead)
    (inTime : judge d s.tb.count = .behind → q.body.late = .fireLate) :
    (s.placed p i q 0 (.pending d)).arrivesAs i (q.header p s.postOrder 0 (.pending d)) d
      (timeliness (judge d s.tb.count)) ((s.placed p i q 0 (.pending d)).treatPending i) := by
  have clean : ((s.placed p i q 0 (.pending d)).slot i).wrongBits = [] :=
    congrArg (·.wrongBits) (placed_slot s p i q (.pending d))
  have entry := placed_entry s p i q (.pending d)
  rw [placed_treatPending]
  cases k : judge d s.tb.count with
  | ahead => exact absurd k ahead
  | due => exact arrive_arrivesAs (h := q.header p s.postOrder 0 (.pending d)) .onTime entry rfl clean
  | behind =>
    dsimp only
    rw [handleLate_fireLate clean entry ((congrArg (·.late) (placed_body ..)).trans (inTime k))]
    exact arrive_arrivesAs (h := q.header p s.postOrder 0 (.pending d)) .late entry rfl clean

variable (ahead : judge d s.tb.count ≠ .ahead) (inTime : judge d s.tb.count = .behind → q.body.late = .fireLate)
include ahead inTime

theorem placed_deferred (m : s.maint.mode ≠ .run) (free : s.entry i = none) : ∃ place : Nat,
    (s.placed p i q 0 (.pending d)).treatPending i = s.placed p i q 0 (.deferred d place) ∧
    ∀ j h e k, s.entry j = some h → h.status = .deferred e k → k < place := by
  obtain ⟨deferred, -⟩ := placed_arrives (p := p) (i := i) ahead inTime
  obtain ⟨place, out, behind⟩ := deferred m
  refine ⟨place, out.trans (placed_entryNow ..), fun j h e k entry status => ?_⟩
  have other : j ≠ i := by
    rintro rfl
    exact nomatch free.symm.trans entry
  exact behind j h e k other ((placed_other s p i q _ other).trans entry) status

theorem placed_collides (absolute : q.body.timing = .absolute d) (m : s.maint.mode = .run) (free : s.entry i = none)
    (busy : s.busy q.line) :
    (s.placed p i q 0 (.pending d)).treatPending i = s.placedDone p i q .collided := by
  obtain ⟨-, collided, -⟩ := placed_arrives (p := p) (i := i) ahead inTime
  have once : ¬ ∃ x, ((s.placed p i q 0 (.pending d)).body i).timing = .anchored x .every := by
    rw [placed_body, absolute]
    nofun
  exact ((collided m ((placed_busy s p i q _ free rfl).2 busy)).1 once).trans (placed_entryEnded ..)

variable (m : s.maint.mode = .run) (free : s.entry i = none) (idle : ¬ s.busy q.line)
include m free idle

theorem placed_pulse {l : Level} {w : BitVec 24} (action : q.body.action = .pulse l w) :
    (s.placed p i q 0 (.pending d)).treatPending i = (s.placed p i q 0 (.active
      ⟨s.elapsed, .inPulse (s.elapsed + w.toNat), timeliness (judge d s.tb.count), none⟩)).setScheduled q.line l := by
  obtain ⟨-, -, applied⟩ := placed_arrives (p := p) (i := i) ahead inTime
  obtain ⟨-, pulse, -⟩ := applied m (fun busy => idle ((placed_busy s p i q _ free rfl).1 busy))
  rw [placed_body] at pulse
  exact (pulse l w action).trans
    (congrArg (fun x : State => x.setScheduled q.line l) (placed_entryNow s p i q (.pending d) 0 _))

variable (absolute : q.body.timing = .absolute d)
include absolute

theorem placed_level {l : Level} (action : q.body.action = .setHigh ∧ l = .high ∨ q.body.action = .setLow ∧ l = .low ∨
    q.body.action = .toggle ∧ l = other (s.line q.line).scheduled) :
    (s.placed p i q 0 (.pending d)).treatPending i =
      (s.placedDone p i q (firedAs (timeliness (judge d s.tb.count)))).setScheduled q.line l := by
  obtain ⟨-, -, applied⟩ := placed_arrives (p := p) (i := i) ahead inTime
  obtain ⟨level, -⟩ := applied m (fun busy => idle ((placed_busy s p i q _ free rfl).1 busy))
  rw [placed_body, absolute] at level
  refine ((level l action).1 nofun).trans ?_
  rw [← placed_entryEnded s p i q (.pending d)]
  rfl

theorem placed_train {l : Level} {w t : BitVec 24} {c : BitVec 16} (action : q.body.action = .train l w t c) :
    (s.placed p i q 0 (.pending d)).treatPending i = (s.placed p i q 1 (.active
      ⟨s.elapsed, .inPulse (s.elapsed + w.toNat), timeliness (judge d s.tb.count),
        some ⟨1, 0, boundaryLeft c 1 0 (s.elapsed + t.toNat)⟩⟩)).setScheduled q.line l := by
  obtain ⟨-, -, applied⟩ := placed_arrives (p := p) (i := i) ahead inTime
  obtain ⟨-, -, train⟩ := applied m (fun busy => idle ((placed_busy s p i q _ free rfl).1 busy))
  rw [placed_body, absolute] at train
  exact (train l w t c 1 action nofun fun _ => rfl).trans
    (congrArg (fun x : State => x.setScheduled q.line l) (placed_entryNow s p i q (.pending d) 1 _))

end

/-- A first pulse leaves a boundary unless it is the only one. -/
theorem boundaryLeft_first (c : BitVec 16) (t : Nat) : boundaryLeft c 1 0 t = if c = 1 then none else some t := by
  unfold boundaryLeft
  by_cases h : c = 1
  · subst h
    rfl
  · rw [if_neg h, if_pos]
    bv_omega

/-! ## The command -/

/-- Settles O28: what the block asks for, and the case of `treatPending` that the entry meets. -/
theorem postPlacesEntry : Obligations.PostPlacesEntry := by
  intro p b n i s hs range line holds mode room free lowest notLate
  obtain ⟨q, hq, rfl⟩ := readPost_inRange range line
  have asks := asks_of_readPost hq
  have tag := tag_of_readPost hq
  have first := firstFree_some free lowest
  have late : ¬ tooLate q.body s.tb.count = true := fun k => notLate ((tooLate_iff hq).1 k)
  have answer : exec (.post p b) s =
      .next (((s.placed p i q 0 (firstStatus q.body.timing)).treatPending i).answered p [0x01, BitVec.ofNat 8 i.val]) :=
    congrArg Host.Outcome.next (take_data hs (postBody_accepted hq holds mode (Nat.not_le.2 room) first late))
  refine ⟨q.body, q.anchor, asks.setHigh, asks.setLow, asks.toggle, asks.pulse, asks.train, asks.absolute, asks.anchored,
    asks.fireLate, asks.dropLate, ?_⟩
  rw [← tag]
  intro id run occupied done judged when_
  have absolute (timing : b.timing = 0) : q.body.timing = .absolute b.due := (asks.absolute timing).2
  have result {t : State} (timing : b.timing = 0) (h : (s.placed p i q 0 (.pending b.due)).treatPending i = t) :
      run = .next (t.answered p [0x01, id]) := by
    rw [← h, ← show firstStatus q.body.timing = .pending b.due by rw [absolute timing]; rfl]
    exact answer
  have inTime (timing : b.timing = 0) (behind : judged = .behind) : q.body.late = .fireLate := by
    have notDrop : b.late ≠ 1 := fun drop => notLate ⟨timing, drop, behind⟩
    have late : b.late.toNat ≤ 1 := by
      unfold postInRange at range
      tauto
    exact asks.fireLate (by bv_omega)
  refine ⟨fun timing => ?_, fun timing ahead => ?_, fun timing ahead m => ?_, fun timing ahead m busy => ?_,
    fun timing ahead m idle => ?_⟩
  · obtain ⟨l, e, r, -, anchored, -⟩ := asks.anchored timing
    refine answer.trans (congrArg (fun x : State => Host.Outcome.next (x.answered p [0x01, id])) ?_)
    rw [anchored]
    exact placed_armed
  · refine result timing (placed_treatPending.trans ?_)
    rw [show judge b.due s.tb.count = .ahead from ahead]
    rfl
  · obtain ⟨place, placed, behind⟩ := placed_deferred (p := p) ahead (inTime timing) m free
    exact ⟨place, result timing placed, behind⟩
  · exact result timing (placed_collides ahead (inTime timing) (absolute timing) m free busy)
  · intro outcome
    have level {l : Level} := placed_level (l := l) (p := p) ahead (inTime timing) m free idle (absolute timing)
    rw [firedAs_timeliness] at level
    refine ⟨fun k => ?_, fun k => ?_, fun k => ?_, fun k => ?_, fun k => ?_⟩
    · exact result timing (level (.inl ⟨asks.setHigh k, rfl⟩))
    · exact result timing (level (.inr (.inl ⟨asks.setLow k, rfl⟩)))
    · exact result timing (level (.inr (.inr ⟨asks.toggle k, rfl⟩)))
    · exact result timing (placed_pulse ahead (inTime timing) m free idle (asks.pulse k))
    · refine result timing ((placed_train ahead (inTime timing) m free idle (absolute timing) (asks.train k)).trans ?_)
      rw [boundaryLeft_first]
      rfl

end Sys2Proof.Machine
end

section
/-! PROOFS. What PORT_RESET does to the claims, the cells and the queue of its port (R34, R111, R123, R178). -/

namespace Sys2Proof.Machine

/-! ## One resource after another -/

/-- The claim of a port on a resource ends in a port reset, if it has one. -/
def State.dropClaim (s : State) (p : PortId) (r : ResourceId) : State :=
  if s.holds p r then s.endClaim r .portReset else s

section
variable {s t u : State} {p : PortId} {r : ResourceId}

theorem dropClaim_held (h : (s.claim r).holder = some p) : s.dropClaim p r = s.endClaim r .portReset :=
  if_pos ((holds_iff ..).2 h)

theorem dropClaim_notHeld (h : (s.claim r).holder ≠ some p) : s.dropClaim p r = s :=
  if_neg fun k => h ((holds_iff ..).1 k)

/-- What the end of claims never reaches; a port is offered records. -/
structure Dropped (s t : State) : Prop where
  elapsed : t.elapsed = s.elapsed
  subs : t.subs = s.subs
  tb : t.tb = s.tb
  link : t.link = s.link
  loaded : t.loaded = s.loaded
  store : t.store = s.store
  storeBusy : t.storeBusy = s.storeBusy
  ports : ∀ q, Offered (s.port q) (t.port q)

theorem Dropped.refl (s : State) : Dropped s s := ⟨rfl, rfl, rfl, rfl, rfl, rfl, rfl, fun _ => .same _⟩

theorem Dropped.trans (h : Dropped s t) (k : Dropped t u) : Dropped s u :=
  ⟨k.elapsed.trans h.elapsed, k.subs.trans h.subs, k.tb.trans h.tb, k.link.trans h.link, k.loaded.trans h.loaded,
    k.store.trans h.store, k.storeBusy.trans h.storeBusy, fun q => (h.ports q).trans (k.ports q)⟩

theorem clearFor_dropped (s : State) (r : ResourceId) (p : PortId) (c : EndCause) : Dropped s (s.clearFor r p c) := by
  have k := clearFor_cleared s r p c
  have e := k.beside
  simp only [State.beside, Prod.mk.injEq] at e
  obtain ⟨-, -, elapsed, -, subs, -, -, tb, link, loaded, -, store, storeBusy, -⟩ := e
  exact ⟨elapsed, subs, tb, link, loaded, store, storeBusy, k.ports⟩

theorem passOn_dropped (s : State) (r : ResourceId) : Dropped s (s.passOn r) := by
  have e := passOn_unclaimed s r
  simp only [State.unclaimed, Prod.mk.injEq] at e
  obtain ⟨-, -, elapsed, -, -, -, subs, -, -, tb, -, -, -, -, link, loaded, -, store, storeBusy, -⟩ := e
  exact ⟨elapsed, subs, tb, link, loaded, store, storeBusy, passOn_offered s r⟩

theorem dropClaim_dropped (s : State) (p : PortId) (r : ResourceId) : Dropped s (s.dropClaim p r) := by
  by_cases h : (s.claim r).holder = some p
  · rw [dropClaim_held h, endClaim_held h]
    exact (clearFor_dropped ..).trans (passOn_dropped ..)
  · rw [dropClaim_notHeld h]
    exact .refl s

/-- The record of a resource after the claim of a port on another or on it has ended. -/
theorem dropClaim_claim (s : State) (p : PortId) (r q : ResourceId) : (s.dropClaim p r).claim q =
    if q = r ∧ (s.claim q).holder = some p then (s.claim q).next s.elapsed else s.claim q := by
  by_cases h : (s.claim r).holder = some p
  · rw [dropClaim_held h, endClaim_claim h]
    by_cases e : r = q
    · subst e
      rw [if_pos rfl, if_pos ⟨rfl, h⟩]
      rfl
    · rw [if_neg e, if_neg fun k => e k.1.symm]
  · rw [dropClaim_notHeld h, if_neg]
    rintro ⟨rfl, k⟩
    exact h k

theorem dropClaims_over (s : State) (p : PortId) (l : List ResourceId) (nd : l.Nodup) :
    let t := l.foldl (fun x r => x.dropClaim p r) s
    Dropped s t ∧ ∀ q, t.claim q =
      if q ∈ l ∧ (s.claim q).holder = some p then (s.claim q).next s.elapsed else s.claim q := by
  induction l generalizing s with
  | nil => exact ⟨.refl s, fun q => (if_neg fun k => List.not_mem_nil k.1).symm⟩
  | cons r l ih =>
    obtain ⟨fresh, nd⟩ := List.nodup_cons.1 nd
    have first := dropClaim_dropped s p r
    obtain ⟨rest, claim⟩ := ih (s.dropClaim p r) nd
    refine ⟨first.trans rest, fun q => (claim q).trans ?_⟩
    have here := dropClaim_claim s p r q
    by_cases e : q = r
    · rw [if_neg fun k => fresh (e ▸ k.1), here]
      exact if_congr (and_congr_left' ⟨fun _ => e ▸ List.mem_cons_self, fun _ => e⟩) rfl rfl
    · rw [if_neg fun k => e k.1] at here
      rw [here, first.elapsed]
      exact if_congr (and_congr_left' ⟨List.mem_cons_of_mem r, fun k => (List.mem_cons.1 k).resolve_left e⟩) rfl rfl

end

/-! ## The claim table's part -/

section
variable (s : State) (p : PortId)

/-- The waiters of a resource without those of a port. -/
def State.waitsWithout (s : State) (p : PortId) (r : ResourceId) : List Waiter :=
  (s.claim r).waiters.filter (fun w => w.port != p)

theorem dropWaits_holder (r : ResourceId) : ((s.dropWaits p).claim r).holder = (s.claim r).holder := by
  rw [dropWaits_claim]

theorem dropWaits_waiters (r : ResourceId) : ((s.dropWaits p).claim r).waiters = s.waitsWithout p r := by
  rw [dropWaits_claim]
  rfl

theorem dropWaits_dropped : Dropped s (s.dropWaits p) := ⟨rfl, rfl, rfl, rfl, rfl, rfl, rfl, fun _ => .same _⟩

theorem dropClaims_dropped : Dropped s (s.dropClaims p) :=
  (dropWaits_dropped s p).trans (dropClaims_over (s.dropWaits p) p allResources (List.nodup_finRange 18)).1

theorem dropClaims_claim (r : ResourceId) : (s.dropClaims p).claim r = if (s.claim r).holder = some p
    then ClaimRec.next { s.claim r with waiters := s.waitsWithout p r } s.elapsed
    else { s.claim r with waiters := s.waitsWithout p r } := by
  have claim := (dropClaims_over (s.dropWaits p) p allResources (List.nodup_finRange 18)).2 r
  rw [dropWaits_claim] at claim
  exact claim.trans (if_congr (and_iff_right (List.mem_finRange r)) rfl rfl)

theorem dropClaims_none (h : ∀ r, (s.claim r).holder ≠ some p) : s.dropClaims p = s.dropWaits p :=
  List.foldl_fixed' (fun r => dropClaim_notHeld (by rw [dropWaits_holder]; exact h r)) allResources

end

/-- A record that passes on without a port among its waiters does not come to it. -/
theorem ClaimRec.next_without {c : ClaimRec} {p : PortId} (now : Nat) (h : ∀ w ∈ c.waiters, w.port ≠ p) :
    (c.next now).holder ≠ some p ∧ ∀ w ∈ (c.next now).waiters, w.port ≠ p := by
  unfold ClaimRec.next
  split
  · exact ⟨nofun, nofun⟩
  · rename_i w rest e
    rw [e] at h
    exact ⟨fun k => h w List.mem_cons_self (Option.some.inj k), fun v hv => h v (List.mem_cons_of_mem w hv)⟩

theorem waitsWithout_ports (s : State) (p : PortId) (r : ResourceId) : ∀ w ∈ s.waitsWithout p r, w.port ≠ p :=
  fun w hw => by simpa using (List.mem_filter.1 hw).2

theorem dropClaims_left (s : State) (p : PortId) (r : ResourceId) : ((s.dropClaims p).claim r).holder ≠ some p ∧
    ∀ w ∈ ((s.dropClaims p).claim r).waiters, w.port ≠ p := by
  rw [dropClaims_claim]
  split
  · exact ClaimRec.next_without _ (waitsWithout_ports s p r)
  · rename_i h
    exact ⟨h, waitsWithout_ports s p r⟩

/-! ## The cells and the queue -/

/-- The second and the third part of a port reset: the port's cells and its queue. -/
def State.closePort (t : State) (p : PortId) : State :=
  (t.clearRow p).setPort p ((t.port p).portReset t.loaded.mask[p.val])

theorem portResetBody_eq (p : PortId) (s : State) : portResetBody p s = ((s.dropClaims p).closePort p, reply .ok) := by
  unfold portResetBody
  generalize s.dropClaims p = t
  rfl

section
variable (t : State) (p : PortId)

theorem closePort_cell (q : PortId) (l : AnyLine) : (t.closePort p).cell q l = if p = q then .none else t.cell q l := by
  show ((t.subs.set p.val (Vector.replicate 32 .none))[q.val])[l.val] = _
  by_cases h : p = q
  · subst h
    simp
  · rw [if_neg h]
    have apart : p.val ≠ q.val := fun e => h (Fin.ext e)
    simp only [Vector.getElem_set_ne _ _ apart]
    rfl

theorem closePort_other {q : PortId} (h : q ≠ p) : (t.closePort p).port q = t.port q :=
  (setPort_port ..).trans (if_neg h.symm)

theorem closePort_own {s : State} (dropped : Dropped s t) : (t.closePort p).port p = { s.port p with
    queue := [.reset .port], lost := 0, overrun := 0, overrunLatch := false, frameLatch := false
    mask := s.loaded.mask[p.val] } := by
  have kept := (dropped.ports p).kept
  simp only [Port.kept, Prod.mk.injEq] at kept
  obtain ⟨frame, selected, -⟩ := kept
  refine (setPort_port ..).trans ((if_pos rfl).trans ?_)
  rw [dropped.loaded]
  dsimp only
  rw [← frame, ← selected]
  exact enqueue_other rfl (Nat.zero_lt_succ 39)

end

end Sys2Proof.Machine
end

section
/-! PROOFS. The claims on the timebase and on the maintenance resource in a port reset, after those on the lines
(R27, R30 to R32, R34, R137). -/

namespace Sys2Proof.Machine

/-! ## A check aborted of which no one is told -/

section
variable (s : State)

theorem abortCheck_silent_kept :
    { s.abortCheck false with lines := s.lines, filters := s.filters, maint := s.maint } = s := by
  unfold State.abortCheck
  split
  · exact (endCheck_silent ..).1
  · rfl
  · rfl

theorem abortCheck_silent_maint (k : Check) :
    { (s.abortCheck false).maint with check := k } = { s.maint with check := k } := by
  unfold State.abortCheck
  split
  · exact congrArg (fun m : Maint => { m with check := k }) (endCheck_silent ..).2.1
  · rfl
  · rfl

theorem abortCheck_silent_line {n : LineId} (h : (s.line n).mode ≠ .test) :
    (s.abortCheck false).line n = s.line n ∧ (s.abortCheck false).filter n = s.filter n := by
  unfold State.abortCheck
  split
  · obtain ⟨-, -, restored⟩ := endCheck_silent ..
    exact (restored n).1 h
  · exact ⟨rfl, rfl⟩
  · exact ⟨rfl, rfl⟩

theorem abortCheck_silent_ended {c : Progress} (h : s.maint.check = .running c) :
    (s.abortCheck false).maint.check = .finished c.cutShort ∧ ∀ n, s.lineRestored c.requester n (s.abortCheck false) := by
  rw [abortCheck_running h]
  obtain ⟨-, maint, restored⟩ := endCheck_silent s c.requester ⟨.aborted, c.passed, c.completed, c.failure⟩
  exact ⟨congrArg (·.check) maint, restored⟩

end

/-! ## The claims on TB and MX -/

section
variable (x : State) (p : PortId)

theorem dropClaim_kept {r : ResourceId} (h : (x.claim r).holder = some p) :
    { x.dropClaim p r with claims := x.claims, ports := (x.clearFor r p .portReset).ports } = x.clearFor r p .portReset := by
  have greeted := greet_same ((x.clearFor r p .portReset).setClaim r ((x.claim r).next x.elapsed)) r (x.claim r).waiters
  have claims := (clearFor_cleared x r p .portReset).claims
  rw [dropClaim_held h, endClaim_passes h, ← claims]
  generalize State.greet _ _ _ = t at *
  generalize x.clearFor r p .portReset = u at *
  exact congrArg (fun z : State => { z with claims := u.claims }) greeted

theorem dropClaim_port {r : ResourceId} (h : (x.claim r).holder = some p) (q : PortId) : (x.dropClaim p r).port q =
    ((x.clearFor r p .portReset).greet r (x.claim r).waiters).port q := by
  rw [dropClaim_held h, endClaim_passes h]
  exact greet_port_congr (a := (x.clearFor r p .portReset).setClaim ..) (b := x.clearFor r p .portReset) rfl _ _

theorem clearFor_TB : x.clearFor resTB p .portReset = x := clearFor_other (.inl rfl) p .portReset

theorem clearFor_MX : x.clearFor resMX p .portReset = x.clearMX .portReset := clearFor_other (.inr rfl) p .portReset

theorem dropTB_kept : { x.dropClaim p resTB with claims := x.claims, ports := x.ports } = x := by
  by_cases h : (x.claim resTB).holder = some p
  · have kept := dropClaim_kept x p h
    rw [clearFor_TB] at kept
    exact kept
  · rw [dropClaim_notHeld h]

/-- The hub when a running check has been aborted because the claim of a port on MX ends. -/
def State.checkDropped : State := if x.holds p resMX then x.abortCheck false else x

theorem checkDropped_kept :
    { x.checkDropped p with lines := x.lines, filters := x.filters, maint := x.maint } = x := by
  unfold State.checkDropped
  split
  · exact abortCheck_silent_kept x
  · rfl

theorem checkDropped_maint (k : Check) :
    { (x.checkDropped p).maint with check := k } = { x.maint with check := k } := by
  unfold State.checkDropped
  split
  · exact abortCheck_silent_maint x k
  · rfl

theorem checkDropped_line {n : LineId} (h : (x.line n).mode ≠ .test) :
    (x.checkDropped p).line n = x.line n ∧ (x.checkDropped p).filter n = x.filter n := by
  unfold State.checkDropped
  split
  · exact abortCheck_silent_line x h
  · exact ⟨rfl, rfl⟩

variable {x p}

theorem checkDropped_still (h : (x.claim resMX).holder = some p → x.maint.check.isRunning = false) :
    x.checkDropped p = x := by
  unfold State.checkDropped
  split
  · rename_i held
    exact abortCheck_still (h ((holds_iff ..).1 held)) false
  · rfl

theorem checkDropped_held (h : (x.claim resMX).holder = some p) : x.checkDropped p = x.abortCheck false :=
  if_pos ((holds_iff ..).2 h)

theorem dropMX_run (h : (x.claim resMX).holder = some p) (m : x.maint.mode = .run) :
    x.clearFor resMX p .portReset = x.checkDropped p := by
  rw [clearFor_MX, clearMX_inRun m, checkDropped_held h]
  rfl

theorem dropMX_mode (m : x.maint.mode ≠ .run) (still : x.maint.check.isRunning = false) :
    x.clearFor resMX p .portReset = (x.checkDropped p).returnToRun .mxLost := by
  rw [clearFor_MX, clearMX_inMode m still, checkDropped_still fun _ => still]

theorem returnToRun_line (x : State) (reason : ExitReason) (n : LineId) :
    ∃ level, (x.returnToRun reason).line n = { x.line n with override := none, scheduled := level } := by
  obtain ⟨-, -, line, -⟩ := returnToRun_returned x reason
  have line := line n
  have cleared : (x.lines.map (fun l => { l with override := none }))[n.val] = { x.line n with override := none } :=
    Vector.getElem_map ..
  refine ⟨((x.returnToRun reason).line n).scheduled, ?_⟩
  generalize (x.returnToRun reason).line n = y at *
  exact congrArg (fun l : LineRec => { l with scheduled := y.scheduled }) (line.trans cleared)

/-- A line without override and out of TEST keeps its record, but for the level, when the claim on MX ends. -/
theorem clearMX_parked {n : LineId} (c : EndCause) (mode : (x.line n).mode ≠ .test)
    (override : (x.line n).override = none) :
    ∃ level, (x.clearMX c).line n = { x.line n with scheduled := level } := by
  by_cases m : x.maint.mode = .run
  · refine ⟨(x.line n).scheduled, ?_⟩
    rw [clearMX_inRun m, abortCheck_line _ _ _ mode]
  · obtain ⟨level, line⟩ := returnToRun_line x .mxLost n
    refine ⟨level, ?_⟩
    rw [State.clearMX, if_neg m, abortCheck_line _ _ _ (by rw [line]; exact mode), line, ← override]

end

/-! ## The new holders greeted, one after another -/

/-- The new holders of the resources of a list are greeted, a port's waits dropped (R30, R34). -/
def State.greetAll (s : State) (p : PortId) (l : List ResourceId) (x : State) : State :=
  l.foldl (fun x r => x.greet r (s.waitsWithout p r)) x

theorem greetAll_append (s : State) (p : PortId) (l k : List ResourceId) (x : State) :
    s.greetAll p (l ++ k) x = s.greetAll p k (s.greetAll p l x) := List.foldl_append ..

theorem greetAll_port_congr {a b : State} {q : PortId} (h : a.port q = b.port q) (s : State) (p : PortId)
    (l : List ResourceId) : (s.greetAll p l a).port q = (s.greetAll p l b).port q := by
  induction l generalizing a b with
  | nil => exact h
  | cons r l ih => exact ih (greet_port_congr h ..)

theorem greets_greetAll (s : State) (p : PortId) (l : List LineId) (x : State) :
    (s.dropWaits p).greets l x = s.greetAll p (l.map lineRes) x := by
  unfold State.greets State.greetAll
  simp only [List.foldl_map, dropWaits_waiters]

/-! ## The lines that a port holds -/

/-- The lines that a port holds, ascending. -/
def State.heldLines (s : State) (p : PortId) : List LineId := (s.dropWaits p).heldOf p allLines

theorem mem_heldLines (s : State) (p : PortId) (n : LineId) :
    n ∈ s.heldLines p ↔ (s.claim (lineRes n)).holder = some p := by
  unfold State.heldLines State.heldOf
  rw [List.mem_filter, beq_iff_eq, dropWaits_holder]
  exact and_iff_right (List.mem_finRange n)

/-- TB, where a port holds it. -/
def State.heldTB (s : State) (p : PortId) : List ResourceId :=
  if (s.claim resTB).holder = some p then [resTB] else []

theorem lineRes_ne_TB (n : LineId) : lineRes n ≠ resTB := fun e => by
  have := n.isLt
  exact absurd (show n.val = 16 from congrArg Fin.val e) (by omega)

theorem lineRes_ne_MX (n : LineId) : lineRes n ≠ resMX := fun e => by
  have := n.isLt
  exact absurd (show n.val = 17 from congrArg Fin.val e) (by omega)

/-- The claims of a port that end before that on MX. -/
theorem ended_eq (s : State) (p : PortId) :
    (List.finRange 18).filter (fun r => (s.claim r).holder == some p && r != resMX) =
      (s.heldLines p).map lineRes ++ s.heldTB p := by
  have order : List.finRange 18 = allLines.map lineRes ++ [resTB, resMX] := by decide
  rw [order, List.filter_append, List.filter_map]
  congr 1
  · refine congrArg (List.map lineRes) ?_
    unfold State.heldLines State.heldOf
    refine List.filter_congr fun n _ => ?_
    rw [dropWaits_holder]
    exact (congrArg _ (bne_iff_ne.2 (lineRes_ne_MX n))).trans (Bool.and_true _)
  · unfold State.heldTB
    by_cases h : (s.claim resTB).holder = some p
    · simp [h, show resTB ≠ resMX by decide]
    · simp [h]

theorem lineRes_injective : Function.Injective lineRes := fun _ _ h => Fin.ext (congrArg Fin.val h :)

/-- A split of the ended claims at a line is one of the lines. -/
theorem ended_split {s : State} {p : PortId} {n : LineId} {before after : List ResourceId}
    (h : (s.heldLines p).map lineRes ++ s.heldTB p = before ++ lineRes n :: after) :
    ∃ a b, s.heldLines p = a ++ n :: b ∧ before = a.map lineRes ∧ after = b.map lineRes ++ s.heldTB p := by
  have notTB : lineRes n ∉ s.heldTB p := by
    unfold State.heldTB
    split
    · exact fun k => lineRes_ne_TB n (List.mem_singleton.1 k)
    · exact List.not_mem_nil
  rcases List.append_eq_append_iff.1 h with ⟨c, rfl, tb⟩ | ⟨c, lines, rest⟩
  · exact absurd (tb ▸ List.mem_append_right c List.mem_cons_self) notTB
  · cases c with
    | nil => exact absurd ((show lineRes n :: after = s.heldTB p from rest) ▸ List.mem_cons_self) notTB
    | cons r c =>
      obtain ⟨rfl, rfl⟩ := List.cons.inj rest
      obtain ⟨a, b, split, rfl, tail⟩ := List.map_eq_append_iff.1 lines
      obtain ⟨m, b, rfl, m_eq, rfl⟩ := List.map_eq_cons_iff.1 tail
      obtain rfl := lineRes_injective m_eq
      exact ⟨a, b, split, rfl, rfl⟩

end Sys2Proof.Machine
end

section
/-! PROOFS. PORT_RESET as a whole: the claims on the lines, on TB and on MX, then the cells and the queue (R34, R178). -/

namespace Sys2Proof.Machine

/-! ## Between the claims on lines and TB and the claim on MX -/

/-- The entries that a port reset withdraws. -/
def Header.freedBy (s : State) (p : PortId) (h : Header) : Prop :=
  h.owner = p ∧ (s.claim (lineRes h.line)).holder = some p

/-- The check that a port reset aborts. -/
def State.stoppedBy (s : State) (p : PortId) (c : Progress) : Prop :=
  s.maint.check = .running c ∧ ((s.claim resMX).holder = some p ∨
    ∃ n, (s.claim (lineRes n)).holder = some p ∧ c.tested.getLsbD n.val = true)

/-- A hub with what the ends of claims reach put back. -/
def State.putBack (s u : State) : State := { u with
  claims := s.claims, pool := s.pool, lines := s.lines, filters := s.filters, maint := s.maint, ports := s.ports
  free := s.free }

/-- What a port reset has done when the claims on the lines and on TB have ended and a check is aborted. -/
structure PortCleared (s : State) (p : PortId) (u : State) : Prop where
  frame : s.putBack u = s
  slot : ∀ i, (∀ h, s.entry i = some h → h.freedBy s p → u.slot i = ⟨Body.free, [], none⟩) ∧
    ((∀ h, s.entry i = some h → ¬ h.freedBy s p) → u.slot i = s.slot i)
  cut : ∀ n, (s.claim (lineRes n)).holder = some p → (s.line n).mode ≠ .test →
    s.levelCut (Header.freedBy s p) n (u.line n).scheduled
  filter : ∀ a n b, s.heldLines p = a ++ n :: b →
    s.filterParked n ((s.line n).mode = .off ∨ s.restoredOff p a n) (u.filter n)
  unstopped : (∀ c, ¬ s.stoppedBy p c) → u.maint.check = s.maint.check ∧
    ∀ n, (s.claim (lineRes n)).holder ≠ some p → u.line n = s.line n ∧ u.filter n = s.filter n
  stopped : ∀ c, s.stoppedBy p c → u.maint.check = .finished c.cutShort ∧
    ∀ n, (s.claim (lineRes n)).holder ≠ some p → s.lineRestored c.requester n u
  quiet : s.drainsOn (Header.freedBy s p) → { u.maint with check := s.maint.check } = s.maint ∧
    ∀ q, q ≠ p → u.port q = (s.greetAll p ((s.heldLines p).map lineRes ++ s.heldTB p) s).port q
  direct : ¬ s.drainsOn (Header.freedBy s p) → (∃ i h, s.entry i = some h ∧ h.freedBy s p) →
    { u.maint with check := s.maint.check } = { s.maint with mode := .direct, drainDeadline := none }
  told : ¬ s.drainsOn (Header.freedBy s p) → ∀ a n b, s.heldLines p = a ++ n :: b →
    (∃ i h, s.entry i = some h ∧ h.freedBy s p ∧ h.line = n ∧ h.status.isPulse = true) →
    (∀ i h, s.entry i = some h → h.freedBy s p → h.line ∈ b → h.status.isPulse = false) → ∀ q, q ≠ p →
    u.port q = (s.greetAll p (lineRes n :: (b.map lineRes ++ s.heldTB p))
      ((s.greetAll p (a.map lineRes) s).nowDirect)).port q

theorem levelCut_congr {s : State} {f g : Header → Prop} {n : LineId} {level : Level}
    (fg : ∀ h, h.line = n → (f h ↔ g h)) (h : s.levelCut f n level) : s.levelCut g n level := by
  obtain ⟨uncut, cut⟩ := h
  have same (i : SlotId) (h : Header) : (s.entry i = some h ∧ g h ∧ h.line = n ∧ h.status.isPulse = true) ↔
      (s.entry i = some h ∧ f h ∧ h.line = n ∧ h.status.isPulse = true) :=
    ⟨fun ⟨e, k, l, q⟩ => ⟨e, (fg h l).2 k, l, q⟩, fun ⟨e, k, l, q⟩ => ⟨e, (fg h l).1 k, l, q⟩⟩
  exact ⟨fun no => uncut fun i h k => no i h ((same i h).2 k), fun i h k only =>
    cut i h ((same i h).1 k) fun j m l => only j m ((same j m).2 l)⟩

theorem lineRestored_of_dropWaits {s t : State} {p q : PortId} {n : LineId}
    (h : (s.dropWaits p).lineRestored q n t) : s.lineRestored q n t := by
  unfold State.lineRestored at h ⊢
  rw [dropWaits_holder] at h
  exact h

theorem greetAll_dropWaits_port (s : State) (p : PortId) (l : List ResourceId) (q : PortId) :
    (s.greetAll p l (s.dropWaits p)).port q = (s.greetAll p l s).port q :=
  greetAll_port_congr (a := s.dropWaits p) (b := s) rfl s p l

theorem freed_eq (s : State) (p : PortId) :
    (fun h : Header => h.owner = p ∧ h.line ∈ s.heldLines p) = Header.freedBy s p := by
  funext h
  exact propext (and_congr_right' (mem_heldLines s p h.line))

theorem dropTB_line (x : State) (p : PortId) (n : LineId) :
    (x.dropClaim p resTB).line n = x.line n ∧ (x.dropClaim p resTB).filter n = x.filter n :=
  ⟨congrArg (·.line n) (dropTB_kept x p), congrArg (·.filter n) (dropTB_kept x p)⟩

theorem cleared_maint (x : State) (p : PortId) (k : Check) :
    { ((x.dropClaim p resTB).checkDropped p).maint with check := k } = { x.maint with check := k } :=
  (checkDropped_maint _ p k).trans (congrArg (fun m : Maint => { m with check := k }) (congrArg (·.maint) (dropTB_kept x p)))

section
variable {s x : State} {p : PortId} (e : LinesEnded p (s.heldLines p) (s.dropWaits p) x)
include e

theorem linesEnded_claim_other {r : ResourceId} (h : ∀ n, (s.claim (lineRes n)).holder = some p → r ≠ lineRes n) :
    x.claim r = (s.dropWaits p).claim r := by
  rw [e.claim, if_neg]
  intro k
  obtain ⟨n, held, rfl⟩ := List.mem_map.1 k
  exact h n ((mem_heldLines s p n).1 held) rfl

theorem linesEnded_TB : (x.claim resTB).holder = (s.claim resTB).holder ∧
    (x.claim resTB).waiters = s.waitsWithout p resTB := by
  rw [linesEnded_claim_other e fun n _ => (lineRes_ne_TB n).symm, dropWaits_holder, dropWaits_waiters]
  exact ⟨rfl, rfl⟩

theorem dropTB_claim {r : ResourceId} (tb : r ≠ resTB) (h : ∀ n, (s.claim (lineRes n)).holder = some p → r ≠ lineRes n) :
    ((x.dropClaim p resTB).claim r).holder = (s.claim r).holder ∧
      ((x.dropClaim p resTB).claim r).waiters = s.waitsWithout p r := by
  rw [dropClaim_claim, if_neg fun k => tb k.1, linesEnded_claim_other e h, dropWaits_holder, dropWaits_waiters]
  exact ⟨rfl, rfl⟩

theorem dropTB_MX : ((x.dropClaim p resTB).claim resMX).holder = (s.claim resMX).holder ∧
    ((x.dropClaim p resTB).claim resMX).waiters = s.waitsWithout p resMX :=
  dropTB_claim e (by decide) fun n _ => (lineRes_ne_MX n).symm

theorem dropTB_port (q : PortId) : (x.dropClaim p resTB).port q = (s.greetAll p (s.heldTB p) x).port q := by
  obtain ⟨holder, waiters⟩ := linesEnded_TB e
  unfold State.heldTB
  rw [← holder]
  split
  · rename_i h
    rw [dropClaim_port x p h, clearFor_TB, waiters]
    rfl
  · rename_i h
    rw [dropClaim_notHeld h]
    rfl

/-- The lines of the port are in their park mode. -/
theorem dropTB_parked {n : LineId} (h : (s.claim (lineRes n)).holder = some p) :
    let l := (x.dropClaim p resTB).line n
    l.mode = (s.line n).park.mode ∧ l.override = none ∧ l.saved = none ∧ l.park = (s.line n).park ∧
      l.filterLen = (s.line n).filterLen := by
  intro l
  rw [show l = x.line n from (dropTB_line x p n).1]
  exact e.parked n ((mem_heldLines s p n).2 h)

theorem cleared_line {n : LineId} (h : (s.claim (lineRes n)).holder = some p) :
    ((x.dropClaim p resTB).checkDropped p).line n = x.line n ∧
      ((x.dropClaim p resTB).checkDropped p).filter n = x.filter n := by
  obtain ⟨mode, -⟩ := dropTB_parked e h
  obtain ⟨line, filter⟩ := checkDropped_line (x.dropClaim p resTB) p (by rw [mode]; exact parkMode_ne_test _)
  exact ⟨line.trans (dropTB_line x p n).1, filter.trans (dropTB_line x p n).2⟩

theorem cleared_unstopped (no : ∀ c, ¬ s.stoppedBy p c) :
    ((x.dropClaim p resTB).checkDropped p).maint.check = s.maint.check ∧
    ∀ n, (s.claim (lineRes n)).holder ≠ some p → ((x.dropClaim p resTB).checkDropped p).line n = s.line n ∧
      ((x.dropClaim p resTB).checkDropped p).filter n = s.filter n := by
  obtain ⟨check, lines⟩ := e.untested fun c ⟨running, n, held, tests⟩ =>
    no c ⟨running, .inr ⟨n, (mem_heldLines s p n).1 held, tests⟩⟩
  have kept : (x.dropClaim p resTB).maint = x.maint := congrArg (·.maint) (dropTB_kept x p)
  have still : (x.dropClaim p resTB).checkDropped p = x.dropClaim p resTB := by
    refine checkDropped_still fun held => ?_
    rw [(dropTB_MX e).1] at held
    rw [kept, check]
    exact isRunning_false fun c running => no c ⟨running, .inl held⟩
  rw [still]
  refine ⟨(congrArg (·.check) kept).trans check, fun n free => ?_⟩
  obtain ⟨line, filter⟩ := lines n fun held => free ((mem_heldLines s p n).1 held)
  obtain ⟨line', filter'⟩ := dropTB_line x p n
  exact ⟨line'.trans line, filter'.trans filter⟩

theorem cleared_stopped {c : Progress} (stop : s.stoppedBy p c) :
    ((x.dropClaim p resTB).checkDropped p).maint.check = .finished c.cutShort ∧
    ∀ n, (s.claim (lineRes n)).holder ≠ some p →
      s.lineRestored c.requester n ((x.dropClaim p resTB).checkDropped p) := by
  obtain ⟨running, why⟩ := stop
  have kept : (x.dropClaim p resTB).maint = x.maint := congrArg (·.maint) (dropTB_kept x p)
  by_cases tests : ∃ n ∈ s.heldLines p, c.tested.getLsbD n.val = true
  · obtain ⟨check, restored⟩ := e.tested c running tests
    have still : (x.dropClaim p resTB).checkDropped p = x.dropClaim p resTB :=
      checkDropped_still fun _ => by rw [kept, check]; rfl
    rw [still]
    refine ⟨(congrArg (·.check) kept).trans check, fun n free => ?_⟩
    have line := restored n fun held => free ((mem_heldLines s p n).1 held)
    exact lineRestored_congr (Prod.ext (dropTB_line x p n).1 (dropTB_line x p n).2) (lineRestored_of_dropWaits line)
  · have held : (s.claim resMX).holder = some p := why.resolve_right fun ⟨n, held, t⟩ =>
      tests ⟨n, (mem_heldLines s p n).2 held, t⟩
    obtain ⟨check, lines⟩ := e.untested fun d ⟨running', t⟩ => by
      cases running.symm.trans running'
      exact tests t
    rw [checkDropped_held (by rw [(dropTB_MX e).1]; exact held)]
    obtain ⟨ended, restored⟩ := abortCheck_silent_ended (x.dropClaim p resTB) (c := c)
      ((congrArg (·.check) kept).trans (check.trans running))
    refine ⟨ended, fun n free => ?_⟩
    obtain ⟨line, filter⟩ := lines n fun held => free ((mem_heldLines s p n).1 held)
    have own : ((x.dropClaim p resTB).claim (lineRes n)).holder = (s.claim (lineRes n)).holder :=
      (dropTB_claim e (lineRes_ne_TB n) fun m held eq => free (by rw [eq]; exact held)).1
    have line_restored := restored n
    unfold State.lineRestored at line_restored ⊢
    rw [(dropTB_line x p n).1, (dropTB_line x p n).2, line, filter, own] at line_restored
    exact line_restored

theorem cleared_port (q : PortId) :
    ((x.dropClaim p resTB).checkDropped p).port q = (s.greetAll p (s.heldTB p) x).port q :=
  Eq.trans (congrArg (·.port q) (checkDropped_kept (x.dropClaim p resTB) p)) (dropTB_port e q)

theorem portCleared : PortCleared s p ((x.dropClaim p resTB).checkDropped p) := by
  have tbKept := dropTB_kept x p
  have mxKept := checkDropped_kept (x.dropClaim p resTB) p
  have lines := fun n => cleared_line e (n := n)
  have ports := cleared_port e
  have maint := cleared_maint x p s.maint.check
  have unstopped := cleared_unstopped e
  have stopped := fun c => cleared_stopped e (c := c)
  have mem := mem_heldLines s p
  generalize (x.dropClaim p resTB).checkDropped p = u at *
  generalize x.dropClaim p resTB = y at *
  have slots (i : SlotId) : u.slot i = x.slot i := Eq.trans (congrArg (·.slot i) mxKept :) (congrArg (·.slot i) tbKept :)
  have quiet := e.quiet
  have direct := e.direct
  have told := e.told
  rw [freed_eq s p] at quiet direct told
  refine ⟨?_, fun i => ⟨fun h entry mine => ?_, fun no => ?_⟩, fun n held test => ?_, fun a n b split => ?_, unstopped,
    stopped, fun d => ?_, fun d some_ => maint.trans (direct d ?_), fun d a n b split pulse rest q hq => ?_⟩
  · have ofTB : s.putBack u = s.putBack y := (congrArg s.putBack mxKept :)
    have ofLines : s.putBack y = s.putBack x := (congrArg s.putBack tbKept :)
    exact ofTB.trans (ofLines.trans (congrArg s.putBack e.frame :))
  · exact (slots i).trans (e.freed i h entry mine.1 ((mem h.line).2 mine.2))
  · exact (slots i).trans (e.kept i fun h entry mine => no h entry ⟨mine.1, (mem h.line).1 mine.2⟩)
  · rw [(lines n held).1]
    refine levelCut_congr (fun h on => ?_) (e.cut n ((mem n).2 held) test)
    exact and_congr_right' ⟨fun _ => on ▸ held, fun _ => on⟩
  · have held : (s.claim (lineRes n)).holder = some p := (mem n).1 (split ▸ List.mem_append_right a List.mem_cons_self)
    rw [(lines n held).2]
    exact e.filter a n b split
  · obtain ⟨kept, greeted⟩ := quiet (.inl d)
    refine ⟨maint.trans kept, fun q hq => ?_⟩
    rw [ports, greetAll_append]
    refine greetAll_port_congr ((greeted q hq).trans ?_) ..
    rw [greets_greetAll]
    exact greetAll_dropWaits_port ..
  · obtain ⟨i, h, entry, own, held⟩ := some_
    exact ⟨i, h, entry, own, (mem h.line).2 held⟩
  · obtain ⟨i, h, entry, mine, on, inPulse⟩ := pulse
    have greeted := told d a n b split ⟨i, h, entry, ⟨mine.1, on⟩, inPulse⟩ (fun j k entry own later =>
      rest j k entry ⟨own, (mem k.line).1 (split ▸ List.mem_append_right a (List.mem_cons_of_mem n later))⟩ later) q hq
    rw [greets_greetAll, greets_greetAll] at greeted
    rw [ports, ← List.cons_append, greetAll_append]
    refine greetAll_port_congr (greeted.trans (greetAll_port_congr (nowDirect_port_congr ?_) ..)) ..
    exact greetAll_dropWaits_port ..

end

end Sys2Proof.Machine
end

section
/-! PROOFS. The claim on MX, the last that PORT_RESET ends, and the command as a whole (R32, R34, R131, R178). -/

namespace Sys2Proof.Machine

/-! ## The end of the claim on MX -/

section
variable {s x : State} {p : PortId} (e : LinesEnded p (s.heldLines p) (s.dropWaits p) x)

/-- A command that changes but claims and ports keeps what the statement compares. -/
theorem same_of_kept {z v : State} (kept : { z with claims := v.claims, ports := v.ports } = v) :
    z.pool = v.pool ∧ z.lines = v.lines ∧ z.filters = v.filters ∧ z.maint = v.maint ∧ z.integ = v.integ :=
  ⟨congrArg (·.pool) kept, congrArg (·.lines) kept, congrArg (·.filters) kept, congrArg (·.maint) kept,
    congrArg (·.integ) kept⟩

theorem dropMX_kept {y v : State} (held : (y.claim resMX).holder = some p) (clear : y.clearFor resMX p .portReset = v) :
    { y.dropClaim p resMX with claims := v.claims, ports := v.ports } = v := by
  have kept := dropClaim_kept y p held
  rw [clear] at kept
  have claims : v.claims = y.claims := clear ▸ (clearFor_cleared y resMX p .portReset).claims
  rw [claims]
  exact kept

include e

theorem dropTB_mode : (x.dropClaim p resTB).maint.mode = .run ↔ s.maint.mode = .run := by
  have tb : (x.dropClaim p resTB).maint = x.maint := congrArg (·.maint) (dropTB_kept x p)
  rw [tb]
  by_cases d : s.drainsOn (Header.freedBy s p) ∨ ∀ i h, s.entry i = some h → ¬ h.freedBy s p
  · have quiet := e.quiet
    rw [freed_eq s p] at quiet
    have kept := (quiet (d.imp_right fun no i h entry mine => no i h entry ⟨mine.1, (mem_heldLines s p h.line).1 mine.2⟩)).1
    rw [show x.maint.mode = s.maint.mode from (congrArg (·.mode) kept :)]
  · obtain ⟨drains, some_⟩ := not_or.1 d
    have direct := e.direct
    rw [freed_eq s p] at direct
    have mode : x.maint.mode = .direct := by
      refine (congrArg (·.mode) (direct drains ?_) :)
      by_contra none_
      exact some_ fun i h entry mine => none_ ⟨i, h, entry, mine.1, (mem_heldLines s p h.line).2 mine.2⟩
    have draining : s.maint.mode = .draining := by
      by_contra no
      exact drains fun m => absurd m no
    rw [mode, draining]
    exact ⟨nofun, nofun⟩

/-- The claim on MX ends, or there is none: what it clears, and the new holder greeted. -/
theorem dropMX_port (held : (s.claim resMX).holder = some p) {v : State}
    (clear : (x.dropClaim p resTB).clearFor resMX p .portReset = v) (q : PortId) :
    ((x.dropClaim p resTB).dropClaim p resMX).port q = (v.greet resMX (s.waitsWithout p resMX)).port q := by
  obtain ⟨holder, waiters⟩ := dropTB_MX e
  rw [dropClaim_port _ p (holder.trans held), clear, waiters]

theorem dropMX_none (free : (s.claim resMX).holder ≠ some p) :
    (x.dropClaim p resTB).dropClaim p resMX = (x.dropClaim p resTB).checkDropped p := by
  have free : ((x.dropClaim p resTB).claim resMX).holder ≠ some p := by
    rw [(dropTB_MX e).1]
    exact free
  rw [dropClaim_notHeld free, checkDropped_still fun held => absurd held free]

theorem dropMX_inRun (held : (s.claim resMX).holder = some p) (m : s.maint.mode = .run) :
    (x.dropClaim p resTB).clearFor resMX p .portReset = (x.dropClaim p resTB).checkDropped p :=
  dropMX_run ((dropTB_MX e).1.trans held) ((dropTB_mode e).2 m)

theorem dropMX_inMode (lawful : s.modeLawful) (m : s.maint.mode ≠ .run) :
    (x.dropClaim p resTB).clearFor resMX p .portReset =
      ((x.dropClaim p resTB).checkDropped p).returnToRun .mxLost := by
  obtain ⟨-, still⟩ := lawful m
  have kept : (x.dropClaim p resTB).maint = x.maint := congrArg (·.maint) (dropTB_kept x p)
  obtain ⟨check, -⟩ := e.untested fun c ⟨running, _⟩ => by
    have running : s.maint.check = .running c := running
    rw [running] at still
    cases still
  refine dropMX_mode (fun k => m ((dropTB_mode e).1 k)) ?_
  rw [kept, check]
  exact still

/-- In RUN nothing is drained or fired, so that no counter of errors moves. -/
theorem dropMX_integ (m : s.maint.mode = .run) : ((x.dropClaim p resTB).dropClaim p resMX).integ = s.integ := by
  have cleared : ((x.dropClaim p resTB).checkDropped p).integ = s.integ := congrArg (·.integ) (portCleared e).frame
  by_cases held : (s.claim resMX).holder = some p
  · have kept := dropMX_kept ((dropTB_MX e).1.trans held) (dropMX_inRun e held m)
    exact Eq.trans (congrArg (·.integ) kept :) cleared
  · rw [dropMX_none e held]
    exact cleared

theorem dropMX_line {n : LineId} (h : (s.claim (lineRes n)).holder = some p) :
    let l := ((x.dropClaim p resTB).dropClaim p resMX).line n
    l.mode = (s.line n).park.mode ∧ l.override = none ∧ l.saved = none ∧ l.park = (s.line n).park ∧
      l.filterLen = (s.line n).filterLen := by
  obtain ⟨mode, override, saved, park, filterLen⟩ := dropTB_parked e h
  intro l
  have line : ∃ level, l = { (x.dropClaim p resTB).line n with scheduled := level } := by
    by_cases held : ((x.dropClaim p resTB).claim resMX).holder = some p
    · have kept := dropMX_kept held (clearFor_MX ..)
      obtain ⟨level, line⟩ := clearMX_parked .portReset (x := x.dropClaim p resTB) (n := n)
        (by rw [mode]; exact parkMode_ne_test _) override
      exact ⟨level, Eq.trans (congrArg (·.line n) kept :) line⟩
    · refine ⟨((x.dropClaim p resTB).line n).scheduled, ?_⟩
      rw [show l = (x.dropClaim p resTB).line n from congrArg (·.line n) (dropClaim_notHeld held)]
  obtain ⟨level, line⟩ := line
  rw [line]
  exact ⟨mode, override, saved, park, filterLen⟩

theorem dropMX_modeRun (held : (s.claim resMX).holder = some p) :
    ((x.dropClaim p resTB).dropClaim p resMX).maint.mode = .run := by
  have kept := dropMX_kept ((dropTB_MX e).1.trans held) (clearFor_MX ..)
  exact Eq.trans (congrArg (·.maint.mode) kept :) (clearMX_mode ..)

end

/-- No entry of a port is left when all its claims have ended. -/
theorem dropClaims_entry {s : State} {p : PortId} (lawful : s.entriesLawful) {i : SlotId} {h : Header}
    (e : (s.dropClaims p).entry i = some h) : h.owner ≠ p := by
  have holds := ((dropClaims_entriesLawful (p := p) lawful).1 i h e).1
  have holder := (holds_iff ..).1 holds
  rintro rfl
  exact (dropClaims_left s h.owner (lineRes h.line)).1 holder

end Sys2Proof.Machine
end

section
/-! PROOFS. PORT_RESET, field by field (R178). -/

namespace Sys2Proof.Machine

/-! ## All claims ended -/

section
variable (s : State) (p : PortId)

/-- What the end of the claim on MX makes of a hub whose other claims have ended. -/
structure MxEnded (u z : State) : Prop where
  free : (s.claim resMX).holder ≠ some p → z = u
  inRun : (s.claim resMX).holder = some p → s.maint.mode = .run → { z with claims := u.claims, ports := u.ports } = u ∧
    ∀ q, z.port q = (u.greet resMX (s.waitsWithout p resMX)).port q
  inMode : s.modeLawful → (s.claim resMX).holder = some p → s.maint.mode ≠ .run → ∃ v : State, u.returned .mxLost v ∧
    { z with claims := v.claims, ports := v.ports } = v ∧
    ∀ q, z.port q = (v.greet resMX (s.waitsWithout p resMX)).port q

theorem dropClaims_split : ∃ x, LinesEnded p (s.heldLines p) (s.dropWaits p) x ∧
    s.dropClaims p = (x.dropClaim p resTB).dropClaim p resMX := dropClaims_lines s p

theorem dropClaims_stages : ∃ u, PortCleared s p u ∧ MxEnded s p u (s.dropClaims p) := by
  obtain ⟨x, e, drop⟩ := dropClaims_split s p
  have holder := (dropTB_MX e).1
  refine ⟨(x.dropClaim p resTB).checkDropped p, portCleared e, fun free => ?_, fun held m => ?_, fun lawful held m => ?_⟩
  · exact drop.trans (dropMX_none e free)
  · rw [drop]
    exact ⟨dropMX_kept (holder.trans held) (dropMX_inRun e held m), dropMX_port e held (dropMX_inRun e held m)⟩
  · rw [drop]
    exact ⟨_, returnToRun_returned .., dropMX_kept (holder.trans held) (dropMX_inMode e lawful m),
      dropMX_port e held (dropMX_inMode e lawful m)⟩

theorem dropClaims_line {n : LineId} (h : (s.claim (lineRes n)).holder = some p) :
    let l := (s.dropClaims p).line n
    l.mode = (s.line n).park.mode ∧ l.override = none ∧ l.saved = none ∧ l.park = (s.line n).park ∧
      l.filterLen = (s.line n).filterLen := by
  obtain ⟨x, e, drop⟩ := dropClaims_split s p
  rw [drop]
  exact dropMX_line e h

theorem dropClaims_integ (m : s.maint.mode = .run) : (s.dropClaims p).integ = s.integ := by
  obtain ⟨x, e, drop⟩ := dropClaims_split s p
  rw [drop]
  exact dropMX_integ e m

theorem dropClaims_run (held : (s.claim resMX).holder = some p) : (s.dropClaims p).maint.mode = .run := by
  obtain ⟨x, e, drop⟩ := dropClaims_split s p
  rw [drop]
  exact dropMX_modeRun e held

end

/-! ## The command -/

/-- Settles O48: what ends with the claims (`dropClaims_stages`), then the cells and the queue (`closePort`). -/
theorem portReset : Obligations.PortReset := by
  intro p s hs holds waits greets ended mine stopped
  obtain ⟨u, cleared, mx⟩ := dropClaims_stages s p
  have dropped := dropClaims_dropped s p
  have claim := dropClaims_claim s p
  have left := dropClaims_left s p
  have entry : s.entriesLawful → ∀ i h, (s.dropClaims p).entry i = some h → h.owner ≠ p := fun lawful _ _ =>
    dropClaims_entry lawful
  have unclaimed := dropClaims_none s p
  have line := fun n => dropClaims_line s p (n := n)
  have integ := dropClaims_integ s p
  have run := dropClaims_run s p
  have answer : exec (.portReset p) s = .next (((s.dropClaims p).closePort p).answered p [0x01]) := by
    have answers := take_answers hs (portResetBody_eq p s)
    generalize (s.dropClaims p).closePort p = t at answers ⊢
    exact congrArg Host.Outcome.next answers
  have endedLines : ended = (s.heldLines p).map lineRes ++ s.heldTB p := ended_eq s p
  generalize s.dropClaims p = z at *
  have cell := closePort_cell z p
  have other := fun q => closePort_other z p (q := q)
  refine ⟨z.closePort p, answer, left, fun r => ⟨fun h => (claim r).trans (if_pos h), fun h => (claim r).trans (if_neg h)⟩,
    fun l => (cell p l).trans (if_pos rfl), fun q l hq => ?_, entry, line, closePort_own z p dropped, dropped.tb,
    dropped.link, dropped.store, dropped.storeBusy, dropped.loaded, integ, fun no => ⟨?_, fun q hq => ?_, fun r => ?_⟩,
    run, fun lawful => ⟨u, cleared.frame, cleared.slot, cleared.cut, fun before n after split => ?_, fun n free => ?_,
      fun no => (cleared.unstopped no).1, fun c stop => (cleared.stopped c stop).1, fun d => ?_, cleared.direct,
      fun d before n after split pulse rest q hq => ?_, fun free => ?_, fun held m => ?_, fun held m => ?_⟩⟩
  · refine ((cell q l).trans (if_neg hq.symm)).trans ?_
    exact congrArg (fun x : Vector (Vector EdgeSel 32) 4 => x[q.val][l.val]) dropped.subs
  · rw [unclaimed no]
    rfl
  · rw [other q hq, unclaimed no]
    rfl
  · exact (claim r).trans (if_neg (no r))
  · intro restoredOff
    obtain ⟨a, b, lines, rfl, -⟩ := ended_split (endedLines.symm.trans split)
    have same : restoredOff ↔ s.restoredOff p a n := and_congr_right' <| and_congr_right' <| exists_congr fun c =>
      and_congr_right' <| and_congr_right' <| exists_congr fun m =>
        and_congr_left' (List.mem_map_of_injective lineRes_injective)
    rw [same]
    exact cleared.filter a n b lines
  · exact ⟨fun no => (cleared.unstopped no).2 n free, fun c stop => (cleared.stopped c stop).2 n free⟩
  · obtain ⟨maint, ports⟩ := cleared.quiet d
    rw [endedLines]
    exact ⟨maint, ports⟩
  · obtain ⟨a, b, lines, rfl, rfl⟩ := ended_split (endedLines.symm.trans split)
    exact cleared.told d a n b lines pulse (fun i h e k later => rest i h e k
      (List.mem_append_left _ (List.mem_map_of_mem later))) q hq
  · obtain rfl := mx.free free
    exact ⟨⟨rfl, rfl, rfl, rfl, rfl⟩, other⟩
  · obtain ⟨kept, port⟩ := mx.inRun held m
    exact ⟨same_of_kept (z := z) kept, fun q hq => (other q hq).trans (port q)⟩
  · obtain ⟨v, returned, kept, port⟩ := mx.inMode lawful held m
    exact ⟨v, returned, same_of_kept (z := z) kept, fun q hq => (other q hq).trans (port q)⟩

end Sys2Proof.Machine
end
